-- ==== Sys2Proof/Word.lean ====
section
/-! DEFINITION. The one word type of the model: the byte that both serial ports carry. Money, energy, times and
counts are whole numbers in the spec's conventions (00_scope.md, Conventions), so they are natural numbers here. -/

namespace Sys2Proof

/-- One byte of a frame, a payload or a layout (R173, R191). -/
abbrev Byte := BitVec 8

end Sys2Proof
end

