-- ==== Sys2Proof/Syntax.lean ====
section
/-! DEFINITION. The commands the block takes: one constructor of `Instr` for each row of spec/opcode_table.json,
with the operands that the world outside the block supplies with the event. What a command finds inside the block
(the payload of a request in progress, a waiting code, a handed event) is state, and no operand. -/

namespace Sys2Proof.Machine

/-- The two ports (00_scope.md, The two masters). -/
inductive Port where
  /-- The synchronous slave port of the meter controller. -/
  | a
  /-- The asynchronous port of the network module. -/
  | l
  deriving DecidableEq, Repr

/-- The three phases, and with them the pulse lines and the load-side sense lines (00_scope.md, Phases). -/
inductive Phase where
  | l1
  | l2
  | l3
  deriving DecidableEq, Repr

/-- The five tamper kinds of R137, in the order of their numbers 1 to 5. -/
inductive TamperKind where
  | mainCover
  | terminalCover
  | magnetic
  | reverseFlow
  | loadSideVoltage
  deriving DecidableEq, Repr

/-- The five kinds of hold of R98. -/
inductive HoldKind where
  | credit
  | remote
  | tamper
  | load
  | trip
  deriving DecidableEq, Repr

/-- The two kinds of pulse line of R49. -/
inductive PulseDirection where
  /-- IMP1 to IMP3. -/
  | imp
  /-- EXP1 to EXP3. -/
  | exp
  deriving DecidableEq, Repr

/-- One reading of the load-side sense lines LSV1 to LSV3: true where the line shows voltage present (R127). -/
structure Sense where
  l1 : Bool
  l2 : Bool
  l3 : Bool
  deriving DecidableEq, Repr

/-- The reading in which no line shows voltage. -/
def Sense.absent : Sense := ⟨false, false, false⟩

/-- The port states (R174). -/
inductive PortPhase where
  | idle
  | working
  | ready
  deriving DecidableEq, Repr

end Sys2Proof.Machine

namespace Sys2Proof

open Sys2Proof.Machine

/-- The commands: one constructor per row of spec/opcode_table.json, in the table's order. -/
inductive Instr where
  /-- L_PORT_FRAME (R177): the bytes that come back to back and complete the frame being received; with nothing
  received before, the whole frame from its marker. -/
  | lPortFrame (bytes : List Byte)
  /-- L_PORT_GAP (R177). -/
  | lPortGap
  /-- L_PORT_BREAK (R179). -/
  | lPortBreak
  /-- L_PORT_FRAME_SENT (R178). -/
  | lPortFrameSent
  /-- A_PORT_REQUEST_TRANSACTION (R180): the port state when CS_N was asserted, which the state byte tells, and every
  byte the meter controller sent, from the first. -/
  | aPortRequestTransaction (begun : PortPhase) (bytes : List Byte)
  /-- A_PORT_READ_TRANSACTION (R181): the port state when CS_N was asserted, and how many bytes were clocked out after
  the state byte. -/
  | aPortReadTransaction (begun : PortPhase) (clocked : Nat)
  /-- STATUS (R184). -/
  | status (port : Port)
  /-- READ_NOTICES (R188). -/
  | readNotices (port : Port)
  /-- PORT_CLEAR (R182). -/
  | portClear (port : Port)
  /-- SNAPSHOT (R25). -/
  | snapshot (port : Port)
  /-- READ_JOURNAL (R170). -/
  | readJournal (port : Port)
  /-- RELEASE_JOURNAL (R169). -/
  | releaseJournal (port : Port)
  /-- SUBMIT_CODE (R70). -/
  | submitCode (port : Port)
  /-- READ_FIRST_REFUSAL (R89). -/
  | readFirstRefusal (port : Port)
  /-- CLEAR_FIRST_REFUSAL (R89). -/
  | clearFirstRefusal (port : Port)
  /-- CREDIT (R9). -/
  | credit
  /-- EMERGENCY_LIMIT (R12). -/
  | emergencyLimit
  /-- DEBT_SET (R13). -/
  | debtSet
  /-- BAND_PRICE (R42). -/
  | bandPrice
  /-- SERVICE (R149). -/
  | service
  /-- TAMPER_CLEAR (R82). -/
  | tamperClear
  /-- RECONNECT (R83). -/
  | reconnect
  /-- LOCKOUT_EXPIRY (R86). -/
  | lockoutExpiry (port : Port)
  /-- PENDING_HALF_LAPSE (R93). -/
  | pendingHalfLapse
  /-- CODE_UNIT_CLOCK_SET (R87). -/
  | codeUnitClockSet
  /-- READ_TARIFF (R41). -/
  | readTariff (port : Port)
  /-- READ_TAMPER (R148). -/
  | readTamper (port : Port)
  /-- READ_SETTING (R200). -/
  | readSetting (port : Port)
  /-- PRESS (R121), taken at the A-port. -/
  | press
  /-- ACCEPT_EMERGENCY (R17), taken at the A-port. -/
  | acceptEmergency
  /-- SET_CLOCK (R32), taken at the L-port. -/
  | setClock
  /-- REMOTE_OPEN (R102), taken at the L-port. -/
  | remoteOpen
  /-- REMOTE_CONNECT (R103), taken at the L-port. -/
  | remoteConnect
  /-- STAGE_TARIFF (R38), taken at the L-port. -/
  | stageTariff
  /-- CANCEL_TARIFF (R40), taken at the L-port. -/
  | cancelTariff
  /-- SET_DEBT (R14), taken at the L-port. -/
  | setDebt
  /-- CLEAR_TAMPER (R147). -/
  | clearTamper (port : Port)
  /-- CLEAR_TRIP (R107). -/
  | clearTrip (port : Port)
  /-- CONTACTOR_RETRY (R133). -/
  | contactorRetry (port : Port)
  /-- WRITE_SETTING (R197). -/
  | writeSetting (port : Port)
  /-- ACCOUNT_SETTING_CHANGE (R22). -/
  | accountSettingChange (port : Port)
  /-- TAMPER_SETTING_CHANGE (R144). -/
  | tamperSettingChange (port : Port)
  /-- CLOSE_SERVICE (R152). -/
  | closeService (port : Port)
  /-- WRITE_STORED (R2). -/
  | writeStored
  /-- CLOCK_ADVANCE (R27): the end of one second. -/
  | clockAdvance
  /-- MINUTE_END (R56): whether the clock and tariff unit re-evaluates the friendly window state before the pulse
  input unit reads it; R60 gives the outcome of both orders and leaves the order open. -/
  | minuteEnd (windowFirst : Bool)
  /-- HOUR_END (R54). -/
  | hourEnd
  /-- MIDNIGHT (R46). -/
  | midnight
  /-- TARIFF_ACTIVATION (R39). -/
  | tariffActivation
  /-- DAY_CLOSE (R15). -/
  | dayClose
  /-- FRIENDLY_WINDOW_EDGE (R110). -/
  | friendlyWindowEdge
  /-- ARREARS_CEILING_REACHED (R111). -/
  | arrearsCeilingReached
  /-- DEMAND_OVER_LIMIT (R105). -/
  | demandOverLimit
  /-- IMPORT_PULSE (R50): a line IMP1 to IMP3 active for its 2 ms. -/
  | importPulse (phase : Phase)
  /-- EXPORT_PULSE (R53): a line EXP1 to EXP3 active for its 2 ms. -/
  | exportPulse (phase : Phase)
  /-- PULSE_LINE_RESTING (R49): a line inactive for its 2 ms. -/
  | pulseLineResting (direction : PulseDirection) (phase : Phase)
  /-- ENERGY_QUANTUM (R8). -/
  | energyQuantum
  /-- PULSES_WHILE_OPEN (R131). -/
  | pulsesWhileOpen
  /-- GRACE_DEADLINE (R109): the hold whose grace deadline is reached. -/
  | graceDeadline (kind : HoldKind)
  /-- RESTORE_TIME (R105). -/
  | restoreTime
  /-- ARM_DEADLINE (R119). -/
  | armDeadline
  /-- SERVICE_WINDOW_EXPIRY (R151). -/
  | serviceWindowExpiry
  /-- SUPPLY_CLOCK_SET (R112). -/
  | supplyClockSet
  /-- TAMPER_CLOCK_SET (R153). -/
  | tamperClockSet
  /-- LOADHI_CHANGE (R109): the level LOADHI passes to. -/
  | loadhiChange (asserted : Bool)
  /-- LOADX_CHANGE (R115): the level LOADX passes to. -/
  | loadxChange (asserted : Bool)
  /-- THERM_ACTIVE (R106). -/
  | thermActive
  /-- THERM_INACTIVE (R106). -/
  | thermInactive
  /-- BUTTON_PRESS (R120). -/
  | buttonPress
  /-- BUTTON_RELEASE (R120). -/
  | buttonRelease
  /-- DRIVE_PULSE_END (R126). -/
  | drivePulseEnd
  /-- DRIVE_SETTLE_END (R127): the sense lines as they stand at the end of the settle time. -/
  | driveSettleEnd (sense : Sense)
  /-- VOLTAGE_WATCH_EXPIRY (R134): the sense lines as they stand when the watch's 5 s have run on their reading; written
  with no operand, no line shows voltage. -/
  | voltageWatchExpiry (sense : Sense := .absent)
  /-- TAMPER_INPUT_ACTIVE (R141): a kind's input has been active for its debounce period. -/
  | tamperInputActive (kind : TamperKind)
  /-- TAMPER_INPUT_INACTIVE (R142): a kind's input has been inactive for its debounce period. -/
  | tamperInputInactive (kind : TamperKind)
  /-- OUTAGE_COVER_WATCH (R154): MCOV has been active (the cover open) or inactive for the watch's 1 s. -/
  | outageCoverWatch (coverOpen : Bool)
  /-- POWER_FAIL_WARNING (R201): whether VDD keeps its operating level for the writes that are still to be stored, or falls
  before any of them is; a fall between two of them is BROWN_OUT. -/
  | powerFailWarning (heldUp : Bool)
  /-- EXTERNAL_RESET (R203): RST_N asserting. -/
  | externalReset
  /-- BROWN_OUT (R203): VDD falls; after a taken warning, sooner than R201 allows. -/
  | brownOut
  /-- START_UP (R205): the levels of LOADHI and LOADX as start-up samples them, and the sense lines as they stand at the
  contactor check of its last step (R136). -/
  | startUp (loadhi : Bool) (loadx : Bool) (sense : Sense)
  /-- L_PORT_BYTE_RECEIVED (R177): one byte received. -/
  | lPortByteReceived (byte : Byte)
  /-- RETENTION_DOMAIN_LOSS (R202). -/
  | retentionDomainLoss
  deriving DecidableEq, Repr

end Sys2Proof
end

