-- ==== Sys2Proof/WellFormed.lean ====
section
/-! DEFINITION. Which commands are well formed: the conditions the spec puts on a command's own operands. A command
that is not well formed still has a meaning (nothing of it takes place); the check says which operands the event it
names can come with. -/

namespace Sys2Proof

/-- The longest request frame: the marker, the length, the request code, 56 payload bytes and two CRC bytes (R173). -/
def maxRequestFrame : Nat := 61

/-- The byte that opens a request frame and a request transaction (R173, R180). -/
def requestMarker : Byte := 0xA5

/-- The operands of a command are ones its event can come with: the bytes that complete a frame are at least one and
no more than the longest frame (R173), a request transaction begins with A5h (R180), and only a CREDIT or a REMOTE
hold has a grace deadline (R98). -/
def Instr.wellFormed : Instr → Bool
  | .lPortFrame bytes => 1 ≤ bytes.length && bytes.length ≤ maxRequestFrame
  | .aPortRequestTransaction _ bytes => bytes.head? == some requestMarker
  | .graceDeadline kind => kind == .credit || kind == .remote
  | _ => true

end Sys2Proof
end

