-- ==== Sys2Proof/Decode.lean ====
section
/-! DEFINITION. The command that a word spells by the bits of spec/opcode_table.json. No row of the table gives bits:
the block's commands are events at its pins and in its blocks, and none of them is a word. -/

namespace Sys2Proof

/-- A row of the opcode table that gives bits: how many, which of them are fixed, their values, and the command that a
word of the row stands for. -/
structure TableRow where
  nbits : Nat
  mask : Nat
  fixed : Nat
  command : Nat → Instr

/-- The rows of the opcode table that give bits: none. -/
def tableRows : List TableRow := []

/-- A word of `nbits` bits is one of a row's: of its length, with its fixed bits. -/
def TableRow.spells (r : TableRow) (nbits w : Nat) : Bool := r.nbits == nbits && w &&& r.mask == r.fixed

/-- The command that a word spells by the table's bits; none, for no row gives bits. -/
def decodeTableWord (nbits w : Nat) : Option Instr :=
  (tableRows.find? (fun r => r.spells nbits w)).map (fun r => r.command w)

end Sys2Proof
end

