-- ==== Sys2Proof/Config.lean ====
section
/-! DEFINITION. What the spec leaves open. Each constant below has no body: no proof can see its value, so whatever is
proved holds for every value. The model uses them only where the spec states no value (notes/assumptions). -/

namespace Sys2Proof.Config

/-- Whether a write that was being stored when the part stopped is found stored (R2: the store holds the record
'either as it was before that event or as it was after it'). Applied to the state's counter of free choices. -/
opaque writeSurvives : Nat → Bool

/-- What the friendly window state reads as between the beginning of start-up and step 13, which first computes it
(R44, R205). Applied to the state's counter of free choices. -/
opaque windowBeforeFirstEvaluation : Nat → Bool

/-- The deadline that stands for a sum beyond the clock's largest value where the rule states no holding at
4,294,967,295 (R110, R111, R117). Applied to the sum. -/
opaque deadlineBeyondClock : Nat → BitVec 32

/-- The seconds a TAMPER_ENDED record carries when the kind's time detected does not lie at or before the clock (R142
states none). Applied to the time detected and the clock. -/
opaque spanNotForward : Nat → Nat → BitVec 32

/-- The policy in force that a verified open with an empty list arms by when no policy is in force (R116 states none).
Applied to the state's counter: 0 AUTO, 1 PRESS, and any other value PRESS_WITHIN that many minutes less one. -/
opaque policyWhenNone : Nat → BitVec 8

/-- The status a PRESS is answered with in the case that the table of R121 has no row for. Applied to the state's
counter of free choices. -/
opaque pressStatusUnlisted : Nat → BitVec 8

end Sys2Proof.Config
end

