-- ==== Sys2Proof/Machine/Types.lean ====
section
/-! DEFINITION. The kinds of data the block's state is made of: the spec's enumerations, the records of the journal,
the results of meter codes, the tariff sets and the settings. -/

namespace Sys2Proof.Machine

/-! ## Tables by port, by phase and by tamper kind -/

/-- One value for each port. -/
structure PerPort (α : Type) where
  a : α
  l : α
  deriving DecidableEq, Repr

/-- The value of one port. -/
def PerPort.get {α : Type} (t : PerPort α) : Port → α
  | .a => t.a
  | .l => t.l

/-- The table with one port's value replaced. -/
def PerPort.set {α : Type} (t : PerPort α) (p : Port) (x : α) : PerPort α :=
  match p with
  | .a => { t with a := x }
  | .l => { t with l := x }

/-- One value for each phase. -/
structure PerPhase (α : Type) where
  l1 : α
  l2 : α
  l3 : α
  deriving DecidableEq, Repr

/-- The value of one phase. -/
def PerPhase.get {α : Type} (t : PerPhase α) : Phase → α
  | .l1 => t.l1
  | .l2 => t.l2
  | .l3 => t.l3

/-- The table with one phase's value replaced. -/
def PerPhase.set {α : Type} (t : PerPhase α) (p : Phase) (x : α) : PerPhase α :=
  match p with
  | .l1 => { t with l1 := x }
  | .l2 => { t with l2 := x }
  | .l3 => { t with l3 := x }

/-- One value for each tamper kind. -/
structure PerKind (α : Type) where
  mainCover : α
  terminalCover : α
  magnetic : α
  reverseFlow : α
  loadSideVoltage : α
  deriving DecidableEq, Repr

/-- The value of one tamper kind. -/
def PerKind.get {α : Type} (t : PerKind α) : TamperKind → α
  | .mainCover => t.mainCover
  | .terminalCover => t.terminalCover
  | .magnetic => t.magnetic
  | .reverseFlow => t.reverseFlow
  | .loadSideVoltage => t.loadSideVoltage

/-- The table with one tamper kind's value replaced. -/
def PerKind.set {α : Type} (t : PerKind α) (k : TamperKind) (x : α) : PerKind α :=
  match k with
  | .mainCover => { t with mainCover := x }
  | .terminalCover => { t with terminalCover := x }
  | .magnetic => { t with magnetic := x }
  | .reverseFlow => { t with reverseFlow := x }
  | .loadSideVoltage => { t with loadSideVoltage := x }

/-! ## Requests, statuses and notices -/

/-- The requests of the catalogue (R183). -/
inductive RequestCode where
  | status | snapshot | readNotices | readJournal | releaseJournal | submitCode | readFirstRefusal
  | clearFirstRefusal | readTariff | readTamper | readSetting | portClear | press | acceptEmergency | setClock
  | remoteOpen | remoteConnect | stageTariff | cancelTariff | setDebt | clearTamper | clearTrip | contactorRetry
  | writeSetting | closeService
  deriving DecidableEq, Repr

/-- The statuses of a response (R192). -/
inductive Status where
  | ok | busy | frameCheck | unknown | wrongGroup | length | range | journalFull | notHeld | notAvailable | clockStep
  | stillActive | noFault | held | lapsed | noAction | fault | format | locked | check | kind | used | old | value
  | overflow | pair
  deriving DecidableEq, Repr

/-- The thirteen notice kinds (R185). -/
inductive NoticeKind where
  | powerUp | creditLow | creditExhausted | creditChanged | supplyChanged | armed | tamper | journalLow | journalFull
  | tariffChanged | clockChanged | contactorFault | keyChanged
  deriving DecidableEq, Repr

/-- One notice of a port's notice set: its kind and the clock at its latest raise (R186). -/
structure Notice where
  kind : NoticeKind
  time : Nat
  deriving DecidableEq, Repr

/-- A response or refusal frame in a slot: the request code as received, the status and the payload (R173). -/
structure Frame where
  code : Byte
  status : Byte
  payload : List Byte
  deriving DecidableEq, Repr

/-! ## The account -/

/-- Where main credit last stood against the low-credit threshold (R21). -/
inductive LowCredit where
  | above
  | atOrBelow
  deriving DecidableEq, Repr

/-- The credit account record (R1). -/
structure Account where
  /-- C, main credit. -/
  credit : Nat
  /-- Emergency credit has been accepted and has not ended. -/
  emergencyActive : Bool
  /-- E, emergency credit drawn since it was accepted. -/
  emergencyUsed : Nat
  /-- L_e, how far E may be drawn. -/
  emergencyLimit : Nat
  /-- A, arrears. -/
  arrears : Nat
  /-- U, units charged that found A at its ceiling, modulo 2^48. -/
  unbooked : Nat
  /-- D, debt still to be recovered. -/
  debt : Nat
  /-- p, the percentage of a credit code taken for D. -/
  recoveryPercent : Nat
  /-- d, the amount taken for D at a day close. -/
  dailyRecovery : Nat
  /-- q, the cost residue in micro-minor units. -/
  residue : Nat
  /-- TOTAL_IN, modulo 2^48. -/
  totalIn : Nat
  /-- TOTAL_CHARGED, modulo 2^48. -/
  totalCharged : Nat
  /-- TOTAL_RECOVERED, modulo 2^48. -/
  totalRecovered : Nat
  lowCredit : LowCredit
  deriving DecidableEq, Repr

/-! ## Tariff sets -/

/-- A switch point of a schedule: a minute of day and the band from then on (R34). -/
structure SwitchPoint where
  minute : Nat
  band : Nat
  deriving DecidableEq, Repr

/-- A friendly window: its start minute and its end minute (R34, R43). -/
structure DayWindow where
  start : Nat
  stop : Nat
  deriving DecidableEq, Repr

/-- A tariff set (R34). -/
structure TariffSet where
  /-- The activation time: when a pending set is to become active, or when the active set became active. -/
  time : Nat
  /-- The prices of bands 0 to 3, in micro-minor units per Wh. -/
  prices : List Nat
  workdaySchedule : List SwitchPoint
  restDaySchedule : List SwitchPoint
  /-- Bit w is 1 when weekday w is a rest day. -/
  restDays : BitVec 7
  standingCharge : Nat
  workdayWindows : List DayWindow
  wholeDayFriendly : Bool
  restDayWindows : List DayWindow
  deriving DecidableEq, Repr

/-! ## Holds and the contactor -/

/-- The phase of a hold, with the grace deadline that it has in GRACE only (R98). -/
inductive HoldPhase where
  | deferred
  | grace (deadline : Nat)
  | firm
  deriving DecidableEq, Repr

/-- A phase by name alone, as records carry it. -/
inductive PhaseName where
  | deferred
  | grace
  | firm
  deriving DecidableEq, Repr

/-- The REMOTE hold: its phase, and whether a request placed it, and with it the origin port L-PORT (R98, R119). -/
structure RemoteHold where
  phase : HoldPhase
  byRequest : Bool
  deriving DecidableEq, Repr

/-- The hold list: at most one hold of each kind, in no order (R98). TAMPER, LOAD and TRIP holds are FIRM from their
placing, so the first and the last are present or absent, and the second has its restore time alone. -/
structure HoldList where
  credit : Option HoldPhase
  remote : Option RemoteHold
  tamper : Bool
  /-- The restore time of the LOAD hold. -/
  load : Option Nat
  trip : Bool
  deriving DecidableEq, Repr

/-- The reconnection policies (R99). -/
inductive Policy where
  | auto
  | press
  | pressWithin (minutes : Nat)
  deriving DecidableEq, Repr

/-- An arm deadline, with the duration of the arming in minutes (R99). -/
structure ArmDeadline where
  deadline : Nat
  minutes : Nat
  deriving DecidableEq, Repr

/-- The contactor states (R123). -/
inductive Contactor where
  | closed | breakWait | opening | opened | armed | closing | welded | stuckOpen
  deriving DecidableEq, Repr

/-- The position a drive is to reach (R124). -/
inductive Position where
  | opened
  | closed
  deriving DecidableEq, Repr

/-- The cause of a drive (R124). -/
inductive DriveCause where
  | command
  | retry
  | startUp
  deriving DecidableEq, Repr

/-- The origin of a record or of a drive (R160). -/
inductive Origin where
  | aPort
  | lPort
  | button
  | device
  deriving DecidableEq, Repr

/-- The stage of one attempt of a drive (R124, R126). -/
inductive DriveStage where
  | pulse
  | settle
  deriving DecidableEq, Repr

/-- A drive in progress (R124), with the pulse time and settle time read at the beginning of its present attempt
(R126). -/
structure Drive where
  direction : Position
  cause : DriveCause
  origin : Origin
  /-- 0 in the first attempt, 1 in the second. -/
  retryCount : Nat
  stage : DriveStage
  pulseMs : Nat
  settleMs : Nat
  deriving DecidableEq, Repr

/-! ## Tamper kinds and the service window -/

/-- The tamper states (R139). -/
inductive TamperState where
  | quiet
  | active
  | latched
  deriving DecidableEq, Repr

/-- The classes of a tamper kind (R143). -/
inductive TamperClass where
  | record
  | notify
  | enforce
  deriving DecidableEq, Repr

/-- What the store holds of one tamper kind beside its two settings (R139). -/
structure TamperRecord where
  state : TamperState
  count : Nat
  /-- The clock at the latest detection. -/
  detected : Option Nat
  deriving DecidableEq, Repr

/-- An open service window (R149). -/
structure ServiceWindow where
  closing : Nat
  minutes : Nat
  deriving DecidableEq, Repr

/-! ## Meter codes -/

/-- The key: the mask digits M1 to M16 and the check key Q (R64). -/
structure Key where
  mask : List Nat
  check : Nat
  deriving DecidableEq, Repr

/-- The kind of a key half (R64). -/
inductive HalfKind where
  | first
  | second
  deriving DecidableEq, Repr

/-- The pending half (R64). -/
structure PendingHalf where
  kind : HalfKind
  issue : Nat
  /-- The eight key digits. -/
  digits : List Nat
  /-- The two check key digits, as a number. -/
  check : Nat
  deadline : Nat
  deriving DecidableEq, Repr

/-- A lockout of one port (R64). -/
structure Lockout where
  deadline : Nat
  minutes : Nat
  deriving DecidableEq, Repr

/-- The stages of a code's service (R191). -/
inductive CodeStage where
  | format | lockout | check | kind | spent | room | apply | done
  deriving DecidableEq, Repr

/-- The first refusal record (R88). -/
structure FirstRefusal where
  /-- The 21 bytes of the payload, as submitted. -/
  digits : List Byte
  port : Port
  stage : CodeStage
  outcome : Status
  time : Nat
  deriving DecidableEq, Repr

/-- The result of a clear for one tamper kind (R82, R146). -/
inductive ClearResult where
  | quiet
  | cleared
  | stillActive
  deriving DecidableEq, Repr

/-- The effect of an applied code (R71). -/
inductive CodeEffect where
  | credit (repaidArrears repaidEmergency recovered credited : Nat) (emergencyEnded : Bool)
  | emergencyLimit (before after : Nat)
  | debtSet (debtBefore percentBefore debtAfter percentAfter : Nat)
  | bandPrice (band before after : Nat)
  | service (closing : Nat)
  | tamperClear (results : List ClearResult)
  | keyHeld (deadline : Nat)
  | keyChanged
  | reconnect (removed : Bool)
  deriving DecidableEq, Repr

/-- The code result record (R71, R193). -/
structure CodeResult where
  stage : CodeStage
  outcome : Status
  /-- The decoded kind and issue number, once CHECK has passed. -/
  decoded : Option (Nat × Nat)
  failures : Option Nat
  lockoutRemaining : Option Nat
  effect : Option CodeEffect
  deriving DecidableEq, Repr

/-! ## Journal records -/

/-- The cause of a HOLD_FIRM record (R100). -/
inductive FirmCause where
  | loadhiEnded | graceDeadline | windowEnd | arrearsCeiling | startUp
  deriving DecidableEq, Repr

/-- The cause of a HOLD_REMOVED record (R161). -/
inductive RemovalCause where
  | credit | remoteConnect | reconnect | tamper | restore | clearTrip
  deriving DecidableEq, Repr

/-- The fault states of the contactor (R128). -/
inductive FaultState where
  | welded
  | stuckOpen
  deriving DecidableEq, Repr

/-- The path of a clear (R146). -/
inductive ClearPath where
  | code
  | request
  deriving DecidableEq, Repr

/-- The cause of the close of the service window (R151). -/
inductive CloseCause where
  | expiry
  | closeService
  | startUp
  deriving DecidableEq, Repr

/-- The cause of a start-up (R203). -/
inductive StartCause where
  | outage
  | externalReset
  | brownOut
  deriving DecidableEq, Repr

/-- The 27 record kinds, in the order of the table of R161. -/
inductive RecordKind where
  | codeApplied | lockout | keyHalfHeld | keyHalfLapsed | keyChanged | emergencyStart | standing | debtSet | holdPlaced
  | holdFirm | holdRemoved | supplyOpened | supplyClosed | armLapsed | closeLate | contactorFault | tamperDetected
  | tamperEnded | tamperCleared | serviceStart | serviceEnd | tariffStaged | tariffActivated | clockSet | outage
  | overflowSummary | settingChanged
  deriving DecidableEq, Repr

/-- The overflow summary when it is not empty (R166): entries in the order of the kind table. -/
structure OverflowSummary where
  first : Nat
  last : Nat
  entries : List (RecordKind × Nat)
  deriving DecidableEq, Repr

/-- The body of a journal record: its kind and the fields R161 gives for the kind. -/
inductive RecordBody where
  | codeApplied (kind issue : Nat) (effect : CodeEffect)
  | lockoutBegan (port : Port) (minutes deadline : Nat)
  | lockoutEnded (port : Port)
  | keyHalfHeld (kind : HalfKind) (issue : Nat)
  | keyHalfLapsed (kind : HalfKind) (issue : Nat)
  | keyChanged (firstIssue secondIssue : Nat)
  | emergencyStart (credit limit : Nat)
  | standing (days lastDay charged recovered passedOver : Nat)
  | debtSet (debtBefore percentBefore dailyBefore debtAfter percentAfter dailyAfter : Nat)
  | holdPlaced (kind : HoldKind) (phase : HoldPhase) (origin : Option Port) (restore : Option Nat)
  | holdFirm (kind : HoldKind) (left : PhaseName) (cause : FirmCause)
  | holdRemoved (kind : HoldKind) (had : PhaseName) (cause : RemovalCause) (named : Option Policy)
      (tookEffect : Option Policy)
  | supplyOpened (cause : DriveCause) (attempts : Nat)
  | supplyClosed (cause : DriveCause) (attempts : Nat)
  | armLapsed (deadline minutes : Nat)
  | closeLate
  | contactorFaultVerify (entered : FaultState) (cause : DriveCause) (showed : Sense)
  | contactorFaultPulses
  | tamperDetected (kind : TamperKind) (count : Nat) (cls : TamperClass) (outage : Option TamperState)
  | tamperEnded (kind : TamperKind) (seconds : Nat)
  | tamperCleared (kind : TamperKind) (path : ClearPath)
  | serviceStart (closing minutes : Nat) (wasOpen : Bool)
  | serviceEnd (cause : CloseCause) (terminalCover : TamperState) (coverLevel : Bool) (placed : Bool)
  | tariffStaged (time : Nat) (replaced : Bool)
  | tariffCancelled
  | tariffActivated (time : Nat)
  | clockSet (old new passedOver : Nat)
  | outage (cause : StartCause) (intact : Bool) (duration : Option Nat) (passedOver : Nat)
  | overflowSummary (summary : OverflowSummary)
  | settingChanged (number before after : Nat)
  deriving DecidableEq, Repr

/-- A journal record (R160). -/
structure Record where
  seq : Nat
  time : Nat
  origin : Origin
  body : RecordBody
  deriving DecidableEq, Repr

/-- The journal (R157). -/
structure Journal where
  /-- The 512 record places. -/
  ring : List (Option Record)
  /-- W, the newest sequence number, modulo 2^32. -/
  newest : Nat
  /-- M_r, the release mark, modulo 2^32. -/
  mark : Nat
  overflow : Option OverflowSummary
  deriving DecidableEq, Repr

/-! ## Settings -/

/-- Phases in use (setting 1). -/
inductive Phases where
  | one
  | three
  deriving DecidableEq, Repr

/-- The demand mode (setting 8, R60). -/
inductive DemandMode where
  | always
  | emergencyOnly
  deriving DecidableEq, Repr

/-- The reverse policy (setting 10, R53). -/
inductive ReversePolicy where
  | add
  | ignore
  deriving DecidableEq, Repr

/-- The release setting (setting 24, R168). -/
inductive ReleaseSetting where
  | aPort
  | lPort
  | either
  deriving DecidableEq, Repr

/-- The CREDIT reconnection policy (setting 6, R101). -/
inductive CreditPolicy where
  | auto
  | press
  deriving DecidableEq, Repr

/-- The 28 settings (R196). -/
structure Settings where
  phases : Phases
  lowCreditThreshold : Nat
  availabilityThreshold : Nat
  arrearsCeiling : Nat
  graceTime : Nat
  creditPolicy : CreditPolicy
  demandLimit : Nat
  demandMode : DemandMode
  loadRestoreDelay : Nat
  reversePolicy : ReversePolicy
  reverseThreshold : Nat
  fallback : Nat
  classes : PerKind TamperClass
  debounces : PerKind Nat
  journalLow : Nat
  release : ReleaseSetting
  pulseTime : Nat
  settleTime : Nat
  masks : PerPort (BitVec 16)
  deriving DecidableEq, Repr

end Sys2Proof.Machine
end

