-- ==== Sys2Proof/Machine/State.lean ====
section
/-! DEFINITION. The state of the block: the commands that wait, what the retention domain holds, what the nonvolatile
store holds, the writes on their way to the store, and the volatile state of each block of the part. `State.reset` is
the part of the spec as delivered, right after its first start-up. -/

namespace Sys2Proof.Machine

/-- The reasons a step can stop. None: the spec gives each command of the table an effect, and says of no event that
it stops the part for good, so no command of this model faults (notes/assumptions/1.md). Safe. -/
inductive Fault
  deriving DecidableEq, Repr

/-- The reasons a step can be refused. -/
inductive Refusal where
  /-- Raised by an arm of `exec` whose command has no meaning yet; no arm does. Safe. -/
  | notModelled (mnemonic : String)
  deriving DecidableEq, Repr

/-- The events of the start-up sequence, in its order: the steps of R205, of which 9, 11 and 13 are two events each. -/
inductive StartStep where
  | outageRecord | windowClose | coverStep | owedDays | graceDeadlines | armDeadline | restoreTime | halfLapse
  | lockoutA | lockoutL | activation | codeLimits | supplyLimits | graceLevels | windowEdge | ceiling | breakWait
  | contactorCheck
  deriving DecidableEq, Repr

/-- A start-up sequence under way (R205): the events not yet taken, whether it found the retention domain intact, the
clock as R204 leaves it, which its steps are judged against (R205, R207), and the sense lines as they stand at its
contactor check (R136), which START_UP names. -/
structure StartSequence where
  steps : List StartStep
  intact : Bool
  clock : Nat
  sense : Sense
  deriving DecidableEq, Repr

/-- Whether the part runs, and if not, what it does or what holds it (R201 to R207). -/
inductive Power where
  /-- The part runs. -/
  | running
  /-- The start-up sequence is under way; its latest event is being stored (R205, R207). -/
  | starting (sequence : StartSequence)
  /-- A power-fail warning has been taken, and the writes begun before it are being stored (R201). -/
  | warned
  /-- The last write after a warning is being stored (R201). -/
  | lastWrite
  /-- RETAIN, after a taken power-fail warning. -/
  | retain
  /-- RST_N was asserted while the part was running. -/
  | reset
  /-- VDD fell with no warning taken; the retention domain goes on as in RETAIN. -/
  | brownOut
  deriving DecidableEq, Repr

/-- What the retention domain holds (R202). -/
structure Retention where
  /-- The retention-intact mark. -/
  intact : Bool
  /-- The clock (R27). -/
  clock : Nat
  /-- The clock valid flag (R27). -/
  valid : Bool
  /-- The outage cover latch (R154). -/
  latch : Bool
  /-- The watched level of MCOV: true for OPEN (R154). -/
  coverOpen : Bool
  /-- The reset mark (R203). -/
  resetMark : Bool
  deriving DecidableEq, Repr

/-- What the nonvolatile store holds (R204). -/
structure Nv where
  /-- The credit account record (R1). -/
  account : Account
  /-- The settings (R196). -/
  settings : Settings
  /-- The hold list (R98). -/
  holds : HoldList
  /-- The policy in force (R99). -/
  policy : Option Policy
  /-- The arm deadline (R99). -/
  armDeadline : Option ArmDeadline
  /-- The lapse marker (R99). -/
  lapseMarker : Bool
  /-- The contactor state (R123). -/
  contactor : Contactor
  /-- The drive target (R124). -/
  driveTarget : Position
  /-- The tamper states, counts and times detected (R139). -/
  tampers : PerKind TamperRecord
  /-- The service window, when it is open (R149). -/
  window : Option ServiceWindow
  /-- The key (R64). -/
  key : Key
  /-- The spent list (R64). -/
  spent : List Nat
  /-- The pending half (R64). -/
  pendingHalf : Option PendingHalf
  /-- The failure counts (R64). -/
  failures : PerPort Nat
  /-- The lockout steps (R64). -/
  lockoutSteps : PerPort Nat
  /-- The lockouts (R64). -/
  lockouts : PerPort (Option Lockout)
  /-- The first refusal record (R88). -/
  firstRefusal : Option FirstRefusal
  /-- The active tariff set (R34). -/
  activeTariff : TariffSet
  /-- The pending tariff set (R34). -/
  pendingTariff : Option TariffSet
  /-- The last charged day (R46). -/
  lastChargedDay : Nat
  /-- The stored clock (R30). -/
  storedClock : Nat
  /-- The journal (R157). -/
  journal : Journal
  /-- The warned mark (R201). -/
  warnedMark : Bool
  deriving DecidableEq, Repr

/-- The blocks that make writes of the store. -/
inductive Block where
  | clockTariff | account | code | supply | driver | tamper | journal | store
  deriving DecidableEq, Repr

/-- What follows once a write is stored. -/
inductive FollowUp where
  /-- The owner's answer to a port's request (R176). -/
  | answer (port : Port) (status : Status) (payload : List Byte)
  /-- A notice raised on both ports (R186). -/
  | notice (kind : NoticeKind)
  /-- The taking of a quantum has ended; the next may be offered (R51). -/
  | quantumTaken
  /-- The taking of a day close has ended; days found owed meanwhile are handed (R47). -/
  | dayCloseTaken
  /-- "arrears ceiling reached" is handed to the supply controller (R4, R20). -/
  | ceilingReached
  /-- The service of a code, or of another item of the code unit, has ended (R69, R70). -/
  | codeServed
  /-- The friendly window state is re-evaluated after an activation (R39). -/
  | windowReevaluated
  /-- What follows a taken SET_CLOCK at the other blocks (R32, R33): the old and the new value, and whether the clock
  was valid before the set. -/
  | clockMoved (old new : Nat) (wasValid : Bool)
  deriving DecidableEq, Repr

/-- The marks of the retention domain that an event of start-up clears with its write (R155, R203). -/
inductive RetentionMark where
  /-- The outage cover latch. -/
  | latch
  /-- The reset mark. -/
  | reset
  deriving DecidableEq, Repr

/-- One atomic write of the store, begun and not yet stored: what the store holds once it is stored, whether it carries
an append of the journal (R159), the clock value it puts in force (R33), what follows it, and the mark of the retention
domain that is cleared with it (notes/assumptions/35.md). -/
structure Write where
  owner : Block
  image : Nv
  appends : Bool
  setsClock : Option Nat
  follow : List FollowUp
  clears : Option RetentionMark := none
  deriving DecidableEq, Repr

/-- An event that waits at the journal (R159): a port's READ_JOURNAL or RELEASE_JOURNAL, or the append of a block's
write, with the command whose event makes it (notes/assumptions/18.md). -/
inductive JournalEvent where
  | request (port : Port)
  | append (owner : Block) (command : Instr)
  deriving DecidableEq, Repr

/-! ## Volatile state of the blocks -/

/-- The debounce state of a pulse line (R49). -/
inductive LineState where
  | resting
  | asserted
  deriving DecidableEq, Repr

/-- The pulse input unit (R49 to R63). -/
structure PulseUnit where
  /-- Debounce states of IMP1 to IMP3. -/
  importLines : PerPhase LineState
  /-- Debounce states of EXP1 to EXP3. -/
  exportLines : PerPhase LineState
  /-- The waiting count (R51). -/
  waiting : Nat
  /-- A quantum is outstanding at the account (R51). -/
  outstanding : Bool
  /-- The export count of the detection hour (R54). -/
  hourExports : Nat
  /-- The detection hour in progress is still one that may end full (R55). -/
  hourFull : Bool
  /-- The level of the REVERSE_FLOW input (R54). -/
  reverseInput : Bool
  /-- The real import count of the measurement minute (R56). -/
  minuteImports : Nat
  /-- The export count of the measurement minute, under ADD (R56). -/
  minuteExports : Nat
  /-- The measurement minute in progress is still one that may end full (R56). -/
  minuteFull : Bool
  /-- The last demand, in watts (R59). -/
  lastDemand : Nat
  /-- The count of pulses while open (R62). -/
  openPulses : Nat
  deriving DecidableEq, Repr

/-- A day-close event of the clock and tariff unit (R46, R47). -/
structure DayCloseEvent where
  /-- How many days it covers, 1 to 31. -/
  days : Nat
  /-- The last day it closes. -/
  last : Nat
  /-- Days passed over by a midnight that extended it (R47). -/
  passedOver : Nat
  deriving DecidableEq, Repr

/-- The volatile state of the clock and tariff unit. -/
structure ClockUnit where
  /-- The friendly window state: true for "in force" (R44). -/
  windowInForce : Bool
  /-- The day-close event outstanding at the account (R47). -/
  dayClose : Option DayCloseEvent
  /-- The account is taking that event (R47). -/
  dayCloseTaking : Bool
  /-- Days found owed while the account takes the event, to be handed once it is stored (R47). -/
  laterDayClose : Option DayCloseEvent
  /-- A clock minute has ended and its end has not been taken (R28). -/
  minuteMark : Bool
  /-- A clock hour has ended and its end has not been taken (R28). -/
  hourMark : Bool
  /-- A midnight has passed with the clock valid and has not been taken (R28). -/
  midnightMark : Bool
  deriving DecidableEq, Repr

/-- An event on the account's arrival list (R3). -/
inductive AccountEvent where
  | quantum
  | dayClose
  | code
  | request (port : Port)
  deriving DecidableEq, Repr

/-- An item of the code unit's queue (R69). The lapse of a pending half says whether the half that gave rise to it is
still the pending one (R93). -/
inductive CodeItem where
  | request (port : Port)
  | lockoutExpiry (port : Port)
  | halfLapse (current : Bool)
  | clockSet
  deriving DecidableEq, Repr

/-- The code in service after its taking (R64, R70): the port it came from, its payload, its decoded fields, the clock
at its taking, and whether it waits at its owner (its commit or refusal write not begun). -/
structure CodeService where
  port : Port
  digits : List Byte
  kind : Nat
  issue : Nat
  value : Nat
  sub : Nat
  taken : Nat
  atOwner : Bool
  deriving DecidableEq, Repr

/-- The volatile state of the code unit (R64). -/
structure CodeUnit where
  queue : List CodeItem
  service : Option CodeService
  deriving DecidableEq, Repr

/-- A friendly window edge (R45). -/
inductive WindowEdge where
  | start
  | stop
  deriving DecidableEq, Repr

/-- The volatile state of the supply controller (R99), with the hand-offs of other blocks that it has not taken. -/
structure SupplyUnit where
  /-- LOADHI level: true for asserted. -/
  loadhi : Bool
  /-- LOADX level: true for asserted. -/
  loadx : Bool
  /-- A passage of LOADHI to deasserted that has not been taken (R109, R207). -/
  loadhiFell : Bool
  /-- A passage of LOADX to deasserted that has not been taken (R115, R207). -/
  loadxFell : Bool
  /-- THERM state: true for ACTIVE (R106). -/
  thermActive : Bool
  /-- Button state: true for PRESSED (R120). -/
  buttonPressed : Bool
  /-- Window edges handed by the clock and tariff unit, oldest first (R45). -/
  edges : List WindowEdge
  /-- "arrears ceiling reached" handed by the account (R20). -/
  ceilingHanded : Bool
  /-- "demand over limit" handed by the pulse input unit (R59). -/
  demandHanded : Bool
  /-- A clock-set event handed by the clock and tariff unit (R112). -/
  clockSetHanded : Bool
  deriving DecidableEq, Repr

/-- The volatile state of the contactor driver (R124), with the hand-off of the pulse input unit. -/
structure DriverUnit where
  drive : Option Drive
  /-- The level of the LOAD_SIDE_VOLTAGE input (R134). -/
  voltageInput : Bool
  /-- "pulses while open" handed by the pulse input unit (R63). -/
  pulsesHanded : Bool
  deriving DecidableEq, Repr

/-- An event on the tamper monitor's arrival list (R140): a passage of a debounced level, a code application, a port's
request or change of setting, the expiry of the service window, a clock-set event. -/
inductive TamperEvent where
  | input (kind : TamperKind) (active : Bool)
  | code
  | request (port : Port)
  | windowExpiry
  | clockSet
  deriving DecidableEq, Repr

/-- The volatile state of the tamper monitor (R138, R140). -/
structure TamperUnit where
  /-- The debounced level of each kind: true for ACTIVE. -/
  levels : PerKind Bool
  /-- The events that wait to be taken, oldest first (R140, R204). -/
  arrivals : List TamperEvent
  deriving DecidableEq, Repr

/-- The request in progress at a port: its code and payload, the number and value of the setting that the store and
power monitor handed on to another block (R197), and whether its owner has taken it and its write is under way. -/
structure Request where
  code : RequestCode
  payload : List Byte
  handedSetting : Option (Nat × Nat)
  taken : Bool
  deriving DecidableEq, Repr

/-- The volatile state of one port (R174). -/
structure PortUnit where
  state : PortPhase
  /-- The receive buffer: the bytes of the frame being received from its marker; empty while HUNTING (R177). -/
  receive : List Byte
  /-- The request in progress, in WORKING. -/
  request : Option Request
  /-- The response slot. -/
  response : Option Frame
  /-- The discard mark. -/
  discard : Bool
  /-- A PORT_CLEAR request has been judged and is to be taken (R182). -/
  clearing : Bool
  /-- The notice set, in order of first arrival (R186). -/
  notices : List Notice
  deriving DecidableEq, Repr

/-- The two slots that the L-port's transmitter takes frames from (R178). -/
inductive TxSlot where
  | response
  | refusal
  deriving DecidableEq, Repr

/-- The L-port's refusal slot (R174) and the slot whose frame is being sent (R178). -/
structure LPortUnit where
  refusal : Option Frame
  sending : Option TxSlot
  deriving DecidableEq, Repr

/-- The state of the block. -/
structure State where
  /-- The commands that wait, first in, first out. -/
  pending : List Instr
  power : Power
  /-- What the retention domain holds. -/
  ret : Retention
  /-- What the store holds: the last stored write. -/
  stored : Nv
  /-- The stored state as the blocks hold it: the last stored write and every write on its way. -/
  nv : Nv
  /-- The writes on their way to the store; the first is being stored. -/
  writes : List Write
  pulse : PulseUnit
  clockUnit : ClockUnit
  /-- The account's arrival list, oldest first (R3). -/
  arrivals : List AccountEvent
  code : CodeUnit
  supply : SupplyUnit
  driver : DriverUnit
  tamper : TamperUnit
  /-- The events that wait at the journal, oldest first (R159). -/
  journalWaiting : List JournalEvent
  ports : PerPort PortUnit
  lPort : LPortUnit
  /-- The bytes the part returned on SDO in the latest A-port transaction, from the state byte. -/
  sdo : List Byte
  /-- The latest frame the part sent whole on TXD. -/
  txd : List Byte
  /-- The MODEL's own counter of free choices (Config): the spec names no such state. -/
  choices : Nat
  deriving DecidableEq, Repr

/-! ## The part as delivered -/

/-- A table with one value at every phase. -/
def PerPhase.all {α : Type} (x : α) : PerPhase α := ⟨x, x, x⟩

/-- A table with one value at every tamper kind. -/
def PerKind.all {α : Type} (x : α) : PerKind α := ⟨x, x, x, x, x⟩

/-- The delivered account record (R1). -/
def Account.delivered : Account where
  credit := 0
  emergencyActive := false
  emergencyUsed := 0
  emergencyLimit := 500
  arrears := 0
  unbooked := 0
  debt := 0
  recoveryPercent := 0
  dailyRecovery := 0
  residue := 0
  totalIn := 0
  totalCharged := 0
  totalRecovered := 0
  lowCredit := .atOrBelow

/-- The delivered settings (R196, R139). -/
def Settings.delivered : Settings where
  phases := .three
  lowCreditThreshold := 1000
  availabilityThreshold := 100
  arrearsCeiling := 0
  graceTime := 120
  creditPolicy := .press
  demandLimit := 0
  demandMode := .always
  loadRestoreDelay := 5
  reversePolicy := .add
  reverseThreshold := 20
  fallback := 0
  classes :=
    { mainCover := .enforce, terminalCover := .enforce, magnetic := .notify, reverseFlow := .notify,
      loadSideVoltage := .enforce }
  debounces := { mainCover := 10, terminalCover := 10, magnetic := 30, reverseFlow := 10, loadSideVoltage := 10 }
  journalLow := 64
  release := .either
  pulseTime := 60
  settleTime := 300
  masks := ⟨0, 0⟩

/-- The delivered active tariff set (R34). -/
def TariffSet.delivered : TariffSet where
  time := 0
  prices := [0, 0, 0, 0]
  workdaySchedule := []
  restDaySchedule := []
  restDays := 0
  standingCharge := 0
  workdayWindows := []
  wholeDayFriendly := false
  restDayWindows := []

/-- The delivered store: each item at the delivered value its own rule gives (R1, R30, R34, R46, R64, R98, R99, R123,
R124, R139, R149, R157, R196, R203). -/
def Nv.delivered : Nv where
  account := .delivered
  settings := .delivered
  holds := { credit := some .firm, remote := none, tamper := false, load := none, trip := false }
  policy := none
  armDeadline := none
  lapseMarker := false
  contactor := .opened
  driveTarget := .opened
  tampers := .all { state := .quiet, count := 0, detected := none }
  window := none
  key := { mask := List.replicate 16 0, check := 0 }
  spent := []
  pendingHalf := none
  failures := ⟨0, 0⟩
  lockoutSteps := ⟨0, 0⟩
  lockouts := ⟨none, none⟩
  firstRefusal := none
  activeTariff := .delivered
  pendingTariff := none
  lastChargedDay := 0
  storedClock := 0
  journal := { ring := List.replicate 512 none, newest := 0, mark := 0, overflow := none }
  warnedMark := true

/-- A retention domain that has lost its supply: nothing in it is kept (R202). -/
def Retention.lost : Retention where
  intact := false
  clock := 0
  valid := false
  latch := false
  coverOpen := false
  resetMark := false

/-- The pulse input unit as start-up begins it (section 3.9). -/
def PulseUnit.fresh : PulseUnit where
  importLines := .all .asserted
  exportLines := .all .asserted
  waiting := 0
  outstanding := false
  hourExports := 0
  hourFull := false
  reverseInput := false
  minuteImports := 0
  minuteExports := 0
  minuteFull := false
  lastDemand := 0
  openPulses := 0

/-- The clock and tariff unit with nothing outstanding. -/
def ClockUnit.fresh : ClockUnit where
  windowInForce := false
  dayClose := none
  dayCloseTaking := false
  laterDayClose := none
  minuteMark := false
  hourMark := false
  midnightMark := false

/-- The supply controller as start-up begins it (R99): the button PRESSED, THERM INACTIVE, nothing handed. -/
def SupplyUnit.fresh : SupplyUnit where
  loadhi := false
  loadx := false
  loadhiFell := false
  loadxFell := false
  thermActive := false
  buttonPressed := true
  edges := []
  ceilingHanded := false
  demandHanded := false
  clockSetHanded := false

/-- The contactor driver as start-up begins it (R124). -/
def DriverUnit.fresh : DriverUnit where
  drive := none
  voltageInput := false
  pulsesHanded := false

/-- The tamper monitor with every debounced level INACTIVE and nothing handed. -/
def TamperUnit.fresh : TamperUnit where
  levels := .all false
  arrivals := []

/-- A port as start-up begins it, but for its notice set (R190). -/
def PortUnit.fresh : PortUnit where
  state := .idle
  receive := []
  request := none
  response := none
  discard := false
  clearing := false
  notices := []

/-- The part as it leaves the factory (delivered values, the retention domain lost), not yet started up for the
first time. -/
def State.delivered : State where
  pending := []
  power := .retain
  ret := .lost
  stored := .delivered
  nv := .delivered
  writes := []
  pulse := .fresh
  clockUnit := .fresh
  arrivals := []
  code := { queue := [], service := none }
  supply := .fresh
  driver := .fresh
  tamper := .fresh
  journalWaiting := []
  ports := ⟨.fresh, .fresh⟩
  lPort := { refusal := none, sending := none }
  sdo := []
  txd := []
  choices := 0

/-- The OUTAGE record that the first start-up of a new part writes (R203, R205, section 11.7). -/
def firstOutageRecord : Record where
  seq := 1
  time := 0
  origin := .device
  body := .outage .outage false none 0

/-- The store right after the first start-up: as delivered, with that start-up's OUTAGE record written and the warned
mark cleared. -/
def Nv.reset : Nv :=
  { Nv.delivered with
    journal :=
      { Nv.delivered.journal with ring := Nv.delivered.journal.ring.set 1 (some firstOutageRecord), newest := 1 }
    warnedMark := false }

/-- The machine right after reset: a new part after its first start-up (section 11.7): the clock 0 and invalid, the
retention domain taken up afresh, the CREDIT hold FIRM and the contactor OPEN, one OUTAGE record, and both notice sets
holding POWER_UP. The levels of LOADHI, LOADX and the sense lines at that start-up are the model's choice
(notes/assumptions/2.md). -/
def State.reset : State :=
  { State.delivered with
    power := .running
    ret := { Retention.lost with intact := true }
    stored := .reset
    nv := .reset
    ports :=
      ⟨{ PortUnit.fresh with notices := [⟨.powerUp, 0⟩] }, { PortUnit.fresh with notices := [⟨.powerUp, 0⟩] }⟩
    choices := 1 }

end Sys2Proof.Machine
end

