-- ==== Sys2Proof/Machine/Bytes.lean ====
section
/-! DEFINITION. Bytes and numbers: the byte order of every field (00_scope.md, Byte order; R191), the frame check of
R173, and the numbers of the enumerations that frames and records carry (R191, R192). -/

namespace Sys2Proof.Machine

/-- A number as `n` bytes, least significant byte first (R191). -/
def toBytes : Nat → Nat → List Byte
  | 0, _ => []
  | n + 1, x => BitVec.ofNat 8 x :: toBytes n (x / 256)

/-- The number that bytes sent least significant first write (R191). -/
def ofBytes : List Byte → Nat
  | [] => 0
  | b :: bs => b.toNat + 256 * ofBytes bs

/-- Yes or no as 1 or 0 (R191). -/
def yesNo (b : Bool) : Nat := if b then 1 else 0

/-! ## The frame check -/

/-- One shift of the CRC register with generator polynomial 1021h (R173). -/
def crcShift (r : BitVec 16) : BitVec 16 :=
  if r.msb then (r <<< 1) ^^^ 0x1021 else r <<< 1

/-- One byte entered into the CRC register, most significant bit first (R173). -/
def crcByte (r : BitVec 16) (b : Byte) : BitVec 16 :=
  let x := r ^^^ ((b.zeroExtend 16) <<< 8)
  crcShift (crcShift (crcShift (crcShift (crcShift (crcShift (crcShift (crcShift x)))))))

/-- The CRC of a run of bytes: the register starts at FFFFh; nothing is reflected or inverted (R173). -/
def crc (bs : List Byte) : Nat := (bs.foldl crcByte 0xFFFF).toNat

/-! ## Numbers of the requests, statuses, notices and record kinds -/

/-- The code of a request in the catalogue (R183). -/
def RequestCode.byte : RequestCode → Byte
  | .status => 0x01
  | .snapshot => 0x02
  | .readNotices => 0x03
  | .readJournal => 0x04
  | .releaseJournal => 0x05
  | .submitCode => 0x06
  | .readFirstRefusal => 0x07
  | .clearFirstRefusal => 0x08
  | .readTariff => 0x09
  | .readTamper => 0x0A
  | .readSetting => 0x0B
  | .portClear => 0x0C
  | .press => 0x10
  | .acceptEmergency => 0x11
  | .setClock => 0x20
  | .remoteOpen => 0x21
  | .remoteConnect => 0x22
  | .stageTariff => 0x23
  | .cancelTariff => 0x24
  | .setDebt => 0x25
  | .clearTamper => 0x26
  | .clearTrip => 0x27
  | .contactorRetry => 0x28
  | .writeSetting => 0x30
  | .closeService => 0x31

/-- Every request of the catalogue (R183). -/
def RequestCode.all : List RequestCode :=
  [.status, .snapshot, .readNotices, .readJournal, .releaseJournal, .submitCode, .readFirstRefusal,
   .clearFirstRefusal, .readTariff, .readTamper, .readSetting, .portClear, .press, .acceptEmergency, .setClock,
   .remoteOpen, .remoteConnect, .stageTariff, .cancelTariff, .setDebt, .clearTamper, .clearTrip, .contactorRetry,
   .writeSetting, .closeService]

/-- The request that a code byte names, if the catalogue holds it (R175). -/
def RequestCode.ofByte (b : Byte) : Option RequestCode := RequestCode.all.find? (fun c => c.byte == b)

/-- The status byte of a response (R192). -/
def Status.byte : Status → Byte
  | .ok => 0x00
  | .busy => 0x01
  | .frameCheck => 0x02
  | .unknown => 0x03
  | .wrongGroup => 0x04
  | .length => 0x05
  | .range => 0x10
  | .journalFull => 0x11
  | .notHeld => 0x12
  | .notAvailable => 0x13
  | .clockStep => 0x14
  | .stillActive => 0x15
  | .noFault => 0x16
  | .held => 0x17
  | .lapsed => 0x18
  | .noAction => 0x19
  | .fault => 0x1A
  | .format => 0x20
  | .locked => 0x21
  | .check => 0x22
  | .kind => 0x23
  | .used => 0x24
  | .old => 0x25
  | .value => 0x26
  | .overflow => 0x27
  | .pair => 0x28

/-- The number of a notice kind (R185). -/
def NoticeKind.number : NoticeKind → Nat
  | .powerUp => 1
  | .creditLow => 2
  | .creditExhausted => 3
  | .creditChanged => 4
  | .supplyChanged => 5
  | .armed => 6
  | .tamper => 7
  | .journalLow => 8
  | .journalFull => 9
  | .tariffChanged => 10
  | .clockChanged => 11
  | .contactorFault => 12
  | .keyChanged => 13

/-- The number of a record kind, in the order of the table of R161 (R191). -/
def RecordKind.number : RecordKind → Nat
  | .codeApplied => 1
  | .lockout => 2
  | .keyHalfHeld => 3
  | .keyHalfLapsed => 4
  | .keyChanged => 5
  | .emergencyStart => 6
  | .standing => 7
  | .debtSet => 8
  | .holdPlaced => 9
  | .holdFirm => 10
  | .holdRemoved => 11
  | .supplyOpened => 12
  | .supplyClosed => 13
  | .armLapsed => 14
  | .closeLate => 15
  | .contactorFault => 16
  | .tamperDetected => 17
  | .tamperEnded => 18
  | .tamperCleared => 19
  | .serviceStart => 20
  | .serviceEnd => 21
  | .tariffStaged => 22
  | .tariffActivated => 23
  | .clockSet => 24
  | .outage => 25
  | .overflowSummary => 26
  | .settingChanged => 27

/-- The kind of a record (R161). -/
def RecordBody.kind : RecordBody → RecordKind
  | .codeApplied _ _ _ => .codeApplied
  | .lockoutBegan _ _ _ => .lockout
  | .lockoutEnded _ => .lockout
  | .keyHalfHeld _ _ => .keyHalfHeld
  | .keyHalfLapsed _ _ => .keyHalfLapsed
  | .keyChanged _ _ => .keyChanged
  | .emergencyStart _ _ => .emergencyStart
  | .standing _ _ _ _ _ => .standing
  | .debtSet _ _ _ _ _ _ => .debtSet
  | .holdPlaced _ _ _ _ => .holdPlaced
  | .holdFirm _ _ _ => .holdFirm
  | .holdRemoved _ _ _ _ _ => .holdRemoved
  | .supplyOpened _ _ => .supplyOpened
  | .supplyClosed _ _ => .supplyClosed
  | .armLapsed _ _ => .armLapsed
  | .closeLate => .closeLate
  | .contactorFaultVerify _ _ _ => .contactorFault
  | .contactorFaultPulses => .contactorFault
  | .tamperDetected _ _ _ _ => .tamperDetected
  | .tamperEnded _ _ => .tamperEnded
  | .tamperCleared _ _ => .tamperCleared
  | .serviceStart _ _ _ => .serviceStart
  | .serviceEnd _ _ _ _ => .serviceEnd
  | .tariffStaged _ _ => .tariffStaged
  | .tariffCancelled => .tariffStaged
  | .tariffActivated _ => .tariffActivated
  | .clockSet _ _ _ => .clockSet
  | .outage _ _ _ _ => .outage
  | .overflowSummary _ => .overflowSummary
  | .settingChanged _ _ _ => .settingChanged

/-! ## Numbers of the other enumerations (R191): from 1 in the order given, 0 for an absent field -/

/-- A port: A-PORT 1, L-PORT 2. -/
def Port.number : Port → Nat
  | .a => 1
  | .l => 2

/-- The origin of an event that a port's request or code makes (R160). -/
def Port.origin : Port → Origin
  | .a => .aPort
  | .l => .lPort

/-- An origin. -/
def Origin.number : Origin → Nat
  | .aPort => 1
  | .lPort => 2
  | .button => 3
  | .device => 4

/-- A contactor state. -/
def Contactor.number : Contactor → Nat
  | .closed => 1
  | .breakWait => 2
  | .opening => 3
  | .opened => 4
  | .armed => 5
  | .closing => 6
  | .welded => 7
  | .stuckOpen => 8

/-- A hold kind. -/
def HoldKind.number : HoldKind → Nat
  | .credit => 1
  | .remote => 2
  | .tamper => 3
  | .load => 4
  | .trip => 5

/-- A hold phase. -/
def PhaseName.number : PhaseName → Nat
  | .deferred => 1
  | .grace => 2
  | .firm => 3

/-- A tamper kind, by its number of R137. -/
def TamperKind.number : TamperKind → Nat
  | .mainCover => 1
  | .terminalCover => 2
  | .magnetic => 3
  | .reverseFlow => 4
  | .loadSideVoltage => 5

/-- A tamper state. -/
def TamperState.number : TamperState → Nat
  | .quiet => 1
  | .active => 2
  | .latched => 3

/-- A tamper class; also the encoding of settings 13 to 17 (R196). -/
def TamperClass.number : TamperClass → Nat
  | .record => 1
  | .notify => 2
  | .enforce => 3

/-- A stage of a code's service. -/
def CodeStage.number : CodeStage → Nat
  | .format => 1
  | .lockout => 2
  | .check => 3
  | .kind => 4
  | .spent => 5
  | .room => 6
  | .apply => 7
  | .done => 8

/-- A half kind. -/
def HalfKind.number : HalfKind → Nat
  | .first => 1
  | .second => 2

/-- The code kind of a key half (R68). -/
def HalfKind.codeKind : HalfKind → Nat
  | .first => 6
  | .second => 7

/-- A result of a clear (R193). -/
def ClearResult.number : ClearResult → Nat
  | .quiet => 0
  | .cleared => 1
  | .stillActive => 2

/-- The cause of a HOLD_FIRM record. -/
def FirmCause.number : FirmCause → Nat
  | .loadhiEnded => 1
  | .graceDeadline => 2
  | .windowEnd => 3
  | .arrearsCeiling => 4
  | .startUp => 5

/-- The cause of a HOLD_REMOVED record. -/
def RemovalCause.number : RemovalCause → Nat
  | .credit => 1
  | .remoteConnect => 2
  | .reconnect => 3
  | .tamper => 4
  | .restore => 5
  | .clearTrip => 6

/-- The cause of a drive. -/
def DriveCause.number : DriveCause → Nat
  | .command => 1
  | .retry => 2
  | .startUp => 3

/-- A fault state. -/
def FaultState.number : FaultState → Nat
  | .welded => 1
  | .stuckOpen => 2

/-- The path of a clear. -/
def ClearPath.number : ClearPath → Nat
  | .code => 1
  | .request => 2

/-- The cause of a close of the service window. -/
def CloseCause.number : CloseCause → Nat
  | .expiry => 1
  | .closeService => 2
  | .startUp => 3

/-- The cause of a start-up. -/
def StartCause.number : StartCause → Nat
  | .outage => 1
  | .externalReset => 2
  | .brownOut => 3

/-- A reconnection policy, as REMOTE_CONNECT sends it (R191). -/
def Policy.number : Policy → Nat
  | .auto => 0
  | .press => 1
  | .pressWithin _ => 2

/-- The minutes of a policy: 0 but for PRESS_WITHIN. -/
def Policy.minutes : Policy → Nat
  | .auto => 0
  | .press => 0
  | .pressWithin m => m

/-- The number of an enumerated field that may be absent (R191). -/
def numberOrAbsent {α : Type} (f : α → Nat) : Option α → Nat
  | none => 0
  | some x => f x

/-- The phases that showed voltage, as a set: bit 0 for L1, bit 1 for L2, bit 2 for L3 (R194). -/
def Sense.number (s : Sense) : Nat := yesNo s.l1 + 2 * yesNo s.l2 + 4 * yesNo s.l3

/-- The phase of a hold by name (R161). -/
def HoldPhase.name : HoldPhase → PhaseName
  | .deferred => .deferred
  | .grace _ => .grace
  | .firm => .firm

/-! ## Frames -/

/-- A response frame byte by byte (R173, R192). -/
def Frame.bytes (f : Frame) : List Byte :=
  let body := BitVec.ofNat 8 f.payload.length :: f.code :: f.status :: f.payload
  (0x5A : Byte) :: body ++ toBytes 2 (crc body)

end Sys2Proof.Machine
end

