-- ==== Sys2Proof/Machine/Operands.lean ====
section
/-! DEFINITION. The forms that a request's payload can take: the numbers in it, the 56-byte tariff form, the meter
code, the policy of REMOTE_CONNECT, the settings by number, and the payload length of each request. -/

namespace Sys2Proof.Machine

/-- The number in the `n` bytes of a payload from an offset. -/
def field (payload : List Byte) (offset n : Nat) : Nat := ofBytes ((payload.drop offset).take n)

/-! ## The largest values of the account and the clock -/

/-- The largest clock value (R27). -/
def maxClock : Nat := 4294967295

/-- The largest value of C, A and D (R1). -/
def maxMoney : Nat := 99999999

/-- The largest emergency limit (R1). -/
def maxEmergency : Nat := 100000

/-- The totals and U are kept modulo 2^48 (R1). -/
def totalModulus : Nat := 2 ^ 48

/-! ## Requests -/

/-- The groups that requests belong to (R183). -/
inductive Group where
  | general
  | customer
  | network
  | service
  deriving DecidableEq, Repr

/-- The groups of a request (R183). -/
def RequestCode.groups : RequestCode → List Group
  | .press | .acceptEmergency => [.customer]
  | .setClock | .remoteOpen | .remoteConnect | .stageTariff | .cancelTariff | .setDebt => [.network]
  | .clearTamper | .clearTrip | .contactorRetry => [.network, .service]
  | .writeSetting | .closeService => [.service]
  | _ => [.general]

/-- Whether a group is permitted at a port, with the service window open or closed (R183). -/
def Group.permitted (windowOpen : Bool) : Group → Port → Bool
  | .general, _ => true
  | .customer, .a => true
  | .customer, .l => false
  | .network, .a => false
  | .network, .l => true
  | .service, _ => windowOpen

/-- Whether some group of a request is permitted at a port (R183). -/
def RequestCode.permitted (windowOpen : Bool) (c : RequestCode) (p : Port) : Bool :=
  c.groups.any (fun g => g.permitted windowOpen p)

/-- Whether the port controller accepts a payload length (R175, R183): WRITE_SETTING is not tested there. -/
def RequestCode.lengthAccepted (n : Nat) : RequestCode → Bool
  | .snapshot => 1 ≤ n && n ≤ 16
  | .readJournal => n == 5
  | .releaseJournal => n == 4
  | .submitCode => n == 21
  | .readTariff | .readSetting | .clearTamper => n == 1
  | .setClock => n == 4
  | .remoteConnect => n == 2
  | .stageTariff => n == 56
  | .setDebt => n == 9
  | .writeSetting => true
  | _ => n == 0

/-! ## Snapshot items -/

/-- The size in a response of a snapshot item (R25); 0 for a code that names none. -/
def snapshotSize (item : Nat) : Nat :=
  match item with
  | 0 => 4 | 1 => 1 | 2 => 4 | 3 => 4 | 4 => 4 | 5 => 6 | 6 => 4 | 7 => 1 | 8 => 4 | 9 => 4 | 10 => 6 | 11 => 6
  | 12 => 6 | 13 => 1 | 14 => 2 | 15 => 1 | 16 => 4 | 17 => 5 | _ => 0

/-- The port checks of SNAPSHOT: item count, item codes, response size, in that order (R26). -/
def snapshotCheck (payload : List Byte) : Option Status :=
  if payload.length < 1 ∨ 16 < payload.length then some .length
  else if payload.any (fun b => 17 < b.toNat) then some .range
  else if 56 < (payload.map (fun b => snapshotSize b.toNat)).sum then some .length
  else none

/-! ## The 56-byte tariff form (R37) -/

/-- What an unused switch point slot holds. -/
def unusedPoint : Nat := 65535

/-- What an unused window slot holds. -/
def unusedWindow : Nat := 16777215

/-- The used slots of a list, which come first; none if a used slot follows an unused one. -/
def usedSlots (unused : Nat) : List Nat → Option (List Nat)
  | [] => some []
  | x :: xs =>
    if x = unused then (if xs.all (· == unused) then some [] else none)
    else (usedSlots unused xs).map (x :: ·)

/-- The switch point that a slot holds: band times 2,048 plus minute. -/
def pointOfSlot (x : Nat) : SwitchPoint := { minute := x % 2048, band := x / 2048 }

/-- The window that a slot holds: start times 2,048 plus end. -/
def windowOfSlot (x : Nat) : DayWindow := { start := x / 2048, stop := x % 2048 }

/-- The minutes of a list of switch points rise strictly, no two alike. -/
def strictlyAscending : List Nat → Bool
  | [] => true
  | [_] => true
  | x :: y :: rest => x < y && strictlyAscending (y :: rest)

/-- A schedule within the ranges of R34. -/
def scheduleValid (ps : List SwitchPoint) : Bool :=
  ps.length ≤ 6 && ps.all (fun p => p.band ≤ 3 && p.minute ≤ 1439) && strictlyAscending (ps.map (·.minute))

/-- A list of friendly windows within the ranges of R34. -/
def windowsValid (ws : List DayWindow) : Bool :=
  ws.length ≤ 2 && ws.all (fun w => w.start ≤ 1439 && w.stop ≤ 1439)

/-- A tariff set within the ranges of R34. -/
def TariffSet.valid (t : TariffSet) : Bool :=
  t.time ≤ maxClock && t.prices.length == 4 && t.prices.all (· ≤ 9999999) && t.standingCharge ≤ 99999
    && scheduleValid t.workdaySchedule && scheduleValid t.restDaySchedule
    && windowsValid t.workdayWindows && windowsValid t.restDayWindows

/-- The numbers of `n` slots of `width` bytes from an offset. -/
def slots (payload : List Byte) (offset width : Nat) : Nat → List Nat
  | 0 => []
  | n + 1 => field payload offset width :: slots payload (offset + width) width n

/-- The tariff set a STAGE_TARIFF payload holds; none where R37 refuses it with RANGE. -/
def decodeTariff (payload : List Byte) : Option TariffSet := do
  let workPoints ← usedSlots unusedPoint (slots payload 20 2 6)
  let restPoints ← usedSlots unusedPoint (slots payload 32 2 6)
  let workWindows ← usedSlots unusedWindow (slots payload 44 3 2)
  let restWindows ← usedSlots unusedWindow (slots payload 50 3 2)
  let flags := field payload 16 1
  let t : TariffSet :=
    { time := field payload 0 4
      prices := slots payload 4 3 4
      workdaySchedule := workPoints.map pointOfSlot
      restDaySchedule := restPoints.map pointOfSlot
      restDays := BitVec.ofNat 7 flags
      standingCharge := field payload 17 3
      workdayWindows := workWindows.map windowOfSlot
      wholeDayFriendly := 128 ≤ flags
      restDayWindows := restWindows.map windowOfSlot }
  if t.valid then some t else none

/-- `n` slots of a list of numbers, the unused ones last. -/
def padSlots (unused : Nat) : Nat → List Nat → List Nat
  | 0, _ => []
  | n + 1, [] => unused :: padSlots unused n []
  | n + 1, x :: xs => x :: padSlots unused n xs

/-- A tariff set in the 56-byte form of R37. -/
def encodeTariff (t : TariffSet) : List Byte :=
  toBytes 4 t.time
    ++ ((padSlots 0 4 t.prices).map (toBytes 3)).flatten
    ++ toBytes 1 (t.restDays.toNat + 128 * yesNo t.wholeDayFriendly)
    ++ toBytes 3 t.standingCharge
    ++ ((padSlots unusedPoint 6 (t.workdaySchedule.map (fun p => p.band * 2048 + p.minute))).map (toBytes 2)).flatten
    ++ ((padSlots unusedPoint 6 (t.restDaySchedule.map (fun p => p.band * 2048 + p.minute))).map (toBytes 2)).flatten
    ++ ((padSlots unusedWindow 2 (t.workdayWindows.map (fun w => w.start * 2048 + w.stop))).map (toBytes 3)).flatten
    ++ ((padSlots unusedWindow 2 (t.restDayWindows.map (fun w => w.start * 2048 + w.stop))).map (toBytes 3)).flatten

/-! ## Meter codes (R65 to R68) -/

/-- The number that decimal digits write, the first the most significant (R66, R67). -/
def digitsNumber (ds : List Nat) : Nat := ds.foldl (fun n d => 10 * n + d) 0

/-- The plain digits of a code: the first sixteen less their mask digits modulo 10, the last five as they are (R66). -/
def plainDigits (key : Key) (payload : List Byte) : List Nat :=
  let c := payload.map (·.toNat)
  List.zipWith (fun d m => (d + 10 - m) % 10) (c.take 16) key.mask ++ c.drop 16

/-- X, the check value a code's first sixteen plain digits call for (R66). -/
def expectedCheck (key : Key) (n : Nat) : Nat := ((n % 99991) * (key.check + 7) + key.check) % 99991

/-- The check of a code passes when K equals X (R66). -/
def checkPasses (key : Key) (payload : List Byte) : Bool :=
  let p := plainDigits key payload
  digitsNumber (p.drop 16) == expectedCheck key (digitsNumber (p.take 16))

/-- The kind field of a code (R67). -/
def codeKind (key : Key) (payload : List Byte) : Nat := digitsNumber ((plainDigits key payload).take 1)

/-- The issue number field of a code (R67). -/
def codeIssue (key : Key) (payload : List Byte) : Nat := digitsNumber (((plainDigits key payload).drop 1).take 5)

/-- The value digits of a code (R67). -/
def codeValueDigits (key : Key) (payload : List Byte) : List Nat := ((plainDigits key payload).drop 6).take 8

/-- The value field of a code (R67). -/
def codeValue (key : Key) (payload : List Byte) : Nat := digitsNumber (codeValueDigits key payload)

/-- The sub field of a code (R67). -/
def codeSub (key : Key) (payload : List Byte) : Nat := digitsNumber (((plainDigits key payload).drop 14).take 2)

/-- The `n` decimal digits of a number, the most significant first. -/
def decimalDigits (n x : Nat) : List Nat := (List.range n).map (fun i => x / 10 ^ (n - 1 - i) % 10)

/-- The payload of a meter code made under a key, as the vending system makes it (R66, the worked example of
section 4.2). -/
def makeCode (key : Key) (kind issue value sub : Nat) : List Byte :=
  let plain := decimalDigits 1 kind ++ decimalDigits 5 issue ++ decimalDigits 8 value ++ decimalDigits 2 sub
  let masked := List.zipWith (fun d m => (d + m) % 10) plain key.mask
  (masked ++ decimalDigits 5 (expectedCheck key (digitsNumber plain))).map (BitVec.ofNat 8)

/-- The value and the sub of a code lie in the range of its kind (R68). -/
def codeInRange (kind value sub : Nat) : Bool :=
  match kind with
  | 0 => 1 ≤ value && value ≤ maxMoney && sub == 0
  | 1 => value ≤ maxEmergency && sub == 0
  | 2 => value ≤ maxMoney && sub ≤ 50
  | 3 => value ≤ 9999999 && sub ≤ 3
  | 4 => value == 0 && 1 ≤ sub && sub ≤ 48
  | 5 => value == 0 && sub ≤ 5
  | 6 => true
  | 7 => true
  | 8 => value == 0 && sub == 0
  | _ => false

/-- The tamper kinds that a clear names: 0 names all five, 1 to 5 one of them (R82, R147). -/
def clearKinds (n : Nat) : List TamperKind :=
  match n with
  | 0 => [.mainCover, .terminalCover, .magnetic, .reverseFlow, .loadSideVoltage]
  | 1 => [.mainCover]
  | 2 => [.terminalCover]
  | 3 => [.magnetic]
  | 4 => [.reverseFlow]
  | 5 => [.loadSideVoltage]
  | _ => []

/-! ## The policy of REMOTE_CONNECT (R103) -/

/-- The policy that the two payload bytes name; none where R103 refuses them with RANGE. -/
def decodePolicy (payload : List Byte) : Option Policy :=
  let minutes := field payload 1 1
  match field payload 0 1 with
  | 0 => if minutes = 0 then some .auto else none
  | 1 => if minutes = 0 then some .press else none
  | 2 => if 1 ≤ minutes ∧ minutes ≤ 240 then some (.pressWithin minutes) else none
  | _ => none

/-! ## Settings by number (R196) -/

/-- The size in bytes of a setting's value; none for a number that names no setting. -/
def settingSize (n : Nat) : Option Nat :=
  match n with
  | 1 => some 1 | 2 => some 4 | 3 => some 4 | 4 => some 4 | 5 => some 2 | 6 => some 1 | 7 => some 2 | 8 => some 1
  | 9 => some 1 | 10 => some 1 | 11 => some 1 | 12 => some 1 | 13 => some 1 | 14 => some 1 | 15 => some 1
  | 16 => some 1 | 17 => some 1 | 18 => some 1 | 19 => some 1 | 20 => some 1 | 21 => some 1 | 22 => some 1
  | 23 => some 2 | 24 => some 1 | 25 => some 2 | 26 => some 2 | 27 => some 2 | 28 => some 2 | _ => none

/-- A value brought to the nearer end of a range. -/
def clamp (low high x : Nat) : Nat := if x < low then low else if high < x then high else x

/-- The value of a setting as WRITE_SETTING takes it: clamped where the treatment is CLAMP, none where it is refused
with RANGE (R196, R197). -/
def settingAccepted (n x : Nat) : Option Nat :=
  match n with
  | 1 => if x = 1 ∨ x = 3 then some x else none
  | 2 => some (clamp 0 999999 x)
  | 3 => some (clamp 0 99999 x)
  | 4 => some (clamp 0 9999999 x)
  | 5 => some (clamp 0 600 x)
  | 6 => if x ≤ 1 then some x else none
  | 7 => some x
  | 8 => if x ≤ 1 then some x else none
  | 9 => some (clamp 1 60 x)
  | 10 => if x ≤ 1 then some x else none
  | 11 => some (clamp 1 255 x)
  | 12 => some x
  | 13 | 14 | 15 | 16 | 17 => if 1 ≤ x ∧ x ≤ 3 then some x else none
  | 18 | 19 | 20 | 21 | 22 => some (clamp 1 255 x)
  | 23 => some (clamp 17 256 x)
  | 24 => if 1 ≤ x ∧ x ≤ 3 then some x else none
  | 25 => some (clamp 20 200 x)
  | 26 => some (clamp 100 1000 x)
  | 27 | 28 => if x % 2 = 0 ∧ x < 8192 then some x else none
  | _ => none

/-- The blocks that make a setting's write (R196). -/
inductive SettingOwner where
  | store
  | account
  | tamper
  deriving DecidableEq, Repr

/-- The block that takes a setting (R196). -/
def settingOwner (n : Nat) : SettingOwner :=
  if n = 2 ∨ n = 4 then .account else if 13 ≤ n ∧ n ≤ 22 then .tamper else .store

/-- The tamper kind that a setting from 13 to 22 concerns (R196). -/
def settingKind (n : Nat) : TamperKind :=
  match n with
  | 13 | 18 => .mainCover
  | 14 | 19 => .terminalCover
  | 15 | 20 => .magnetic
  | 16 | 21 => .reverseFlow
  | _ => .loadSideVoltage

/-- The class that a value 1 to 3 names (R196). -/
def classOfNumber (x : Nat) : TamperClass :=
  match x with
  | 1 => .record
  | 2 => .notify
  | _ => .enforce

/-- Phases in use as a number (R196). -/
def Phases.number : Phases → Nat
  | .one => 1
  | .three => 3

/-- The value of a setting as its number encodes it (R196). -/
def Settings.read (s : Settings) (n : Nat) : Nat :=
  match n with
  | 1 => s.phases.number
  | 2 => s.lowCreditThreshold
  | 3 => s.availabilityThreshold
  | 4 => s.arrearsCeiling
  | 5 => s.graceTime
  | 6 => if s.creditPolicy = .auto then 0 else 1
  | 7 => s.demandLimit
  | 8 => if s.demandMode = .always then 0 else 1
  | 9 => s.loadRestoreDelay
  | 10 => if s.reversePolicy = .add then 0 else 1
  | 11 => s.reverseThreshold
  | 12 => s.fallback
  | 13 | 14 | 15 | 16 | 17 => (s.classes.get (settingKind n)).number
  | 18 | 19 | 20 | 21 | 22 => s.debounces.get (settingKind n)
  | 23 => s.journalLow
  | 24 => match s.release with | .aPort => 1 | .lPort => 2 | .either => 3
  | 25 => s.pulseTime
  | 26 => s.settleTime
  | 27 => s.masks.a.toNat
  | 28 => s.masks.l.toNat
  | _ => 0

/-- The settings with one of them at a new value (R198). -/
def Settings.write (s : Settings) (n x : Nat) : Settings :=
  match n with
  | 1 => { s with phases := if x = 1 then .one else .three }
  | 2 => { s with lowCreditThreshold := x }
  | 3 => { s with availabilityThreshold := x }
  | 4 => { s with arrearsCeiling := x }
  | 5 => { s with graceTime := x }
  | 6 => { s with creditPolicy := if x = 0 then .auto else .press }
  | 7 => { s with demandLimit := x }
  | 8 => { s with demandMode := if x = 0 then .always else .emergencyOnly }
  | 9 => { s with loadRestoreDelay := x }
  | 10 => { s with reversePolicy := if x = 0 then .add else .ignore }
  | 11 => { s with reverseThreshold := x }
  | 12 => { s with fallback := x }
  | 13 | 14 | 15 | 16 | 17 => { s with classes := s.classes.set (settingKind n) (classOfNumber x) }
  | 18 | 19 | 20 | 21 | 22 => { s with debounces := s.debounces.set (settingKind n) x }
  | 23 => { s with journalLow := x }
  | 24 => { s with release := if x = 1 then .aPort else if x = 2 then .lPort else .either }
  | 25 => { s with pulseTime := x }
  | 26 => { s with settleTime := x }
  | 27 => { s with masks := { s.masks with a := BitVec.ofNat 16 x } }
  | 28 => { s with masks := { s.masks with l := BitVec.ofNat 16 x } }
  | _ => s

end Sys2Proof.Machine
end

