-- ==== Sys2Proof/Machine/Flags.lean ====
section
/-! DEFINITION. The conditions that the spec computes from the state and keeps in no field of its own: times of day,
the band and the friendly windows, the credit conditions, the hold list's summary, the effective classes, the TAMPER
hold's condition, the journal's free count, and the flags of STATUS. -/

namespace Sys2Proof.Machine

/-! ## Times of day (R27) -/

/-- The day number of a clock value. -/
def dayNumber (t : Nat) : Nat := t / 86400

/-- The minute of day of a clock value. -/
def minuteOfDay (t : Nat) : Nat := t % 86400 / 60

/-- The weekday of a clock value, 0 to 6. -/
def weekday (t : Nat) : Nat := dayNumber t % 7

/-! ## The tariff (R35, R36, R43) -/

/-- The day type of the day of a clock value is rest day (R35). -/
def TariffSet.isRestDay (t : TariffSet) (clock : Nat) : Bool := t.restDays.getLsbD (weekday clock)

/-- The band of a schedule at a minute of day (R36): that of the last point at or before it, else that of the last
point, else band 0. -/
def scheduleBand (ps : List SwitchPoint) (minute : Nat) : Nat :=
  match (ps.filter (fun p => p.minute ≤ minute)).getLast? with
  | some p => p.band
  | none =>
    match ps.getLast? with
    | some p => p.band
    | none => 0

/-- The band in force at a clock value (R36). -/
def TariffSet.bandAt (t : TariffSet) (clock : Nat) : Nat :=
  scheduleBand (if t.isRestDay clock then t.restDaySchedule else t.workdaySchedule) (minuteOfDay clock)

/-- The price of the band in force at a clock value (R36). -/
def TariffSet.priceAt (t : TariffSet) (clock : Nat) : Nat := t.prices.getD (t.bandAt clock) 0

/-- A friendly window contains a minute of day (R43). -/
def DayWindow.contains (w : DayWindow) (m : Nat) : Bool :=
  if w.start < w.stop then w.start ≤ m && m < w.stop else w.start ≤ m || m < w.stop

/-- A friendly window is in force at a clock value (R43). -/
def TariffSet.friendlyAt (t : TariffSet) (clock : Nat) : Bool :=
  if t.isRestDay clock then t.wholeDayFriendly || t.restDayWindows.any (fun w => w.contains (minuteOfDay clock))
  else t.workdayWindows.any (fun w => w.contains (minuteOfDay clock))

/-! ## The account (R19, R20) -/

/-- The account is exhausted (R19). -/
def Account.exhausted (a : Account) : Bool :=
  a.credit == 0 && !(a.emergencyActive && a.emergencyUsed < a.emergencyLimit)

/-- The arrears-ceiling condition (R20). -/
def ceilingHolds (ceiling : Nat) (a : Account) : Bool := ceiling != 0 && ceiling ≤ a.arrears

/-- The conservation law of the lifetime totals (R24), read modulo 2^48. -/
def Account.balanced (a : Account) : Bool :=
  (a.totalIn + a.emergencyUsed + a.arrears) % totalModulus
    == (a.credit + a.totalCharged + a.totalRecovered) % totalModulus

/-! ## The hold list (R98, R99) -/

/-- The phase of the hold of a kind, if the list holds one (R98). -/
def HoldList.phase (h : HoldList) : HoldKind → Option HoldPhase
  | .credit => h.credit
  | .remote => h.remote.map (·.phase)
  | .tamper => if h.tamper then some .firm else none
  | .load => h.load.map (fun _ => .firm)
  | .trip => if h.trip then some .firm else none

/-- The five kinds of hold. -/
def HoldKind.all : List HoldKind := [.credit, .remote, .tamper, .load, .trip]

/-- The hold list holds no hold. -/
def HoldList.isEmpty (h : HoldList) : Bool := HoldKind.all.all (fun k => h.phase k == none)

/-- The hold list holds a FIRM hold. -/
def HoldList.anyFirm (h : HoldList) : Bool := HoldKind.all.any (fun k => h.phase k == some .firm)

/-- Absent as 0, or the number of the phase (R195). -/
def HoldList.summaryPair (h : HoldList) (k : HoldKind) : Nat := numberOrAbsent (fun p => p.name.number) (h.phase k)

/-- The hold summary: two bits for each kind, CREDIT lowest (R195). -/
def HoldList.summary (h : HoldList) : Nat :=
  h.summaryPair .credit + 4 * h.summaryPair .remote + 16 * h.summaryPair .tamper + 64 * h.summaryPair .load
    + 256 * h.summaryPair .trip

/-! ## Tamper kinds (R143, R145) -/

/-- The five tamper kinds, in kind order. -/
def TamperKind.all : List TamperKind := clearKinds 0

/-- The effective class of a kind: its configured class, but RECORD for TERMINAL_COVER while the window is open
(R143). -/
def Nv.effectiveClass (n : Nv) (k : TamperKind) : TamperClass :=
  if k = .terminalCover ∧ n.window.isSome then .record else n.settings.classes.get k

/-- The TAMPER hold's condition: some kind of effective class ENFORCE is ACTIVE or LATCHED (R145). -/
def Nv.tamperCondition (n : Nv) : Bool :=
  TamperKind.all.any (fun k => n.effectiveClass k == .enforce && (n.tampers.get k).state != .quiet)

/-! ## The journal (R157, R158) -/

/-- Sequence numbers are kept modulo 2^32. -/
def seqModulus : Nat := 2 ^ 32

/-- The record places of the ring. -/
def ringPlaces : Nat := 512

/-- The offset of a sequence number from the release mark (R158). -/
def Journal.offset (j : Journal) (s : Nat) : Nat := (s + seqModulus - j.mark) % seqModulus

/-- The number of unreleased records, W − M_r (R157). -/
def Journal.unreleased (j : Journal) : Nat := j.offset j.newest

/-- The free count (R157). -/
def Journal.free (j : Journal) : Nat := ringPlaces - j.unreleased

/-- The record held in the ring place of a sequence number (R158). -/
def Journal.place (j : Journal) (s : Nat) : Option Record := (j.ring[s % ringPlaces]?).join

/-- The least free count at which a master-caused write is taken (R164). -/
def reserveFloor : Nat := 17

/-! ## Settings that are read as numbers -/

/-- A phase is in use (00_scope.md, Phases). -/
def Phases.uses : Phases → Phase → Bool
  | .three, _ => true
  | .one, .l1 => true
  | .one, _ => false

/-- Some phase in use shows voltage (R127, R134). -/
def Sense.anyInUse (s : Sense) (p : Phases) : Bool := s.l1 || (p == .three && (s.l2 || s.l3))

/-- Every phase in use shows voltage (R127). -/
def Sense.allInUse (s : Sense) (p : Phases) : Bool := s.l1 && (p == .one || (s.l2 && s.l3))

/-- The reading restricted to the phases in use (R128). -/
def Sense.inUse (s : Sense) (p : Phases) : Sense :=
  { l1 := s.l1, l2 := p == .three && s.l2, l3 := p == .three && s.l3 }

/-- A reading agrees with a drive's direction (R127). -/
def Sense.agrees (s : Sense) (p : Phases) : Position → Bool
  | .opened => !s.anyInUse p
  | .closed => s.allInUse p

/-- A notice kind is masked by a port's notice mask: bit k − 1 masks kind k; POWER_UP cannot be masked (R187,
R196). -/
def noticeMasked (mask : BitVec 16) (k : NoticeKind) : Bool := k != .powerUp && mask.getLsbD (k.number - 1)

/-! ## The pins that the part drives -/

/-- The part runs. -/
def State.isRunning (s : State) : Bool := s.power == .running

/-- The blocks have their supply: the part runs, starts up, or works off a taken warning (R201, R205). -/
def State.isSupplied (s : State) : Bool :=
  match s.power with
  | .running | .starting _ | .warned | .lastWrite => true
  | .retain | .reset | .brownOut => false

/-- The attention line of a port: asserted while its notice set is not empty; it keeps its level after a taken warning,
and is deasserted in RETAIN and while RST_N is held (R189, R190). -/
def State.attention (s : State) (p : Port) : Bool := s.isSupplied && !(s.ports.get p).notices.isEmpty

/-- ARDY: asserted while the A-port is READY (R181), and deasserted from a taken warning on (R190). -/
def State.ardy (s : State) : Bool := s.isRunning && s.ports.a.state == .ready

/-- A drive output: asserted in the pulse of an attempt in its direction (R126). -/
def State.driveOutput (s : State) (d : Position) : Bool :=
  match s.driver.drive with
  | some v => v.stage == .pulse && v.direction == d
  | none => false

/-- CDO, the open drive output (R126). -/
def State.cdo (s : State) : Bool := s.driveOutput .opened

/-- CDC, the close drive output (R126). -/
def State.cdc (s : State) : Bool := s.driveOutput .closed

end Sys2Proof.Machine
end

