-- ==== Sys2Proof/Machine/Ops.lean ====
section
/-! DEFINITION. The operations that the blocks share: deadlines, the journal's append and its overflow summary, an
event that gathers records and what follows, its write, the ports' answers and notices, the arrival lists, and the
quanta offered to the account. -/

namespace Sys2Proof.Machine

/-! ## Events that wait -/

/-- A write of an owner is on its way to the store. -/
def State.writing (s : State) (b : Block) : Bool := s.writes.any (fun w => w.owner == b)

/-- The journal is taking an append or a release (R159). -/
def State.journalBusy (s : State) : Bool := s.writes.any (fun w => w.appends || w.owner == .journal)

/-- The journal can take an event: it is taking none, and the event is the oldest that waits, or arrives with none
waiting (R159). -/
def State.journalTakes (s : State) (e : JournalEvent) : Bool :=
  !s.journalBusy && (s.journalWaiting.isEmpty || s.journalWaiting.head? == some e)

/-- The event is an append of a block's write, made by another command than `c`. -/
def JournalEvent.appendOfOther (b : Block) (c : Instr) : JournalEvent → Bool
  | .append owner command => owner == b && command != c
  | .request _ => false

/-- The event is the append of the write that `c` makes. -/
def JournalEvent.appendOf (c : Instr) : JournalEvent → Bool
  | .append _ command => command == c
  | .request _ => false

/-- A block can take no further event that makes a write: a write of its own is on its way, or the append of another
command's waits at the journal, which holds one of each block (R159). -/
def State.blockBusy (s : State) (b : Block) (c : Instr) : Bool :=
  s.writing b || s.journalWaiting.any (JournalEvent.appendOfOther b c)

/-- A command's event may begin a write of a block: the block can take it, and the journal the append, if the write
carries one (R159). -/
def State.mayBegin (s : State) (c : Instr) (b : Block) (appends : Bool) : Bool :=
  !s.blockBusy b c && (!appends || s.journalTakes (.append b c))

/-- The append of a command's write joins the events that wait at the journal, once (R159). -/
def State.joinLine (s : State) (b : Block) (c : Instr) : State :=
  if s.journalWaiting.contains (.append b c) then s
  else { s with journalWaiting := s.journalWaiting ++ [.append b c] }

/-- The append of a command's write waits at the journal no longer. -/
def State.leaveLine (s : State) (c : Instr) : State :=
  { s with journalWaiting := s.journalWaiting.filter (fun e => !e.appendOf c) }

/-- What a command whose event may not begin its write leaves: nothing changed, but for the append that waits at the
journal; an event that its block cannot take yet has no append there (R159, notes/assumptions/18.md). -/
def State.waits (s : State) (c : Instr) (b : Block) : State := if s.blockBusy b c then s else s.joinLine b c

/-- What an event that leaves `t` asks for: the journal's turn for an append of a block that is tested for room (R164),
and the writes it begins. -/
def State.claims (s t : State) (turn : Option Block) : List (Block × Bool) :=
  turn.toList.map (fun b => (b, true)) ++ (t.writes.drop s.writes.length).map (fun w => (w.owner, w.appends))

/-- The event of a command, with the result `t`, taken in `s`, or waiting until the writes it asks for may begin; it is
taken when the command comes again (R159, notes/assumptions/18.md). -/
def State.takes (s : State) (c : Instr) (turn : Option Block) (t : State) : State :=
  match (s.claims t turn).find? (fun x => !s.mayBegin c x.1 x.2) with
  | none => t.leaveLine c
  | some x => s.waits c x.1

/-- The meaning, while the part runs, of a command that makes no write; outside that, no event of a running block takes
place (R201, R202). -/
def ifRunning (s : State) (f : State → State) : Host.Outcome State Fault Refusal :=
  .next (if s.isRunning then f s else s)

/-- The meaning, while the part runs, of a command whose event is taken when its write may begin (R159). -/
def whenRunning (c : Instr) (s : State) (f : State → State) : Host.Outcome State Fault Refusal :=
  ifRunning s (fun s => s.takes c none (f s))

/-- The clock as it stands (R27). -/
def State.clock (s : State) : Nat := s.ret.clock

/-! ## Deadlines -/

/-- A clock value and a duration, held at the clock's largest value (R85, R90, R105, R108, R149). -/
def deadlineHeld (clock duration : Nat) : Nat := min (clock + duration) maxClock

/-- A clock value and a duration where the rule states no holding (R110, R111, R117): beyond the clock's largest value
the deadline is free (notes/assumptions/6.md). -/
def deadlineSum (clock duration : Nat) : Nat :=
  if clock + duration ≤ maxClock then clock + duration else (Config.deadlineBeyondClock (clock + duration)).toNat

/-- A deadline further beyond the clock than its duration is brought to the clock plus its duration (R87, R112,
R153). -/
def limitDeadline (clock duration deadline : Nat) : Nat :=
  if clock + duration < deadline then clock + duration else deadline

/-- The seconds from a time to the clock; free where the time is absent or later than the clock (R142,
notes/assumptions/7.md). -/
def secondsSince (detected : Option Nat) (clock : Nat) : Nat :=
  match detected with
  | some t => if t ≤ clock then clock - t else (Config.spanNotForward t clock).toNat
  | none => (Config.spanNotForward 0 clock).toNat

/-! ## The journal -/

/-- One more of a kind in the entries of the overflow summary, kept in the order of the kind table; a count stops at
255 (R166). -/
def countEntry (k : RecordKind) : List (RecordKind × Nat) → List (RecordKind × Nat)
  | [] => [(k, 1)]
  | (x, n) :: rest =>
    if x = k then (x, min 255 (n + 1)) :: rest
    else if k.number < x.number then (k, 1) :: (x, n) :: rest
    else (x, n) :: countEntry k rest

/-- The overflow summary after a record is counted (R166). -/
def countMissed (o : Option OverflowSummary) (k : RecordKind) (time : Nat) : OverflowSummary :=
  match o with
  | none => { first := time, last := time, entries := [(k, 1)] }
  | some v => { v with last := time, entries := countEntry k v.entries }

/-- A record given the next sequence number and placed in the ring (R158, R163). -/
def Journal.write (j : Journal) (time : Nat) (origin : Origin) (body : RecordBody) : Journal :=
  let seq := (j.newest + 1) % seqModulus
  { j with ring := j.ring.set (seq % ringPlaces) (some ⟨seq, time, origin, body⟩), newest := seq }

/-- One record of an append: written while a place is free, counted in the overflow summary otherwise (R163). -/
def Journal.append (j : Journal) (time : Nat) (origin : Origin) (body : RecordBody) : Journal :=
  if 1 ≤ j.free then j.write time origin body
  else { j with overflow := some (countMissed j.overflow body.kind time) }

/-- The records of one write, one at a time in the order handed (R163). -/
def Journal.appendAll (j : Journal) (time : Nat) (origin : Origin) : List RecordBody → Journal
  | [] => j
  | r :: rest => (j.append time origin r).appendAll time origin rest

/-- The journal notices that a write raises as it takes free from one level to another (R165): of a write that crosses
both, JOURNAL_LOW first, the model's choice of an order that R165 does not give (notes/assumptions/16.md). -/
def journalNotices (low before after : Nat) : List NoticeKind :=
  (if low < before ∧ after ≤ low then [.journalLow] else [])
    ++ (if reserveFloor ≤ before ∧ after < reserveFloor then [.journalFull] else [])

/-- A master's request finds the room that the reserve leaves it (R164). -/
def State.hasRoom (s : State) : Bool := reserveFloor ≤ s.nv.journal.free

/-- The result of an event whose append is tested for room: refused for want of it, or its write begun. Either waits for
the journal's turn, and a release that waits before it may still make room (R164, R169). -/
def State.takesTurn (s : State) (c : Instr) (owner : Block) (t : State) : State := s.takes c (some owner) t

/-! ## An event and its write -/

/-- An event being taken: the state as it makes it, the origin of its records, the journal low threshold as the event
found it (R165), the records in order, and what follows once the write is stored. -/
structure Event where
  state : State
  origin : Origin
  low : Nat
  records : List RecordBody
  follow : List FollowUp

/-- The beginning of an event. -/
def Event.begin (s : State) (origin : Origin) : Event :=
  { state := s, origin := origin, low := s.nv.settings.journalLow, records := [], follow := [] }

/-- The event with one more record. -/
def Event.log (e : Event) (r : RecordBody) : Event := { e with records := e.records ++ [r] }

/-- The event with one more thing that follows its write. -/
def Event.andThen (e : Event) (f : FollowUp) : Event := { e with follow := e.follow ++ [f] }

/-- The event with a notice on both ports once its write is stored. -/
def Event.notify (e : Event) (k : NoticeKind) : Event := e.andThen (.notice k)

/-- The event with the stored state changed. -/
def Event.updateNv (e : Event) (f : Nv → Nv) : Event := { e with state := { e.state with nv := f e.state.nv } }

/-- The event with the driver's volatile state changed. -/
def Event.updateDriver (e : Event) (f : DriverUnit → DriverUnit) : Event :=
  { e with state := { e.state with driver := f e.state.driver } }

/-- The stored state as the event leaves it. -/
def Event.nv (e : Event) : Nv := e.state.nv

/-- The journal as the event's append leaves it. -/
def Event.journal (e : Event) : Journal := e.nv.journal.appendAll e.state.clock e.origin e.records

/-- The stored state that the event's write holds. -/
def Event.image (e : Event) : Nv := { e.nv with journal := e.journal }

/-- The event's write: it joins the writes on their way to the store (R2, R159). Its journal notices are raised after
what the event itself calls for, an order that R165 does not give (notes/assumptions/16.md). -/
def Event.commitSetting (e : Event) (owner : Block) (setsClock : Option Nat) (clears : Option RetentionMark := none) :
    State :=
  let w : Write :=
    { owner := owner
      image := e.image
      appends := !e.records.isEmpty
      setsClock := setsClock
      follow := e.follow ++ (journalNotices e.low e.nv.journal.free e.journal.free).map .notice
      clears := clears }
  { e.state with nv := e.image, writes := e.state.writes ++ [w] }

/-- The event's write, which leaves the clock alone. -/
def Event.commit (e : Event) (owner : Block) : State := e.commitSetting owner none

/-- The event's write, with which a mark of the retention domain is cleared (R155, R203). -/
def Event.commitClearing (e : Event) (owner : Block) (mark : RetentionMark) : State :=
  e.commitSetting owner none (some mark)

/-- The account is taking an event, which ends when its write is stored (R3). -/
def State.accountBusy (s : State) : Bool := s.writing .account

/-- The code unit has an item in service (R69). -/
def State.codeBusy (s : State) : Bool := s.code.service.isSome || s.writing .code

/-- The state with a free choice taken. -/
def State.countChoice (s : State) : State := { s with choices := s.choices + 1 }

/-! ## Ports -/

/-- The state with one port's volatile state changed. -/
def State.updatePort (s : State) (p : Port) (f : PortUnit → PortUnit) : State :=
  { s with ports := s.ports.set p (f (s.ports.get p)) }

/-- The L-port's transmitter takes up a slot that has just been filled, if it is free (R178). -/
def LPortUnit.take (u : LPortUnit) (slot : TxSlot) : LPortUnit :=
  match u.sending with
  | none => { u with sending := some slot }
  | some _ => u

/-- A response put in a port's slot: the port becomes READY, and the L-port's transmitter sends it (R175, R176,
R178). -/
def State.respond (s : State) (p : Port) (f : Frame) : State :=
  let s := s.updatePort p (fun u => { u with state := .ready, request := none, response := some f })
  match p with
  | .a => s
  | .l => { s with lPort := s.lPort.take .response }

/-- An owner's answer with a status byte: put in the response slot, or thrown away if the discard mark is set
(R176). -/
def State.answerByte (s : State) (p : Port) (status : Byte) (payload : List Byte) : State :=
  let u := s.ports.get p
  match u.state, u.request with
  | .working, some r =>
    if u.discard then s.updatePort p (fun u => { u with state := .idle, request := none, discard := false })
    else s.respond p { code := r.code.byte, status := status, payload := payload }
  | _, _ => s

/-- An owner's answer (R176). -/
def State.answer (s : State) (p : Port) (status : Status) (payload : List Byte) : State :=
  s.answerByte p status.byte payload

/-- The request of a port that waits for its owner to take it, if it is the one asked for. -/
def State.requestOf (s : State) (p : Port) (c : RequestCode) : Option Request :=
  match (s.ports.get p).request with
  | some r => if r.code = c ∧ r.taken = false ∧ r.handedSetting = none then some r else none
  | none => none

/-- The setting that a port's WRITE_SETTING has handed on and that its block has not taken. -/
def State.settingOf (s : State) (p : Port) : Option (Nat × Nat) :=
  match (s.ports.get p).request with
  | some r => if r.code = .writeSetting ∧ r.taken = false then r.handedSetting else none
  | none => none

/-- A port's request is taken by its owner; the answer waits for a write. -/
def State.takeRequest (s : State) (p : Port) : State :=
  s.updatePort p (fun u => { u with request := u.request.map (fun r => { r with taken := true }) })

/-- A port's SERVICE-group request is still permitted when its owner takes it: the window is open, or the request
belongs at that port to NETWORK as well (R150). -/
def State.stillPermitted (s : State) (p : Port) (c : RequestCode) : Bool := c.permitted s.nv.window.isSome p

/-! ## Notices -/

/-- The notices of a set after a raise of a kind that is not masked (R186). -/
def raiseInto (k : NoticeKind) (time : Nat) : List Notice → List Notice
  | [] => [⟨k, time⟩]
  | n :: rest => if n.kind = k then ⟨k, time⟩ :: rest else n :: raiseInto k time rest

/-- A raise of a notice kind at a port, subject to the mask as stored (R186, R187). -/
def State.raiseAt (s : State) (k : NoticeKind) (p : Port) : State :=
  if noticeMasked (s.stored.settings.masks.get p) k then s
  else s.updatePort p (fun u => { u with notices := raiseInto k s.clock u.notices })

/-- A notice raised on both ports (R186). -/
def State.raise (s : State) (k : NoticeKind) : State := (s.raiseAt k .a).raiseAt k .l

/-! ## The account's arrival list and the quanta -/

/-- An event joins the account's arrival list (R3). -/
def State.arrive (s : State) (e : AccountEvent) : State := { s with arrivals := s.arrivals ++ [e] }

/-- The account may take an event: it is the oldest on the list and no other is being taken (R3). -/
def State.accountTakes (s : State) (e : AccountEvent) : Bool := !s.accountBusy && s.arrivals.head? == some e

/-- The oldest event leaves the arrival list as it is taken. -/
def State.leaveArrivals (s : State) : State := { s with arrivals := s.arrivals.tail }

/-- The pulse input unit offers a quantum if it has one waiting and none outstanding (R51). -/
def State.offerQuantum (s : State) : State :=
  if 0 < s.pulse.waiting ∧ s.pulse.outstanding = false then
    { s with pulse := { s.pulse with waiting := s.pulse.waiting - 1, outstanding := true } }.arrive .quantum
  else s

/-- Quanta added to the waiting count, which stops at 65,535, and offered (R51). -/
def State.addQuanta (s : State) (n : Nat) : State :=
  { s with pulse := { s.pulse with waiting := min 65535 (s.pulse.waiting + n) } }.offerQuantum

/-! ## The tamper monitor's arrival list -/

/-- An event joins the tamper monitor's arrival list (R140). -/
def State.arriveTamper (s : State) (e : TamperEvent) : State :=
  { s with tamper := { s.tamper with arrivals := s.tamper.arrivals ++ [e] } }

/-- The tamper monitor may take an event: it is the oldest on the list and no other is being taken (R140,
notes/assumptions/34.md). -/
def State.tamperTakes (s : State) (e : TamperEvent) : Bool :=
  !s.writing .tamper && s.tamper.arrivals.head? == some e

/-- The oldest event leaves the list as it is taken. -/
def State.leaveTamper (s : State) : State := { s with tamper := { s.tamper with arrivals := s.tamper.arrivals.tail } }

/-! ## The code unit's queue -/

/-- An item joins the code unit's queue (R69). -/
def State.queueCode (s : State) (i : CodeItem) : State :=
  { s with code := { s.code with queue := s.code.queue ++ [i] } }

/-- The code unit may take an item: it is the oldest of the queue and none is in service (R69). -/
def State.codeTakes (s : State) (i : CodeItem) : Bool := !s.codeBusy && s.code.queue.head? == some i

/-- The oldest item leaves the queue as it is taken. -/
def State.leaveQueue (s : State) : State := { s with code := { s.code with queue := s.code.queue.tail } }

/-- The expiry of a port's lockout joins the queue, once, when the clock stands at or past its deadline (R86). -/
def State.queueExpiry (s : State) (p : Port) : State :=
  match s.nv.lockouts.get p with
  | some l =>
    if l.deadline ≤ s.clock ∧ s.code.queue.contains (.lockoutExpiry p) = false then s.queueCode (.lockoutExpiry p)
    else s
  | none => s

/-- The lapse of the pending half joins the queue, once, when the clock stands at or past its deadline; it takes the
place of a lapse whose half is gone (R69, R93). -/
def State.queueLapse (s : State) : State :=
  match s.nv.pendingHalf with
  | some h =>
    if h.deadline ≤ s.clock ∧ s.code.queue.contains (.halfLapse true) = false then
      { s with code := { s.code with queue := s.code.queue.filter (fun i => i != CodeItem.halfLapse false) } }.queueCode
        (.halfLapse true)
    else s
  | none => s

/-- The deadlines of the code unit that the clock has reached give rise to their items (R86, R93). Items that one
advance or set of the clock brings together join in either order by R69; the lapse, the A-port's expiry and the
L-port's, in this order, is the model's choice (notes/assumptions/14.md). -/
def State.queueDeadlines (s : State) : State := (s.queueLapse.queueExpiry .a).queueExpiry .l

end Sys2Proof.Machine
end

