-- ==== Sys2Proof/Machine/SupplyOps.lean ====
section
/-! DEFINITION. What the supply controller and the contactor driver do within an event: the contactor's states and
drives, the six commands of section 5.4, the placing, the passage to FIRM and the removal of holds, and the deadlines
in clock seconds. Each operation works on an `Event`, so that it is stored in the write of the event that causes it
(R100). -/

namespace Sys2Proof.Machine

/-! ## The contactor driver -/

/-- The states in which the voltage watch runs (R134). -/
def Contactor.watched (c : Contactor) : Bool := c == .opened || c == .armed

/-- The states whose entry raises SUPPLY_CHANGED (R125). -/
def Contactor.announced : Contactor → Bool
  | .closed | .opened | .armed | .welded | .stuckOpen => true
  | .breakWait | .opening | .closing => false

/-- An entry to a contactor state, with its notices (R118, R125); the LOAD_SIDE_VOLTAGE input becomes inactive unless
the watch runs on (R134). -/
def Event.enter (e : Event) (c : Contactor) : Event :=
  let stays := e.nv.contactor.watched && c.watched
  let e := e.updateDriver (fun d => { d with voltageInput := d.voltageInput && stays })
  let e := e.updateNv (fun n => { n with contactor := c })
  let e := if c.announced then e.notify .supplyChanged else e
  if c = .armed then e.notify .armed else e

/-- The first attempt of a drive, with the times read at its beginning (R124, R126). -/
def newDrive (n : Nv) (direction : Position) (cause : DriveCause) (origin : Origin) : Drive where
  direction := direction
  cause := cause
  origin := origin
  retryCount := 0
  stage := .pulse
  pulseMs := n.settings.pulseTime
  settleMs := n.settings.settleTime

/-- The contactor state while a drive in a direction is in progress (R124). -/
def Position.driving : Position → Contactor
  | .opened => .opening
  | .closed => .closing

/-- The beginning of a drive: the target, the contactor state and the first attempt (R126). The first pulse begins at
the event and does not wait for the write of the drive's beginning: the model's choice (notes/assumptions/33.md). -/
def Event.beginDrive (e : Event) (direction : Position) (cause : DriveCause) (origin : Origin) : Event :=
  let e := e.updateNv (fun n => { n with driveTarget := direction })
  let e := e.enter direction.driving
  e.updateDriver (fun d => { d with drive := some (newDrive e.nv direction cause origin) })

/-! ## The commands of the supply controller (R113) -/

/-- The arm deadline leaves the store. -/
def Event.dropArmDeadline (e : Event) : Event := e.updateNv (fun n => { n with armDeadline := none })

/-- open: begin an open drive. -/
def Event.giveOpen (e : Event) : Event := e.beginDrive .opened .command .device

/-- wait: hold an opening back. -/
def Event.giveWait (e : Event) : Event := e.enter .breakWait

/-- resume: return from a wait. -/
def Event.giveResume (e : Event) : Event := e.enter .closed

/-- close: begin a close drive with the origin it is given; an arm deadline is removed (R118, R121). -/
def Event.giveClose (e : Event) (origin : Origin) : Event :=
  e.dropArmDeadline.beginDrive .closed .command origin

/-- arm: enter ARMED, with an arm deadline for PRESS_WITHIN (R117, R118). -/
def Event.giveArm (e : Event) (deadline : Option ArmDeadline) : Event :=
  (e.updateNv (fun n => { n with armDeadline := deadline })).enter .armed

/-- disarm: leave ARMED for OPEN; the arm deadline is removed (R118). -/
def Event.giveDisarm (e : Event) : Event := e.dropArmDeadline.enter .opened

/-- What an emptied list does while the contactor is OPEN, by the policy (R117). -/
def Event.armBy (e : Event) (p : Policy) : Event :=
  match p with
  | .auto => e.giveClose .device
  | .press => e.giveArm none
  | .pressWithin m => e.giveArm (some { deadline := deadlineSum e.state.clock (60 * m), minutes := m })

/-- What a hold that becomes FIRM calls for (R114); a placing in ARMED is the matter of `place`. -/
def Event.commandForFirm (e : Event) (k : HoldKind) : Event :=
  match e.nv.contactor with
  | .closed => if e.state.supply.loadx ∧ k ≠ .trip then e.giveWait else e.giveOpen
  | .breakWait => if k = .trip then e.giveOpen else e
  | _ => e

/-- What the emptying of the list does, by the contactor state (R117). -/
def Event.commandForEmptied (e : Event) (p : Policy) : Event :=
  match e.nv.contactor with
  | .opened => e.armBy p
  | .breakWait => e.giveResume
  | _ => e

/-! ## Placing, becoming FIRM, leaving the list -/

/-- The list with a hold of a kind, placed in a phase (R98). -/
def HoldList.place (h : HoldList) (k : HoldKind) (phase : HoldPhase) (byRequest : Bool) (restore : Nat) : HoldList :=
  match k with
  | .credit => { h with credit := some phase }
  | .remote => { h with remote := some { phase := phase, byRequest := byRequest } }
  | .tamper => { h with tamper := true }
  | .load => { h with load := some restore }
  | .trip => { h with trip := true }

/-- The list with the phase of a CREDIT or REMOTE hold changed; the other kinds are always FIRM (R98). -/
def HoldList.rephase (h : HoldList) (k : HoldKind) (phase : HoldPhase) : HoldList :=
  match k with
  | .credit => { h with credit := h.credit.map (fun _ => phase) }
  | .remote => { h with remote := h.remote.map (fun r => { r with phase := phase }) }
  | _ => h

/-- The list without the hold of a kind. -/
def HoldList.remove (h : HoldList) : HoldKind → HoldList
  | .credit => { h with credit := none }
  | .remote => { h with remote := none }
  | .tamper => { h with tamper := false }
  | .load => { h with load := none }
  | .trip => { h with trip := false }

/-- A placing: the hold, its HOLD_PLACED record, and the command it calls for: disarm for a placing in any phase
while ARMED (R118), the command of R114 for one placed FIRM. -/
def Event.place (e : Event) (k : HoldKind) (phase : HoldPhase) (byRequest : Bool) (restore : Nat) : Event :=
  let e := e.updateNv (fun n => { n with holds := n.holds.place k phase byRequest restore })
  let origin := if byRequest then some Port.l else none
  let e := e.log (.holdPlaced k phase origin (if k = .load then some restore else none))
  if e.nv.contactor = .armed then e.giveDisarm
  else if phase = .firm then e.commandForFirm k
  else e

/-- The grace time above 0 with LOADHI asserted: a hold may wait (R108). -/
def State.mayWait (s : State) : Bool := s.supply.loadhi && 0 < s.nv.settings.graceTime

/-- A passage to FIRM of a hold already in the list, with its HOLD_FIRM record and its command (R109, R114). -/
def Event.makeFirm (e : Event) (k : HoldKind) (left : PhaseName) (cause : FirmCause) : Event :=
  let e := e.updateNv (fun n => { n with holds := n.holds.rephase k .firm })
  (e.log (.holdFirm k left cause)).commandForFirm k

/-- A removal: the hold leaves the list with its HOLD_REMOVED record; an emptied list sets the policy in force and
acts on it (R117), and a wait with no FIRM hold left is resumed (R115). -/
def Event.remove (e : Event) (k : HoldKind) (cause : RemovalCause) (named : Option Policy) (policy : Policy) :
    Event :=
  match e.nv.holds.phase k with
  | none => e
  | some had =>
    let e := e.updateNv (fun n => { n with holds := n.holds.remove k })
    if e.nv.holds.isEmpty then
      let e := e.updateNv (fun n => { n with policy := some policy })
      (e.log (.holdRemoved k had.name cause named (some policy))).commandForEmptied policy
    else
      let e := e.log (.holdRemoved k had.name cause named none)
      if e.nv.contactor = .breakWait ∧ e.nv.holds.anyFirm = false then e.giveResume else e

/-! ## The CREDIT hold -/

/-- The policy that the CREDIT reconnection policy setting names (R101). -/
def CreditPolicy.policy : CreditPolicy → Policy
  | .auto => .auto
  | .press => .press

/-- The arrears-ceiling condition as the stored state holds it (R20). -/
def Nv.ceilingHolds (n : Nv) : Bool := Machine.ceilingHolds n.settings.arrearsCeiling n.account

/-- The phase that a CREDIT hold takes at its placing (R108). -/
def Event.creditPhase (e : Event) : HoldPhase :=
  if e.state.clockUnit.windowInForce ∧ e.nv.ceilingHolds = false then .deferred
  else if e.state.mayWait then .grace (deadlineHeld e.state.clock e.nv.settings.graceTime)
  else .firm

/-- A change of the exhausted condition, handed within the account's event (R19, R101). -/
def Event.creditCondition (e : Event) (before after : Bool) : Event :=
  if before = false ∧ after then
    let e := if e.nv.holds.credit = none then e.place .credit e.creditPhase false 0 else e
    e.notify .creditExhausted
  else if before ∧ after = false then e.remove .credit .credit none e.nv.settings.creditPolicy.policy
  else e

/-- A DEFERRED CREDIT hold leaves DEFERRED, for GRACE or FIRM (R110, R111). -/
def Event.leaveDeferred (e : Event) (cause : FirmCause) : Event :=
  if e.state.mayWait then
    let deadline := deadlineSum e.state.clock e.nv.settings.graceTime
    e.updateNv (fun n => { n with holds := n.holds.rephase .credit (.grace deadline) })
  else e.makeFirm .credit .deferred cause

/-- A window edge at the CREDIT hold (R110). -/
def Event.windowEdge (e : Event) (edge : WindowEdge) : Event :=
  match edge, e.nv.holds.credit with
  | .start, some (.grace _) =>
    if e.nv.ceilingHolds then e
    else e.updateNv (fun n => { n with holds := n.holds.rephase .credit .deferred })
  | .stop, some .deferred => e.leaveDeferred .windowEnd
  | _, _ => e

/-- "arrears ceiling reached" at the CREDIT hold (R111). -/
def Event.ceilingReached (e : Event) : Event :=
  match e.nv.holds.credit with
  | some .deferred => e.leaveDeferred .arrearsCeiling
  | _ => e

/-! ## The TAMPER hold -/

/-- The TAMPER hold follows its condition: placed FIRM when it becomes true, with the TAMPER notice, and removed with
policy PRESS when it becomes false (R104, R143, R145). -/
def Event.tamperCondition (e : Event) (before after : Bool) : Event :=
  if before = false ∧ after then if e.nv.holds.tamper then e else e.place .tamper .firm false 0
  else if before ∧ after = false then e.remove .tamper .tamper none .press
  else e

/-! ## Deadlines in clock seconds (R109, R105, R119, R112) -/

/-- The grace deadline of a hold, while it is in GRACE. -/
def HoldList.graceDeadline (h : HoldList) (k : HoldKind) : Option Nat :=
  match h.phase k with
  | some (.grace d) => some d
  | _ => none

/-- A hold in GRACE whose deadline a clock value has reached becomes FIRM (R109). -/
def Event.graceReached (e : Event) (clock : Nat) (k : HoldKind) : Event :=
  match e.nv.holds.graceDeadline k with
  | some d => if d ≤ clock then e.makeFirm k .grace .graceDeadline else e
  | none => e

/-- The LOAD hold whose restore time a clock value has reached is removed (R105). -/
def Event.restoreReached (e : Event) (clock : Nat) : Event :=
  match e.nv.holds.load with
  | some t => if t ≤ clock then e.remove .load .restore none .press else e
  | none => e

/-- An arming whose deadline a clock value has reached lapses (R119). -/
def Event.armReached (e : Event) (clock : Nat) : Event :=
  match e.nv.armDeadline with
  | some a =>
    if a.deadline ≤ clock then
      let e := (e.log (.armLapsed a.deadline a.minutes)).dropArmDeadline
      let e := if e.nv.contactor = .armed then e.giveDisarm else e
      (e.updateNv (fun n => { n with lapseMarker := true })).place .remote .firm false 0
    else e
  | none => e

/-- The hold list with its deadlines limited to the clock (R112). -/
def HoldList.limited (h : HoldList) (clock grace restore : Nat) : HoldList :=
  let limitPhase : HoldPhase → HoldPhase := fun p =>
    match p with
    | .grace d => .grace (limitDeadline clock grace d)
    | p => p
  { h with
    credit := h.credit.map limitPhase
    remote := h.remote.map (fun r => { r with phase := limitPhase r.phase })
    load := h.load.map (limitDeadline clock restore) }

/-- The supply controller's deadlines limited to a clock value: a grace deadline by the grace time, a restore time by the
load restore delay, an arm deadline by its own duration (R112). -/
def Event.limitDeadlines (e : Event) (clock : Nat) : Event :=
  e.updateNv (fun n =>
    { n with
      holds := n.holds.limited clock n.settings.graceTime (60 * n.settings.loadRestoreDelay)
      armDeadline := n.armDeadline.map (fun a => { a with deadline := limitDeadline clock (60 * a.minutes) a.deadline }) })

/-- The event's write, if it changed the hold list or the arm deadline or wrote a record; else nothing is stored. -/
def Event.commitSupply (e : Event) (before : Nv) : State :=
  if e.records.isEmpty ∧ e.nv.holds = before.holds ∧ e.nv.armDeadline = before.armDeadline then e.state
  else e.commit .supply

end Sys2Proof.Machine
end

