-- ==== Sys2Proof/Machine/Layouts.lean ====
section
/-! DEFINITION. The layouts a master sees (section 9.9, R191 to R195, and the payloads of R184, R188, R25): code
results, the first refusal record, journal records, STATUS, SNAPSHOT items, READ_TAMPER and READ_NOTICES. -/

namespace Sys2Proof.Machine

/-! ## Code results -/

/-- The effect of an applied code, laid out by code kind (R193). -/
def CodeEffect.bytes : CodeEffect → List Byte
  | .credit ra re rd v ended => toBytes 4 ra ++ toBytes 4 re ++ toBytes 4 rd ++ toBytes 4 v ++ toBytes 1 (yesNo ended)
  | .emergencyLimit before after => toBytes 4 before ++ toBytes 4 after
  | .debtSet d p d' p' => toBytes 4 d ++ toBytes 1 p ++ toBytes 4 d' ++ toBytes 1 p'
  | .bandPrice band before after => toBytes 1 band ++ toBytes 4 before ++ toBytes 4 after
  | .service closing => toBytes 4 closing
  | .tamperClear results => (results.map (fun r => toBytes 1 r.number)).flatten
  | .keyHeld deadline => toBytes 1 1 ++ toBytes 4 deadline
  | .keyChanged => toBytes 1 2 ++ toBytes 4 0
  | .reconnect removed => toBytes 1 (yesNo removed)

/-- The presence flags of a code result (R193). -/
def CodeResult.flags (r : CodeResult) : Nat :=
  yesNo r.decoded.isSome + 2 * yesNo r.failures.isSome + 4 * yesNo r.lockoutRemaining.isSome
    + 8 * yesNo r.effect.isSome

/-- The code result record: a 13-byte header and the effect (R193). -/
def CodeResult.bytes (r : CodeResult) : List Byte :=
  let decoded := r.decoded.getD (0, 0)
  toBytes 1 r.stage.number ++ [r.outcome.byte] ++ toBytes 1 r.flags ++ toBytes 1 decoded.1 ++ toBytes 4 decoded.2
    ++ toBytes 1 (r.failures.getD 0) ++ toBytes 4 (r.lockoutRemaining.getD 0)
    ++ (match r.effect with | some e => e.bytes | none => [])

/-- The first refusal record, 28 bytes (R193). -/
def FirstRefusal.bytes (r : FirstRefusal) : List Byte :=
  r.digits ++ toBytes 1 r.port.number ++ toBytes 1 r.stage.number ++ [r.outcome.byte] ++ toBytes 4 r.time

/-! ## Journal records (R194) -/

/-- The policy and its minutes, or zeros when absent. -/
def policyBytes (p : Option Policy) : List Byte :=
  toBytes 1 (numberOrAbsent Policy.number p) ++ toBytes 1 (numberOrAbsent Policy.minutes p)

/-- The grace deadline that a phase carries, or 0. -/
def HoldPhase.deadline : HoldPhase → Nat
  | .grace d => d
  | _ => 0

/-- The body of a record: the fields of R161 in order, in the sizes of R194. -/
def RecordBody.bytes : RecordBody → List Byte
  | .codeApplied kind issue effect => toBytes 1 kind ++ toBytes 4 issue ++ effect.bytes
  | .lockoutBegan port minutes deadline =>
    toBytes 1 port.number ++ toBytes 1 1 ++ toBytes 1 minutes ++ toBytes 4 deadline
  | .lockoutEnded port => toBytes 1 port.number ++ toBytes 1 2 ++ toBytes 1 0 ++ toBytes 4 0
  | .keyHalfHeld kind issue => toBytes 1 kind.number ++ toBytes 4 issue
  | .keyHalfLapsed kind issue => toBytes 1 kind.number ++ toBytes 4 issue
  | .keyChanged first second => toBytes 4 first ++ toBytes 4 second
  | .emergencyStart credit limit => toBytes 4 credit ++ toBytes 4 limit
  | .standing days last charged recovered passed =>
    toBytes 1 days ++ toBytes 2 last ++ toBytes 4 charged ++ toBytes 4 recovered ++ toBytes 2 passed
  | .debtSet d p x d' p' x' =>
    toBytes 4 d ++ toBytes 1 p ++ toBytes 4 x ++ toBytes 4 d' ++ toBytes 1 p' ++ toBytes 4 x'
  | .holdPlaced kind phase origin restore =>
    toBytes 1 kind.number ++ toBytes 1 phase.name.number ++ toBytes 4 phase.deadline
      ++ toBytes 1 (numberOrAbsent Port.number origin) ++ toBytes 4 (restore.getD 0)
  | .holdFirm kind left cause => toBytes 1 kind.number ++ toBytes 1 left.number ++ toBytes 1 cause.number
  | .holdRemoved kind had cause named took =>
    toBytes 1 kind.number ++ toBytes 1 had.number ++ toBytes 1 cause.number ++ policyBytes named
      ++ toBytes 1 (yesNo took.isSome) ++ policyBytes took
  | .supplyOpened cause attempts => toBytes 1 cause.number ++ toBytes 1 attempts
  | .supplyClosed cause attempts => toBytes 1 cause.number ++ toBytes 1 attempts
  | .armLapsed deadline minutes => toBytes 4 deadline ++ toBytes 1 minutes
  | .closeLate => []
  | .contactorFaultVerify entered cause showed =>
    toBytes 1 entered.number ++ toBytes 1 1 ++ toBytes 1 cause.number ++ toBytes 1 showed.number
  | .contactorFaultPulses => toBytes 1 FaultState.welded.number ++ toBytes 1 2 ++ toBytes 1 0 ++ toBytes 1 0
  | .tamperDetected kind count cls entered =>
    toBytes 1 kind.number ++ toBytes 2 count ++ toBytes 1 cls.number ++ toBytes 1 (yesNo entered.isSome)
      ++ toBytes 1 (numberOrAbsent TamperState.number entered)
  | .tamperEnded kind seconds => toBytes 1 kind.number ++ toBytes 4 seconds
  | .tamperCleared kind path => toBytes 1 kind.number ++ toBytes 1 path.number
  | .serviceStart closing minutes wasOpen => toBytes 4 closing ++ toBytes 1 minutes ++ toBytes 1 (yesNo wasOpen)
  | .serviceEnd cause cover level placed =>
    toBytes 1 cause.number ++ toBytes 1 cover.number ++ toBytes 1 (if level then 1 else 2) ++ toBytes 1 (yesNo placed)
  | .tariffStaged time replaced => toBytes 1 1 ++ toBytes 4 time ++ toBytes 1 (yesNo replaced)
  | .tariffCancelled => toBytes 1 2 ++ toBytes 4 0 ++ toBytes 1 1
  | .tariffActivated time => toBytes 4 time
  | .clockSet old new passed => toBytes 4 old ++ toBytes 4 new ++ toBytes 2 passed
  | .outage cause intact duration passed =>
    toBytes 1 cause.number ++ toBytes 1 (yesNo intact) ++ toBytes 4 (duration.getD 0) ++ toBytes 2 passed
  | .overflowSummary v =>
    toBytes 4 v.first ++ toBytes 4 v.last ++ toBytes 1 v.entries.length
      ++ (v.entries.map (fun x => toBytes 1 x.1.number ++ toBytes 1 x.2)).flatten
  | .settingChanged number before after => toBytes 1 number ++ toBytes 4 before ++ toBytes 4 after

/-- A journal record as READ_JOURNAL returns it: an 11-byte fixed part and the body (R194). -/
def Record.bytes (r : Record) : List Byte :=
  let body := r.body.bytes
  toBytes 1 (11 + body.length) ++ toBytes 4 r.seq ++ toBytes 4 r.time ++ toBytes 1 r.body.kind.number
    ++ toBytes 1 r.origin.number ++ body

/-! ## STATUS, SNAPSHOT, READ_TAMPER, READ_NOTICES -/

/-- The flags of a byte, bit 0 first. -/
def flagsNumber : List Bool → Nat
  | [] => 0
  | b :: bs => yesNo b + 2 * flagsNumber bs

/-- The status flags, two bytes (R195). -/
def State.statusFlags (s : State) : List Byte :=
  let n := s.stored
  toBytes 1 (flagsNumber [n.account.emergencyActive, n.account.exhausted, n.account.lowCredit == .atOrBelow,
      n.lapseMarker, s.clockUnit.windowInForce, n.window.isSome, n.pendingTariff.isSome, n.ceilingHolds])
    ++ toBytes 1 (flagsNumber [n.pendingHalf.isSome, n.lockouts.a.isSome, n.lockouts.l.isSome,
      n.journal.overflow.isSome])

/-- The policy in force and its minutes, FFh and 0 if absent (R184). -/
def policyInForceBytes : Option Policy → List Byte
  | none => [0xFF, 0x00]
  | some p => toBytes 1 p.number ++ toBytes 1 p.minutes

/-- The 51-byte payload of STATUS: stored values as the last stored write left them (R184). -/
def State.statusPayload (s : State) : List Byte :=
  let n := s.stored
  toBytes 4 s.clock ++ toBytes 1 (yesNo s.ret.valid) ++ toBytes 4 n.account.credit ++ toBytes 4 n.account.emergencyUsed
    ++ toBytes 4 n.account.emergencyLimit ++ toBytes 4 n.account.arrears ++ s.statusFlags
    ++ toBytes 1 (n.activeTariff.bandAt s.clock) ++ toBytes 2 n.holds.summary ++ toBytes 1 n.contactor.number
    ++ toBytes 4 (numberOrAbsent ArmDeadline.deadline n.armDeadline) ++ policyInForceBytes n.policy
    ++ toBytes 4 s.pulse.lastDemand ++ toBytes 4 n.journal.newest ++ toBytes 4 n.journal.mark
    ++ toBytes 2 n.journal.free ++ toBytes 4 (numberOrAbsent ServiceWindow.closing n.window)

/-- The value of a snapshot item, in its own size (R25, R195): the account's fields from its record, the others as
their blocks hold them. -/
def State.snapshotItem (s : State) (item : Nat) : List Byte :=
  let a := s.nv.account
  match item with
  | 0 => toBytes 4 a.credit
  | 1 => toBytes 1 (yesNo a.emergencyActive)
  | 2 => toBytes 4 a.emergencyUsed
  | 3 => toBytes 4 a.emergencyLimit
  | 4 => toBytes 4 a.arrears
  | 5 => toBytes 6 a.unbooked
  | 6 => toBytes 4 a.debt
  | 7 => toBytes 1 a.recoveryPercent
  | 8 => toBytes 4 a.dailyRecovery
  | 9 => toBytes 4 a.residue
  | 10 => toBytes 6 a.totalIn
  | 11 => toBytes 6 a.totalCharged
  | 12 => toBytes 6 a.totalRecovered
  | 13 => toBytes 1 (s.nv.activeTariff.bandAt s.clock)
  | 14 => toBytes 2 s.nv.holds.summary
  | 15 => toBytes 1 s.nv.contactor.number
  | 16 => toBytes 4 s.nv.journal.newest
  | 17 => toBytes 4 s.clock ++ toBytes 1 (yesNo s.ret.valid)
  | _ => []

/-- The payload of a SNAPSHOT response: the values in the order named (R26). -/
def State.snapshotPayload (s : State) (items : List Byte) : List Byte :=
  (items.map (fun b => s.snapshotItem b.toNat)).flatten

/-- The ten bytes of READ_TAMPER for one kind (R148, R195). -/
def Nv.tamperBytes (n : Nv) (k : TamperKind) : List Byte :=
  let t := n.tampers.get k
  toBytes 1 t.state.number ++ toBytes 2 t.count ++ toBytes 1 (n.settings.classes.get k).number
    ++ toBytes 1 (n.effectiveClass k).number ++ toBytes 1 (n.settings.debounces.get k)
    ++ toBytes 4 (t.detected.getD 0)

/-- The 55-byte payload of READ_TAMPER (R148, R195). -/
def Nv.tamperPayload (n : Nv) : List Byte :=
  (TamperKind.all.map n.tamperBytes).flatten ++ toBytes 1 (yesNo n.window.isSome)
    ++ toBytes 4 (numberOrAbsent ServiceWindow.closing n.window)

/-- The age of a notice: 0 if its time is later than the clock, at most 16,777,215 (R188). -/
def Notice.age (n : Notice) (clock : Nat) : Nat := min (clock - n.time) 16777215

/-- The payload of READ_NOTICES: the clock, and each notice's kind and age, oldest first (R188). -/
def noticesPayload (clock : Nat) (ns : List Notice) : List Byte :=
  toBytes 4 clock ++ (ns.map (fun n => toBytes 1 n.kind.number ++ toBytes 3 (n.age clock))).flatten

/-- The response to RELEASE_JOURNAL: the release mark and free (R195). -/
def Journal.releasePayload (j : Journal) : List Byte := toBytes 4 j.mark ++ toBytes 2 j.free

end Sys2Proof.Machine
end

