-- ==== Sys2Proof/Machine/Code.lean ====
section
/-! DEFINITION. The code unit (chapter 4): the service of a meter code through its stages, its refusal and its commit,
key halves and the key change, lockouts, the first refusal record, and the unit's deadlines. -/

namespace Sys2Proof.Machine

/-! ## Refusal -/

/-- The stages whose refusal resets the submitting port's failure count and lockout step: KIND and every later one
(R79). -/
def CodeStage.resets : CodeStage → Bool
  | .format | .lockout | .check => false
  | _ => true

/-- The submitting port's failure count and lockout step set to 0 (R85). -/
def Nv.resetFailures (n : Nv) (p : Port) : Nv :=
  { n with failures := n.failures.set p 0, lockoutSteps := n.lockoutSteps.set p 0 }

/-- The first refusal record set by a refused code, if it is empty (R88). -/
def Nv.keepRefusal (n : Nv) (c : CodeService) (stage : CodeStage) (outcome : Status) : Nv :=
  match n.firstRefusal with
  | some _ => n
  | none =>
    { n with
      firstRefusal :=
        some { digits := c.digits, port := c.port, stage := stage, outcome := outcome, time := c.taken } }

/-- The code in service ends. -/
def State.endService (s : State) : State := { s with code := { s.code with service := none } }

/-- The end of a refused code (R79): its changes in one refusal write, with the response once that is stored, or the
response at once when nothing changes. The event holds what CHECK has already changed. -/
def Event.refuseCode (e : Event) (c : CodeService) (r : CodeResult) : State :=
  let before := e.nv
  let e :=
    if r.stage.resets then e.updateNv (fun n => n.resetFailures c.port) else e
  let e := e.updateNv (fun n => n.keepRefusal c r.stage r.outcome)
  let e := { e with state := { e.state with code := { e.state.code with service := some { c with atOwner := false } } } }
  if r.stage = .check ∨ before.firstRefusal = none ∨ e.nv.failures ≠ before.failures
      ∨ e.nv.lockoutSteps ≠ before.lockoutSteps then
    ((e.andThen (.answer c.port r.outcome r.bytes)).andThen .codeServed).commit .code
  else (e.state.answer c.port r.outcome r.bytes).endService

/-- A refusal result with the decoded fields, after CHECK (R71). -/
def CodeService.refusal (c : CodeService) (stage : CodeStage) (outcome : Status) : CodeResult where
  stage := stage
  outcome := outcome
  decoded := some (c.kind, c.issue)
  failures := none
  lockoutRemaining := none
  effect := none

/-- A refusal that changes nothing but what R79 gives. -/
def State.refuseCode (s : State) (c : CodeService) (r : CodeResult) : State :=
  (Event.begin s c.port.origin).refuseCode c r

/-! ## Commit -/

/-- An issue number inserted at its place in ascending order. -/
def insertIssue (x : Nat) : List Nat → List Nat
  | [] => [x]
  | y :: ys => if x < y then x :: y :: ys else y :: insertIssue x ys

/-- The spent list holds at most 32 issue numbers (R64). -/
def spentPlaces : Nat := 32

/-- An applied code's issue number inserted, and the smallest dropped if the list was full (R84). -/
def spend (x : Nat) (spent : List Nat) : List Nat :=
  if spentPlaces ≤ spent.length then (insertIssue x spent).tail else insertIssue x spent

/-- The result of an applied code (R71). -/
def CodeService.applied (c : CodeService) (effect : CodeEffect) : CodeResult where
  stage := .done
  outcome := .ok
  decoded := some (c.kind, c.issue)
  failures := none
  lockoutRemaining := none
  effect := some effect

/-- The event of an application with what the code unit adds to it: the issue number spent, the port's count and step
reset, and the CODE_APPLIED record before the further records (R84, R94). -/
def Event.withCode (e : Event) (c : CodeService) (effect : CodeEffect) : Event :=
  let e := e.updateNv (fun n => { n.resetFailures c.port with spent := spend c.issue n.spent })
  { e with records := .codeApplied c.kind c.issue effect :: e.records }

/-- The commit of an applied code, with its response and the end of its service once it is stored (R94). -/
def Event.commitCode (e : Event) (c : CodeService) (effect : CodeEffect) (owner : Block) : State :=
  let r := c.applied effect
  let e := { e with
    state := { e.state with code := { e.state.code with service := some { c with atOwner := false } } }
    follow := .answer c.port .ok r.bytes :: .codeServed :: e.follow }
  e.commit owner

/-- The owner's taking of an application (R70, R78, R164): the application computed, room confirmed for every record
of its commit, the owner's own test, and then the commit. -/
def State.applyCode (s : State) (c : CodeService) (owner : Block) (test : Option Status) (effect : CodeEffect)
    (apply : Event → Event) : State :=
  let e := (apply (Event.begin s c.port.origin)).withCode c effect
  if s.nv.journal.free < e.records.length then s.refuseCode c (c.refusal .room .journalFull)
  else
    match test with
    | some outcome => s.refuseCode c (c.refusal .apply outcome)
    | none => e.commitCode c effect owner

/-- The owner of the application of a kind (R68). -/
def codeOwner (kind : Nat) : Block :=
  if kind ≤ 2 then .account
  else if kind = 3 then .clockTariff
  else if kind ≤ 5 then .tamper
  else if kind = 8 then .supply
  else .code

/-- The application of a kind that waits at its owner (R70). -/
def State.applicationOf (s : State) (kind : Nat) : Option CodeService :=
  match s.code.service with
  | some c => if c.atOwner ∧ c.kind = kind then some c else none
  | none => none

/-- The application of a kind that the tamper monitor may take: the oldest event on its list (R82, R140). -/
def State.tamperApplication (s : State) (kind : Nat) : Option CodeService :=
  if s.tamperTakes .code then s.applicationOf kind else none

/-! ## Lockouts (R85) -/

/-- The duration of the lockout that a failure begins: none before the fifth failure in a row, 1 minute first, then
twice the last, at most 64 (R85). -/
def lockoutMinutes (count step : Nat) : Option Nat :=
  if step = 0 then if count = 5 then some 1 else none
  else some (min 64 (2 * step))

/-- A refusal at CHECK: the count rises, and a lockout may begin with its record (R75, R85). -/
def State.refuseAtCheck (s : State) (c : CodeService) : State :=
  let p := c.port
  let count := min 5 (s.nv.failures.get p + 1)
  let e := (Event.begin s p.origin).updateNv (fun n => { n with failures := n.failures.set p count })
  let r : CodeResult :=
    { stage := .check, outcome := .check, decoded := none, failures := some count, lockoutRemaining := none
      effect := none }
  match lockoutMinutes count (s.nv.lockoutSteps.get p) with
  | none => e.refuseCode c r
  | some m =>
    let deadline := deadlineHeld c.taken (60 * m)
    let e := e.updateNv (fun n =>
      { n with
        lockoutSteps := n.lockoutSteps.set p m
        lockouts := n.lockouts.set p (some { deadline := deadline, minutes := m }) })
    (e.log (.lockoutBegan p m deadline)).refuseCode c { r with lockoutRemaining := some (deadline - c.taken) }

/-! ## Key halves (R90 to R92) -/

/-- The half that a code of kind 6 or 7 carries, with its deadline from the code's taking (R90). -/
def CodeService.half (c : CodeService) (kind : HalfKind) (digits : List Nat) : PendingHalf where
  kind := kind
  issue := c.issue
  digits := digits
  check := c.sub
  deadline := deadlineHeld c.taken 1800

/-- The key that a KEY_FIRST and a KEY_SECOND half make (R91). -/
def keyOfHalves (first second : PendingHalf) : Key where
  mask := first.digits ++ second.digits
  check := 100 * first.check + second.check

/-- A lapse that waits in the queue no longer concerns the pending half, which is paired or replaced (R93). -/
def State.staleLapse (s : State) : State :=
  let mark : CodeItem → CodeItem := fun i =>
    match i with
    | .halfLapse _ => .halfLapse false
    | i => i
  { s with code := { s.code with queue := s.code.queue.map mark } }

/-- A half held as the pending half, in place of any half of its kind (R90). -/
def State.holdHalf (s : State) (c : CodeService) (h : PendingHalf) : State :=
  s.applyCode c .code none (.keyHeld h.deadline) (fun e =>
    let e := { e with state := e.state.staleLapse }
    (e.updateNv (fun n => { n with pendingHalf := some h })).log (.keyHalfHeld h.kind h.issue))

/-- The halves pair: the KEY_FIRST number is one below the KEY_SECOND number (R91). -/
def pairs (first second : PendingHalf) : Bool := first.issue + 1 == second.issue

/-- A half that meets one of the other kind: room confirmed, then PAIR, the code unit's own test, and the new key
installed from the two (R78, R91, R92). -/
def State.changeKey (s : State) (c : CodeService) (first second : PendingHalf) : State :=
  let e := Event.begin s.staleLapse c.port.origin
  let e := (e.log (.keyChanged first.issue second.issue)).withCode c .keyChanged
  if s.nv.journal.free < e.records.length then s.refuseCode c (c.refusal .room .journalFull)
  else if pairs first second = false then s.refuseCode c (c.refusal .apply .pair)
  else
    let e := e.updateNv (fun n =>
      { n with
        key := keyOfHalves first second
        pendingHalf := none
        spent := []
        firstRefusal := none
        failures := ⟨0, 0⟩
        lockoutSteps := ⟨0, 0⟩ })
    (e.notify .keyChanged).commitCode c .keyChanged .code

/-- A key half at its owner's taking by the code unit itself: held, or met with the half of the other kind (R90 to
R92). -/
def State.applyHalf (s : State) (c : CodeService) (h : PendingHalf) : State :=
  match s.nv.pendingHalf with
  | none => s.holdHalf c h
  | some w =>
    match w.kind, h.kind with
    | .first, .second => s.changeKey c w h
    | .second, .first => s.changeKey c h w
    | _, _ => s.holdHalf c h

/-! ## The service of a code (R70) -/

/-- A code put in service. -/
def State.serve (s : State) (c : CodeService) : State := { s with code := { s.code with service := some c } }

/-- The half that a code of kind 6 or 7 in service carries: KEY_FIRST or KEY_SECOND, with the digits of its value under
the key in use (R66, R90). -/
def State.halfOf (s : State) (c : CodeService) : PendingHalf :=
  c.half (if c.kind = 6 then .first else .second) (codeValueDigits s.nv.key c.digits)

/-- A code in service goes on at the code unit: a key half at its own taking, when the journal takes its append, and
one that failed its check at its refusal write. Until then it stays in service with its tests behind it, and goes on
when its command comes again (R70, R78, R79, R164, notes/assumptions/18.md). -/
def State.goOn (s : State) (c : CodeService) : State :=
  if c.atOwner then s.takesTurn (.submitCode c.port) .code (s.applyHalf c (s.halfOf c))
  else s.takes (.submitCode c.port) none (s.refuseAtCheck c)

/-- The code of a port in service whose append waits at the journal (R159). -/
def State.codeAtJournal (s : State) (p : Port) : Option CodeService :=
  match s.code.service with
  | some c => if c.port = p ∧ s.journalWaiting.contains (.append .code (.submitCode p)) then some c else none
  | none => none

/-- A code handed to its owner: kinds 0 to 2 join the account's arrival list and kinds 4 and 5 the tamper monitor's, the
others wait at their owner (R68, R70). -/
def State.handCode (s : State) (c : CodeService) : State :=
  let s := s.serve { c with atOwner := true }
  match codeOwner c.kind with
  | .account => s.arrive .code
  | .tamper => s.arriveTamper .code
  | _ => s

/-- The tests of a code after LOCKOUT (R75 to R78), then its handing to its owner, or, for a key half, its going on at
once (R70). -/
def State.serveChecked (s : State) (c : CodeService) : State :=
  if checkPasses s.nv.key c.digits = false then (s.serve c).goOn c
  else
    let k := s.nv.key
    let c := { c with
      kind := codeKind k c.digits, issue := codeIssue k c.digits, value := codeValue k c.digits, sub := codeSub k c.digits }
    if c.kind = 9 then s.refuseCode c (c.refusal .kind .kind)
    else if s.nv.spent.contains c.issue then s.refuseCode c (c.refusal .spent .used)
    else if s.nv.spent.length = spentPlaces ∧ s.nv.spent.any (fun x => x ≤ c.issue) = false then
      s.refuseCode c (c.refusal .spent .old)
    else if s.nv.journal.free < reserveFloor then s.refuseCode c (c.refusal .room .journalFull)
    else if codeInRange c.kind c.value c.sub = false then s.refuseCode c (c.refusal .apply .value)
    else if c.kind = 6 ∨ c.kind = 7 then
      let c := { c with atOwner := true }
      (s.serve c).goOn c
    else s.handCode c

/-- A code that has just been taken from a port (R70). -/
def State.newService (s : State) (p : Port) (digits : List Byte) : CodeService where
  port := p
  digits := digits
  kind := 0
  issue := 0
  value := 0
  sub := 0
  taken := s.clock
  atOwner := false

/-- The taking of a code: FORMAT and LOCKOUT, then the rest (R70, R73, R74). -/
def State.serveCode (s : State) (p : Port) (digits : List Byte) : State :=
  let c := s.newService p digits
  let r : CodeResult :=
    { stage := .format, outcome := .format, decoded := none, failures := none, lockoutRemaining := none
      effect := none }
  if digits.any (fun b => 9 < b.toNat) then s.refuseCode c r
  else
    match s.nv.lockouts.get p with
    | some l =>
      s.refuseCode c { r with stage := .lockout, outcome := .locked, lockoutRemaining := some (l.deadline - s.clock) }
    | none => s.serveChecked c

/-- SUBMIT_CODE (R70): the code unit takes the code that is the oldest item of its queue; one that it has taken, and
whose append waits at the journal, goes on. -/
def execSubmitCode (p : Port) (s : State) : Host.Outcome State Fault Refusal :=
  ifRunning s (fun s =>
    match s.codeAtJournal p with
    | some c => s.goOn c
    | none =>
      let s := s.leaveLine (.submitCode p)
      match s.codeTakes (.request p) && !s.blockBusy .code (.submitCode p), s.requestOf p .submitCode with
      | true, some r => (s.leaveQueue.takeRequest p).serveCode p r.payload
      | _, _ => s)

/-! ## The first refusal record (R89) -/

/-- READ_FIRST_REFUSAL (R89). -/
def execReadFirstRefusal (p : Port) (s : State) : Host.Outcome State Fault Refusal :=
  ifRunning s (fun s =>
    match s.codeTakes (.request p), s.requestOf p .readFirstRefusal with
    | true, some _ =>
      let payload := match s.nv.firstRefusal with | some r => r.bytes | none => []
      s.leaveQueue.answer p .ok payload
    | _, _ => s)

/-- CLEAR_FIRST_REFUSAL (R89). -/
def execClearFirstRefusal (p : Port) (s : State) : Host.Outcome State Fault Refusal :=
  whenRunning (.clearFirstRefusal p) s (fun s =>
    match s.codeTakes (.request p), s.requestOf p .clearFirstRefusal with
    | true, some _ =>
      match s.nv.firstRefusal with
      | none => s.leaveQueue.answer p .ok []
      | some _ =>
        let e := Event.begin (s.leaveQueue.takeRequest p) p.origin
        let e := e.updateNv (fun n => { n with firstRefusal := none })
        (e.andThen (.answer p .ok [])).commit .code
    | _, _ => s)

/-! ## Deadlines (R86, R87, R93) -/

/-- The lockout of a port removed with its record (R86). -/
def Event.endLockout (e : Event) (p : Port) : Event :=
  (e.updateNv (fun n => { n with lockouts := n.lockouts.set p none })).log (.lockoutEnded p)

/-- LOCKOUT_EXPIRY (R86). -/
def execLockoutExpiry (p : Port) (s : State) : Host.Outcome State Fault Refusal :=
  whenRunning (.lockoutExpiry p) s (fun s =>
    if s.codeTakes (.lockoutExpiry p) then ((Event.begin s.leaveQueue .device).endLockout p).commit .code else s)

/-- The pending half discarded with its record (R93). -/
def Event.discardHalf (e : Event) (h : PendingHalf) : Event :=
  (e.updateNv (fun n => { n with pendingHalf := none })).log (.keyHalfLapsed h.kind h.issue)

/-- PENDING_HALF_LAPSE (R93): a lapse whose half was paired or replaced does nothing. -/
def execPendingHalfLapse (s : State) : Host.Outcome State Fault Refusal :=
  whenRunning .pendingHalfLapse s (fun s =>
    if s.codeTakes (.halfLapse true) then
      match s.nv.pendingHalf with
      | some h => ((Event.begin s.leaveQueue .device).discardHalf h).commit .code
      | none => s.leaveQueue
    else if s.codeTakes (.halfLapse false) then s.leaveQueue
    else s)

/-- The code unit's deadlines limited to the clock (R87). -/
def Nv.limitCodeDeadlines (n : Nv) (clock : Nat) : Nv :=
  let limit : Lockout → Lockout := fun l => { l with deadline := limitDeadline clock (60 * l.minutes) l.deadline }
  { n with
    lockouts := ⟨n.lockouts.a.map limit, n.lockouts.l.map limit⟩
    pendingHalf := n.pendingHalf.map (fun h => { h with deadline := limitDeadline clock 1800 h.deadline }) }

/-- The deadlines limited to a clock value, stored in one write with no record if any changed (R87). -/
def State.limitCode (s : State) (clock : Nat) : State :=
  let n := s.nv.limitCodeDeadlines clock
  if n.lockouts = s.nv.lockouts ∧ n.pendingHalf = s.nv.pendingHalf then s
  else ((Event.begin s .device).updateNv (fun _ => n)).commit .code

/-- CODE_UNIT_CLOCK_SET (R87). -/
def execCodeUnitClockSet (s : State) : Host.Outcome State Fault Refusal :=
  whenRunning .codeUnitClockSet s (fun s => if s.codeTakes .clockSet then s.leaveQueue.limitCode s.clock else s)

/-! ## Applications at the supply controller (R83) -/

/-- The change that a RECONNECT application makes (R83, R103): the REMOTE hold removed with policy PRESS, and the lapse
marker cleared. -/
def Event.reconnect (e : Event) : Event :=
  (e.updateNv (fun n => { n with lapseMarker := false })).remove .remote .reconnect none .press

/-- RECONNECT (R83). -/
def execReconnect (s : State) : Host.Outcome State Fault Refusal :=
  ifRunning s (fun s =>
    match s.applicationOf 8 with
    | some c =>
      s.takesTurn .reconnect .supply (s.applyCode c .supply none (.reconnect s.nv.holds.remote.isSome) Event.reconnect)
    | none => s.leaveLine .reconnect)

end Sys2Proof.Machine
end

