-- ==== Sys2Proof/Machine/Account.lean ====
section
/-! DEFINITION. The account unit (chapter 1): charging, day closes, the split of a credit code, emergency credit and
debt, the conditions that an event leaves behind, and snapshots. -/

namespace Sys2Proof.Machine

/-! ## Charging (R5) -/

/-- A number kept modulo 2^48, raised (R1). -/
def raiseTotal (t n : Nat) : Nat := if n = 0 then t else (t + n) % totalModulus

/-- One minor unit charged, from the first source that applies (R5). -/
def Account.chargeOne (a : Account) : Account :=
  if 0 < a.credit then { a with credit := a.credit - 1, totalCharged := raiseTotal a.totalCharged 1 }
  else if a.emergencyActive ∧ a.emergencyUsed < a.emergencyLimit then
    { a with emergencyUsed := a.emergencyUsed + 1, totalCharged := raiseTotal a.totalCharged 1 }
  else if a.arrears < maxMoney then
    { a with arrears := a.arrears + 1, totalCharged := raiseTotal a.totalCharged 1 }
  else { a with unbooked := raiseTotal a.unbooked 1 }

/-- What may still be drawn from emergency credit (R5, R18). -/
def Account.emergencyLeft (a : Account) : Nat := if a.emergencyActive then a.emergencyLimit - a.emergencyUsed else 0

/-- `n` minor units charged, one after another by R5: all that each source gives in turn. -/
def Account.charge (a : Account) (n : Nat) : Account :=
  let fromCredit := min n a.credit
  let fromEmergency := min (n - fromCredit) a.emergencyLeft
  let toArrears := min (n - fromCredit - fromEmergency) (maxMoney - a.arrears)
  let toUnbooked := n - fromCredit - fromEmergency - toArrears
  { a with
    credit := a.credit - fromCredit
    emergencyUsed := a.emergencyUsed + fromEmergency
    arrears := a.arrears + toArrears
    unbooked := raiseTotal a.unbooked toUnbooked
    totalCharged := raiseTotal a.totalCharged (fromCredit + fromEmergency + toArrears) }

/-- The micro-minor units that make one minor unit (R8). -/
def residueUnit : Nat := 1000000

/-- A quantum charged at a price, through the cost residue (R8). -/
def Account.chargeQuantum (a : Account) (price : Nat) : Account :=
  let total := a.residue + price
  { a.charge (total / residueUnit) with residue := total % residueUnit }

/-- What the daily recovery takes (R15). -/
def Account.recoverable (a : Account) : Nat := min a.dailyRecovery (min a.debt a.credit)

/-- The daily recovery taken (R15). -/
def Account.recover (a : Account) : Account :=
  let x := a.recoverable
  { a with credit := a.credit - x, debt := a.debt - x, totalRecovered := raiseTotal a.totalRecovered x }

/-- One day closed: the standing charge, then the daily recovery (R15). -/
def Account.closeDay (a : Account) (standing : Nat) : Account := (a.charge standing).recover

/-- Several days closed one after another, and the sum recovered over them (R16). -/
def Account.closeDays (a : Account) (standing : Nat) : Nat → Account × Nat
  | 0 => (a, 0)
  | k + 1 =>
    let x := (a.charge standing).recoverable
    let rest := (a.closeDay standing).closeDays standing k
    (rest.1, x + rest.2)

/-! ## Credit codes (R9, R10) -/

/-- The parts of a credit code's amount (R9). -/
structure Split where
  repaidArrears : Nat
  repaidEmergency : Nat
  recovered : Nat
  credited : Nat
  deriving DecidableEq, Repr

/-- The split of an amount on an account (R9). -/
def Account.split (a : Account) (v : Nat) : Split :=
  let ra := min v a.arrears
  let v1 := v - ra
  let re := min v1 a.emergencyUsed
  let v2 := v1 - re
  let rd := min a.debt (v2 * a.recoveryPercent / 100)
  { repaidArrears := ra, repaidEmergency := re, recovered := rd, credited := v2 - rd }

/-- An applied credit code ends emergency credit: it was active, and E is 0 after the code (R11). -/
def Account.endsEmergency (a : Account) (v : Nat) : Bool :=
  a.emergencyActive && a.emergencyUsed - (a.split v).repaidEmergency == 0

/-- The account after an applied credit code (R9, R11). -/
def Account.applyCredit (a : Account) (v : Nat) : Account :=
  let p := a.split v
  { a with
    credit := a.credit + p.credited
    emergencyActive := a.emergencyActive && !a.endsEmergency v
    emergencyUsed := a.emergencyUsed - p.repaidEmergency
    arrears := a.arrears - p.repaidArrears
    debt := a.debt - p.recovered
    totalIn := raiseTotal a.totalIn v
    totalRecovered := raiseTotal a.totalRecovered p.recovered }

/-- The credit part would carry C past its largest value (R10). -/
def Account.overflows (a : Account) (v : Nat) : Bool := maxMoney < a.credit + (a.split v).credited

/-! ## What an event leaves behind (R4) -/

/-- The low-credit state re-evaluated against the threshold, with CREDIT_LOW at a fall (R21, R22). -/
def Event.lowCredit (e : Event) : Event :=
  let a := e.nv.account
  let low := a.credit ≤ e.nv.settings.lowCreditThreshold
  match a.lowCredit with
  | .above =>
    if low then (e.updateNv (fun n => { n with account := { n.account with lowCredit := .atOrBelow } })).notify .creditLow
    else e
  | .atOrBelow =>
    if low then e else e.updateNv (fun n => { n with account := { n.account with lowCredit := .above } })

/-- The low-credit state at the end of an event that may have changed C (R21). -/
def Event.lowCreditIfChanged (e : Event) (before : Account) : Event :=
  if e.nv.account.credit = before.credit then e else e.lowCredit

/-- "arrears ceiling reached" handed after the write when the condition begins to hold (R4, R20). -/
def Event.handCeiling (e : Event) (before : Nv) : Event :=
  if before.ceilingHolds = false ∧ e.nv.ceilingHolds then e.andThen .ceilingReached else e

/-- The conditions evaluated once on the record as an event leaves it (R4): the low-credit state, the exhausted
condition with the CREDIT hold, and the arrears-ceiling condition. -/
def Event.accountResults (e : Event) (before : Nv) : Event :=
  let e := e.lowCreditIfChanged before.account
  let e := e.creditCondition before.account.exhausted e.nv.account.exhausted
  e.handCeiling before

/-- The event with the account record changed. -/
def Event.updateAccount (e : Event) (f : Account → Account) : Event :=
  e.updateNv (fun n => { n with account := f n.account })

/-! ## Energy (R7, R8) -/

/-- The price of the band in force, as the account reads it when it takes a quantum (R7, R36). -/
def State.priceInForce (s : State) : Nat := s.nv.activeTariff.priceAt s.clock

/-- The event of a quantum (R8). -/
def State.quantumEvent (s : State) : Event :=
  let e := (Event.begin s .device).updateAccount (fun a => a.chargeQuantum s.priceInForce)
  (e.accountResults s.nv).andThen .quantumTaken

/-- ENERGY_QUANTUM (R8): the account takes the quantum that is the oldest event on its list. -/
def execEnergyQuantum (s : State) : Host.Outcome State Fault Refusal :=
  whenRunning .energyQuantum s (fun s =>
    if s.accountTakes .quantum then s.leaveArrivals.quantumEvent.commit .account else s)

/-! ## Day closes (R15, R16) -/

/-- The event of a day close of one or several days, with its STANDING record and the stored clock (R15, R16, R30,
R46). -/
def State.dayCloseEvent (s : State) (d : DayCloseEvent) : Event :=
  let standing := s.nv.activeTariff.standingCharge
  let closed := s.nv.account.closeDays standing d.days
  let e := (Event.begin s .device).updateNv (fun n =>
    { n with account := closed.1, lastChargedDay := d.last, storedClock := s.clock })
  let e := e.log (.standing d.days d.last (d.days * standing) closed.2 d.passedOver)
  let e := e.accountResults s.nv
  let e := if closed.1.credit = s.nv.account.credit then e else e.notify .creditChanged
  e.andThen .dayCloseTaken

/-- DAY_CLOSE (R15). -/
def execDayClose (s : State) : Host.Outcome State Fault Refusal :=
  whenRunning .dayClose s (fun s =>
    match s.accountTakes .dayClose, s.clockUnit.dayClose with
    | true, some d =>
      ({ s.leaveArrivals with clockUnit := { s.clockUnit with dayCloseTaking := true } }.dayCloseEvent d).commit .account
    | _, _ => s)

/-! ## Codes at the account (R80) -/

/-- The application of a kind that the account may take: the oldest event on its list (R3, R80). -/
def State.accountApplication (s : State) (kind : Nat) : Option CodeService :=
  if s.accountTakes .code then s.applicationOf kind else none

/-- The effect of a credit code (R11, R71). -/
def Account.creditEffect (a : Account) (v : Nat) : CodeEffect :=
  let p := a.split v
  .credit p.repaidArrears p.repaidEmergency p.recovered p.credited (a.endsEmergency v)

/-- The application of a credit code within an event (R9, R11). -/
def Event.applyCredit (e : Event) (v : Nat) : Event :=
  let before := e.nv
  ((e.updateAccount (fun a => a.applyCredit v)).accountResults before).notify .creditChanged

/-- CREDIT (R9, R10). -/
def execCredit (s : State) : Host.Outcome State Fault Refusal :=
  ifRunning s (fun s =>
    match s.accountApplication 0 with
    | some c =>
      let a := s.nv.account
      s.takesTurn .credit .account
        (s.leaveArrivals.applyCode c .account (if a.overflows c.value then some .overflow else none)
          (a.creditEffect c.value) (fun e => e.applyCredit c.value))
    | none => s.leaveLine .credit)

/-- The application of an emergency limit within an event (R12). -/
def Event.applyLimit (e : Event) (v : Nat) : Event :=
  let before := e.nv
  (e.updateAccount (fun a => { a with emergencyLimit := v })).accountResults before

/-- EMERGENCY_LIMIT (R12). -/
def execEmergencyLimit (s : State) : Host.Outcome State Fault Refusal :=
  ifRunning s (fun s =>
    match s.accountApplication 1 with
    | some c =>
      s.takesTurn .emergencyLimit .account
        (s.leaveArrivals.applyCode c .account none (.emergencyLimit s.nv.account.emergencyLimit c.value)
          (fun e => e.applyLimit c.value))
    | none => s.leaveLine .emergencyLimit)

/-- DEBT_SET (R13). -/
def execDebtSet (s : State) : Host.Outcome State Fault Refusal :=
  ifRunning s (fun s =>
    match s.accountApplication 2 with
    | some c =>
      let a := s.nv.account
      s.takesTurn .debtSet .account
        (s.leaveArrivals.applyCode c .account none (.debtSet a.debt a.recoveryPercent c.value c.sub)
          (fun e => e.updateAccount (fun a => { a with debt := c.value, recoveryPercent := c.sub })))
    | none => s.leaveLine .debtSet)

/-! ## Requests at the account -/

/-- The request of a port that the account may take (R3). -/
def State.accountRequest (s : State) (p : Port) (c : RequestCode) : Option Request :=
  if s.accountTakes (.request p) then s.requestOf p c else none

/-- Emergency credit is available (R17). -/
def State.emergencyAvailable (s : State) : Bool :=
  let a := s.nv.account
  0 < a.emergencyLimit && !a.emergencyActive && a.emergencyUsed == 0
    && a.credit ≤ s.nv.settings.availabilityThreshold

/-- The event of an acceptance of emergency credit (R17). -/
def State.acceptEvent (s : State) : Event :=
  let a := s.nv.account
  let e := (Event.begin s .aPort).updateAccount (fun a => { a with emergencyActive := true })
  let e := (e.log (.emergencyStart a.credit a.emergencyLimit)).accountResults s.nv
  e.andThen (.answer .a .ok [])

/-- ACCEPT_EMERGENCY (R17). -/
def execAcceptEmergency (s : State) : Host.Outcome State Fault Refusal :=
  whenRunning .acceptEmergency s (fun s =>
    match s.accountRequest .a .acceptEmergency with
    | some _ =>
      if s.emergencyAvailable then (s.leaveArrivals.takeRequest .a).acceptEvent.commit .account
      else s.leaveArrivals.answer .a .notAvailable []
    | none => s)

/-- SET_DEBT (R14): range, journal room, and the three debt fields replaced together. -/
def execSetDebt (s : State) : Host.Outcome State Fault Refusal :=
  ifRunning s (fun s =>
    match s.accountRequest .l .setDebt with
    | some r =>
      let d := field r.payload 0 4
      let p := field r.payload 4 1
      let x := field r.payload 5 4
      let a := s.nv.account
      if maxMoney < d ∨ 50 < p ∨ 99999 < x then (s.leaveArrivals.answer .l .range []).leaveLine .setDebt
      else s.takesTurn .setDebt .account
        (if s.hasRoom then
          let e := (Event.begin (s.leaveArrivals.takeRequest .l) .lPort).updateAccount (fun a =>
            { a with debt := d, recoveryPercent := p, dailyRecovery := x })
          let e := e.log (.debtSet a.debt a.recoveryPercent a.dailyRecovery d p x)
          (e.andThen (.answer .l .ok [])).commit .account
        else s.leaveArrivals.answer .l .journalFull [])
    | none => s.leaveLine .setDebt)

/-- SNAPSHOT (R25): every value read as one event, which changes nothing. -/
def execSnapshot (p : Port) (s : State) : Host.Outcome State Fault Refusal :=
  ifRunning s (fun s =>
    match s.accountRequest p .snapshot with
    | some r => s.leaveArrivals.answer p .ok (s.snapshotPayload r.payload)
    | none => s)

/-- ACCOUNT_SETTING_CHANGE (R20, R22): a change of the low-credit threshold or of the friendly arrears ceiling, taken
by the account as the port's event (R197, R198). -/
def execAccountSettingChange (p : Port) (s : State) : Host.Outcome State Fault Refusal :=
  ifRunning s (fun s =>
    match s.accountTakes (.request p), s.settingOf p with
    | true, some (n, v) =>
      if settingOwner n = .account then
        if s.stillPermitted p .writeSetting = false then
          (s.leaveArrivals.answer p .wrongGroup []).leaveLine (.accountSettingChange p)
        else s.takesTurn (.accountSettingChange p) .account
          (if s.hasRoom then
            let e := (Event.begin (s.leaveArrivals.takeRequest p) p.origin).updateNv (fun nv =>
              { nv with settings := nv.settings.write n v })
            let e := e.log (.settingChanged n (s.nv.settings.read n) v)
            let e := if n = 2 then e.lowCredit else e.handCeiling s.nv
            (e.andThen (.answer p .ok (toBytes ((settingSize n).getD 0) v))).commit .account
          else s.leaveArrivals.answer p .journalFull [])
      else s
    | _, _ => s)

end Sys2Proof.Machine
end

