-- ==== Sys2Proof/Machine/Tariff.lean ====
section
/-! DEFINITION. The clock and tariff unit (chapter 2): the clock's advance and sets, the friendly window state, the two
tariff sets, and the days owed to the account. -/

namespace Sys2Proof.Machine

/-! ## The friendly window state (R44, R45) -/

/-- The window state re-evaluated at the clock; a change is handed to the supply controller as an edge (R45). -/
def State.reevaluateWindow (s : State) : State :=
  let inForce := s.nv.activeTariff.friendlyAt s.clock
  if inForce = s.clockUnit.windowInForce then s
  else
    { s with
      clockUnit := { s.clockUnit with windowInForce := inForce }
      supply := { s.supply with edges := s.supply.edges ++ [if inForce then .start else .stop] } }

/-! ## Owed days (R46, R47) -/

/-- The last day of a day-close event, or 0 with none. -/
def lastOf (d : Option DayCloseEvent) : Nat := numberOrAbsent DayCloseEvent.last d

/-- The days that a day-close event covers, or 0 with none. -/
def daysOf (d : Option DayCloseEvent) : Nat := numberOrAbsent DayCloseEvent.days d

/-- The day closed through: the later of the last charged day and the last day of what the unit has handed or will
hand (R46). -/
def State.closedThrough (s : State) : Nat :=
  max s.nv.lastChargedDay (max (lastOf s.clockUnit.dayClose) (lastOf s.clockUnit.laterDayClose))

/-- The number of owed days at a clock value (R46). -/
def State.owedDays (s : State) (clock : Nat) : Nat := dayNumber clock - (s.closedThrough + 1)

/-- A day-close event covers at most 31 days (R46). -/
def maxDays : Nat := 31

/-- The event that further owed days extend, if it is still waiting; none while it is being taken (R47). -/
def ClockUnit.extensible (u : ClockUnit) : Option DayCloseEvent :=
  if u.dayCloseTaking then u.laterDayClose else u.dayClose

/-- A day-close event for `k` more days, ending with the day before the clock's; days beyond 31 are passed over, and
counted in the event itself when a midnight made them owed (R46, R47). -/
def extendDays (d : Option DayCloseEvent) (k clock : Nat) (byMidnight : Bool) : DayCloseEvent where
  days := min maxDays (daysOf d + k)
  last := dayNumber clock - 1
  passedOver :=
    numberOrAbsent DayCloseEvent.passedOver d + (if byMidnight then daysOf d + k - maxDays else 0)

/-- The days owed at a clock value found and handed to the account, as a new event, as an extension of the waiting one,
or kept until the one being taken is stored (R46, R47). -/
def State.handOwed (s : State) (clock : Nat) (byMidnight : Bool) : State :=
  let k := s.owedDays clock
  if s.ret.valid = false ∨ k = 0 then s
  else
    let d := extendDays s.clockUnit.extensible k clock byMidnight
    if s.clockUnit.dayCloseTaking then { s with clockUnit := { s.clockUnit with laterDayClose := some d } }
    else
      let t := { s with clockUnit := { s.clockUnit with dayClose := some d } }
      match s.clockUnit.dayClose with
      | none => t.arrive .dayClose
      | some _ => t

/-- The days that a set to a new value would pass over (R32, R46). -/
def State.passedOverBy (s : State) (clock : Nat) : Nat :=
  if s.owedDays clock = 0 then 0 else daysOf s.clockUnit.extensible + s.owedDays clock - maxDays

/-- MIDNIGHT (R46): the unit looks for owed days at the clock as it then stands. While an event of its own is being
stored the midnight waits, so that a SET_CLOCK hands the days that its record counts (R32, R47). A backward set stored
first leaves it no owed day, the model's choice of the two's order (notes/assumptions/13.md). -/
def execMidnight (s : State) : Host.Outcome State Fault Refusal :=
  ifRunning s (fun s =>
    if s.clockUnit.midnightMark && !s.writing .clockTariff then
      { s with clockUnit := { s.clockUnit with midnightMark := false } }.handOwed s.clock true
    else s)

/-! ## The clock's advance (R27, R28) -/

/-- The clock one second later; it stays at its largest value (R27). -/
def Retention.tick (r : Retention) : Retention := { r with clock := min (r.clock + 1) maxClock }

/-- The boundaries marked as the clock advances onto a value (R28). -/
def ClockUnit.mark (u : ClockUnit) (clock : Nat) (valid : Bool) : ClockUnit :=
  { u with
    minuteMark := u.minuteMark || clock % 60 == 0
    hourMark := u.hourMark || clock % 3600 == 0
    midnightMark := u.midnightMark || (clock % 86400 == 0 && valid) }

/-- The advance while the part runs: the boundaries, and the deadlines of the code unit that join its queue. -/
def State.advance (s : State) : State :=
  if s.clock = maxClock then s
  else
    let ret := s.ret.tick
    { s with ret := ret, clockUnit := s.clockUnit.mark ret.clock ret.valid }.queueDeadlines

/-- The advance while start-up runs: the boundaries are marked, to be taken when the sequence has ended (R207). -/
def State.advanceStarting (s : State) : State :=
  if s.clock = maxClock then s
  else
    let ret := s.ret.tick
    { s with ret := ret, clockUnit := s.clockUnit.mark ret.clock ret.valid }

/-- CLOCK_ADVANCE (R27): after a taken warning the clock alone goes on, and no boundary is taken (R201); in RETAIN and
in reset it goes on as long as the retention domain is intact. -/
def execClockAdvance (s : State) : Host.Outcome State Fault Refusal :=
  .next
    (match s.power with
    | .running => s.advance
    | .starting _ => s.advanceStarting
    | .warned | .lastWrite => { s with ret := s.ret.tick }
    | .retain | .reset | .brownOut => if s.ret.intact then { s with ret := s.ret.tick } else s)

/-! ## Activation (R39) -/

/-- The pending set becomes the active set, with its record (R39). -/
def Event.activate (e : Event) (t : TariffSet) : Event :=
  (e.updateNv (fun n => { n with activeTariff := t, pendingTariff := none })).log (.tariffActivated t.time)

/-- The pending set that is due at a clock value (R39). -/
def Nv.dueTariff (n : Nv) (clock : Nat) : Option TariffSet :=
  match n.pendingTariff with
  | some t => if t.time ≤ clock then some t else none
  | none => none

/-- TARIFF_ACTIVATION (R39): with the clock valid, and judged by the clock as it stands at the taking. An activation time
that the clock has advanced onto, and whose event is not taken before a backward SET_CLOCK is stored, does not activate
until the clock reaches it again: the spec gives no order of the two, and this is the model's choice
(notes/assumptions/13.md). -/
def execTariffActivation (s : State) : Host.Outcome State Fault Refusal :=
  whenRunning .tariffActivation s (fun s =>
    match s.ret.valid, s.nv.dueTariff s.clock with
    | true, some t =>
      ((((Event.begin s .device).activate t).notify .tariffChanged).andThen .windowReevaluated).commit .clockTariff
    | _, _ => s)

/-! ## SET_CLOCK (R31 to R33) -/

/-- The difference of two clock values without regard to sign (R31). -/
def clockStep (x y : Nat) : Nat := (x - y) + (y - x)

/-- The step test of SET_CLOCK (R31). -/
def State.stepPasses (s : State) (new : Nat) : Bool :=
  clockStep new s.clock ≤ 900 || s.nv.window.isSome || !s.ret.valid

/-- The event of a taken SET_CLOCK (R32, R33). -/
def State.setClockEvent (s : State) (new : Nat) : Event :=
  let passed := if s.ret.valid then s.passedOverBy new else 0
  let e := (Event.begin s .lPort).updateNv (fun n =>
    { n with
      storedClock := new
      lastChargedDay := if s.ret.valid then n.lastChargedDay else dayNumber new - 1 })
  let e := e.log (.clockSet s.clock new passed)
  let e := (e.andThen (.answer .l .ok [])).notify .clockChanged
  let e := match s.nv.dueTariff new with
    | some t => (e.activate t).notify .tariffChanged
    | none => e
  e.andThen (.clockMoved s.clock new s.ret.valid)

/-- SET_CLOCK (R31 to R33): the clock takes the new value with the write (notes/assumptions/9.md). -/
def execSetClock (s : State) : Host.Outcome State Fault Refusal :=
  ifRunning s (fun s =>
    match s.requestOf .l .setClock with
    | some r =>
      let new := field r.payload 0 4
      if s.stepPasses new = false then (s.answer .l .clockStep []).leaveLine .setClock
      else s.takesTurn .setClock .clockTariff
        (if s.hasRoom then ((s.takeRequest .l).setClockEvent new).commitSetting .clockTariff (some new)
        else s.answer .l .journalFull [])
    | none => s.leaveLine .setClock)

/-- The pulse input unit's part of a taken set (R55, R56): a set that leaves the minute, or the hour, ends it without a
judgement; one within it leaves its counts, and it no longer ends as a full one. -/
def PulseUnit.clockSet (u : PulseUnit) (old new : Nat) : PulseUnit :=
  { u with
    minuteImports := if old / 60 = new / 60 then u.minuteImports else 0
    minuteExports := if old / 60 = new / 60 then u.minuteExports else 0
    minuteFull := false
    hourExports := if old / 3600 = new / 3600 then u.hourExports else 0
    hourFull := false }

/-- The clock-set event handed to the code unit, merged with one that waits (R69). -/
def State.handClockSet (s : State) : State :=
  if s.code.queue.contains .clockSet then s else s.queueCode .clockSet

/-- The clock-set event handed to the tamper monitor, merged with one that waits (R140, R153). -/
def State.handTamperClockSet (s : State) : State :=
  if s.tamper.arrivals.contains .clockSet then s else s.arriveTamper .clockSet

/-- What a stored SET_CLOCK does at the blocks (R32, R33): the window re-evaluated, the pulse input unit's minute and
hour, the clock-set events, the code unit's deadlines, and the owed days if the clock was valid before. The end of a
minute or of an hour that the clock had passed before the set, and that has not been taken as the set is stored, keeps
its mark and is taken after it: it then ends the short minute or hour, and the next is one that may end full. R55 and
R56 give no order of the two: the model's choice (notes/assumptions/13.md). -/
def State.clockMoved (s : State) (old new : Nat) (wasValid : Bool) : State :=
  let s := s.reevaluateWindow
  let s := { s with
    pulse := s.pulse.clockSet old new
    supply := { s.supply with clockSetHanded := true } }
  let s := s.handTamperClockSet.queueDeadlines.handClockSet
  if wasValid then s.handOwed s.clock false else s

/-! ## Staging, cancelling, reading (R37, R38, R40, R41) -/

/-- The event of a taken STAGE_TARIFF (R38). -/
def State.stageEvent (s : State) (t : TariffSet) : Event :=
  let e := (Event.begin s .lPort).updateNv (fun n => { n with pendingTariff := some t })
  let e := e.log (.tariffStaged t.time s.nv.pendingTariff.isSome)
  let e := e.andThen (.answer .l .ok [])
  if s.ret.valid ∧ t.time ≤ s.clock then ((e.activate t).notify .tariffChanged).andThen .windowReevaluated else e

/-- STAGE_TARIFF (R37, R38). -/
def execStageTariff (s : State) : Host.Outcome State Fault Refusal :=
  ifRunning s (fun s =>
    match s.requestOf .l .stageTariff with
    | some r =>
      match decodeTariff r.payload with
      | none => (s.answer .l .range []).leaveLine .stageTariff
      | some t => s.takesTurn .stageTariff .clockTariff
        (if s.hasRoom then ((s.takeRequest .l).stageEvent t).commit .clockTariff else s.answer .l .journalFull [])
    | none => s.leaveLine .stageTariff)

/-- CANCEL_TARIFF (R40). -/
def execCancelTariff (s : State) : Host.Outcome State Fault Refusal :=
  ifRunning s (fun s =>
    match s.requestOf .l .cancelTariff with
    | some _ =>
      if s.nv.pendingTariff = none then (s.answer .l .ok []).leaveLine .cancelTariff
      else s.takesTurn .cancelTariff .clockTariff
        (if s.hasRoom then
          let e := (Event.begin (s.takeRequest .l) .lPort).updateNv (fun n => { n with pendingTariff := none })
          ((e.log .tariffCancelled).andThen (.answer .l .ok [])).commit .clockTariff
        else s.answer .l .journalFull [])
    | none => s.leaveLine .cancelTariff)

/-- READ_TARIFF (R41). -/
def execReadTariff (p : Port) (s : State) : Host.Outcome State Fault Refusal :=
  ifRunning s (fun s =>
    match s.requestOf p .readTariff with
    | some r =>
      match field r.payload 0 1 with
      | 0 => s.answer p .ok (encodeTariff s.nv.activeTariff)
      | 1 => s.answer p .ok (match s.nv.pendingTariff with | some t => encodeTariff t | none => [])
      | _ => s.answer p .range []
    | none => s)

/-! ## BAND_PRICE (R42) -/

/-- One price of the active set replaced (R42). -/
def Event.setPrice (e : Event) (band price : Nat) : Event :=
  (e.updateNv (fun n => { n with activeTariff := { n.activeTariff with prices := n.activeTariff.prices.set band price } })).notify
    .tariffChanged

/-- BAND_PRICE (R42, R81). -/
def execBandPrice (s : State) : Host.Outcome State Fault Refusal :=
  ifRunning s (fun s =>
    match s.applicationOf 3 with
    | some c =>
      s.takesTurn .bandPrice .clockTariff
        (s.applyCode c .clockTariff none (.bandPrice c.sub (s.nv.activeTariff.prices.getD c.sub 0) c.value)
          (fun e => e.setPrice c.sub c.value))
    | none => s.leaveLine .bandPrice)

end Sys2Proof.Machine
end

