-- ==== Sys2Proof/Machine/Pulse.lean ====
section
/-! DEFINITION. The pulse input unit (chapter 3): the pulse lines, energy quanta, reverse-flow detection, the
measurement minute with the magnetic fallback and the demand limit, and the count of pulses while open. -/

namespace Sys2Proof.Machine

/-! ## Lines (R49) -/

/-- The debounce state of a line. -/
def PulseUnit.line (u : PulseUnit) (d : PulseDirection) (p : Phase) : LineState :=
  match d with
  | .imp => u.importLines.get p
  | .exp => u.exportLines.get p

/-- A line passed to a debounce state. -/
def PulseUnit.setLine (u : PulseUnit) (d : PulseDirection) (p : Phase) (x : LineState) : PulseUnit :=
  match d with
  | .imp => { u with importLines := u.importLines.set p x }
  | .exp => { u with exportLines := u.exportLines.set p x }

/-- A line that is sampled and RESTING: its active level, held for 2 ms, is a pulse (R49). -/
def State.pulseTaken (s : State) (d : PulseDirection) (p : Phase) : Bool :=
  s.nv.settings.phases.uses p && s.pulse.line d p == .resting

/-- The state with the pulse input unit changed. -/
def State.updatePulse (s : State) (f : PulseUnit → PulseUnit) : State := { s with pulse := f s.pulse }

/-- A count of a minute or a waiting count, kept to 0..65,535 (R51, R56). -/
def countTo65535 (n : Nat) : Nat := min 65535 (n + 1)

/-! ## Import pulses (R50, R62, R63) -/

/-- The largest count of pulses while open, at which the hand-off is made (R62, R63). -/
def openPulseLimit : Nat := 11

/-- An import pulse as a pulse while open: counted in OPEN and ARMED, and handed to the contactor driver when it
brings the count to 11 (R62, R63). -/
def State.countOpenPulse (s : State) : State :=
  if s.nv.contactor.watched ∧ s.pulse.openPulses < openPulseLimit then
    let n := s.pulse.openPulses + 1
    let s := s.updatePulse (fun u => { u with openPulses := n })
    if n = openPulseLimit then { s with driver := { s.driver with pulsesHanded := true } } else s
  else s

/-- IMPORT_PULSE (R49, R50). -/
def execImportPulse (p : Phase) (s : State) : Host.Outcome State Fault Refusal :=
  ifRunning s (fun s =>
    if s.pulseTaken .imp p then
      let s := s.updatePulse (fun u =>
        { u.setLine .imp p .asserted with minuteImports := countTo65535 u.minuteImports })
      s.countOpenPulse.addQuanta 1
    else s)

/-! ## Export pulses (R53, R54) -/

/-- The REVERSE_FLOW input becomes active when the hour's count stands at or above the threshold (R54). -/
def PulseUnit.judgeReverse (u : PulseUnit) (threshold : Nat) : PulseUnit :=
  { u with reverseInput := u.reverseInput || threshold ≤ u.hourExports }

/-- EXPORT_PULSE (R49, R53, R54). -/
def execExportPulse (p : Phase) (s : State) : Host.Outcome State Fault Refusal :=
  ifRunning s (fun s =>
    if s.pulseTaken .exp p then
      let s := s.updatePulse (fun u =>
        { u.setLine .exp p .asserted with hourExports := min 255 (u.hourExports + 1) }.judgeReverse
          s.nv.settings.reverseThreshold)
      match s.nv.settings.reversePolicy with
      | .add =>
        (s.updatePulse (fun u => { u with minuteExports := countTo65535 u.minuteExports })).addQuanta 1
      | .ignore => s
    else s)

/-- PULSE_LINE_RESTING (R49). -/
def execPulseLineResting (d : PulseDirection) (p : Phase) (s : State) : Host.Outcome State Fault Refusal :=
  ifRunning s (fun s =>
    if s.nv.settings.phases.uses p then s.updatePulse (fun u => u.setLine d p .resting) else s)

/-- The end of a detection hour: a full hour below the threshold makes the input inactive; the count restarts and the
next hour is full (R54, R55). -/
def PulseUnit.endHour (u : PulseUnit) (threshold : Nat) : PulseUnit :=
  { u with
    reverseInput := u.reverseInput && !(u.hourFull && u.hourExports < threshold)
    hourExports := 0
    hourFull := true }

/-- HOUR_END (R54). -/
def execHourEnd (s : State) : Host.Outcome State Fault Refusal :=
  ifRunning s (fun s =>
    if s.clockUnit.hourMark then
      { s with clockUnit := { s.clockUnit with hourMark := false } }.updatePulse
        (fun u => u.endHour s.nv.settings.reverseThreshold)
    else s)

/-! ## The measurement minute (R56 to R61) -/

/-- The fallback quanta of a full minute: max(0, F × n − m) with MAGNETIC ACTIVE, none otherwise (R57). -/
def State.fallbackQuanta (s : State) : Nat :=
  if (s.nv.tampers.get .magnetic).state = .active then
    s.nv.settings.fallback * s.nv.settings.phases.number - s.pulse.minuteImports
  else 0

/-- The demand mode applies to a minute (R60). -/
def State.demandModeApplies (s : State) : Bool :=
  match s.nv.settings.demandMode with
  | .always => true
  | .emergencyOnly => s.nv.account.emergencyActive || s.clockUnit.windowInForce

/-- The judgement of a minute's demand is over (R59). -/
def State.demandOver (s : State) (demand : Nat) : Bool :=
  s.nv.settings.demandLimit != 0 && s.demandModeApplies && s.nv.settings.demandLimit < demand

/-- A full minute judged: the fallback inserted, then the demand computed and judged (R56, R57, R59). -/
def State.judgeMinute (s : State) : State :=
  let inserted := s.fallbackQuanta
  let demand := 60 * (s.pulse.minuteImports + s.pulse.minuteExports + inserted)
  let isOver := s.demandOver demand
  let s := s.addQuanta inserted
  let s := s.updatePulse (fun u => { u with lastDemand := demand })
  if isOver then { s with supply := { s.supply with demandHanded := true } } else s

/-- The end of a measurement minute: a full one is judged, and either way the counts restart and a full minute begins
(R56). -/
def State.endMinute (s : State) : State :=
  (if s.pulse.minuteFull then s.judgeMinute else s).updatePulse (fun u =>
    { u with minuteImports := 0, minuteExports := 0, minuteFull := true })

/-- MINUTE_END (R28, R56): the pulse input unit ends the minute and the clock and tariff unit re-evaluates the window
state, in the order the command names (R60). -/
def execMinuteEnd (windowFirst : Bool) (s : State) : Host.Outcome State Fault Refusal :=
  ifRunning s (fun s =>
    if s.clockUnit.minuteMark then
      let s := { s with clockUnit := { s.clockUnit with minuteMark := false } }
      if windowFirst then s.reevaluateWindow.endMinute else s.endMinute.reevaluateWindow
    else s)

end Sys2Proof.Machine
end

