-- ==== Sys2Proof/Machine/Supply.lean ====
section
/-! DEFINITION. The supply controller (chapter 5): its requests, the hand-offs of the other blocks, its deadlines, its
inputs and the press. -/

namespace Sys2Proof.Machine

/-! ## Requests -/

/-- The phase of a REMOTE hold placed by a request (R108). -/
def State.remotePhase (s : State) : HoldPhase :=
  if s.mayWait then .grace (deadlineHeld s.clock s.nv.settings.graceTime) else .firm

/-- REMOTE_OPEN (R102). -/
def execRemoteOpen (s : State) : Host.Outcome State Fault Refusal :=
  ifRunning s (fun s =>
    match s.requestOf .l .remoteOpen with
    | some _ =>
      if s.nv.holds.remote.isSome then (s.answer .l .ok []).leaveLine .remoteOpen
      else s.takesTurn .remoteOpen .supply
        (if s.hasRoom then
          (((Event.begin (s.takeRequest .l) .lPort).place .remote s.remotePhase true 0).andThen
            (.answer .l .ok [])).commit .supply
        else s.answer .l .journalFull [])
    | none => s.leaveLine .remoteOpen)

/-- REMOTE_CONNECT (R103): range, hold, journal room, and the removal with the policy named. -/
def execRemoteConnect (s : State) : Host.Outcome State Fault Refusal :=
  ifRunning s (fun s =>
    match s.requestOf .l .remoteConnect with
    | some r =>
      match decodePolicy r.payload with
      | none => (s.answer .l .range []).leaveLine .remoteConnect
      | some policy =>
        if s.nv.holds.remote = none then (s.answer .l .notHeld []).leaveLine .remoteConnect
        else s.takesTurn .remoteConnect .supply
          (if s.hasRoom then
            let e := (Event.begin (s.takeRequest .l) .lPort).updateNv (fun n => { n with lapseMarker := false })
            ((e.remove .remote .remoteConnect (some policy) policy).andThen (.answer .l .ok [])).commit .supply
          else s.answer .l .journalFull [])
    | none => s.leaveLine .remoteConnect)

/-- CLEAR_TRIP (R107). -/
def execClearTrip (p : Port) (s : State) : Host.Outcome State Fault Refusal :=
  whenRunning (.clearTrip p) s (fun s =>
    match s.requestOf p .clearTrip with
    | some _ =>
      if s.stillPermitted p .clearTrip = false then s.answer p .wrongGroup []
      else if s.nv.holds.trip = false then s.answer p .notHeld []
      else if s.supply.thermActive then s.answer p .stillActive []
      else
        (((Event.begin (s.takeRequest p) p.origin).remove .trip .clearTrip none .press).andThen
          (.answer p .ok [])).commit .supply
    | none => s)

/-! ## Hand-offs of the other blocks -/

/-- FRIENDLY_WINDOW_EDGE (R110): the oldest edge handed is taken. -/
def execFriendlyWindowEdge (s : State) : Host.Outcome State Fault Refusal :=
  whenRunning .friendlyWindowEdge s (fun s =>
    match s.supply.edges with
    | [] => s
    | edge :: rest =>
      let s := { s with supply := { s.supply with edges := rest } }
      ((Event.begin s .device).windowEdge edge).commitSupply s.nv)

/-- ARREARS_CEILING_REACHED (R111). -/
def execArrearsCeilingReached (s : State) : Host.Outcome State Fault Refusal :=
  whenRunning .arrearsCeilingReached s (fun s =>
    if s.supply.ceilingHanded then
      let s := { s with supply := { s.supply with ceilingHanded := false } }
      ((Event.begin s .device).ceilingReached).commitSupply s.nv
    else s)

/-- DEMAND_OVER_LIMIT (R105): the hand-off is ignored while a LOAD hold is present. -/
def execDemandOverLimit (s : State) : Host.Outcome State Fault Refusal :=
  whenRunning .demandOverLimit s (fun s =>
    if s.supply.demandHanded then
      let s := { s with supply := { s.supply with demandHanded := false } }
      match s.nv.holds.load with
      | some _ => s
      | none =>
        let restore := deadlineHeld s.clock (60 * s.nv.settings.loadRestoreDelay)
        ((Event.begin s .device).place .load .firm false restore).commit .supply
    else s)

/-- SUPPLY_CLOCK_SET (R112): the deadlines the set moved past are taken as reached, those left too far ahead are
limited. -/
def execSupplyClockSet (s : State) : Host.Outcome State Fault Refusal :=
  whenRunning .supplyClockSet s (fun s =>
    if s.supply.clockSetHanded then
      let s := { s with supply := { s.supply with clockSetHanded := false } }
      let e := ((Event.begin s .device).graceReached s.clock .credit).graceReached s.clock .remote
      (((e.armReached s.clock).restoreReached s.clock).limitDeadlines s.clock).commitSupply s.nv
    else s)

/-! ## Deadlines -/

/-- GRACE_DEADLINE (R109). -/
def execGraceDeadline (k : HoldKind) (s : State) : Host.Outcome State Fault Refusal :=
  whenRunning (.graceDeadline k) s (fun s => ((Event.begin s .device).graceReached s.clock k).commitSupply s.nv)

/-- RESTORE_TIME (R105). -/
def execRestoreTime (s : State) : Host.Outcome State Fault Refusal :=
  whenRunning .restoreTime s (fun s => ((Event.begin s .device).restoreReached s.clock).commitSupply s.nv)

/-- ARM_DEADLINE (R119). -/
def execArmDeadline (s : State) : Host.Outcome State Fault Refusal :=
  whenRunning .armDeadline s (fun s => ((Event.begin s .device).armReached s.clock).commitSupply s.nv)

/-! ## LOADHI and LOADX (R109, R115) -/

/-- A hold in GRACE becomes FIRM for a cause that is no deadline (R109, R122). -/
def Event.graceEnds (e : Event) (cause : FirmCause) (k : HoldKind) : Event :=
  match e.nv.holds.graceDeadline k with
  | some _ => e.makeFirm k .grace cause
  | none => e

/-- A passage of LOADHI or LOADX to deasserted is an event of its own: while the part runs, and while start-up runs once
the step that judges the level has been taken; a passage before that is judged at the step (R99, R207). -/
def Power.fallIsEvent (power : Power) (judged : StartStep) : Bool :=
  match power with
  | .starting q => !q.steps.contains judged
  | _ => true

/-- LOADHI at a level: the holds that it may end the wait of read it at once, and a passage to deasserted is marked until
its event is taken (R99, R109, R207). -/
def State.setLoadhi (s : State) (asserted : Bool) : State :=
  let fell := s.supply.loadhi && !asserted && s.power.fallIsEvent .graceLevels
  { s with supply := { s.supply with loadhi := asserted, loadhiFell := s.supply.loadhiFell || fell } }

/-- LOADX at a level, in the same way (R99, R115, R207). -/
def State.setLoadx (s : State) (asserted : Bool) : State :=
  let fell := s.supply.loadx && !asserted && s.power.fallIsEvent .breakWait
  { s with supply := { s.supply with loadx := asserted, loadxFell := s.supply.loadxFell || fell } }

/-- A change of LOADHI or LOADX, `t` being the state at the new level: while the part runs `f` takes a marked passage;
while start-up runs the passage stays marked until the sequence has ended (R207). -/
def State.levelChange (s t : State) (f : State → State) : State :=
  match s.power with
  | .running => f t
  | .starting _ => t
  | _ => s

/-- The passage of LOADHI to deasserted, taken: every hold in GRACE becomes FIRM in one event (R109). -/
def State.takeLoadhiFall (s : State) : State :=
  let s := { s with supply := { s.supply with loadhiFell := false } }
  (((Event.begin s .device).graceEnds .loadhiEnded .credit).graceEnds .loadhiEnded .remote).commitSupply s.nv

/-- LOADHI_CHANGE (R109): the level, and the event of a marked passage to deasserted. -/
def execLoadhiChange (asserted : Bool) (s : State) : Host.Outcome State Fault Refusal :=
  .next (s.levelChange (s.setLoadhi asserted) (fun t =>
    if t.supply.loadhiFell then t.takes (.loadhiChange false) none t.takeLoadhiFall else t))

/-- The open that a wait ends in when LOADX is deasserted (R115). -/
def State.openFromWait (s : State) : State :=
  if s.nv.contactor = .breakWait then (Event.begin s .device).giveOpen.commit .supply else s

/-- LOADX_CHANGE (R115): the level, and the event of a marked passage to deasserted. -/
def execLoadxChange (asserted : Bool) (s : State) : Host.Outcome State Fault Refusal :=
  .next (s.levelChange (s.setLoadx asserted) (fun t =>
    if t.supply.loadxFell then
      t.takes (.loadxChange false) none { t with supply := { t.supply with loadxFell := false } }.openFromWait
    else t))

/-! ## THERM (R106) -/

/-- THERM_ACTIVE (R106): in INACTIVE the state becomes ACTIVE, and the TRIP hold is placed if there is none. -/
def execThermActive (s : State) : Host.Outcome State Fault Refusal :=
  whenRunning .thermActive s (fun s =>
    if s.supply.thermActive then s
    else
      let s := { s with supply := { s.supply with thermActive := true } }
      if s.nv.holds.trip then s else ((Event.begin s .device).place .trip .firm false 0).commit .supply)

/-- THERM_INACTIVE (R106). -/
def execThermInactive (s : State) : Host.Outcome State Fault Refusal :=
  ifRunning s (fun s => { s with supply := { s.supply with thermActive := false } })

/-! ## The press (R120, R121) -/

/-- What a press finds (R121). The last is the case that the table has no row for. -/
inductive PressResult where
  | close
  | late
  | held
  | noAction
  | fault
  | unlisted
  deriving DecidableEq, Repr

/-- A press judged on the state when it is taken (R121). -/
def Nv.judgePress (n : Nv) : PressResult :=
  match n.contactor with
  | .armed => .close
  | .opened | .breakWait =>
    if n.lapseMarker then .late else if n.holds.isEmpty then .unlisted else .held
  | .opening => if n.lapseMarker then .late else if n.holds.isEmpty then .noAction else .held
  | .closed | .closing => .noAction
  | .welded | .stuckOpen => .fault

/-- The change that a press makes, with its origin (R121): a close, or a CLOSE_LATE record; the other results change
nothing. -/
def Event.press (e : Event) (r : PressResult) : Event :=
  match r with
  | .close => e.giveClose e.origin
  | .late => e.log .closeLate
  | _ => e

/-- The result of a press makes a write (R121). -/
def PressResult.writes : PressResult → Bool
  | .close | .late => true
  | _ => false

/-- The status byte of a PRESS response; free in the case with no row (R121, notes/assumptions/8.md). -/
def State.pressStatus (s : State) : PressResult → Byte
  | .close => Status.ok.byte
  | .late => Status.lapsed.byte
  | .held => Status.held.byte
  | .noAction => Status.noAction.byte
  | .fault => Status.fault.byte
  | .unlisted => Config.pressStatusUnlisted s.choices

/-- PRESS (R121): the response is sent once any write is stored, or at once when there is none. -/
def execPress (s : State) : Host.Outcome State Fault Refusal :=
  whenRunning .press s (fun s =>
    match s.requestOf .a .press with
    | some _ =>
      match s.nv.judgePress with
      | .close =>
        (((Event.begin (s.takeRequest .a) .aPort).press .close).andThen (.answer .a .ok [])).commit .supply
      | .late =>
        (((Event.begin (s.takeRequest .a) .aPort).press .late).andThen (.answer .a .lapsed [])).commit .supply
      | .unlisted => (s.answerByte .a (s.pressStatus .unlisted) []).countChoice
      | r => s.answerByte .a (s.pressStatus r) []
    | none => s)

/-- BUTTON_PRESS (R120): in RELEASED, one press with origin BUTTON. -/
def execButtonPress (s : State) : Host.Outcome State Fault Refusal :=
  whenRunning .buttonPress s (fun s =>
    if s.supply.buttonPressed then s
    else
      let s := { s with supply := { s.supply with buttonPressed := true } }
      let r := s.nv.judgePress
      if r.writes then ((Event.begin s .button).press r).commit .supply else s)

/-- BUTTON_RELEASE (R120). -/
def execButtonRelease (s : State) : Host.Outcome State Fault Refusal :=
  ifRunning s (fun s => { s with supply := { s.supply with buttonPressed := false } })

end Sys2Proof.Machine
end

