-- ==== Sys2Proof/Machine/Contactor.lean ====
section
/-! DEFINITION. The contactor driver (chapter 6): the attempts of a drive and their verification, the fault states,
the retry, the evidence of pulses while open, and the voltage watch. -/

namespace Sys2Proof.Machine

/-! ## Attempts and their verification (R126 to R129) -/

/-- The record of a verified completion (R129). -/
def Drive.completionRecord (d : Drive) : RecordBody :=
  match d.direction with
  | .opened => .supplyOpened d.cause (d.retryCount + 1)
  | .closed => .supplyClosed d.cause (d.retryCount + 1)

/-- The policy that a verified open with an empty list arms by (R116); free when none is in force
(notes/assumptions/8.md). -/
def State.armingPolicy (s : State) : Policy :=
  match s.nv.policy with
  | some p => p
  | none =>
    let v := (Config.policyWhenNone s.choices).toNat
    if v = 0 then .auto else if v = 1 then .press else .pressWithin ((v - 2) % 240 + 1)

/-- The pulse input unit's count of pulses while open restarts at a verified open (R62). -/
def Event.restartOpenPulses (e : Event) : Event :=
  { e with state := e.state.updatePulse (fun u => { u with openPulses := 0 }) }

/-- The supply controller's action on a verified completion (R116). -/
def Event.completed (e : Event) (d : Position) : Event :=
  match d with
  | .closed => if e.nv.holds.anyFirm then e.giveOpen else e.enter .closed
  | .opened =>
    let e := (e.restartOpenPulses).enter .opened
    if e.nv.holds.isEmpty then e.armBy e.state.armingPolicy else e

/-- The end of a drive in progress. -/
def Event.endDrive (e : Event) : Event := e.updateDriver (fun u => { u with drive := none })

/-- A verified completion: its record, the new contactor state and the supply controller's action, in one write
(R129). -/
def State.verified (s : State) (d : Drive) : State :=
  let e := ((Event.begin s d.origin).log d.completionRecord).endDrive.completed d.direction
  let e := if s.nv.policy = none then { e with state := e.state.countChoice } else e
  e.commit .driver

/-- The fault state of a failed drive (R128). -/
def Position.faultState : Position → FaultState
  | .opened => .welded
  | .closed => .stuckOpen

/-- The contactor state of a fault state. -/
def FaultState.contactor : FaultState → Contactor
  | .welded => .welded
  | .stuckOpen => .stuckOpen

/-- A drive whose second attempt disagreed ends in a fault (R128). -/
def State.faulted (s : State) (d : Drive) (sense : Sense) : State :=
  let fault := d.direction.faultState
  let e := (Event.begin s d.origin).log
    (.contactorFaultVerify fault d.cause (sense.inUse s.nv.settings.phases))
  ((e.endDrive.notify .contactorFault).enter fault.contactor).commit .driver

/-- The second attempt of a drive, with the times read at its beginning (R126, R128). -/
def Drive.secondAttempt (d : Drive) (n : Nv) : Drive :=
  { d with retryCount := 1, stage := .pulse, pulseMs := n.settings.pulseTime, settleMs := n.settings.settleTime }

/-- The reading at the end of a settle time, judged (R127, R128). -/
def State.judgeReading (s : State) (d : Drive) (sense : Sense) : State :=
  if sense.agrees s.nv.settings.phases d.direction then s.verified d
  else if d.retryCount = 0 then { s with driver := { s.driver with drive := some (d.secondAttempt s.nv) } }
  else s.faulted d sense

/-- DRIVE_SETTLE_END (R127). While start-up runs, the settle time of a drive that an earlier step began is not ended: its
command has its effect once the sequence has ended, the model's choice, since R136 says that such a drive is left to run
and not whether its reading may come before (notes/assumptions/22.md). -/
def execDriveSettleEnd (sense : Sense) (s : State) : Host.Outcome State Fault Refusal :=
  whenRunning (.driveSettleEnd sense) s (fun s =>
    match s.driver.drive with
    | some d => if d.stage = .settle then s.judgeReading d sense else s
    | none => s)

/-- The output of a drive in progress released, and the settle time begun (R126). -/
def State.endPulse (s : State) : State :=
  { s with driver := { s.driver with drive := s.driver.drive.map (fun d => { d with stage := .settle }) } }

/-- DRIVE_PULSE_END (R126): also for a drive that a step of start-up began (R136). -/
def execDrivePulseEnd (s : State) : Host.Outcome State Fault Refusal :=
  .next
    (match s.power with
    | .running | .starting _ => s.endPulse
    | _ => s)

/-! ## CONTACTOR_RETRY (R133) -/

/-- The direction that a retry drives in: toward the target, from a fault state (R133). -/
def Contactor.retryDirection : Contactor → Option Position
  | .welded => some .opened
  | .stuckOpen => some .closed
  | _ => none

/-- CONTACTOR_RETRY (R133). -/
def execContactorRetry (p : Port) (s : State) : Host.Outcome State Fault Refusal :=
  whenRunning (.contactorRetry p) s (fun s =>
    match s.requestOf p .contactorRetry with
    | some _ =>
      if s.stillPermitted p .contactorRetry = false then s.answer p .wrongGroup []
      else
        match s.nv.contactor.retryDirection with
        | none => s.answer p .noFault []
        | some d =>
          (((Event.begin (s.takeRequest p) p.origin).beginDrive d .retry p.origin).andThen (.answer p .ok [])).commit
            .driver
    | none => s)

/-! ## Pulses while open and the voltage watch (R131, R134) -/

/-- PULSES_WHILE_OPEN (R63, R131): from OPEN or ARMED the driver enters WELDED; in any other state the hand-off is
discarded. -/
def execPulsesWhileOpen (s : State) : Host.Outcome State Fault Refusal :=
  whenRunning .pulsesWhileOpen s (fun s =>
    if s.driver.pulsesHanded then
      let s := { s with driver := { s.driver with pulsesHanded := false } }
      if s.nv.contactor.watched then
        let e := ((Event.begin s .device).log .contactorFaultPulses).dropArmDeadline
        ((e.notify .contactorFault).enter .welded).commit .driver
      else s
    else s)

/-- VOLTAGE_WATCH_EXPIRY (R134): while the watch runs, voltage shown for 5 s by some phase in use makes the input
active, and voltage absent for 5 s from every one makes it inactive. -/
def execVoltageWatchExpiry (s : State) (sense : Sense := .absent) : Host.Outcome State Fault Refusal :=
  ifRunning s (fun s =>
    if s.nv.contactor.watched then
      { s with driver := { s.driver with voltageInput := sense.anyInUse s.nv.settings.phases } }
    else s)

end Sys2Proof.Machine
end

