-- ==== Sys2Proof/Machine/Tamper.lean ====
section
/-! DEFINITION. The tamper monitor (chapter 7): detection, clearing, classes, the TAMPER hold's condition, the service
window, and the outage watch's step. -/

namespace Sys2Proof.Machine

/-! ## An event at the monitor (R143, R145) -/

/-- The end of an event at the monitor: the TAMPER hold follows its condition, and the TAMPER notice is raised once if
the event detects a kind of class NOTIFY or ENFORCE or hands "place TAMPER" (R143, R145). -/
def Event.tamperResults (e : Event) (before : Nv) (detected : Bool) : Event :=
  let was := before.tamperCondition
  let now := e.nv.tamperCondition
  let e := e.tamperCondition was now
  if detected ∨ (was = false ∧ now) then e.notify .tamper else e

/-- The event with a kind's stored record changed. -/
def Event.setTamper (e : Event) (k : TamperKind) (t : TamperRecord) : Event :=
  e.updateNv (fun n => { n with tampers := n.tampers.set k t })

/-- The state with a kind's debounced level changed (R138). -/
def State.setLevel (s : State) (k : TamperKind) (active : Bool) : State :=
  { s with tamper := { s.tamper with levels := s.tamper.levels.set k active } }

/-- The input of a kind may be at a level: the two handed inputs stand at the level their owners hold (R137); the
lines' levels come with the command. -/
def State.inputMayBe (s : State) (k : TamperKind) (active : Bool) : Bool :=
  match k with
  | .reverseFlow => s.pulse.reverseInput == active
  | .loadSideVoltage => s.driver.voltageInput == active
  | _ => true

/-! ## Detection (R141, R142) -/

/-- The largest count of detections (R139). -/
def maxCount : Nat := 65535

/-- The stored record of a kind after a detection (R141). -/
def TamperRecord.detect (t : TamperRecord) (state : TamperState) (clock : Nat) : TamperRecord :=
  { state := state, count := min maxCount (t.count + 1), detected := some clock }

/-- A detection notifies by the effective class (R143). -/
def TamperClass.notifies : TamperClass → Bool
  | .record => false
  | .notify | .enforce => true

/-- A detection of a kind, entering a state, with its record (R141, R155). -/
def Event.detect (e : Event) (k : TamperKind) (entered : TamperState) (outage : Bool) : Event :=
  let before := e.nv
  let t := (before.tampers.get k).detect entered e.state.clock
  let cls := before.effectiveClass k
  let e := e.setTamper k t
  let e := e.log (.tamperDetected k t.count cls (if outage then some entered else none))
  e.tamperResults before cls.notifies

/-- The debounced level of a kind passes to a level, if it stands at the other: an event that joins the arrival list. A
command whose passage waits there already brings no further one: it asks for that one to be taken (R138, R140,
notes/assumptions/34.md). -/
def State.passLevel (s : State) (k : TamperKind) (active : Bool) : State :=
  if s.tamper.levels.get k = !active ∧ s.inputMayBe k active ∧ s.tamper.arrivals.contains (.input k active) = false then
    (s.setLevel k active).arriveTamper (.input k active)
  else s

/-- An event of the monitor that a command asks for, taken by `f`, if it is the one that may be taken; else it waits on
the list (R140). -/
def State.takeTamper (s : State) (c : Instr) (e : TamperEvent) (f : State → State) : State :=
  if s.tamperTakes e then s.takes c none (f s.leaveTamper) else s

/-- "Input active" for a kind, taken (R141). -/
def State.detectActive (s : State) (k : TamperKind) : State :=
  if (s.nv.tampers.get k).state = .active then s
  else ((Event.begin s .device).detect k .active false).commit .tamper

/-- TAMPER_INPUT_ACTIVE (R138, R141): the passage joins the list, and is taken as soon as the monitor may take it. -/
def execTamperInputActive (k : TamperKind) (s : State) : Host.Outcome State Fault Refusal :=
  ifRunning s (fun s => (s.passLevel k true).takeTamper (.tamperInputActive k) (.input k true) (fun s => s.detectActive k))

/-- The end of an episode: the kind becomes LATCHED, with its record (R142). -/
def Event.endEpisode (e : Event) (k : TamperKind) : Event :=
  let t := e.nv.tampers.get k
  let e := e.setTamper k { t with state := .latched }
  e.log (.tamperEnded k (secondsSince t.detected e.state.clock))

/-- "Input inactive" for a kind, taken (R142). -/
def State.latchInactive (s : State) (k : TamperKind) : State :=
  if (s.nv.tampers.get k).state = .active then ((Event.begin s .device).endEpisode k).commit .tamper else s

/-- TAMPER_INPUT_INACTIVE (R138, R142): the passage joins the list, and is taken as soon as the monitor may take it. -/
def execTamperInputInactive (k : TamperKind) (s : State) : Host.Outcome State Fault Refusal :=
  ifRunning s (fun s => (s.passLevel k false).takeTamper (.tamperInputInactive k) (.input k false) (fun s => s.latchInactive k))

/-! ## Clearing (R146, R147) -/

/-- The result of a clear, by the kind's state (R146). -/
def TamperState.clearResult : TamperState → ClearResult
  | .quiet => .quiet
  | .active => .stillActive
  | .latched => .cleared

/-- The results of a clear for the kinds it names (R146, R147). -/
def Nv.clearResults (n : Nv) (ks : List TamperKind) : List ClearResult :=
  ks.map (fun k => (n.tampers.get k).state.clearResult)

/-- One kind cleared, if it is LATCHED, with its record (R146). -/
def Event.clearKind (path : ClearPath) (e : Event) (k : TamperKind) : Event :=
  let t := e.nv.tampers.get k
  if t.state = .latched then (e.setTamper k { t with state := .quiet }).log (.tamperCleared k path) else e

/-- Kinds cleared in one event, the condition re-evaluated once (R146). -/
def Event.clearAll (e : Event) (path : ClearPath) (ks : List TamperKind) : Event :=
  (ks.foldl (Event.clearKind path) e).tamperResults e.nv false

/-- The request of a port that the monitor may take (R140). -/
def State.tamperRequest (s : State) (p : Port) (c : RequestCode) : Option Request :=
  if s.tamperTakes (.request p) then s.requestOf p c else none

/-- CLEAR_TAMPER (R147). -/
def execClearTamper (p : Port) (s : State) : Host.Outcome State Fault Refusal :=
  whenRunning (.clearTamper p) s (fun s =>
    match s.tamperRequest p .clearTamper with
    | some r =>
      let which := field r.payload 0 1
      let u := s.leaveTamper
      if s.stillPermitted p .clearTamper = false then u.answer p .wrongGroup []
      else if 5 < which then u.answer p .range []
      else
        let results := s.nv.clearResults (clearKinds which)
        let status := if results.contains .stillActive then .stillActive else .ok
        let payload := (results.map (fun x => toBytes 1 x.number)).flatten
        if results.contains .cleared then
          (((Event.begin (u.takeRequest p) p.origin).clearAll .request (clearKinds which)).andThen
            (.answer p status payload)).commit .tamper
        else u.answer p status payload
    | none => s)

/-- TAMPER_CLEAR (R82). -/
def execTamperClear (s : State) : Host.Outcome State Fault Refusal :=
  ifRunning s (fun s =>
    match s.tamperApplication 5 with
    | some c =>
      s.takesTurn .tamperClear .tamper
        (s.leaveTamper.applyCode c .tamper none (.tamperClear (s.nv.clearResults (clearKinds c.sub)))
          (fun e => e.clearAll .code (clearKinds c.sub)))
    | none => s.leaveLine .tamperClear)

/-- READ_TAMPER (R148). -/
def execReadTamper (p : Port) (s : State) : Host.Outcome State Fault Refusal :=
  ifRunning s (fun s =>
    match s.tamperRequest p .readTamper with
    | some _ => s.leaveTamper.answer p .ok s.nv.tamperPayload
    | none => s)

/-! ## Settings of the monitor (R138, R144) -/

/-- TAMPER_SETTING_CHANGE (R144, R197, R198): a class or a debounce setting; a class change re-evaluates the TAMPER
hold's condition. -/
def execTamperSettingChange (p : Port) (s : State) : Host.Outcome State Fault Refusal :=
  ifRunning s (fun s =>
    match s.tamperTakes (.request p), s.settingOf p with
    | true, some (n, v) =>
      if settingOwner n = .tamper then
        let u := s.leaveTamper
        if s.stillPermitted p .writeSetting = false then
          (u.answer p .wrongGroup []).leaveLine (.tamperSettingChange p)
        else s.takesTurn (.tamperSettingChange p) .tamper
          (if s.hasRoom then
            let e := (Event.begin (u.takeRequest p) p.origin).updateNv (fun nv =>
              { nv with settings := nv.settings.write n v })
            let e := (e.log (.settingChanged n (s.nv.settings.read n) v)).tamperResults s.nv false
            (e.andThen (.answer p .ok (toBytes ((settingSize n).getD 0) v))).commit .tamper
          else u.answer p .journalFull [])
      else s
    | _, _ => s)

/-! ## The service window (R149 to R153) -/

/-- The closing time that a SERVICE code gives: from the code's taking (R149). -/
def CodeService.closing (c : CodeService) : Nat := deadlineHeld c.taken (60 * (5 * c.sub))

/-- The window opened or its times replaced, with its record (R149). -/
def Event.openWindow (e : Event) (closing minutes : Nat) : Event :=
  let before := e.nv
  let e := e.updateNv (fun n => { n with window := some { closing := closing, minutes := minutes } })
  (e.log (.serviceStart closing minutes before.window.isSome)).tamperResults before false

/-- SERVICE (R82, R149). -/
def execService (s : State) : Host.Outcome State Fault Refusal :=
  ifRunning s (fun s =>
    match s.tamperApplication 4 with
    | some c =>
      s.takesTurn .service .tamper
        (s.leaveTamper.applyCode c .tamper none (.service c.closing) (fun e => e.openWindow c.closing (5 * c.sub)))
    | none => s.leaveLine .service)

/-- The close of the window (R151): TERMINAL_COVER regains its configured class, the TAMPER hold is re-evaluated, and
SERVICE_END is written. -/
def Event.closeWindow (e : Event) (cause : CloseCause) : Event :=
  let before := e.nv
  let e := e.updateNv (fun n => { n with window := none })
  let placed := before.tamperCondition = false ∧ e.nv.tamperCondition
  let e := e.tamperResults before false
  e.log (.serviceEnd cause (before.tampers.get .terminalCover).state (e.state.tamper.levels.get .terminalCover) placed)

/-- The window's closing time is at or before the clock (R151). -/
def State.windowExpired (s : State) : Bool :=
  match s.nv.window with
  | some w => w.closing ≤ s.clock
  | none => false

/-- The expiry of the window joins the arrival list, once, when the clock stands at or past the closing time (R140,
R151). -/
def State.passExpiry (s : State) : State :=
  if s.windowExpired ∧ s.tamper.arrivals.contains .windowExpiry = false then s.arriveTamper .windowExpiry else s

/-- SERVICE_WINDOW_EXPIRY (R151): an expiry that finds the clock short of the closing time does nothing. -/
def execServiceWindowExpiry (s : State) : Host.Outcome State Fault Refusal :=
  ifRunning s (fun s => s.passExpiry.takeTamper .serviceWindowExpiry .windowExpiry (fun s =>
    if s.windowExpired then ((Event.begin s .device).closeWindow .expiry).commit .tamper else s))

/-- CLOSE_SERVICE (R152). -/
def execCloseService (p : Port) (s : State) : Host.Outcome State Fault Refusal :=
  whenRunning (.closeService p) s (fun s =>
    match s.tamperRequest p .closeService with
    | some _ =>
      let u := s.leaveTamper
      if s.nv.window = none then u.answer p .wrongGroup []
      else
        (((Event.begin (u.takeRequest p) p.origin).closeWindow .closeService).andThen (.answer p .ok [])).commit .tamper
    | none => s)

/-- TAMPER_CLOCK_SET (R153): a closing time passed closes the window, one too far ahead is limited to the duration. -/
def execTamperClockSet (s : State) : Host.Outcome State Fault Refusal :=
  ifRunning s (fun s => s.takeTamper .tamperClockSet .clockSet (fun s =>
    match s.nv.window with
    | none => s
    | some w =>
      if w.closing ≤ s.clock then ((Event.begin s .device).closeWindow .expiry).commit .tamper
      else
        let closing := limitDeadline s.clock (60 * w.minutes) w.closing
        if closing = w.closing then s
        else
          ((Event.begin s .device).updateNv (fun n => { n with window := some { w with closing := closing } })).commit
            .tamper))

/-! ## The outage watch (R154) -/

/-- OUTAGE_COVER_WATCH (R154): in RETAIN, in reset and after a brown-out, while the retention domain is intact. -/
def execOutageCoverWatch (coverOpen : Bool) (s : State) : Host.Outcome State Fault Refusal :=
  .next
    (if s.isSupplied = false ∧ s.ret.intact then
      { s with ret := { s.ret with
          coverOpen := coverOpen, latch := s.ret.latch || (coverOpen && !s.ret.coverOpen) } }
    else s)

end Sys2Proof.Machine
end

