-- ==== Sys2Proof/Machine/JournalUnit.lean ====
section
/-! DEFINITION. The audit journal's requests (chapter 8): reading unreleased records, and releasing them with the
overflow summary. The append of a write is in Ops.lean. -/

namespace Sys2Proof.Machine

/-! ## Positions (R158) -/

/-- Where a sequence number given by a master stands (R158). -/
inductive SeqPosition where
  /-- At or behind the release mark. -/
  | released
  /-- An unreleased record. -/
  | unreleased
  /-- The next number to be written. -/
  | next
  /-- Ahead of the next number. -/
  | ahead
  deriving DecidableEq, Repr

/-- Offsets from here on lie behind the mark (R158). -/
def behindOffset : Nat := 2147483648

/-- The position of a sequence number, by its offset from the mark (R158). -/
def Journal.position (j : Journal) (s : Nat) : SeqPosition :=
  let o := j.offset s
  if o = 0 ∨ behindOffset ≤ o then .released
  else if o ≤ j.unreleased then .unreleased
  else if o = j.unreleased + 1 then .next
  else .ahead

/-! ## The waiting requests (R159) -/

/-- The request of a port that the journal may take: it takes one event at a time, in order of arrival (R159). -/
def State.journalRequest (s : State) (p : Port) (c : RequestCode) : Option Request :=
  if s.journalBusy = false ∧ s.journalWaiting.head? = some (.request p) then s.requestOf p c else none

/-- The oldest request leaves the journal's list as it is taken. -/
def State.leaveJournal (s : State) : State := { s with journalWaiting := s.journalWaiting.tail }

/-! ## READ_JOURNAL (R170) -/

/-- A response payload holds at most 56 bytes (R173). -/
def maxPayload : Nat := 56

/-- Up to `n` records from a sequence number onward, up to W, as many as fit whole in the bytes that are left (R170). -/
def Journal.collect (j : Journal) : Nat → Nat → Nat → List Byte
  | 0, _, _ => []
  | n + 1, s, room =>
    if j.offset s = 0 ∨ j.unreleased < j.offset s then []
    else
      match j.place s with
      | none => []
      | some r =>
        let bytes := r.bytes
        if room < bytes.length then []
        else bytes ++ j.collect n ((s + 1) % seqModulus) (room - bytes.length)

/-- What a read of `n` records from a sequence number is answered (R170). -/
def Journal.read (j : Journal) (s n : Nat) : Status × List Byte :=
  if n = 0 ∨ 3 < n then (.range, [])
  else
    match j.position s with
    | .released | .ahead => (.range, [])
    | .next => (.ok, [])
    | .unreleased => (.ok, j.collect n s maxPayload)

/-- READ_JOURNAL (R170): the journal takes the request between appends. -/
def execReadJournal (p : Port) (s : State) : Host.Outcome State Fault Refusal :=
  ifRunning s (fun s =>
    match s.journalRequest p .readJournal with
    | some r =>
      let result := s.nv.journal.read (field r.payload 0 4) (field r.payload 4 1)
      s.leaveJournal.answer p result.1 result.2
    | none => s)

/-! ## RELEASE_JOURNAL (R168, R169) -/

/-- The release setting names a port (R168). -/
def ReleaseSetting.names : ReleaseSetting → Port → Bool
  | .either, _ => true
  | .aPort, p => p == .a
  | .lPort, p => p == .l

/-- The journal after a release of an unreleased record: the mark moved, and the overflow summary, if it is not empty,
written as one record and emptied (R167, R169). -/
def Journal.release (j : Journal) (s time : Nat) (origin : Origin) : Journal :=
  let j := { j with mark := s }
  match j.overflow with
  | none => j
  | some v => { j with overflow := none }.write time origin (.overflowSummary v)

/-- The write of a release (R169): no append of a block, and no level crossed downward (R165). -/
def State.release (s : State) (p : Port) (seq : Nat) : State :=
  let n := { s.nv with journal := s.nv.journal.release seq s.clock p.origin }
  let w : Write :=
    { owner := .journal
      image := n
      appends := false
      setsClock := none
      follow := [.answer p .ok n.journal.releasePayload] }
  { s with nv := n, writes := s.writes ++ [w] }

/-- RELEASE_JOURNAL (R168, R169). -/
def execReleaseJournal (p : Port) (s : State) : Host.Outcome State Fault Refusal :=
  ifRunning s (fun s =>
    match s.journalRequest p .releaseJournal with
    | some r =>
      let seq := field r.payload 0 4
      if s.nv.settings.release.names p = false then s.leaveJournal.answer p .wrongGroup []
      else
        match s.nv.journal.position seq with
        | .released => s.leaveJournal.answer p .ok s.nv.journal.releasePayload
        | .unreleased => (s.leaveJournal.takeRequest p).release p seq
        | .next | .ahead => s.leaveJournal.answer p .range []
    | none => s)

end Sys2Proof.Machine
end

