-- ==== Sys2Proof/Machine/Ports.lean ====
section
/-! DEFINITION. The port controller (chapter 9): frames received and judged, requests taken and handed to their owners,
responses and refusals delivered, port clears, and the two requests that the port controller answers itself. -/

namespace Sys2Proof.Machine

/-! ## Requests taken (R175, R183) -/

/-- The block whose order a request waits in (R183); the other requests wait for their owner alone. -/
inductive RequestQueue where
  | account
  | code
  | journal
  | tamper
  | none
  deriving DecidableEq, Repr

/-- Where a request waits for its owner (R3, R69, R140, R159). -/
def RequestCode.queue : RequestCode → RequestQueue
  | .snapshot | .acceptEmergency | .setDebt => .account
  | .submitCode | .readFirstRefusal | .clearFirstRefusal => .code
  | .readJournal | .releaseJournal => .journal
  | .readTamper | .clearTamper | .closeService => .tamper
  | _ => .none

/-- A request joins the order of the block that takes it. -/
def State.joinQueue (s : State) (p : Port) (c : RequestCode) : State :=
  match c.queue with
  | .account => s.arrive (.request p)
  | .code => s.queueCode (.request p)
  | .journal => { s with journalWaiting := s.journalWaiting ++ [.request p] }
  | .tamper => s.arriveTamper (.request p)
  | .none => s

/-- A taken request: the port passes to WORKING and the request goes to its owner; a PORT_CLEAR is marked, to act on
the port as it then stands (R175, R182). -/
def State.takeIn (s : State) (p : Port) (c : RequestCode) (payload : List Byte) : State :=
  if c = .portClear then s.updatePort p (fun u => { u with clearing := true })
  else
    (s.updatePort p (fun u =>
      { u with
        state := .working
        request := some { code := c, payload := payload, handedSetting := none, taken := false } })).joinQueue p c

/-- The port controller's tests of a request, in order: request code, group, length, and the request's own (R175). -/
def State.requestRefusal (s : State) (p : Port) (code : Byte) (payload : List Byte) : Option Status :=
  match RequestCode.ofByte code with
  | none => some .unknown
  | some c =>
    if c.permitted s.nv.window.isSome p = false then some .wrongGroup
    else if c.lengthAccepted payload.length = false then some .length
    else if c = .snapshot then snapshotCheck payload
    else none

/-- A frame with an agreeing CRC at an IDLE port: refused at once, or taken (R175). -/
def State.judgeRequest (s : State) (p : Port) (code : Byte) (payload : List Byte) : State :=
  match s.requestRefusal p code payload, RequestCode.ofByte code with
  | some status, _ => s.respond p { code := code, status := status.byte, payload := [] }
  | none, some c => s.takeIn p c payload
  | none, none => s

/-! ## Frames received (R173, R177) -/

/-- The length byte of a frame's bytes from the marker. -/
def frameLength (bytes : List Byte) : Nat := field bytes 1 1

/-- The request code of a frame. -/
def frameCode (bytes : List Byte) : Byte := bytes.getD 2 0

/-- The payload of a frame. -/
def framePayload (bytes : List Byte) : List Byte := (bytes.drop 3).take (frameLength bytes)

/-- The CRC of a request frame agrees: computed over the length, the request code and the payload (R173). -/
def crcAgrees (bytes : List Byte) : Bool :=
  let n := frameLength bytes
  crc ((bytes.drop 1).take (n + 2)) == field bytes (3 + n) 2

/-- A frame is a PORT_CLEAR with an empty payload (R182). -/
def isPortClear (bytes : List Byte) : Bool :=
  frameCode bytes == RequestCode.portClear.byte && frameLength bytes == 0

/-- A request frame byte by byte (R173, R192). -/
def requestFrame (code : Byte) (payload : List Byte) : List Byte :=
  let body := BitVec.ofNat 8 payload.length :: code :: payload
  requestMarker :: body ++ toBytes 2 (crc body)

/-- The largest length byte of a frame (R173). -/
def maxFrameLength : Nat := 56

/-- A byte received while HUNTING (an empty buffer) or COLLECTING: the buffer after it, and the frame it completes
(R177). -/
def receiveByte (buffer : List Byte) (b : Byte) : List Byte × Option (List Byte) :=
  match buffer with
  | [] => (if b = requestMarker then [b] else [], none)
  | [m] => (if maxFrameLength < b.toNat then [] else [m, b], none)
  | m :: l :: rest =>
    let bytes := m :: l :: rest ++ [b]
    if bytes.length = frameLength bytes + 5 then ([], some bytes) else (bytes, none)

/-- A refusal frame put in the L-port's refusal slot; a full slot discards it (R177). -/
def State.refuseFrame (s : State) (status : Status) (code : Byte) : State :=
  match s.lPort.refusal with
  | some _ => s
  | none =>
    let f : Frame := { code := code, status := status.byte, payload := [] }
    { s with lPort := { s.lPort with refusal := some f }.take .refusal }

/-- A complete frame at the L-port judged by its CRC and the port state (R177). -/
def State.judgeLFrame (s : State) (bytes : List Byte) : State :=
  let code := frameCode bytes
  if crcAgrees bytes = false then s.refuseFrame .frameCheck code
  else if s.ports.l.state = .idle then s.judgeRequest .l code (framePayload bytes)
  else if isPortClear bytes then s.updatePort .l (fun u => { u with clearing := true })
  else s.refuseFrame .busy code

/-- One byte received at the L-port (R177). -/
def State.receive (s : State) (b : Byte) : State :=
  let r := receiveByte s.ports.l.receive b
  let s := s.updatePort .l (fun u => { u with receive := r.1 })
  match r.2 with
  | some frame => s.judgeLFrame frame
  | none => s

/-- L_PORT_FRAME (R177): the bytes that complete a frame, received one after another; dropped while start-up runs
(notes/assumptions/36.md). -/
def execLPortFrame (bytes : List Byte) (s : State) : Host.Outcome State Fault Refusal :=
  ifRunning s (fun s => bytes.foldl State.receive s)

/-- L_PORT_BYTE_RECEIVED (R177). A byte that comes while start-up runs is dropped, so that a frame begun then is not
completed after it: the model's choice (R207, notes/assumptions/36.md). -/
def execLPortByteReceived (byte : Byte) (s : State) : Host.Outcome State Fault Refusal :=
  ifRunning s (fun s => s.receive byte)

/-- L_PORT_GAP (R177): the partial frame is discarded. -/
def execLPortGap (s : State) : Host.Outcome State Fault Refusal :=
  ifRunning s (fun s => s.updatePort .l (fun u => { u with receive := [] }))

/-! ## The L-port's transmitter (R178) -/

/-- The slot that the transmitter takes next, once one has been sent: the other, if it is full (R178). -/
def nextSlot (response refusal : Option Frame) : Option TxSlot :=
  if response.isSome then some .response else if refusal.isSome then some .refusal else none

/-- The last byte of the frame being sent has been sent: its slot empties, and the transmitter takes the other frame
if there is one (R178). -/
def State.frameSent (s : State) : State :=
  match s.lPort.sending with
  | none => s
  | some .response =>
    let sent := match s.ports.l.response with | some f => f.bytes | none => []
    let s := s.updatePort .l (fun u => { u with state := .idle, response := none })
    { s with txd := sent, lPort := { s.lPort with sending := nextSlot none s.lPort.refusal } }
  | some .refusal =>
    let sent := match s.lPort.refusal with | some f => f.bytes | none => []
    { s with txd := sent, lPort := { refusal := none, sending := nextSlot s.ports.l.response none } }

/-- L_PORT_FRAME_SENT (R178). -/
def execLPortFrameSent (s : State) : Host.Outcome State Fault Refusal := ifRunning s State.frameSent

/-! ## The A-port (R180, R181) -/

/-- The port state byte that a transaction returns first, by the port state as CS_N was asserted (R180). -/
def stateByte : PortPhase → Byte
  | .idle => 0x01
  | .working | .ready => 0x02

/-- The state a transaction says it began in is one that the port can have come from: a port that was IDLE or READY
keeps that state while CS_N is asserted (R174, R180, R181). -/
def beginMayBe (begun now : PortPhase) : Bool :=
  match begun with
  | .idle => now == .idle
  | .working => true
  | .ready => now == .ready

/-- The bytes of a transaction hold a whole frame: its marker, a length byte in range, and L + 5 bytes (R180). -/
def holdsFrame (bytes : List Byte) : Bool :=
  2 ≤ bytes.length && frameLength bytes ≤ maxFrameLength && frameLength bytes + 5 ≤ bytes.length

/-- The frame of a request transaction judged at the deassertion, by the state byte returned (R180). -/
def State.judgeAFrame (s : State) (begun : PortPhase) (bytes : List Byte) : State :=
  if bytes.head? = some requestMarker ∧ holdsFrame bytes then
    if begun = .idle then
      if crcAgrees bytes then s.judgeRequest .a (frameCode bytes) (framePayload bytes)
      else s.respond .a { code := frameCode bytes, status := Status.frameCheck.byte, payload := [] }
    else if crcAgrees bytes ∧ isPortClear bytes then s.updatePort .a (fun u => { u with clearing := true })
    else s
  else s

/-- A transaction of `n` bytes after a taken warning: 00h in every byte, the state byte included, and no frame judged
(R190). -/
def State.silentTransaction (s : State) (n : Nat) : State := { s with sdo := List.replicate n 0 }

/-- An A-port transaction of `n` bytes by the state of the part: as `f` serves it while the part runs, silent after a
taken warning until RETAIN, and nothing otherwise (R190). While start-up runs it returns nothing, judges no frame and
empties no slot, the model's choice: R180 gives every transaction a state byte, and R207 lets the ports take requests
once the sequence has ended (notes/assumptions/36.md). -/
def State.transact (s : State) (n : Nat) (f : State → State) : State :=
  match s.power with
  | .running => f s
  | .warned | .lastWrite => s.silentTransaction n
  | _ => s

/-- A_PORT_REQUEST_TRANSACTION (R180): the part returns the state byte and then 00h. -/
def execAPortRequestTransaction (begun : PortPhase) (bytes : List Byte) (s : State) :
    Host.Outcome State Fault Refusal :=
  .next (s.transact bytes.length (fun s =>
    if beginMayBe begun s.ports.a.state then
      { s with sdo := (stateByte begun :: List.replicate (bytes.length - 1) 0).take bytes.length }.judgeAFrame begun
        bytes
    else s))

/-- The bytes that a read transaction returns after the state byte: the frame and then 00h, or 00h alone when it was
not begun in READY (R181). -/
def readBytes (begun : PortPhase) (response : Option Frame) (clocked : Nat) : List Byte :=
  match begun, response with
  | .ready, some f => f.bytes.take clocked ++ List.replicate (clocked - f.bytes.length) 0
  | _, _ => List.replicate clocked 0

/-- The whole frame was clocked out (R181). -/
def wholeFrameRead (begun : PortPhase) (response : Option Frame) (clocked : Nat) : Bool :=
  match begun, response with
  | .ready, some f => f.bytes.length ≤ clocked
  | _, _ => false

/-- A_PORT_READ_TRANSACTION (R181). -/
def execAPortReadTransaction (begun : PortPhase) (clocked : Nat) (s : State) : Host.Outcome State Fault Refusal :=
  .next (s.transact (clocked + 1) (fun s =>
    if beginMayBe begun s.ports.a.state then
      let u := s.ports.a
      let s := { s with sdo := stateByte begun :: readBytes begun u.response clocked }
      if wholeFrameRead begun u.response clocked then
        s.updatePort .a (fun u => { u with state := .idle, response := none })
      else s
    else s))

/-! ## Port clear (R182) -/

/-- A port clear acts on the port by its state (R182). -/
def PortUnit.clear (u : PortUnit) : PortUnit :=
  match u.state with
  | .idle => { u with receive := [], clearing := false }
  | .working => { u with receive := [], discard := true, clearing := false }
  | .ready => { u with state := .idle, receive := [], response := none, clearing := false }

/-- A port clear; at the L-port the refusal slot is emptied and a frame being sent is cut short (R182). -/
def State.clearPort (s : State) (p : Port) : State :=
  let s := s.updatePort p PortUnit.clear
  match p with
  | .a => s
  | .l => { s with lPort := { refusal := none, sending := none } }

/-- PORT_CLEAR (R182): the port clear that a judged PORT_CLEAR frame calls for. -/
def execPortClear (p : Port) (s : State) : Host.Outcome State Fault Refusal :=
  ifRunning s (fun s => if (s.ports.get p).clearing then s.clearPort p else s)

/-- L_PORT_BREAK (R179): the frame being received is discarded, and the port is cleared. -/
def execLPortBreak (s : State) : Host.Outcome State Fault Refusal := ifRunning s (fun s => s.clearPort .l)

/-! ## The port controller's own requests (R184, R188) -/

/-- STATUS (R184). -/
def execStatus (p : Port) (s : State) : Host.Outcome State Fault Refusal :=
  ifRunning s (fun s =>
    match s.requestOf p .status with
    | some _ => s.answer p .ok s.statusPayload
    | none => s)

/-- READ_NOTICES (R188): the set is read whole and emptied in one event. -/
def execReadNotices (p : Port) (s : State) : Host.Outcome State Fault Refusal :=
  ifRunning s (fun s =>
    match s.requestOf p .readNotices with
    | some _ =>
      let payload := noticesPayload s.clock (s.ports.get p).notices
      (s.updatePort p (fun u => { u with notices := [] })).answer p .ok payload
    | none => s)

end Sys2Proof.Machine
end

