-- ==== Sys2Proof/Machine/Settings.lean ====
section
/-! DEFINITION. The store and power monitor's settings (sections 10.1 and 10.2): READ_SETTING and WRITE_SETTING. -/

namespace Sys2Proof.Machine

/-! ## READ_SETTING (R200) -/

/-- READ_SETTING (R200): the value as stored, in its size. -/
def execReadSetting (p : Port) (s : State) : Host.Outcome State Fault Refusal :=
  ifRunning s (fun s =>
    match s.requestOf p .readSetting with
    | some r =>
      let n := field r.payload 0 1
      match settingSize n with
      | some size => s.answer p .ok (toBytes size (s.stored.settings.read n))
      | none => s.answer p .range []
    | none => s)

/-! ## WRITE_SETTING (R197, R198) -/

/-- What the payload of a WRITE_SETTING asks for: the status that refuses it, or the setting's number and its value as
accepted (R197, tests 2 to 4). -/
def judgeSetting (payload : List Byte) : Except Status (Nat × Nat) :=
  match payload with
  | [] => .error .range
  | b :: value =>
    match settingSize b.toNat with
    | none => .error .range
    | some size =>
      if value.length ≠ size then .error .length
      else
        match settingAccepted b.toNat (ofBytes value) with
        | none => .error .range
        | some v => .ok (b.toNat, v)

/-- The lines of L2 and L3 as they begin to be sampled (R49). -/
def PulseUnit.beginSampling (u : PulseUnit) : PulseUnit :=
  { u with
    importLines := { u.importLines with l2 := .asserted, l3 := .asserted }
    exportLines := { u.exportLines with l2 := .asserted, l3 := .asserted } }

/-- What a changed setting of the store and power monitor does at the pulse input unit at the write: phases in use from
1 to 3 begins the sampling of four lines (R49), and the reverse threshold is judged at once (R54). -/
def PulseUnit.settingChanged (u : PulseUnit) (old new : Settings) (n : Nat) : PulseUnit :=
  if n = 1 ∧ old.phases = .one ∧ new.phases = .three then u.beginSampling
  else if n = 11 then u.judgeReverse new.reverseThreshold
  else u

/-- A setting that the store and power monitor writes itself, in one write with its record (R197, R198). -/
def State.writeOwnSetting (s : State) (p : Port) (n v : Nat) : State :=
  let e := (Event.begin (s.takeRequest p) p.origin).updateNv (fun nv => { nv with settings := nv.settings.write n v })
  let e := e.log (.settingChanged n (s.nv.settings.read n) v)
  let e := { e with state := e.state.updatePulse (fun u => u.settingChanged s.nv.settings e.nv.settings n) }
  (e.andThen (.answer p .ok (toBytes ((settingSize n).getD 0) v))).commit .store

/-- A setting handed on to the block that writes it (R197). -/
def State.handSetting (s : State) (p : Port) (n v : Nat) : State :=
  s.updatePort p (fun u => { u with request := u.request.map (fun r => { r with handedSetting := some (n, v) }) })

/-- WRITE_SETTING (R197): window, number, length and value in order, then the write or the handing on. -/
def execWriteSetting (p : Port) (s : State) : Host.Outcome State Fault Refusal :=
  ifRunning s (fun s =>
    match s.requestOf p .writeSetting with
    | some r =>
      if s.stillPermitted p .writeSetting = false then (s.answer p .wrongGroup []).leaveLine (.writeSetting p)
      else
        match judgeSetting r.payload with
        | .error status => (s.answer p status []).leaveLine (.writeSetting p)
        | .ok (n, v) =>
          match settingOwner n with
          | .store => s.takesTurn (.writeSetting p) .store
            (if s.hasRoom then s.writeOwnSetting p n v else s.answer p .journalFull [])
          | .account => ((s.handSetting p n v).arrive (.request p)).leaveLine (.writeSetting p)
          | .tamper => ((s.handSetting p n v).arriveTamper (.request p)).leaveLine (.writeSetting p)
    | none => s.leaveLine (.writeSetting p))

end Sys2Proof.Machine
end

