-- ==== Sys2Proof/Machine/Stored.lean ====
section
/-! DEFINITION. The completion of a write of the store (R2): what the store then holds, and the responses, notices and
hand-offs that wait on it. The command WRITE_STORED is in Power.lean, because a stored write also carries start-up and
the end of running on. -/

namespace Sys2Proof.Machine

/-- The taking of a day close has ended: the event is no longer outstanding, and days found owed meanwhile are handed
(R47). -/
def State.dayCloseStored (s : State) : State :=
  let later := s.clockUnit.laterDayClose
  let s := { s with
    clockUnit := { s.clockUnit with dayClose := later, dayCloseTaking := false, laterDayClose := none } }
  match later with
  | some _ => s.arrive .dayClose
  | none => s

/-- One thing that follows a stored write. -/
def State.perform (s : State) : FollowUp → State
  | .answer p status payload => s.answer p status payload
  | .notice k => s.raise k
  | .quantumTaken => { s with pulse := { s.pulse with outstanding := false } }.offerQuantum
  | .dayCloseTaken => s.dayCloseStored
  | .ceilingReached => { s with supply := { s.supply with ceilingHanded := true } }
  | .codeServed => s.endService
  | .windowReevaluated => s.reevaluateWindow
  | .clockMoved old new wasValid => s.clockMoved old new wasValid

/-- The clock that a stored SET_CLOCK puts in force, valid from then on (R32, R33). -/
def Retention.setTo (r : Retention) (clock : Option Nat) : Retention :=
  match clock with
  | some t => { r with clock := t, valid := true }
  | none => r

/-- The retention domain as a stored write leaves it: the clock a SET_CLOCK puts in force, and the mark of the domain that
start-up clears with its write (R33, R155, R203). -/
def Retention.after (r : Retention) (w : Write) : Retention :=
  { r.setTo w.setsClock with
    latch := r.latch && w.clears != some .latch
    resetMark := r.resetMark && w.clears != some .reset }

/-- A write taken up by the store (R2). -/
def State.store (s : State) (w : Write) : State :=
  { s with stored := w.image, ret := s.ret.after w }

/-- The oldest write is stored, and what waits on it follows (R2). -/
def State.storeOldest (s : State) : State :=
  match s.writes with
  | [] => s
  | w :: rest => w.follow.foldl State.perform ({ s with writes := rest }.store w)

end Sys2Proof.Machine
end

