-- ==== Sys2Proof/Machine/Power.lean ====
section
/-! DEFINITION. Power loss and start-up (sections 10.3 and 10.4): the power-fail warning and the writes it lets complete,
resets and brown-outs, the loss of the retention domain, the fifteen steps of the start-up sequence, and WRITE_STORED,
which carries all of them on. -/

namespace Sys2Proof.Machine

/-! ## The end of running -/

/-- The stopped part: what the store and the retention domain hold, every block without state (R190, R202, R203). The
outage watch begins from MAIN_COVER's debounced level (R154). -/
def State.stopped (s : State) (power : Power) : State :=
  { State.delivered with
    pending := s.pending
    power := power
    ret := { s.ret with coverOpen := s.tamper.levels.get .mainCover }
    stored := s.stored
    nv := s.stored
    choices := s.choices }

/-- The writes on their way as a stop finds them: each is left whole or not at all (R2), and they reach the store in the
order they began, so that what survives is the first of them, as many as the choices let (notes/assumptions/5.md). -/
def State.survivors : List Write → State → State
  | [], s => s
  | w :: rest, s =>
    if Config.writeSurvives s.choices then State.survivors rest (s.store w).countChoice else s.countChoice

/-- The state that a stop leaves of the writes on their way. -/
def State.cutShort (s : State) : State := State.survivors s.writes s

/-- The last write of a taken warning, begun when every write begun before it is stored: the stored clock, at the clock
as it then stands, and the warned mark (R30, R201). -/
def State.beginLastWrite (s : State) : State :=
  let n := { s.stored with storedClock := s.clock, warnedMark := true }
  { s with
    power := .lastWrite
    nv := n
    writes := [{ owner := .store, image := n, appends := false, setsClock := none, follow := [] }] }

/-- A taken power-fail warning (R201): the drive is abandoned and the voltage watch stops (R135), the code unit abandons
its work, with the event that waits at an owner (R95), the journal abandons its waiting requests (R172), and the writes
already begun go on to the store. -/
def State.warn (s : State) : State :=
  let s := { s with
    power := .warned
    driver := { s.driver with drive := none, voltageInput := false }
    code := { queue := [], service := none }
    arrivals := s.arrivals.filter (fun e => e != AccountEvent.code)
    tamper := { s.tamper with arrivals := s.tamper.arrivals.filter (fun e => e != TamperEvent.code) }
    journalWaiting := [] }
  if s.writes.isEmpty then s.beginLastWrite else s

/-- VDD falls: the part stops at once, and a write being stored is left by R2 (R203); also during start-up (R207). A fall
after a taken warning is no brown-out: the part is in RETAIN, with its last writes left by R2 (R201). -/
def State.fall (s : State) : State :=
  match s.power with
  | .running | .starting _ => s.cutShort.stopped .brownOut
  | .warned | .lastWrite => s.cutShort.stopped .retain
  | .retain | .reset | .brownOut => s

/-- POWER_FAIL_WARNING (R201): new work stops and what has begun storing is completed, by WRITE_STORED, unless VDD falls
first; a warning during start-up ends the sequence (R207). After a taken warning it has no effect. -/
def execPowerFailWarning (heldUp : Bool) (s : State) : Host.Outcome State Fault Refusal :=
  .next
    (match s.power with
    | .running | .starting _ => if heldUp then s.warn else s.warn.fall
    | _ => s)

/-- The reset mark set in an intact retention domain (R203). -/
def State.markReset (s : State) : State :=
  { s with ret := { s.ret with resetMark := s.ret.resetMark || s.ret.intact } }

/-- EXTERNAL_RESET (R203): the part stops at once, a write being stored is left by R2, and the reset mark is set; also
during start-up (R207) and after a taken warning (notes/assumptions/24.md). In RETAIN and in reset only the mark is
set. -/
def execExternalReset (s : State) : Host.Outcome State Fault Refusal :=
  .next (if s.isSupplied then (s.cutShort.stopped .reset).markReset else s.markReset)

/-- BROWN_OUT (R203): VDD falls. -/
def execBrownOut (s : State) : Host.Outcome State Fault Refusal := .next s.fall

/-- RETENTION_DOMAIN_LOSS (R202): with VDD and VBAT both absent, nothing of the retention domain is kept. -/
def execRetentionDomainLoss (s : State) : Host.Outcome State Fault Refusal :=
  .next (if s.isSupplied then s else { s with ret := .lost })

/-! ## The beginning of start-up (R204) -/

/-- The retention domain as start-up takes it up: kept if intact; else the clock from the stored clock, invalid, and
the mark set afresh (R30, R204). -/
def Retention.atStartUp (r : Retention) (storedClock : Nat) : Retention :=
  if r.intact then r else { Retention.lost with intact := true, clock := storedClock }

/-- The debounced levels at start-up: ACTIVE where the stored state is ACTIVE (R138). -/
def Nv.startLevels (n : Nv) : PerKind Bool :=
  let active : TamperKind → Bool := fun k => (n.tampers.get k).state == .active
  { mainCover := active .mainCover
    terminalCover := active .terminalCover
    magnetic := active .magnetic
    reverseFlow := active .reverseFlow
    loadSideVoltage := active .loadSideVoltage }

/-- A port as start-up begins it: its notice set holds POWER_UP alone, with the clock at start-up (R190, R204). -/
def PortUnit.atStartUp (clock : Nat) : PortUnit := { PortUnit.fresh with notices := [⟨.powerUp, clock⟩] }

/-- The events of the sequence, in the order of R205; the window edge before "arrears ceiling reached" and the code
unit's limits before the supply controller's are the model's order (notes/assumptions/22.md). -/
def startSteps : List StartStep :=
  [.outageRecord, .windowClose, .coverStep, .owedDays, .graceDeadlines, .armDeadline, .restoreTime, .halfLapse,
    .lockoutA, .lockoutL, .activation, .codeLimits, .supplyLimits, .graceLevels, .windowEdge, .ceiling, .breakWait,
    .contactorCheck]

/-- The sequence as start-up begins it: every step left, the clock as R204 leaves it, and the sense lines as they will
stand at the contactor check. -/
def State.startSequence (s : State) (sense : Sense) : StartSequence where
  steps := startSteps
  intact := s.ret.intact
  clock := (s.ret.atStartUp s.stored.storedClock).clock
  sense := sense

/-- The part at the beginning of start-up: volatile state afresh, stored state kept (R204). The friendly window state
is not yet computed (R205, notes/assumptions/15.md). -/
def State.beginStartUp (s : State) (loadhi loadx : Bool) (sense : Sense) : State :=
  let ret := s.ret.atStartUp s.stored.storedClock
  { State.delivered with
    pending := s.pending
    power := .starting (s.startSequence sense)
    ret := ret
    stored := s.stored
    nv := s.stored
    clockUnit := { ClockUnit.fresh with windowInForce := Config.windowBeforeFirstEvaluation s.choices }
    supply := { SupplyUnit.fresh with loadhi := loadhi, loadx := loadx }
    tamper := { levels := s.stored.startLevels, arrivals := [] }
    ports := ⟨.atStartUp ret.clock, .atStartUp ret.clock⟩
    choices := s.choices + 1 }

/-! ## The events of the sequence (R205) -/

/-- The cause of a start-up (R203). -/
def startCause (warned intact resetMark : Bool) : StartCause :=
  if warned then .outage else if intact && resetMark then .externalReset else .brownOut

/-- The days that start-up will pass over, at the clock it judges its steps against (R205). -/
def State.startPassedOver (s : State) (clock : Nat) : Nat := if s.ret.valid then s.owedDays clock - maxDays else 0

/-- Step 1: the OUTAGE record, and the marks cleared (R203, R205). The reset mark is cleared with the write, as the warned
mark is: a stop that loses the write keeps both for the next start-up, the model's reading of R203's 'then cleared'
(notes/assumptions/35.md). -/
def State.recordOutage (s : State) (q : StartSequence) : State :=
  let cause := startCause s.nv.warnedMark q.intact s.ret.resetMark
  let duration := if cause = .outage ∧ q.intact then some (s.clock - s.nv.storedClock) else none
  let e := (Event.begin s .device).updateNv (fun n => { n with warnedMark := false })
  (e.log (.outage cause q.intact duration (s.startPassedOver q.clock))).commitClearing .store .reset

/-- Step 2: the close of an open service window (R151, R156). -/
def State.closeAtStart (s : State) : State :=
  match s.nv.window with
  | some _ => ((Event.begin s .device).closeWindow .startUp).commit .tamper
  | none => s

/-- Step 3: the outage step for MAIN_COVER, with the latch set in a domain found intact (R155). The latch is cleared with
the step's one write: a stop that loses the write keeps the latch, and the next start-up takes the step
(notes/assumptions/35.md). -/
def State.outageStep (s : State) (intact : Bool) : State :=
  if intact ∧ s.ret.latch then
    let isOpen := s.ret.coverOpen
    let e := Event.begin (s.setLevel .mainCover isOpen) .device
    (e.detect .mainCover (if isOpen then .active else .latched) true).commitClearing .tamper .latch
  else s

/-- Step 4: the days owed at the start-up clock, as one day-close event whose storing the sequence waits for (R46,
R205). -/
def State.closeOwed (s : State) (clock : Nat) : State :=
  let s := s.handOwed clock false
  match s.clockUnit.dayClose with
  | some d =>
    ({ s.leaveArrivals with clockUnit := { s.clockUnit with dayCloseTaking := true } }.dayCloseEvent d).commit .account
  | none => s

/-- An event of the supply controller in the sequence. -/
def State.supplyStep (s : State) (f : Event → Event) : State := (f (Event.begin s .device)).commitSupply s.nv

/-- Step 8: the lapse of a pending half whose deadline has passed (R93, R97). -/
def State.lapseAtStart (s : State) (clock : Nat) : State :=
  match s.nv.pendingHalf with
  | some h => if h.deadline ≤ clock then ((Event.begin s .device).discardHalf h).commit .code else s
  | none => s

/-- Step 9: the expiry of a port's lockout whose deadline has passed (R86, R97). -/
def State.expireAtStart (s : State) (clock : Nat) (p : Port) : State :=
  match s.nv.lockouts.get p with
  | some l => if l.deadline ≤ clock then ((Event.begin s .device).endLockout p).commit .code else s
  | none => s

/-- Step 10: the activation of a pending set whose time has passed, with the clock valid; it hands no window edge of
its own (R39, R205). -/
def State.activateAtStart (s : State) (clock : Nat) : State :=
  match s.ret.valid, s.nv.dueTariff clock with
  | true, some t => (((Event.begin s .device).activate t).notify .tariffChanged).commit .clockTariff
  | _, _ => s

/-- Step 12: the holds still in GRACE re-evaluated against LOADHI (R122). -/
def Event.graceAtStart (e : Event) : Event :=
  if e.state.supply.loadhi then e else (e.graceEnds .startUp .credit).graceEnds .startUp .remote

/-- Step 13, the window edge: the friendly window state computed and handed (R45, R110). -/
def State.windowAtStart (s : State) (clock : Nat) : State :=
  let inForce := s.nv.activeTariff.friendlyAt clock
  { s with clockUnit := { s.clockUnit with windowInForce := inForce } }.supplyStep
    (fun e => e.windowEdge (if inForce then .start else .stop))

/-- Step 13, "arrears ceiling reached", if the condition holds (R20, R111); the hand-off of a day close of step 4 is
this one (notes/assumptions/22.md). -/
def State.ceilingAtStart (s : State) : State :=
  let s := { s with supply := { s.supply with ceilingHanded := false } }
  if s.nv.ceilingHolds then s.supplyStep Event.ceilingReached else s

/-- Step 14: the open for a contactor in BREAK_WAIT, with LOADX deasserted (R115). -/
def State.breakWaitAtStart (s : State) : State := if s.supply.loadx then s else s.openFromWait

/-- The drive that the contactor check begins, by the contactor state, the target and the sense lines (R136). -/
def Nv.checkDrive (n : Nv) (driving : Bool) (sense : Sense) : Option Position :=
  match n.contactor with
  | .opening | .closing => if driving then none else some n.driveTarget
  | .closed => if sense.agrees n.settings.phases .closed then none else some .closed
  | .breakWait => if sense.agrees n.settings.phases .closed then none else some .opened
  | .opened | .armed => if sense.agrees n.settings.phases .opened then none else some .opened
  | .welded | .stuckOpen => none

/-- Step 15: the contactor check (R136), on the sense lines as they stand at it, which START_UP names
(notes/assumptions/22.md). -/
def State.contactorCheck (s : State) (sense : Sense) : State :=
  match s.nv.checkDrive s.driver.drive.isSome sense with
  | some d => ((Event.begin s .device).dropArmDeadline.beginDrive d .startUp .device).commit .driver
  | none => s

/-- One event of the sequence taken (R205). Its conditions are judged against the clock as R204 leaves it: what the clock
crosses while the sequence runs is taken at its end (R207, notes/assumptions/22.md). Its records, and the deadlines it
begins, have the clock as it stands. -/
def State.startStep (s : State) (q : StartSequence) : StartStep → State
  | .outageRecord => s.recordOutage q
  | .windowClose => s.closeAtStart
  | .coverStep => s.outageStep q.intact
  | .owedDays => s.closeOwed q.clock
  | .graceDeadlines => s.supplyStep (fun e => (e.graceReached q.clock .credit).graceReached q.clock .remote)
  | .armDeadline => s.supplyStep (fun e => e.armReached q.clock)
  | .restoreTime => s.supplyStep (fun e => e.restoreReached q.clock)
  | .halfLapse => s.lapseAtStart q.clock
  | .lockoutA => s.expireAtStart q.clock .a
  | .lockoutL => s.expireAtStart q.clock .l
  | .activation => s.activateAtStart q.clock
  | .codeLimits => s.limitCode q.clock
  | .supplyLimits => s.supplyStep (fun e => e.limitDeadlines q.clock)
  | .graceLevels => s.supplyStep Event.graceAtStart
  | .windowEdge => s.windowAtStart q.clock
  | .ceiling => s.ceilingAtStart
  | .breakWait => s.breakWaitAtStart
  | .contactorCheck => s.contactorCheck q.sense

/-! ## The sequence (R205, R207) -/

/-- The end of the sequence: the part runs, and the code unit's deadlines that the clock reached meanwhile join its
queue (R207). -/
def State.endStartUp (s : State) : State := { s with power := .running }.queueDeadlines

/-- The events of a list taken one after another, up to the first that makes a write, which is stored before the next
is taken (R205); when none is left the sequence ends (R207). -/
def State.runStartUp (s : State) (q : StartSequence) : List StartStep → State
  | [] => s.endStartUp
  | step :: rest =>
    let t := s.startStep q step
    if t.writes.isEmpty then t.runStartUp q rest else { t with power := .starting { q with steps := rest } }

/-- START_UP (R204, R205): the part begins volatile state afresh and the sequence; no effect on a part that has its
supply. `sense` is the reading of the sense lines at the contactor check, the last of the sequence's events (R136). -/
def execStartUp (loadhi loadx : Bool) (sense : Sense) (s : State) : Host.Outcome State Fault Refusal :=
  .next
    (if s.isSupplied then s else (s.beginStartUp loadhi loadx sense).runStartUp (s.startSequence sense) startSteps)

/-! ## WRITE_STORED -/

/-- A write stored during start-up; with none left, the sequence goes on (R205). -/
def State.storeInStartUp (s : State) (q : StartSequence) : State :=
  if s.writes.isEmpty then s
  else
    let t := s.storeOldest
    if t.writes.isEmpty then t.runStartUp q q.steps else t

/-- What follows a write stored after a taken warning: its notices are raised (R172); answers are discarded (R190), and
every other block takes no further event (R201). -/
def State.performWarned (s : State) : FollowUp → State
  | .notice k => s.raise k
  | _ => s

/-- A write stored after a taken warning; with none left, the last write is begun (R201). -/
def State.storeWarned (s : State) : State :=
  match s.writes with
  | [] => s
  | w :: rest =>
    let t := w.follow.foldl State.performWarned ({ s with writes := rest }.store w)
    if rest.isEmpty then t.beginLastWrite else t

/-- The last write stored: the part enters RETAIN (R201). -/
def State.storeLast (s : State) : State :=
  match s.writes with
  | [] => s
  | w :: _ => (s.store w).stopped .retain

/-- WRITE_STORED (R2): the oldest write on its way is stored, and what waits on it follows. -/
def execWriteStored (s : State) : Host.Outcome State Fault Refusal :=
  .next
    (match s.power with
    | .running => s.storeOldest
    | .starting q => s.storeInStartUp q
    | .warned => s.storeWarned
    | .lastWrite => s.storeLast
    | .retain | .reset | .brownOut => s)

end Sys2Proof.Machine
end

