-- ==== Sys2Proof/Machine/Dispatch.lean ====
section
/-! DEFINITION. The meaning of every command: one arm for each constructor of `Instr`. -/

namespace Sys2Proof.Machine

/-- The effect of a command on everything but the queue of commands. -/
def exec (i : Instr) (s : State) : Host.Outcome State Fault Refusal :=
  match i with
  | .lPortFrame bytes => Sys2Proof.Machine.execLPortFrame bytes s
  | .lPortGap => Sys2Proof.Machine.execLPortGap s
  | .lPortBreak => Sys2Proof.Machine.execLPortBreak s
  | .lPortFrameSent => Sys2Proof.Machine.execLPortFrameSent s
  | .aPortRequestTransaction begun bytes => Sys2Proof.Machine.execAPortRequestTransaction begun bytes s
  | .aPortReadTransaction begun clocked => Sys2Proof.Machine.execAPortReadTransaction begun clocked s
  | .status port => Sys2Proof.Machine.execStatus port s
  | .readNotices port => Sys2Proof.Machine.execReadNotices port s
  | .portClear port => Sys2Proof.Machine.execPortClear port s
  | .snapshot port => Sys2Proof.Machine.execSnapshot port s
  | .readJournal port => Sys2Proof.Machine.execReadJournal port s
  | .releaseJournal port => Sys2Proof.Machine.execReleaseJournal port s
  | .submitCode port => Sys2Proof.Machine.execSubmitCode port s
  | .readFirstRefusal port => Sys2Proof.Machine.execReadFirstRefusal port s
  | .clearFirstRefusal port => Sys2Proof.Machine.execClearFirstRefusal port s
  | .credit => Sys2Proof.Machine.execCredit s
  | .emergencyLimit => Sys2Proof.Machine.execEmergencyLimit s
  | .debtSet => Sys2Proof.Machine.execDebtSet s
  | .bandPrice => Sys2Proof.Machine.execBandPrice s
  | .service => Sys2Proof.Machine.execService s
  | .tamperClear => Sys2Proof.Machine.execTamperClear s
  | .reconnect => Sys2Proof.Machine.execReconnect s
  | .lockoutExpiry port => Sys2Proof.Machine.execLockoutExpiry port s
  | .pendingHalfLapse => Sys2Proof.Machine.execPendingHalfLapse s
  | .codeUnitClockSet => Sys2Proof.Machine.execCodeUnitClockSet s
  | .readTariff port => Sys2Proof.Machine.execReadTariff port s
  | .readTamper port => Sys2Proof.Machine.execReadTamper port s
  | .readSetting port => Sys2Proof.Machine.execReadSetting port s
  | .press => Sys2Proof.Machine.execPress s
  | .acceptEmergency => Sys2Proof.Machine.execAcceptEmergency s
  | .setClock => Sys2Proof.Machine.execSetClock s
  | .remoteOpen => Sys2Proof.Machine.execRemoteOpen s
  | .remoteConnect => Sys2Proof.Machine.execRemoteConnect s
  | .stageTariff => Sys2Proof.Machine.execStageTariff s
  | .cancelTariff => Sys2Proof.Machine.execCancelTariff s
  | .setDebt => Sys2Proof.Machine.execSetDebt s
  | .clearTamper port => Sys2Proof.Machine.execClearTamper port s
  | .clearTrip port => Sys2Proof.Machine.execClearTrip port s
  | .contactorRetry port => Sys2Proof.Machine.execContactorRetry port s
  | .writeSetting port => Sys2Proof.Machine.execWriteSetting port s
  | .accountSettingChange port => Sys2Proof.Machine.execAccountSettingChange port s
  | .tamperSettingChange port => Sys2Proof.Machine.execTamperSettingChange port s
  | .closeService port => Sys2Proof.Machine.execCloseService port s
  | .writeStored => Sys2Proof.Machine.execWriteStored s
  | .clockAdvance => Sys2Proof.Machine.execClockAdvance s
  | .minuteEnd windowFirst => Sys2Proof.Machine.execMinuteEnd windowFirst s
  | .hourEnd => Sys2Proof.Machine.execHourEnd s
  | .midnight => Sys2Proof.Machine.execMidnight s
  | .tariffActivation => Sys2Proof.Machine.execTariffActivation s
  | .dayClose => Sys2Proof.Machine.execDayClose s
  | .friendlyWindowEdge => Sys2Proof.Machine.execFriendlyWindowEdge s
  | .arrearsCeilingReached => Sys2Proof.Machine.execArrearsCeilingReached s
  | .demandOverLimit => Sys2Proof.Machine.execDemandOverLimit s
  | .importPulse phase => Sys2Proof.Machine.execImportPulse phase s
  | .exportPulse phase => Sys2Proof.Machine.execExportPulse phase s
  | .pulseLineResting direction phase => Sys2Proof.Machine.execPulseLineResting direction phase s
  | .energyQuantum => Sys2Proof.Machine.execEnergyQuantum s
  | .pulsesWhileOpen => Sys2Proof.Machine.execPulsesWhileOpen s
  | .graceDeadline kind => Sys2Proof.Machine.execGraceDeadline kind s
  | .restoreTime => Sys2Proof.Machine.execRestoreTime s
  | .armDeadline => Sys2Proof.Machine.execArmDeadline s
  | .serviceWindowExpiry => Sys2Proof.Machine.execServiceWindowExpiry s
  | .supplyClockSet => Sys2Proof.Machine.execSupplyClockSet s
  | .tamperClockSet => Sys2Proof.Machine.execTamperClockSet s
  | .loadhiChange asserted => Sys2Proof.Machine.execLoadhiChange asserted s
  | .loadxChange asserted => Sys2Proof.Machine.execLoadxChange asserted s
  | .thermActive => Sys2Proof.Machine.execThermActive s
  | .thermInactive => Sys2Proof.Machine.execThermInactive s
  | .buttonPress => Sys2Proof.Machine.execButtonPress s
  | .buttonRelease => Sys2Proof.Machine.execButtonRelease s
  | .drivePulseEnd => Sys2Proof.Machine.execDrivePulseEnd s
  | .driveSettleEnd sense => Sys2Proof.Machine.execDriveSettleEnd sense s
  | .voltageWatchExpiry sense => Sys2Proof.Machine.execVoltageWatchExpiry s sense
  | .tamperInputActive kind => Sys2Proof.Machine.execTamperInputActive kind s
  | .tamperInputInactive kind => Sys2Proof.Machine.execTamperInputInactive kind s
  | .outageCoverWatch coverOpen => Sys2Proof.Machine.execOutageCoverWatch coverOpen s
  | .powerFailWarning heldUp => Sys2Proof.Machine.execPowerFailWarning heldUp s
  | .externalReset => Sys2Proof.Machine.execExternalReset s
  | .brownOut => Sys2Proof.Machine.execBrownOut s
  | .startUp loadhi loadx sense => Sys2Proof.Machine.execStartUp loadhi loadx sense s
  | .lPortByteReceived byte => Sys2Proof.Machine.execLPortByteReceived byte s
  | .retentionDomainLoss => Sys2Proof.Machine.execRetentionDomainLoss s

end Sys2Proof.Machine
end

