-- ==== Sys2Proof/Safety.lean ====
section
/-! DEFINITION. What counts as a sound state: the laws that the spec states of the block's state as a whole, each as a
decidable property. A law of the stored state is read on what the blocks hold, on what the store holds and on every
write that is on its way (`State.everyImage`), because any of them may be what a stop leaves behind. -/

namespace Sys2Proof.Machine

/-- A property of the stored state holds of what the blocks hold, of what the store holds, and of every write on its
way to the store. -/
def State.everyImage (P : Nv → Bool) (s : State) : Bool := P s.nv && P s.stored && s.writes.all (fun w => P w.image)

/-- What the blocks hold is what the newest write holds, or what the store holds with no write on its way (R2: an
event's change is the change of one write). -/
def State.storeAgrees (s : State) : Bool := s.nv == (s.writes.getLast?.map (·.image)).getD s.stored

/-! ## The account -/

/-- Emergency credit is drawn only while it is active (R18). -/
def Account.emergencyLaw (a : Account) : Bool := a.emergencyActive || a.emergencyUsed == 0

/-- The account record obeys the conservation law of its lifetime totals (R24). -/
def Nv.balanced (n : Nv) : Bool := n.account.balanced

/-- The emergency law of the stored account record (R18). -/
def Nv.emergencyLaw (n : Nv) : Bool := n.account.emergencyLaw

/-! ## The supply -/

/-- When the contactor is CLOSED the list holds no FIRM hold, and when it is ARMED the list is empty (R113). -/
def Nv.supplyLaw (n : Nv) : Bool :=
  (n.contactor != .closed || !n.holds.anyFirm) && (n.contactor != .armed || n.holds.isEmpty)

/-- The list holds a CREDIT hold exactly while the account is exhausted (R101). -/
def Nv.creditLaw (n : Nv) : Bool := n.holds.credit.isSome == n.account.exhausted

/-- The list holds a TAMPER hold exactly while the tamper monitor's condition holds (R104, R145). -/
def Nv.tamperLaw (n : Nv) : Bool := n.holds.tamper == n.tamperCondition

/-- While the lapse marker is set, the list holds a FIRM REMOTE hold that no request placed (R119). -/
def Nv.lapseLaw (n : Nv) : Bool := !n.lapseMarker || n.holds.remote == some { phase := .firm, byRequest := false }

/-- In OPENING and CLOSING the drive target is the position driven to (R124). -/
def Nv.targetLaw (n : Nv) : Bool :=
  (n.contactor != .opening || n.driveTarget == .opened) && (n.contactor != .closing || n.driveTarget == .closed)

/-- The position that a contactor state is driven to, in OPENING and CLOSING alone (R124). -/
def Contactor.drivenTo : Contactor → Option Position
  | .opening => some .opened
  | .closing => some .closed
  | _ => none

/-- The drive in progress is the one that the contactor state calls for (R123, R124). -/
def State.driveFits (s : State) : Bool := s.driver.drive.map (·.direction) == s.nv.contactor.drivenTo

/-- While the part runs, a drive is in progress exactly in OPENING and CLOSING, in that direction; while start-up runs, a
drive found cut short may be missing until the contactor check (R123, R124, R136). -/
def State.driveLaw (s : State) : Bool :=
  match s.power with
  | .running => s.driveFits
  | .starting q => s.driveFits || (s.driver.drive.isNone && q.steps.contains .contactorCheck)
  | _ => true

/-- An arm deadline is held in ARMED alone (R118). -/
def State.armLaw (s : State) : Bool :=
  s.everyImage (fun n => n.armDeadline.isNone || n.contactor == .armed)

/-! ## The writes on their way -/

/-- The blocks whose appends wait at the journal, oldest first. -/
def State.waitingAppends (s : State) : List Block :=
  s.journalWaiting.filterMap (fun e => match e with | .append b _ => some b | .request _ => none)

/-- Each block has at most one write on its way, at most one of all carries an append or a release, and at most one
append of each block waits at the journal (R159). -/
def State.writesLaw (s : State) : Bool :=
  (s.writes.map (·.owner)).Nodup && (s.writes.filter (fun w => w.appends || w.owner == .journal)).length ≤ 1
    && s.waitingAppends.Nodup

/-! ## Codes -/

/-- The spent list holds at most 32 issue numbers in strictly ascending order (R64). -/
def Nv.spentLaw (n : Nv) : Bool := n.spent.length ≤ spentPlaces && strictlyAscending n.spent

/-- A code that waits at its owner carries an issue number that is not spent (R77). -/
def State.serviceLaw (s : State) : Bool :=
  match s.code.service with
  | some c => !c.atOwner || !s.nv.spent.contains c.issue
  | none => true

/-! ## The journal -/

/-- The place of a sequence number holds the record with that number. -/
def Journal.holds (j : Journal) (seq : Nat) : Bool :=
  match j.place seq with
  | some r => r.seq == seq
  | none => false

/-- The `n` sequence numbers from the newest backwards are each held. -/
def Journal.holdsLast (j : Journal) : Nat → Bool
  | 0 => true
  | n + 1 => j.holds ((j.newest + seqModulus - n) % seqModulus) && j.holdsLast n

/-- The ring has 512 places, sequence numbers are kept modulo 2^32, at most 512 records are unreleased, each of them is
held in its place, and records are counted in the overflow summary only while no place is free (R157, R158, R163,
R166). -/
def Journal.sound (j : Journal) : Bool :=
  j.ring.length == ringPlaces && j.newest < seqModulus && j.mark < seqModulus && j.unreleased ≤ ringPlaces
    && j.holdsLast j.unreleased && (j.overflow.isNone || j.unreleased == ringPlaces)

/-- The journal law of the stored state. -/
def Nv.journalLaw (n : Nv) : Bool := n.journal.sound

/-! ## The ports -/

/-- The port states of R174: IDLE holds no request and no response, WORKING a request alone, READY a response alone;
the discard mark is set in WORKING alone. -/
def PortUnit.sound (u : PortUnit) : Bool :=
  match u.state with
  | .idle => u.request.isNone && u.response.isNone && !u.discard
  | .working => u.request.isSome && u.response.isNone
  | .ready => u.request.isNone && u.response.isSome && !u.discard

/-- The L-port's transmitter sends a frame exactly while a slot holds one, from a slot that holds one (R178). -/
def State.transmitLaw (s : State) : Bool :=
  match s.lPort.sending with
  | none => s.ports.l.response.isNone && s.lPort.refusal.isNone
  | some .response => s.ports.l.response.isSome
  | some .refusal => s.lPort.refusal.isSome

/-- Both ports are sound, and the L-port's transmitter with them. -/
def State.portLaw (s : State) : Bool := s.ports.a.sound && s.ports.l.sound && s.transmitLaw

/-- A notice set holds each kind at most once (R186). -/
def noticesDistinct : List Notice → Bool
  | [] => true
  | n :: rest => rest.all (fun m => m.kind != n.kind) && noticesDistinct rest

/-- Both ports' notice sets hold each kind at most once (R186). -/
def State.noticeLaw (s : State) : Bool := noticesDistinct s.ports.a.notices && noticesDistinct s.ports.l.notices

/-! ## Counts and the clock -/

/-- The pulse input unit's counts stay in their ranges (R51, R54, R56, R62). -/
def PulseUnit.inRange (u : PulseUnit) : Bool :=
  u.waiting ≤ 65535 && u.hourExports ≤ 255 && u.minuteImports ≤ 65535 && u.minuteExports ≤ 65535
    && u.openPulses ≤ openPulseLimit

/-- The clock, the stored clock and every value a write will put in force are clock values (R27); while start-up runs no
write puts one in force, and the clock stands at or past the value its steps are judged against (R205). -/
def State.clockLaw (s : State) : Bool :=
  s.clock ≤ maxClock && s.everyImage (fun n => n.storedClock ≤ maxClock)
    && s.writes.all (fun w => match w.setsClock with | some t => decide (t ≤ maxClock) | none => true)
    && (match s.power with
      | .starting q => decide (q.clock ≤ s.clock) && s.writes.all (fun w => w.setsClock.isNone)
      | _ => true)

/-! ## One write of the store

The result of a command that makes a write is said with `State.withWrite`: the whole state after it, so that what is
not named is unchanged. -/

/-- The stored state with the records of one write appended to its journal (R163). -/
def Nv.withRecords (n : Nv) (clock : Nat) (origin : Origin) (records : List RecordBody) : Nv :=
  { n with journal := n.journal.appendAll clock origin records }

/-- The state with the blocks' stored state replaced by `n` and one write of it begun (R2, R159): the write holds `n`
with its records, is followed by `follow` and by the journal notices that its append calls for (R165), and clears the
mark of the retention domain that is named. -/
def State.withWrite (s : State) (n : Nv) (owner : Block) (origin : Origin) (records : List RecordBody)
    (follow : List FollowUp) (setsClock : Option Nat) (clears : Option RetentionMark := none) : State :=
  let image := n.withRecords s.clock origin records
  { s with
    nv := image
    writes := s.writes ++
      [{ owner := owner
         image := image
         appends := !records.isEmpty
         setsClock := setsClock
         follow := follow
          ++ (journalNotices s.nv.settings.journalLow s.nv.journal.free image.journal.free).map .notice
         clears := clears }] }

/-! ## What the rules of chapter 5 make of the contactor -/

/-- The contactor state after a placing, by the kind placed, whether it is placed FIRM, and LOADX (R114, R118). -/
def Contactor.afterPlacing (c : Contactor) (k : HoldKind) (firm loadx : Bool) : Contactor :=
  match c with
  | .armed => .opened
  | .closed => if firm then (if loadx && k != .trip then .breakWait else .opening) else .closed
  | .breakWait => if firm && k == .trip then .opening else .breakWait
  | c => c

/-- The contactor state after a hold in GRACE or DEFERRED becomes FIRM (R114). -/
def Contactor.afterFirm (c : Contactor) (loadx : Bool) : Contactor :=
  match c with
  | .closed => if loadx then .breakWait else .opening
  | c => c

/-- The contactor state after the removal of a hold that leaves the list `left`, by the policy of the removal (R115,
R117). -/
def Contactor.afterRemoval (c : Contactor) (left : HoldList) (policy : Policy) : Contactor :=
  match c with
  | .breakWait => if left.anyFirm then .breakWait else .closed
  | .opened =>
    if left.isEmpty then
      match policy with
      | .auto => .closing
      | .press | .pressWithin _ => .armed
    else .opened
  | c => c

/-- The stored state `n` with all that an event at the supply controller may change put back as `m` has it: the hold
list, the policy in force, the arm deadline, the contactor state, the drive target and the journal. Equal to `m` when
nothing else differs. -/
def Nv.withSupplyOf (n m : Nv) : Nv :=
  { n with
    holds := m.holds, policy := m.policy, armDeadline := m.armDeadline, contactor := m.contactor
    driveTarget := m.driveTarget, journal := m.journal }

/-- The state `t` with the stored state, the writes and the contactor driver put back as `s` has them: all of it but
these is `s` when an event did nothing else. -/
def State.withStoreOf (t s : State) : State := { t with nv := s.nv, writes := s.writes, driver := s.driver }

/-- One write of an owner is begun, and it holds the stored state as the blocks then hold it (R2). -/
def State.beganWrite (s t : State) (owner : Block) : Prop :=
  ∃ w, t.writes = s.writes ++ [w] ∧ w.owner = owner ∧ w.image = t.nv

/-- The follow-ups of the newest write on its way to the store. -/
def State.newestFollow (s : State) : List FollowUp :=
  match s.writes.getLast? with
  | some w => w.follow
  | none => []

/-- The code in service with its application taken: it no longer waits at its owner. -/
def State.withServed (s : State) (c : CodeService) : State :=
  { s with code := { s.code with service := some { c with atOwner := false } } }

/-- What an applied code leaves in the code unit's stored state: its issue number spent, the port's failures reset
(R84, R85). -/
def Nv.withSpent (n : Nv) (c : CodeService) : Nv :=
  { n with
    spent := spend c.issue n.spent
    failures := n.failures.set c.port 0
    lockoutSteps := n.lockoutSteps.set c.port 0 }

/-- What follows the write of an applied code: its response and the end of its service (R94). -/
def CodeService.servedFollow (c : CodeService) (effect : CodeEffect) : List FollowUp :=
  [.answer c.port .ok (c.applied effect).bytes, .codeServed]

/-- The account record with its low-credit state as the end of an event leaves it: evaluated against the threshold if C
has changed (R21). -/
def Account.settled (a : Account) (before : Account) (threshold : Nat) : Account :=
  { a with
    lowCredit :=
      if a.credit = before.credit then before.lowCredit
      else if a.credit ≤ threshold then .atOrBelow else .above }

/-! ## What an event does at the hold list and the contactor -/

/-- The contactor state after an event that gave at most one command is `c`: a change into OPENING or CLOSING is a new
drive in that direction with its first attempt begun, and any other outcome leaves the drive and its target (R113,
R124, R126). An entry to one of the five states of R125 raises SUPPLY_CHANGED, one to ARMED raises ARMED as well (R118),
and the LOAD_SIDE_VOLTAGE input keeps its level only within OPEN and ARMED (R134). -/
def State.commanded (s t : State) (c : Contactor) (origin : Origin) : Prop :=
  t.nv.contactor = c ∧ t.driver.pulsesHanded = s.driver.pulsesHanded ∧
    t.driver.voltageInput =
      (s.driver.voltageInput && (c == s.nv.contactor || (c.watched && s.nv.contactor.watched))) ∧
    (.notice .supplyChanged ∈ t.newestFollow ↔
      c ≠ s.nv.contactor ∧ c ∈ [Contactor.closed, .opened, .armed, .welded, .stuckOpen]) ∧
    (.notice .armed ∈ t.newestFollow ↔ c ≠ s.nv.contactor ∧ c = .armed) ∧
    (match if c = s.nv.contactor then none else c.drivenTo with
    | some d =>
      t.nv.driveTarget = d ∧
        t.driver.drive =
          some
            { direction := d, cause := .command, origin := origin, retryCount := 0, stage := .pulse
              pulseMs := s.nv.settings.pulseTime, settleMs := s.nv.settings.settleTime }
    | none => t.nv.driveTarget = s.nv.driveTarget ∧ t.driver.drive = s.driver.drive)

/-- An event that gives no command and moves no hold: the list, the policy in force, the arm deadline, the contactor and
its driver stay. -/
def State.supplyKept (s t : State) : Prop :=
  t.nv.holds = s.nv.holds ∧ t.nv.policy = s.nv.policy ∧ t.nv.armDeadline = s.nv.armDeadline ∧
    s.commanded t s.nv.contactor .device

/-- A hold is placed: it joins the list, the contactor is commanded as R114 and R118 say, and an arm deadline is removed
with the arming. -/
def State.placed (s t : State) (k : HoldKind) (phase : HoldPhase) (byRequest : Bool) (restore : Nat) : Prop :=
  t.nv.holds = s.nv.holds.place k phase byRequest restore ∧ t.nv.policy = s.nv.policy ∧
    t.nv.armDeadline = (if s.nv.contactor = .armed then none else s.nv.armDeadline) ∧
    s.commanded t (s.nv.contactor.afterPlacing k (phase == .firm) s.supply.loadx) .device

/-- Holds of a list become FIRM: the list is `h`, and the contactor is commanded as R114 says for one that is no TRIP
hold. -/
def State.firmed (s t : State) (h : HoldList) : Prop :=
  t.nv.holds = h ∧ t.nv.policy = s.nv.policy ∧ t.nv.armDeadline = s.nv.armDeadline ∧
    s.commanded t (s.nv.contactor.afterFirm s.supply.loadx) .device

/-- A hold leaves the list: an emptied list sets the policy in force, and the contactor is commanded as R115 and R117
say, with an arm deadline for PRESS_WITHIN. -/
def State.removed (s t : State) (k : HoldKind) (policy : Policy) : Prop :=
  let left := s.nv.holds.remove k
  t.nv.holds = left ∧ t.nv.policy = (if left.isEmpty then some policy else s.nv.policy) ∧
    t.nv.armDeadline =
      (if left.isEmpty ∧ s.nv.contactor = .opened then
        match policy with
        | .pressWithin m => some { deadline := deadlineSum s.clock (60 * m), minutes := m }
        | .auto | .press => none
      else s.nv.armDeadline) ∧
    s.commanded t (s.nv.contactor.afterRemoval left policy) .device

/-- The HOLD_REMOVED record of a removal (R161): the phase the hold had, and the policy that took effect if the list is
empty without it. -/
def Nv.removalRecord (n : Nv) (k : HoldKind) (had : HoldPhase) (cause : RemovalCause) (named : Option Policy)
    (policy : Policy) : RecordBody :=
  .holdRemoved k had.name cause named (if (n.holds.remove k).isEmpty then some policy else none)

/-- The phase of a CREDIT hold placed by an event that leaves `t` (R108): DEFERRED in a friendly window unless the
arrears-ceiling condition holds, else GRACE with LOADHI asserted and a grace time above 0, else FIRM. -/
def State.creditPhase (s t : State) : HoldPhase :=
  if s.clockUnit.windowInForce = true ∧ t.nv.ceilingHolds = false then .deferred
  else if s.supply.loadhi = true ∧ 0 < s.nv.settings.graceTime then
    .grace (min (s.clock + s.nv.settings.graceTime) 4294967295)
  else .firm

/-- The CREDIT hold follows the exhausted condition, with the records it writes: placed in the phase of R108 and
CREDIT_EXHAUSTED raised when the condition becomes true, removed by the CREDIT reconnection policy when it becomes
false, and nothing of the supply changed otherwise (R19, R101). -/
def State.creditFollows (s t : State) (records : List RecordBody) : Prop :=
  (.notice .creditExhausted ∈ t.newestFollow ↔
    s.nv.account.exhausted = false ∧ t.nv.account.exhausted = true) ∧
  (match s.nv.account.exhausted, t.nv.account.exhausted, s.nv.holds.credit with
  | false, true, none =>
    s.placed t .credit (s.creditPhase t) false 0 ∧ records = [.holdPlaced .credit (s.creditPhase t) none none]
  | true, false, some had =>
    let policy : Policy := match s.nv.settings.creditPolicy with | .auto => .auto | .press => .press
    s.removed t .credit policy ∧ records = [s.nv.removalRecord .credit had .credit none policy]
  | _, _, _ => s.supplyKept t ∧ records = [])

/-- What the end of an event at the account does, with the records it adds: the CREDIT hold, CREDIT_LOW at a passage of
the low-credit state to at or below (R21), and "arrears ceiling reached" handed as the condition begins to hold (R20). -/
def State.accountFollows (s t : State) (records : List RecordBody) : Prop :=
  s.creditFollows t records ∧
    (.notice .creditLow ∈ t.newestFollow ↔
      s.nv.account.lowCredit = .above ∧ t.nv.account.lowCredit = .atOrBelow) ∧
    (.ceilingReached ∈ t.newestFollow ↔ s.nv.ceilingHolds = false ∧ t.nv.ceilingHolds = true)

/-- The TAMPER hold follows the tamper monitor's condition, with the records it writes: placed FIRM when the condition
becomes true, removed with policy PRESS when it becomes false, and nothing of the supply changed otherwise (R104,
R145). -/
def State.tamperFollows (s t : State) (records : List RecordBody) : Prop :=
  match s.nv.tamperCondition, t.nv.tamperCondition, s.nv.holds.tamper with
  | false, true, false => s.placed t .tamper .firm false 0 ∧ records = [.holdPlaced .tamper .firm none none]
  | true, false, true =>
    s.removed t .tamper .press ∧ records = [s.nv.removalRecord .tamper .firm .tamper none .press]
  | _, _, _ => s.supplyKept t ∧ records = []

/-- The phases in use that a reading shows voltage on (R127). -/
def Sense.shown (s : Sense) (p : Phases) : List Bool :=
  match p with
  | .one => [s.l1]
  | .three => [s.l1, s.l2, s.l3]

end Sys2Proof.Machine
end

