-- ==== Sys2Proof/Certificates/Slice0/Obligations.lean ====
section
/-! DEFINITION. The statements about this model, each with the rules of the spec it formalises. -/

open Sys2Proof Sys2Proof.Machine

/-! ## The step -/

/-- A step of the block takes the command at the front of its queue: it is `exec` of that command on the state with the
queue's rest. The queue is the model's own (notes/assumptions/10.md). -/
def Obligations.StepRunsFrontCommand : Prop :=
  ∀ (c : Instr) (s : State), step { s with pending := c :: s.pending } = exec c s

/-- Every command has a next state from every state, and none touches the queue of waiting commands: no event of the
spec stops the part for good (the model's choice, notes/assumptions/1.md). -/
def Obligations.EveryCommandCompletes : Prop :=
  ∀ (c : Instr) (s : State), ∃ t, exec c s = .next t ∧ t.pending = s.pending

/-! ## Chapter 1: the account -/

/-- R5: charging one minor unit takes it from the first source that applies, and charging several is charging one
several times. -/
def Obligations.ChargeTakesUnitByUnit : Prop :=
  ∀ a : Account,
    a.chargeOne =
      (if 0 < a.credit then { a with credit := a.credit - 1, totalCharged := (a.totalCharged + 1) % 2 ^ 48 }
      else if a.emergencyActive = true ∧ a.emergencyUsed < a.emergencyLimit then
        { a with emergencyUsed := a.emergencyUsed + 1, totalCharged := (a.totalCharged + 1) % 2 ^ 48 }
      else if a.arrears < 99999999 then
        { a with arrears := a.arrears + 1, totalCharged := (a.totalCharged + 1) % 2 ^ 48 }
      else { a with unbooked := (a.unbooked + 1) % 2 ^ 48 }) ∧
    ∀ n, a.charge n = Account.chargeOne^[n] a

/-- R7, R8, R19 to R21: the account takes the oldest event on its list, a quantum: the price of the band in force goes
through the cost residue, one minor unit is charged for each million micro-minor units, and the conditions are evaluated
once at the end: the CREDIT hold, in its phase of R108, follows the exhausted condition with its record, its command and
CREDIT_EXHAUSTED, CREDIT_LOW and "arrears ceiling reached" follow theirs, and the change is one write. Nothing else
changes. A quantum that moves the hold has a record and waits for the journal (R159, notes/assumptions/18.md). -/
def Obligations.QuantumIsCharged : Prop :=
  ∀ s : State, s.isRunning = true → s.accountTakes .quantum = true →
    (let a := s.nv.account
    let q := a.residue + s.nv.activeTariff.priceAt s.clock
    let after : Account :=
      { Account.chargeOne^[q / 1000000] a with residue := q % 1000000 }.settled a s.nv.settings.lowCreditThreshold
    s.mayBegin .energyQuantum .account (after.exhausted != a.exhausted) = true →
    ∃ t records, exec .energyQuantum s = .next t ∧ t.nv.account = after ∧ s.accountFollows t records ∧
      t.nv.journal = s.nv.journal.appendAll s.clock .device records ∧
      t.arrivals = s.arrivals.tail ∧ s.beganWrite t .account ∧ .quantumTaken ∈ t.newestFollow ∧
      { t.withStoreOf s with arrivals := s.arrivals } = s.leaveLine .energyQuantum ∧
      { t.nv.withSupplyOf s.nv with account := s.nv.account } = s.nv)

/-- R15, R16: a day close of k days charges the standing charge and takes the daily recovery k times, one day after
another; it is one event with one STANDING record, and CREDIT_CHANGED is raised if C at its end differs from C at its
start. The low-credit state, the exhausted condition and the arrears-ceiling condition are evaluated at its end, with
the CREDIT hold, its record, command and notices, and nothing else changes. That STANDING comes before the hold's record
is the model's choice (notes/assumptions/16.md). -/
def Obligations.DayCloseRepeatsTheDay : Prop :=
  ∀ (s : State) (d : DayCloseEvent), s.isRunning = true → s.accountTakes .dayClose = true →
    s.clockUnit.dayClose = some d → s.mayBegin .dayClose .account true = true →
    ∃ t records, exec .dayClose s = .next t ∧
      (let a := s.nv.account
      let charge := s.nv.activeTariff.standingCharge
      let day : Account → Account := fun x =>
        let y := Account.chargeOne^[charge] x
        let r := min y.dailyRecovery (min y.debt y.credit)
        { y with credit := y.credit - r, debt := y.debt - r, totalRecovered := raiseTotal y.totalRecovered r }
      t.nv.account = (day^[d.days] a).settled a s.nv.settings.lowCreditThreshold ∧
      t.nv.journal = s.nv.journal.appendAll s.clock .device
        (.standing d.days d.last (d.days * charge) (a.debt - t.nv.account.debt) d.passedOver :: records)) ∧
      s.accountFollows t records ∧ t.nv.lastChargedDay = d.last ∧ t.nv.storedClock = s.clock ∧
      (.notice .creditChanged ∈ t.newestFollow ↔ t.nv.account.credit ≠ s.nv.account.credit) ∧
      .dayCloseTaken ∈ t.newestFollow ∧
      t.arrivals = s.arrivals.tail ∧ t.clockUnit = { s.clockUnit with dayCloseTaking := true } ∧
      s.beganWrite t .account ∧
      { t.withStoreOf s with arrivals := s.arrivals, clockUnit := s.clockUnit } = s.leaveLine .dayClose ∧
      { t.nv.withSupplyOf s.nv with
        account := s.nv.account, lastChargedDay := s.nv.lastChargedDay, storedClock := s.nv.storedClock } = s.nv

/-- R9, R11, R84, R94: an applied credit code of amount V is split into arrears repaid, emergency repaid, debt recovered
and credit, in this order; it ends emergency credit if it leaves E at 0; its issue number is spent and its port's
failures are reset, and its commit carries the CODE_APPLIED record with the four parts, the record of a hold removed,
the response and CREDIT_CHANGED. The conditions are evaluated at its end as for any event, and nothing else changes. The
order of the records and of what follows the write is the model's where the spec gives none (notes/assumptions/16.md).
R84: spending inserts an issue number that is not in the list, and in a full one lies above its smallest, at its place:
the list stays strictly ascending with at most 32 numbers, holds the number, and loses nothing but, from a full list,
its smallest. -/
def Obligations.CreditCodeIsSplit : Prop :=
  (∀ (s : State) (c : CodeService), s.isRunning = true → s.accountApplication 0 = some c →
    s.nv.account.overflows c.value = false → 2 ≤ s.nv.journal.free → s.mayBegin .credit .account true = true →
    ∃ t records, exec .credit s = .next t ∧
      (let a := s.nv.account
      let ra := min c.value a.arrears
      let v1 := c.value - ra
      let re := min v1 a.emergencyUsed
      let v2 := v1 - re
      let rd := min a.debt (v2 * a.recoveryPercent / 100)
      let v3 := v2 - rd
      let ends := a.emergencyActive && a.emergencyUsed - re == 0
      let effect := CodeEffect.credit ra re rd v3 ends
      ra + re + rd + v3 = c.value ∧
      t.nv.account =
        ({ a with
          credit := a.credit + v3
          emergencyActive := a.emergencyActive && !ends
          emergencyUsed := a.emergencyUsed - re
          arrears := a.arrears - ra
          debt := a.debt - rd
          totalIn := raiseTotal a.totalIn c.value
          totalRecovered := raiseTotal a.totalRecovered rd } : Account).settled a s.nv.settings.lowCreditThreshold ∧
      t.nv.journal = s.nv.journal.appendAll s.clock c.port.origin (.codeApplied 0 c.issue effect :: records) ∧
      (∀ f ∈ c.servedFollow effect, f ∈ t.newestFollow)) ∧
      s.accountFollows t records ∧ .notice .creditChanged ∈ t.newestFollow ∧
      t.nv.spent = spend c.issue s.nv.spent ∧ t.nv.failures = s.nv.failures.set c.port 0 ∧
      t.nv.lockoutSteps = s.nv.lockoutSteps.set c.port 0 ∧ s.beganWrite t .account ∧
      t.arrivals = s.arrivals.tail ∧ t.code = { s.code with service := some { c with atOwner := false } } ∧
      { t.withStoreOf s with arrivals := s.arrivals, code := s.code } = s.leaveLine .credit ∧
      { t.nv.withSupplyOf s.nv with
        account := s.nv.account, spent := s.nv.spent, failures := s.nv.failures
        lockoutSteps := s.nv.lockoutSteps } = s.nv) ∧
  ∀ (x : Nat) (spent : List Nat), strictlyAscending spent = true → spent.length ≤ 32 → x ∉ spent →
    (spent.length = 32 → ∃ y ∈ spent, y < x) →
    strictlyAscending (spend x spent) = true ∧ (spend x spent).length = min 32 (spent.length + 1) ∧
      x ∈ spend x spent ∧ (∀ y ∈ spend x spent, y = x ∨ y ∈ spent) ∧
      (spent.length < 32 → ∀ y ∈ spent, y ∈ spend x spent) ∧
      ∀ y ∈ spent, y ∉ spend x spent → ∀ z ∈ spent, y ≤ z

/-- R10, R79: a credit code whose credit part would carry C past 99,999,999 is refused with OVERFLOW at APPLY. R78,
R164: a code whose commit would write more records than the journal has places is refused with JOURNAL_FULL at ROOM when
its owner takes it, before the owner's test. R79, R88: a refused code changes at most its port's failure count and
lockout step, which are reset at KIND and every later stage, and the first refusal record, which is set if it was empty;
every other part of the stored state stays, and so does the journal. When one of these changes they are one write,
followed by the response and the end of the service; a refusal after CHECK that changes none makes no write and is
answered at once. It raises no notice. -/
def Obligations.RefusedCodeChangesOnlyItsOwn : Prop :=
  (∀ (s : State) (c : CodeService), s.isRunning = true → s.accountApplication 0 = some c → 2 ≤ s.nv.journal.free →
    s.mayBegin .credit .account true = true → s.blockBusy .code .credit = false →
    (let a := s.nv.account
    let v2 := c.value - min c.value a.arrears - min (c.value - min c.value a.arrears) a.emergencyUsed
    99999999 < a.credit + (v2 - min a.debt (v2 * a.recoveryPercent / 100))) →
    ∃ t, exec .credit s = .next t ∧
      t = (s.leaveArrivals.refuseCode c (c.refusal .apply .overflow)).leaveLine .credit ∧
      { t.nv with
        failures := s.nv.failures, lockoutSteps := s.nv.lockoutSteps, firstRefusal := s.nv.firstRefusal } = s.nv) ∧
  (∀ (i : Instr) (s u : State) (c : CodeService) (needs : Nat), s.isRunning = true →
    s.mayBegin i (codeOwner c.kind) true = true → s.blockBusy .code i = false → s.nv.journal.free < needs →
    (i = .credit ∧ s.accountApplication 0 = some c ∧ u = s.leaveArrivals ∧
        (let ends := s.nv.account.exhausted = true ∧ (s.nv.account.applyCredit c.value).exhausted = false
        needs = 1 + (if ends ∧ s.nv.holds.credit ≠ none then 1 else 0)) ∨
      i = .emergencyLimit ∧ s.accountApplication 1 = some c ∧ u = s.leaveArrivals ∧
        (let after : Account := { s.nv.account with emergencyLimit := c.value }
        needs = 1 + (if after.exhausted ≠ s.nv.account.exhausted ∧
          (after.exhausted = true ↔ s.nv.holds.credit = none) then 1 else 0)) ∨
      i = .debtSet ∧ s.accountApplication 2 = some c ∧ u = s.leaveArrivals ∧ needs = 1 ∨
      i = .bandPrice ∧ s.applicationOf 3 = some c ∧ u = s ∧ needs = 1 ∨
      i = .service ∧ s.tamperApplication 4 = some c ∧ u = s.leaveTamper ∧
        (let open_ : Nv := { s.nv with window := some { closing := c.closing, minutes := 5 * c.sub } }
        let ends := s.nv.tamperCondition = true ∧ open_.tamperCondition = false
        needs = 2 + (if ends ∧ s.nv.holds.tamper = true then 1 else 0)) ∨
      i = .tamperClear ∧ s.tamperApplication 5 = some c ∧ u = s.leaveTamper ∧
        (let cleared : TamperKind → Bool := fun k =>
          (clearKinds c.sub).contains k && (s.nv.tampers.get k).state == .latched
        let stays := TamperKind.all.any (fun k =>
          s.nv.effectiveClass k == .enforce && (s.nv.tampers.get k).state != .quiet && !cleared k)
        needs = 1 + (TamperKind.all.filter cleared).length +
          (if s.nv.tamperCondition = true ∧ stays = false ∧ s.nv.holds.tamper = true then 1 else 0)) ∨
      i = .reconnect ∧ s.applicationOf 8 = some c ∧ u = s ∧
        needs = (if s.nv.holds.remote = none then 1 else 2)) →
    exec i s = .next ((u.refuseCode c (c.refusal .room .journalFull)).leaveLine i)) ∧
  ∀ (s : State) (c : CodeService) (r : CodeResult),
    (let t := s.refuseCode c r
    t.nv =
      { s.nv with
        failures := if r.stage.resets then s.nv.failures.set c.port 0 else s.nv.failures
        lockoutSteps := if r.stage.resets then s.nv.lockoutSteps.set c.port 0 else s.nv.lockoutSteps
        firstRefusal :=
          match s.nv.firstRefusal with
          | some f => some f
          | none =>
            some { digits := c.digits, port := c.port, stage := r.stage, outcome := r.outcome, time := c.taken } } ∧
    (t.nv ≠ s.nv →
      t.writes =
        s.writes ++
          [{ owner := .code, image := t.nv, appends := false, setsClock := none
             follow := [.answer c.port r.outcome r.bytes, .codeServed] }]) ∧
    (t.nv = s.nv → r.stage ≠ .check →
      t = { s.answer c.port r.outcome r.bytes with code := { s.code with service := none } }))

/-- R12: an EMERGENCY_LIMIT code replaces L_e and leaves E, emergency active, C and the totals unchanged; the exhausted
condition is evaluated at its end, with the CREDIT hold, and its CODE_APPLIED record carries the limit before and after.
R13: a DEBT_SET code replaces D and p and leaves every other field of the account unchanged; its CODE_APPLIED record
carries D and p before and after, and it raises no notice of its own. The order of the records is the model's where the
spec gives none (notes/assumptions/16.md). -/
def Obligations.LimitAndDebtCodesReplace : Prop :=
  (∀ (s : State) (c : CodeService), s.isRunning = true → s.accountApplication 1 = some c → 2 ≤ s.nv.journal.free →
    s.mayBegin .emergencyLimit .account true = true →
    ∃ t records, exec .emergencyLimit s = .next t ∧
      t.nv.account = { s.nv.account with emergencyLimit := c.value } ∧
      (let effect := CodeEffect.emergencyLimit s.nv.account.emergencyLimit c.value
      t.nv.journal = s.nv.journal.appendAll s.clock c.port.origin (.codeApplied 1 c.issue effect :: records) ∧
      ∀ f ∈ c.servedFollow effect, f ∈ t.newestFollow) ∧
      s.accountFollows t records ∧ t.nv.spent = spend c.issue s.nv.spent ∧
      t.nv.failures = s.nv.failures.set c.port 0 ∧ t.nv.lockoutSteps = s.nv.lockoutSteps.set c.port 0 ∧
      s.beganWrite t .account ∧
      t.arrivals = s.arrivals.tail ∧ t.code = { s.code with service := some { c with atOwner := false } } ∧
      { t.withStoreOf s with arrivals := s.arrivals, code := s.code } = s.leaveLine .emergencyLimit ∧
      { t.nv.withSupplyOf s.nv with
        account := s.nv.account, spent := s.nv.spent, failures := s.nv.failures
        lockoutSteps := s.nv.lockoutSteps } = s.nv) ∧
  ∀ (s : State) (c : CodeService), s.isRunning = true → s.accountApplication 2 = some c → 1 ≤ s.nv.journal.free →
    s.mayBegin .debtSet .account true = true →
    exec .debtSet s =
      .next
        (let a := s.nv.account
        let effect := CodeEffect.debtSet a.debt a.recoveryPercent c.value c.sub
        ((s.leaveArrivals.withServed c).withWrite
          { s.nv.withSpent c with account := { a with debt := c.value, recoveryPercent := c.sub } } .account
          c.port.origin [.codeApplied 2 c.issue effect] (c.servedFollow effect) none).leaveLine .debtSet)

/-- R17: ACCEPT_EMERGENCY is taken when L_e is above 0, emergency is not active, E is 0 and C is at or below the
availability threshold: emergency becomes active, with an EMERGENCY_START record carrying C and L_e, the CREDIT hold
following the exhausted condition, and an OK once it is stored. If any of these fails, it is answered NOT_AVAILABLE and
changes nothing. R14: SET_DEBT is refused with RANGE, then with JOURNAL_FULL, changing nothing; otherwise it replaces D,
p and d together, with a DEBT_SET record of the three values before and after and an OK with no payload, and leaves
everything else unchanged. An append waits for the journal (R159, notes/assumptions/18.md), and EMERGENCY_START comes
before HOLD_REMOVED by the model's choice (notes/assumptions/16.md). -/
def Obligations.EmergencyAndDebtRequests : Prop :=
  (∀ (s : State) (r : Request), s.isRunning = true → s.accountRequest .a .acceptEmergency = some r →
    (let a := s.nv.account
    if 0 < a.emergencyLimit ∧ a.emergencyActive = false ∧ a.emergencyUsed = 0
        ∧ a.credit ≤ s.nv.settings.availabilityThreshold then
      if s.mayBegin .acceptEmergency .account true = false then
        exec .acceptEmergency s = .next (s.waits .acceptEmergency .account)
      else
        ∃ t records, exec .acceptEmergency s = .next t ∧
          t.nv.account = { a with emergencyActive := true } ∧
          t.nv.journal =
            s.nv.journal.appendAll s.clock .aPort (.emergencyStart a.credit a.emergencyLimit :: records) ∧
          .answer .a .ok [] ∈ t.newestFollow ∧ s.accountFollows t records ∧ s.beganWrite t .account ∧
          t.withStoreOf s = (s.leaveArrivals.takeRequest .a).leaveLine .acceptEmergency ∧
          { t.nv.withSupplyOf s.nv with account := a } = s.nv
    else
      exec .acceptEmergency s = .next ((s.leaveArrivals.answer .a .notAvailable []).leaveLine .acceptEmergency))) ∧
  ∀ (s : State) (r : Request), s.isRunning = true → s.accountRequest .l .setDebt = some r →
    (let a := s.nv.account
    let d := field r.payload 0 4
    let p := field r.payload 4 1
    let x := field r.payload 5 4
    exec .setDebt s =
      .next
        (if 99999999 < d ∨ 50 < p ∨ 99999 < x then (s.leaveArrivals.answer .l .range []).leaveLine .setDebt
        else if s.mayBegin .setDebt .account true = false then s.waits .setDebt .account
        else
          (if s.nv.journal.free < 17 then s.leaveArrivals.answer .l .journalFull []
          else
            (s.leaveArrivals.takeRequest .l).withWrite
              { s.nv with account := { a with debt := d, recoveryPercent := p, dailyRecovery := x } } .account .lPort
              [.debtSet a.debt a.recoveryPercent a.dailyRecovery d p x] [.answer .l .ok []] none).leaveLine .setDebt))

/-- R25, R26, R195: a SNAPSHOT that the account takes is answered OK with the values of the items named, in the order
named, all read in one event that changes nothing and writes nothing. R25, R195: the eighteen items by their codes, each
in its size: the account's fields from its record, U and the totals in six bytes, the band in force, the hold summary
with two bits for each kind that hold 0 or the phase, the contactor state by its number, the newest sequence number, and
the clock with its flag. -/
def Obligations.SnapshotReadsOneState : Prop :=
  (∀ (s : State) (p : Port) (r : Request), s.isRunning = true → s.accountRequest p .snapshot = some r →
    exec (.snapshot p) s =
      .next (s.leaveArrivals.answer p .ok (r.payload.flatMap (fun b => s.snapshotItem b.toNat)))) ∧
  ∀ s : State,
    (let a := s.nv.account
    let h := s.nv.holds
    let phase : Option HoldPhase → Nat := fun x =>
      match x with | none => 0 | some .deferred => 1 | some (.grace _) => 2 | some .firm => 3
    let firm : Bool → Nat := fun held => if held then 3 else 0
    let summary :=
      phase h.credit + 4 * phase (h.remote.map (·.phase)) + 16 * firm h.tamper + 64 * firm h.load.isSome
        + 256 * firm h.trip
    let contactor :=
      match s.nv.contactor with
      | .closed => 1 | .breakWait => 2 | .opening => 3 | .opened => 4 | .armed => 5 | .closing => 6 | .welded => 7
      | .stuckOpen => 8
    (List.range 18).map s.snapshotItem =
      [toBytes 4 a.credit, toBytes 1 (if a.emergencyActive then 1 else 0), toBytes 4 a.emergencyUsed,
        toBytes 4 a.emergencyLimit, toBytes 4 a.arrears, toBytes 6 a.unbooked, toBytes 4 a.debt,
        toBytes 1 a.recoveryPercent, toBytes 4 a.dailyRecovery, toBytes 4 a.residue, toBytes 6 a.totalIn,
        toBytes 6 a.totalCharged, toBytes 6 a.totalRecovered, toBytes 1 (s.nv.activeTariff.bandAt s.clock),
        toBytes 2 summary, toBytes 1 contactor, toBytes 4 s.nv.journal.newest,
        toBytes 4 s.clock ++ toBytes 1 (if s.ret.valid then 1 else 0)] ∧
    (List.range 18).map snapshotSize = [4, 1, 4, 4, 4, 6, 4, 1, 4, 4, 6, 6, 6, 1, 2, 1, 4, 5] ∧
    ∀ n, (s.snapshotItem n).length = snapshotSize n)

/-- R22, R20, R197, R198: a change of the low-credit threshold or of the arrears ceiling, with room for a master-caused
record, sets the setting with a SETTING_CHANGED record and answers its value; the threshold re-evaluates the low-credit
state against the present C, the ceiling hands "arrears ceiling reached" if the condition begins to hold. A closed
window is answered WRONG_GROUP, and a journal without room JOURNAL_FULL; either changes nothing but the list that the
event leaves. An append waits for the journal (R159, notes/assumptions/18.md). -/
def Obligations.AccountSettingIsTaken : Prop :=
  ∀ (s : State) (p : Port) (n v : Nat), s.isRunning = true → s.accountTakes (.request p) = true →
    s.settingOf p = some (n, v) → n = 2 ∨ n = 4 →
    (let i := Instr.accountSettingChange p
    if s.nv.window = none then exec i s = .next ((s.leaveArrivals.answer p .wrongGroup []).leaveLine i)
    else if s.mayBegin i .account true = false then exec i s = .next (s.waits i .account)
    else if s.nv.journal.free < 17 then exec i s = .next ((s.leaveArrivals.answer p .journalFull []).leaveLine i)
    else
      ∃ t, exec i s = .next t ∧ s.beganWrite t .account ∧
        t.nv =
          { s.nv with
            settings :=
              if n = 2 then { s.nv.settings with lowCreditThreshold := v }
              else { s.nv.settings with arrearsCeiling := v }
            account :=
              if n = 2 then
                { s.nv.account with lowCredit := if s.nv.account.credit ≤ v then .atOrBelow else .above }
              else s.nv.account
            journal := s.nv.journal.appendAll s.clock p.origin [.settingChanged n (s.nv.settings.read n) v] } ∧
        .answer p .ok (toBytes 4 v) ∈ t.newestFollow ∧
        (.ceilingReached ∈ t.newestFollow ↔ n = 4 ∧ s.nv.ceilingHolds = false ∧ ceilingHolds v s.nv.account = true) ∧
        (.notice .creditLow ∈ t.newestFollow ↔
          n = 2 ∧ s.nv.account.lowCredit = .above ∧ s.nv.account.credit ≤ v) ∧
        { t with nv := s.nv, writes := s.writes } = (s.leaveArrivals.takeRequest p).leaveLine i)

/-- R24: in every state, TOTAL_IN − TOTAL_RECOVERED + E + A ≡ C + TOTAL_CHARGED modulo 2^48, of what the blocks hold, of
what the store holds and of every write on its way: each step keeps it. R18: whenever E is greater than 0, emergency is
active: each step keeps it. -/
def Obligations.AccountLawsAreKept : Prop :=
  (∀ s t : State, s.everyImage Nv.balanced = true → step s = .next t → t.everyImage Nv.balanced = true) ∧
  ∀ s t : State, s.everyImage Nv.emergencyLaw = true → step s = .next t → t.everyImage Nv.emergencyLaw = true

/-! ## Chapter 2: the clock and the tariff -/

/-- R27, R28: the clock advances by one and stays at 4,294,967,295; as it advances while the part runs, the end of a
minute, of an hour and, with the clock valid, of a day are marked by the new value, and the code unit's deadlines that
are reached join its queue behind what waits there, each once, a lapse in place of one whose half is gone. R207: while
start-up runs the boundaries alone are marked; R201: after a taken warning the clock alone goes on. In RETAIN, in reset
and after a brown-out it goes on while the retention domain is intact, and without it the command changes nothing. -/
def Obligations.ClockAdvancesByOne : Prop :=
  ∀ s : State, ∃ t, exec .clockAdvance s = .next t ∧
    (let later := { s.ret with clock := min (s.clock + 1) 4294967295 }
    let marked : ClockUnit :=
      { s.clockUnit with
        minuteMark := s.clockUnit.minuteMark || later.clock % 60 == 0
        hourMark := s.clockUnit.hourMark || later.clock % 3600 == 0
        midnightMark := s.clockUnit.midnightMark || (later.clock % 86400 == 0 && s.ret.valid) }
    if s.isSupplied = false then t = if s.ret.intact then { s with ret := later } else s
    else if s.power = .warned ∨ s.power = .lastWrite then t = { s with ret := later }
    else if s.clock = 4294967295 then t = s
    else if s.isRunning = false then t = { s with ret := later, clockUnit := marked }
    else
      t.ret = later ∧ t.clockUnit = marked ∧
      (∀ h, s.nv.pendingHalf = some h → h.deadline ≤ t.clock → .halfLapse true ∈ t.code.queue) ∧
      (∀ p l, s.nv.lockouts.get p = some l → l.deadline ≤ t.clock → .lockoutExpiry p ∈ t.code.queue) ∧
      (∃ kept joined, t.code.queue = kept ++ joined ∧ joined.Nodup ∧
        (kept = s.code.queue ∨
          .halfLapse true ∈ joined ∧ kept = s.code.queue.filter (fun x => x != CodeItem.halfLapse false)) ∧
        ∀ x ∈ joined, x ∉ s.code.queue ∧
          ((x = .halfLapse true ∧ ∃ h, s.nv.pendingHalf = some h ∧ h.deadline ≤ t.clock) ∨
            ∃ p l, x = .lockoutExpiry p ∧ s.nv.lockouts.get p = some l ∧ l.deadline ≤ t.clock)) ∧
      { t with ret := s.ret, clockUnit := s.clockUnit, code := s.code } = s ∧ t.code.service = s.code.service)

/-- R36, R35: the band in force is found from the schedule of the day type in force, at the clock's minute of day: in a
schedule whose minutes rise strictly it is that of the last switch point at or before the minute, that of the last point
of all when none is, and band 0 for an empty list; its price is the price in force, and SNAPSHOT item 13 returns it. -/
def Obligations.BandIsOfTheLastPoint : Prop :=
  (∀ (t : TariffSet) (clock : Nat),
    t.bandAt clock =
        scheduleBand (if t.restDays.getLsbD (clock / 86400 % 7) then t.restDaySchedule else t.workdaySchedule)
          (clock % 86400 / 60) ∧
      t.priceAt clock = t.prices.getD (t.bandAt clock) 0) ∧
  (∀ s : State, s.snapshotItem 13 = toBytes 1 (s.nv.activeTariff.bandAt s.clock)) ∧
  ∀ (ps : List SwitchPoint) (m : Nat), strictlyAscending (ps.map (·.minute)) = true →
    (ps = [] → scheduleBand ps m = 0) ∧
    (∀ p ∈ ps, p.minute ≤ m → (∀ q ∈ ps, q.minute ≤ m → q.minute ≤ p.minute) → scheduleBand ps m = p.band) ∧
    (∀ p ∈ ps, (∀ q ∈ ps, m < q.minute ∧ q.minute ≤ p.minute) → scheduleBand ps m = p.band)

/-- R37, R41: the 56-byte form of a tariff set within the ranges of R34 has 56 bytes, and STAGE_TARIFF reads from it the
set that READ_TARIFF writes. READ_TARIFF is answered with the form of the active set for 0, with that of the pending
set, or nothing, for 1, and with RANGE for any other number. -/
def Obligations.TariffFormRoundTrips : Prop :=
  (∀ t : TariffSet, t.valid = true → (encodeTariff t).length = 56 ∧ decodeTariff (encodeTariff t) = some t) ∧
  ∀ (p : Port) (s : State) (r : Request), s.isRunning = true → s.requestOf p .readTariff = some r →
    (let which := field r.payload 0 1
    exec (.readTariff p) s =
      .next
        (if which = 0 then s.answer p .ok (encodeTariff s.nv.activeTariff)
        else if which = 1 then
          s.answer p .ok (match s.nv.pendingTariff with | some t => encodeTariff t | none => [])
        else s.answer p .range []))

/-- R31 to R33, R39: SET_CLOCK is answered CLOCK_STEP when its step is above 900 s with the window closed and the clock
valid, then JOURNAL_FULL without room; otherwise one write holds the stored clock at the new value, the CLOCK_SET record
of the old value, the new one and the days passed over, and the activation of a pending set that the set reaches; with
the clock invalid before it the last charged day becomes the day before the new one. The clock itself takes the new
value, valid, as that write is stored (notes/assumptions/9.md). R32 gives no order of what follows the write: the
answer, CLOCK_CHANGED, TARIFF_CHANGED and then the blocks' part is the model's choice (notes/assumptions/16.md). An
append waits for the journal (R159, notes/assumptions/18.md). -/
def Obligations.SetClockIsTaken : Prop :=
  ∀ (s : State) (r : Request), s.isRunning = true → s.requestOf .l .setClock = some r →
    (let new := field r.payload 0 4
    let passed := if s.ret.valid then s.passedOverBy new else 0
    let base : Nv :=
      { s.nv with
        storedClock := new
        lastChargedDay := if s.ret.valid then s.nv.lastChargedDay else new / 86400 - 1 }
    exec .setClock s =
      .next
        (if (900 < new - s.clock ∨ 900 < s.clock - new) ∧ s.nv.window = none ∧ s.ret.valid = true then
          (s.answer .l .clockStep []).leaveLine .setClock
        else if s.mayBegin .setClock .clockTariff true = false then s.waits .setClock .clockTariff
        else
          (if s.nv.journal.free < 17 then s.answer .l .journalFull []
          else
            match s.nv.dueTariff new with
            | none =>
              (s.takeRequest .l).withWrite base .clockTariff .lPort [.clockSet s.clock new passed]
                [.answer .l .ok [], .notice .clockChanged, .clockMoved s.clock new s.ret.valid] (some new)
            | some due =>
              (s.takeRequest .l).withWrite { base with activeTariff := due, pendingTariff := none } .clockTariff .lPort
                [.clockSet s.clock new passed, .tariffActivated due.time]
                [.answer .l .ok [], .notice .clockChanged, .notice .tariffChanged,
                  .clockMoved s.clock new s.ret.valid] (some new)).leaveLine .setClock))

/-- R37, R38, R39: STAGE_TARIFF with a form out of range is answered RANGE, without room JOURNAL_FULL; otherwise the set
becomes the pending set, with a TARIFF_STAGED record that says whether it replaced one, and a set whose time is already
reached with the clock valid is activated in the same write. R39, R40: with the clock valid, a pending set whose
activation time is reached becomes the active set, with a TARIFF_ACTIVATED record, TARIFF_CHANGED and a re-evaluation of
the window state; CANCEL_TARIFF discards a pending set with a record, is refused with JOURNAL_FULL without room, and is
answered OK with nothing written when none is pending. R42: a BAND_PRICE code replaces the price of one band of the
active set; its CODE_APPLIED record carries the band and the price before and after, and TARIFF_CHANGED follows the
commit. Nothing else changes. R94 gives no order of what follows a commit: the answer, the end of the service and then
TARIFF_CHANGED, like the order of the other follow-ups here, is the model's choice (notes/assumptions/16.md). An append
waits for the journal and for the unit's earlier write (R159, notes/assumptions/18.md). -/
def Obligations.TariffSetsAreStagedAndActivated : Prop :=
  (∀ (s : State) (r : Request), s.isRunning = true → s.requestOf .l .stageTariff = some r →
    exec .stageTariff s =
      .next
        (match decodeTariff r.payload with
        | none => (s.answer .l .range []).leaveLine .stageTariff
        | some t =>
          if s.mayBegin .stageTariff .clockTariff true = false then s.waits .stageTariff .clockTariff
          else
            (if s.nv.journal.free < 17 then s.answer .l .journalFull []
            else if s.ret.valid = true ∧ t.time ≤ s.clock then
              (s.takeRequest .l).withWrite { s.nv with activeTariff := t, pendingTariff := none } .clockTariff .lPort
                [.tariffStaged t.time s.nv.pendingTariff.isSome, .tariffActivated t.time]
                [.answer .l .ok [], .notice .tariffChanged, .windowReevaluated] none
            else
              (s.takeRequest .l).withWrite { s.nv with pendingTariff := some t } .clockTariff .lPort
                [.tariffStaged t.time s.nv.pendingTariff.isSome] [.answer .l .ok []] none).leaveLine .stageTariff)) ∧
  ((∀ (s : State) (t : TariffSet), s.isRunning = true → s.ret.valid = true → s.nv.pendingTariff = some t →
    t.time ≤ s.clock →
    exec .tariffActivation s =
      .next
        (if s.mayBegin .tariffActivation .clockTariff true = false then s.waits .tariffActivation .clockTariff
        else
          (s.withWrite { s.nv with activeTariff := t, pendingTariff := none } .clockTariff .device
            [.tariffActivated t.time] [.notice .tariffChanged, .windowReevaluated] none).leaveLine
              .tariffActivation)) ∧
  ∀ (s : State) (r : Request), s.isRunning = true → s.requestOf .l .cancelTariff = some r →
    exec .cancelTariff s =
      .next
        (if s.nv.pendingTariff = none then (s.answer .l .ok []).leaveLine .cancelTariff
        else if s.mayBegin .cancelTariff .clockTariff true = false then s.waits .cancelTariff .clockTariff
        else
          (if s.nv.journal.free < 17 then s.answer .l .journalFull []
          else
            (s.takeRequest .l).withWrite { s.nv with pendingTariff := none } .clockTariff .lPort [.tariffCancelled]
              [.answer .l .ok []] none).leaveLine .cancelTariff)) ∧
  ∀ (s : State) (c : CodeService), s.isRunning = true → s.applicationOf 3 = some c → 1 ≤ s.nv.journal.free →
    s.mayBegin .bandPrice .clockTariff true = true →
    exec .bandPrice s =
      .next
        (let tariff := s.nv.activeTariff
        let effect := CodeEffect.bandPrice c.sub (tariff.prices.getD c.sub 0) c.value
        ((s.withServed c).withWrite
          { s.nv.withSpent c with activeTariff := { tariff with prices := tariff.prices.set c.sub c.value } }
          .clockTariff c.port.origin [.codeApplied 3 c.issue effect]
          (c.servedFollow effect ++ [.notice .tariffChanged]) none).leaveLine .bandPrice)

/-- R43, R44, R45, R56: at the end of a clock minute the pulse input unit ends its measurement minute and the window
state is re-evaluated, in the order the command names: the window state becomes what the active set says at the clock, a
change of it is handed as one edge, and the minute's counts restart with a minute that may end full. R57, R59, R60: a
full minute's demand is 60 times its import pulses, its export pulses under ADD and its fallback quanta, max(0, F × n −
m) with MAGNETIC ACTIVE and none otherwise; the fallback quanta join those that wait, one offered to the account if none
is outstanding there (R51); the demand becomes the last demand, and "demand over limit" is handed when the limit is not
0, the demand mode applies and the demand exceeds the limit. Which of the two blocks acts first is the command's
operand, and with the window first the demand mode reads the window state as re-evaluated (notes/assumptions/14.md). -/
def Obligations.MinuteEndIsJudged : Prop :=
  (∀ (windowFirst : Bool) (s : State), s.isRunning = true → s.clockUnit.minuteMark = true →
    ∃ t, exec (.minuteEnd windowFirst) s = .next t ∧
      (let now := s.nv.activeTariff.friendlyAt s.clock
      t.clockUnit = { s.clockUnit with minuteMark := false, windowInForce := now } ∧
      t.supply.edges =
        s.supply.edges ++ (if now = s.clockUnit.windowInForce then [] else [if now then .start else .stop])) ∧
      t.pulse.minuteImports = 0 ∧ t.pulse.minuteExports = 0 ∧ t.pulse.minuteFull = true ∧
      (s.pulse.minuteFull = false → t.arrivals = s.arrivals ∧ t.supply.demandHanded = s.supply.demandHanded ∧
        t.pulse = { s.pulse with minuteImports := 0, minuteExports := 0, minuteFull := true }) ∧
      { t with
        clockUnit := s.clockUnit, pulse := s.pulse, arrivals := s.arrivals
        supply := { t.supply with edges := s.supply.edges, demandHanded := s.supply.demandHanded } }
        = { s with supply := s.supply }) ∧
  ∀ (windowFirst : Bool) (s : State), s.isRunning = true → s.clockUnit.minuteMark = true → s.pulse.minuteFull = true →
    ∃ t, exec (.minuteEnd windowFirst) s = .next t ∧
      (let settings := s.nv.settings
      let phases := match settings.phases with | .one => 1 | .three => 3
      let fallback :=
        if s.nv.tampers.magnetic.state = .active then settings.fallback * phases - s.pulse.minuteImports else 0
      let demand := 60 * (s.pulse.minuteImports + s.pulse.minuteExports + fallback)
      let window :=
        if windowFirst then s.nv.activeTariff.friendlyAt s.clock else s.clockUnit.windowInForce
      let applies := settings.demandMode = .always ∨ s.nv.account.emergencyActive = true ∨ window = true
      let total := min 65535 (s.pulse.waiting + fallback)
      let offers := 0 < total ∧ s.pulse.outstanding = false
      t.pulse =
        { s.pulse with
          minuteImports := 0, minuteExports := 0, minuteFull := true, lastDemand := demand
          waiting := if offers then total - 1 else total
          outstanding := if offers then true else s.pulse.outstanding } ∧
      t.arrivals = s.arrivals ++ (if offers then [.quantum] else []) ∧
      (t.supply.demandHanded = true ↔
        s.supply.demandHanded = true ∨ settings.demandLimit ≠ 0 ∧ applies ∧ settings.demandLimit < demand)) ∧
      t.nv = s.nv ∧ t.writes = s.writes

/-- R46, R47: at a midnight with the clock valid, the days after the last day closed or handed are owed up to the day
before the clock's; they are handed to the account as one day-close event of at most 31 days ending with that day, as a
new event with none outstanding, as an extension of the one that waits, or after the one being taken. With no day owed
nothing is handed. A midnight waits while an event of the unit, such as a SET_CLOCK, is being stored (R32). Days beyond
31 are passed over and counted in the event; that a new event counts them as an extension does is the model's deduction
(notes/assumptions/28.md). -/
def Obligations.MidnightHandsTheOwedDays : Prop :=
  ∀ s : State, s.isRunning = true → s.clockUnit.midnightMark = true →
    if s.writing .clockTariff = true then exec .midnight s = .next s
    else
    ∃ t, exec .midnight s = .next t ∧ t.clockUnit.midnightMark = false ∧
      { t with
        arrivals := s.arrivals
        clockUnit :=
          { t.clockUnit with
            midnightMark := true, dayClose := s.clockUnit.dayClose, laterDayClose := s.clockUnit.laterDayClose } }
        = s ∧
      (let today := s.clock / 86400
      let handed : Option DayCloseEvent → Nat := fun d => match d with | some e => e.last | none => 0
      let closed := max s.nv.lastChargedDay (max (handed s.clockUnit.dayClose) (handed s.clockUnit.laterDayClose))
      let owed := today - (closed + 1)
      if s.ret.valid = false ∨ owed = 0 then
        t.arrivals = s.arrivals ∧ t.clockUnit.dayClose = s.clockUnit.dayClose ∧
          t.clockUnit.laterDayClose = s.clockUnit.laterDayClose
      else
        let extended : Option DayCloseEvent → DayCloseEvent := fun d =>
          match d with
          | none => { days := min 31 owed, last := today - 1, passedOver := owed - 31 }
          | some e =>
            { days := min 31 (e.days + owed), last := today - 1, passedOver := e.passedOver + (e.days + owed - 31) }
        if s.clockUnit.dayCloseTaking = true then
          t.arrivals = s.arrivals ∧ t.clockUnit.dayClose = s.clockUnit.dayClose ∧
            t.clockUnit.laterDayClose = some (extended s.clockUnit.laterDayClose)
        else
          t.clockUnit.dayClose = some (extended s.clockUnit.dayClose) ∧
            t.clockUnit.laterDayClose = s.clockUnit.laterDayClose ∧
            t.arrivals = s.arrivals ++ (if s.clockUnit.dayClose = none then [.dayClose] else []))

/-! ## Chapter 3: pulses -/

/-- R49, R50, R62, R63: the active level of an import line in use that is RESTING, held for 2 ms, is a pulse: the line
becomes ASSERTED, the minute's import count rises and one quantum is added; in OPEN and ARMED it is a pulse while open,
counted up to 11, and the one that brings the count to 11 is handed to the contactor driver. From an ASSERTED line, or
one of a phase not in use, nothing happens. -/
def Obligations.ImportPulseIsAQuantum : Prop :=
  ∀ (p : Phase) (s : State), s.isRunning = true →
    (if s.nv.settings.phases.uses p = true ∧ s.pulse.importLines.get p = .resting then
      ∃ t, exec (.importPulse p) s = .next t ∧
        (let counted :=
          (s.nv.contactor = .opened ∨ s.nv.contactor = .armed) ∧ s.pulse.openPulses < 11
        let waiting := min 65535 (s.pulse.waiting + 1)
        let offered := s.pulse.outstanding = false
        t.pulse =
          { s.pulse with
            importLines := s.pulse.importLines.set p .asserted
            minuteImports := min 65535 (s.pulse.minuteImports + 1)
            openPulses := if counted then s.pulse.openPulses + 1 else s.pulse.openPulses
            waiting := if offered then waiting - 1 else waiting
            outstanding := true } ∧
        t.arrivals = s.arrivals ++ (if offered then [.quantum] else []) ∧
        t.driver =
          { s.driver with
            pulsesHanded := s.driver.pulsesHanded || decide (counted ∧ s.pulse.openPulses = 10) }) ∧
        { t with pulse := s.pulse, arrivals := s.arrivals, driver := s.driver } = s
    else exec (.importPulse p) s = .next s)

/-- R49, R53, R54: an export pulse makes the line ASSERTED and raises the detection hour's count, to at most 255; a
count at or above the reverse threshold makes the REVERSE_FLOW input active at once. Under ADD it also raises the
minute's export count and adds one quantum; under IGNORE it does neither. A line held inactive for 2 ms becomes RESTING.
R54, R55: at the end of a clock hour, a full detection hour whose count stands below the reverse threshold makes the
REVERSE_FLOW input inactive; an hour that is not full, or one at or above it, leaves the input as it is; the count
restarts at 0 and the next hour is full. -/
def Obligations.ExportPulsesAreJudged : Prop :=
  ((∀ (p : Phase) (s : State), s.isRunning = true → s.nv.settings.phases.uses p = true →
    s.pulse.exportLines.get p = .resting →
    ∃ t, exec (.exportPulse p) s = .next t ∧
      (let count := min 255 (s.pulse.hourExports + 1)
      let adds := s.nv.settings.reversePolicy = .add
      let offered := adds ∧ s.pulse.outstanding = false
      let waiting := if adds then min 65535 (s.pulse.waiting + 1) else s.pulse.waiting
      t.pulse =
        { s.pulse with
          exportLines := s.pulse.exportLines.set p .asserted
          hourExports := count
          reverseInput := s.pulse.reverseInput || decide (s.nv.settings.reverseThreshold ≤ count)
          minuteExports := if adds then min 65535 (s.pulse.minuteExports + 1) else s.pulse.minuteExports
          waiting := if offered then waiting - 1 else waiting
          outstanding := if adds then true else s.pulse.outstanding } ∧
      t.arrivals = s.arrivals ++ (if offered then [.quantum] else [])) ∧
      { t with pulse := s.pulse, arrivals := s.arrivals } = s) ∧
  ∀ (d : PulseDirection) (p : Phase) (s : State), s.isRunning = true → s.nv.settings.phases.uses p = true →
    exec (.pulseLineResting d p) s =
      .next
        { s with
          pulse :=
            match d with
            | .imp => { s.pulse with importLines := s.pulse.importLines.set p .resting }
            | .exp => { s.pulse with exportLines := s.pulse.exportLines.set p .resting } }) ∧
  ∀ s : State, s.isRunning = true → s.clockUnit.hourMark = true →
    exec .hourEnd s =
      .next
        { s with
          clockUnit := { s.clockUnit with hourMark := false }
          pulse :=
            { s.pulse with
              reverseInput :=
                if s.pulse.hourFull = true ∧ s.pulse.hourExports < s.nv.settings.reverseThreshold then false
                else s.pulse.reverseInput
              hourExports := 0
              hourFull := true } }

/-- R51, R54, R56, R62: the waiting count and the minute's counts stay at most 65,535, the detection hour's count at
most 255 and the count of pulses while open at most 11: each step keeps it. R27: the clock, the stored clock of every
stored state and each value a write will put in force stay clock values, 0 to 4,294,967,295, and while start-up runs no
write sets the clock, which stays at or past the value the steps are judged against (R205): each step keeps that. -/
def Obligations.PulseCountsStayInRange : Prop :=
  ∀ s t : State, step s = .next t →
    (s.pulse.inRange = true → t.pulse.inRange = true) ∧ (s.clockLaw = true → t.clockLaw = true)

/-! ## Chapter 4: meter codes -/

/-- R66, R67: the plain digits of a code are its first sixteen digits less the key's mask digits modulo 10, and its last
five as they are; the check passes when the number K of the last five equals X, and the four fields are the numbers
their digits write. A code made under a key of sixteen mask digits has 21 digits, passes the check under that key, and
is read back as the kind, the issue number, the value and the sub it was made from. -/
def Obligations.MeterCodeRoundTrips : Prop :=
  (∀ (key : Key) (code : List Byte), key.mask.length = 16 → (∀ m ∈ key.mask, m ≤ 9) → code.length = 21 →
    (∀ b ∈ code, b.toNat ≤ 9) →
    (let digit : Nat → Nat := fun i => (code.getD i 0).toNat
    let plain : Nat → Nat := fun i => if i < 16 then (digit i + 10 - key.mask.getD i 0) % 10 else digit i
    let number : Nat → Nat → Nat := fun from_ count =>
      (List.range count).foldl (fun n i => 10 * n + plain (from_ + i)) 0
    (checkPasses key code = true ↔
      number 16 5 = ((number 0 16 % 99991) * (key.check + 7) + key.check) % 99991) ∧
    codeKind key code = number 0 1 ∧ codeIssue key code = number 1 5 ∧ codeValue key code = number 6 8 ∧
      codeSub key code = number 14 2)) ∧
  ∀ (key : Key) (kind issue value sub : Nat), key.mask.length = 16 → (∀ m ∈ key.mask, m ≤ 9) → kind ≤ 9 →
    issue ≤ 99999 → value ≤ 99999999 → sub ≤ 99 →
    (let code := makeCode key kind issue value sub
    code.length = 21 ∧ (∀ b ∈ code, b.toNat ≤ 9) ∧ checkPasses key code = true ∧ codeKind key code = kind ∧
      codeIssue key code = issue ∧ codeValue key code = value ∧ codeSub key code = sub)

/-- R70, R73 to R78, R80: a code is taken from the queue with the clock at its taking, and tested at FORMAT, LOCKOUT,
CHECK, KIND, SPENT and ROOM and for the range of its kind, in this order; the first test that fails refuses it with that
stage and outcome. A code that passes, of another kind than a key half, waits at its owner with its fields decoded,
kinds 0 to 2 on the account's arrival list and kinds 4 and 5 on the tamper monitor's; a key half goes on at once. R68:
the ranges of each kind. A refusal at CHECK (FailedCheckCountsAndLocks) and a key half (KeyHalvesAreHeldOrPaired) go on
in service: their tests at the taking are not made again when the append waits for the journal and the command comes
again (R159, R164, notes/assumptions/18.md). With no code to take the command changes nothing. -/
def Obligations.CodeIsTestedInOrder : Prop :=
  (∀ (p : Port) (s : State) (r : Request), s.isRunning = true → s.codeTakes (.request p) = true →
    s.blockBusy .code (.submitCode p) = false → s.requestOf p .submitCode = some r →
    (let u := (s.leaveLine (.submitCode p)).leaveQueue.takeRequest p
    let key := s.nv.key
    let code := r.payload
    let raw : CodeService :=
      { port := p, digits := code, kind := 0, issue := 0, value := 0, sub := 0, taken := s.clock, atOwner := false }
    let read : CodeService :=
      { raw with
        kind := codeKind key code, issue := codeIssue key code, value := codeValue key code, sub := codeSub key code }
    ((∃ b ∈ code, 9 < b.toNat) →
      exec (.submitCode p) s =
        .next
          (u.refuseCode raw
            { stage := .format, outcome := .format, decoded := none, failures := none, lockoutRemaining := none
              effect := none })) ∧
    ((∀ b ∈ code, b.toNat ≤ 9) →
      (∀ l, s.nv.lockouts.get p = some l →
        exec (.submitCode p) s =
          .next
            (u.refuseCode raw
              { stage := .lockout, outcome := .locked, decoded := none, failures := none
                lockoutRemaining := some (l.deadline - s.clock), effect := none })) ∧
      (s.nv.lockouts.get p = none → checkPasses key code = false →
        exec (.submitCode p) s = .next ((u.serve raw).goOn raw)) ∧
      (s.nv.lockouts.get p = none → checkPasses key code = true →
        exec (.submitCode p) s =
          .next
            (if read.kind = 9 then u.refuseCode read (read.refusal .kind .kind)
            else if read.issue ∈ s.nv.spent then u.refuseCode read (read.refusal .spent .used)
            else if s.nv.spent.length = 32 ∧ ∀ x ∈ s.nv.spent, read.issue < x then
              u.refuseCode read (read.refusal .spent .old)
            else if s.nv.journal.free < 17 then u.refuseCode read (read.refusal .room .journalFull)
            else if codeInRange read.kind read.value read.sub = false then
              u.refuseCode read (read.refusal .apply .value)
            else if read.kind = 6 ∨ read.kind = 7 then
              (u.serve { read with atOwner := true }).goOn { read with atOwner := true }
            else
              { u with
                code := { u.code with service := some { read with atOwner := true } }
                arrivals := u.arrivals ++ (if read.kind ≤ 2 then [.code] else [])
                tamper :=
                  { u.tamper with
                    arrivals :=
                      u.tamper.arrivals ++ (if read.kind = 4 ∨ read.kind = 5 then [.code] else []) } }))))) ∧
  (∀ (p : Port) (s : State) (c : CodeService), s.isRunning = true → s.codeAtJournal p = some c →
    exec (.submitCode p) s = .next (s.goOn c)) ∧
  (∀ (p : Port) (s : State), s.isRunning = true → s.codeAtJournal p = none →
    s.codeTakes (.request p) = false ∨ s.blockBusy .code (.submitCode p) = true ∨ s.requestOf p .submitCode = none →
    exec (.submitCode p) s = .next (s.leaveLine (.submitCode p))) ∧
  ∀ kind value sub : Nat, kind ≤ 8 → sub ≤ 99 →
    (codeInRange kind value sub = true ↔
      match kind with
      | 0 => 1 ≤ value ∧ value ≤ 99999999 ∧ sub = 0
      | 1 => value ≤ 100000 ∧ sub = 0
      | 2 => value ≤ 99999999 ∧ sub ≤ 50
      | 3 => value ≤ 9999999 ∧ sub ≤ 3
      | 4 => value = 0 ∧ 1 ≤ sub ∧ sub ≤ 48
      | 5 => value = 0 ∧ sub ≤ 5
      | 8 => value = 0 ∧ sub = 0
      | _ => True)

/-- R75, R85: a code refused at CHECK raises its port's failure count by one, to at most 5. With the lockout step 0 and
the count at 5 a lockout of 1 minute begins, and with the step above 0 one of twice the step, at most 64 minutes; the
step becomes that duration, the deadline is the clock at the taking plus the duration, held at 4,294,967,295, and a
LOCKOUT record is written. R88: the first refusal record takes the code if it was empty. These are one write, followed
by the response and the end of the service, and nothing else changes. R71, R193: the result carries the stage and
outcome, the new count, the lockout remaining from the taking if one began, and no kind or issue number. A refusal with
a record waits for the journal with the code in service, and goes on with the clock of its taking (R159,
notes/assumptions/18.md). -/
def Obligations.FailedCheckCountsAndLocks : Prop :=
  ∀ (p : Port) (s v : State) (c : CodeService), s.isRunning = true →
    (let i := Instr.submitCode p
    (∃ r, s.codeTakes (.request p) = true ∧ s.blockBusy .code i = false ∧ s.requestOf p .submitCode = some r ∧
        (∀ b ∈ r.payload, b.toNat ≤ 9) ∧ s.nv.lockouts.get p = none ∧ checkPasses s.nv.key r.payload = false ∧
        c =
          { port := p, digits := r.payload, kind := 0, issue := 0, value := 0, sub := 0, taken := s.clock
            atOwner := false } ∧
        v = ((s.leaveLine i).leaveQueue.takeRequest p).serve c) ∨
      s.codeAtJournal p = some c ∧ c.atOwner = false ∧ v = s) →
    (let i := Instr.submitCode p
    let count := min 5 (s.nv.failures.get p + 1)
    let step := s.nv.lockoutSteps.get p
    let locks : Bool := step ≠ 0 ∨ count = 5
    let minutes := if step = 0 then 1 else min 64 (2 * step)
    let deadline := min (c.taken + 60 * minutes) 4294967295
    let n : Nv :=
      { s.nv with
        failures := s.nv.failures.set p count
        lockoutSteps := if locks then s.nv.lockoutSteps.set p minutes else s.nv.lockoutSteps
        lockouts :=
          if locks then s.nv.lockouts.set p (some { deadline := deadline, minutes := minutes }) else s.nv.lockouts
        firstRefusal :=
          match s.nv.firstRefusal with
          | some f => some f
          | none => some { digits := c.digits, port := p, stage := .check, outcome := .check, time := c.taken } }
    let payload : List Byte :=
      [3, Status.check.byte, if locks then 6 else 2, 0] ++ toBytes 4 0 ++ toBytes 1 count ++
        toBytes 4 (if locks then deadline - c.taken else 0)
    exec i s =
      .next
        (if v.mayBegin i .code locks = false then v.waits i .code
        else
          ((v.withServed c).withWrite n .code p.origin (if locks then [.lockoutBegan p minutes deadline] else [])
            [.answer p .check payload, .codeServed] none).leaveLine i))

/-- R64, R77, R84: in every state the spent list of every stored state is strictly ascending with at most 32 numbers,
and a code that waits at its owner is not spent: each step keeps both. -/
def Obligations.SpentListIsSound : Prop :=
  ∀ s t : State, s.everyImage Nv.spentLaw = true → s.serviceLaw = true → step s = .next t →
    t.everyImage Nv.spentLaw = true ∧ t.serviceLaw = true

/-- R90 to R92, R94: a key half in service, when the journal takes its append, is refused with JOURNAL_FULL if fewer
than two places are free (R78, R164). With no half pending, or one of its own kind, it then becomes the pending half
with the digits and check of its code and the clock at its taking plus 1,800 seconds, with CODE_APPLIED and
KEY_HALF_HELD; one that pairs with the pending half of the other kind, the KEY_FIRST number one below the KEY_SECOND
number, installs the new key and empties the pending half, the spent list, the first refusal record and both ports'
failures, with CODE_APPLIED and KEY_CHANGED and the notice of it; one that does not pair is refused with PAIR. An
accepted half is one write, followed by the response and the end of the service; a lapse of the old half that waits is
marked as without effect (R93), and nothing else changes. A deadline of the taking past the clock's largest value is
held there. Until the journal takes the append the half stays in service (R159, notes/assumptions/18.md). -/
def Obligations.KeyHalvesAreHeldOrPaired : Prop :=
  ∀ (s : State) (c : CodeService), c.atOwner = true → c.kind = 6 ∨ c.kind = 7 →
    (let i := Instr.submitCode c.port
    let h : PendingHalf :=
      { kind := if c.kind = 6 then .first else .second, issue := c.issue
        digits := codeValueDigits s.nv.key c.digits, check := c.sub, deadline := min (c.taken + 1800) 4294967295 }
    let v : State :=
      { s with
        code :=
          { service := some { c with atOwner := false }
            queue :=
              s.code.queue.map (fun x => match x with | .halfLapse _ => CodeItem.halfLapse false | x => x) } }
    let held : State :=
      v.withWrite { s.nv.withSpent c with pendingHalf := some h } .code c.port.origin
        [.codeApplied c.kind c.issue (.keyHeld h.deadline), .keyHalfHeld h.kind h.issue]
        (c.servedFollow (.keyHeld h.deadline)) none
    let paired : PendingHalf → PendingHalf → State := fun first second =>
      v.withWrite
        { s.nv with
          key := { mask := first.digits ++ second.digits, check := 100 * first.check + second.check }
          pendingHalf := none, spent := [], firstRefusal := none, failures := ⟨0, 0⟩, lockoutSteps := ⟨0, 0⟩ }
        .code c.port.origin
        [.codeApplied c.kind c.issue .keyChanged, .keyChanged first.issue second.issue]
        (c.servedFollow .keyChanged ++ [.notice .keyChanged]) none
    s.goOn c =
      if s.mayBegin i .code true = false then s.waits i .code
      else
        (if s.nv.journal.free < 2 then s.refuseCode c (c.refusal .room .journalFull)
        else
          match s.nv.pendingHalf with
          | none => held
          | some w =>
            if w.kind = h.kind then held
            else
              (let first := if h.kind = .first then h else w
              let second := if h.kind = .first then w else h
              if first.issue + 1 = second.issue then paired first second
              else s.refuseCode c (c.refusal .apply .pair))).leaveLine i)

/-- R89: READ_FIRST_REFUSAL is answered OK with the record, or with no payload when it is empty, and changes nothing;
CLEAR_FIRST_REFUSAL empties a full record in one write with no journal record, and is answered OK, at once when the
record is already empty. R86, R93: a lockout's expiry, taken from the queue, removes the lockout with a LOCKOUT record
and leaves the failure count and the step; a lapse whose half is still pending discards the half with a KEY_HALF_LAPSED
record, and one whose half was paired or replaced does nothing. Each of the two is one write that changes nothing else.
R87: a clock-set event at the code unit brings each lockout deadline that lies more than its duration beyond the clock
to the clock plus its duration, and a pending half's that lies more than 1,800 seconds beyond to the clock plus 1,800,
in one write with no record; with no deadline to change it writes nothing. An append waits for the journal (R159,
notes/assumptions/18.md). -/
def Obligations.RefusalsReadAndDeadlinesTaken : Prop :=
  (∀ (p : Port) (s : State) (r : Request), s.isRunning = true → s.codeTakes (.request p) = true →
    (s.requestOf p .readFirstRefusal = some r →
      exec (.readFirstRefusal p) s =
        .next (s.leaveQueue.answer p .ok (match s.nv.firstRefusal with | some f => f.bytes | none => []))) ∧
    (s.requestOf p .clearFirstRefusal = some r →
      exec (.clearFirstRefusal p) s =
        .next
          (if s.nv.firstRefusal = none then (s.leaveQueue.answer p .ok []).leaveLine (.clearFirstRefusal p)
          else if s.blockBusy .code (.clearFirstRefusal p) = true then s
          else
            ((s.leaveQueue.takeRequest p).withWrite { s.nv with firstRefusal := none } .code p.origin []
              [.answer p .ok []] none).leaveLine (.clearFirstRefusal p)))) ∧
  ((∀ (p : Port) (s : State), s.isRunning = true → s.codeTakes (.lockoutExpiry p) = true →
    exec (.lockoutExpiry p) s =
      .next
        (if s.mayBegin (.lockoutExpiry p) .code true = false then s.waits (.lockoutExpiry p) .code
        else
          (s.leaveQueue.withWrite { s.nv with lockouts := s.nv.lockouts.set p none } .code .device [.lockoutEnded p] []
            none).leaveLine (.lockoutExpiry p))) ∧
  (∀ (s : State) (h : PendingHalf), s.isRunning = true → s.codeTakes (.halfLapse true) = true →
    s.nv.pendingHalf = some h →
    exec .pendingHalfLapse s =
      .next
        (if s.mayBegin .pendingHalfLapse .code true = false then s.waits .pendingHalfLapse .code
        else
          (s.leaveQueue.withWrite { s.nv with pendingHalf := none } .code .device [.keyHalfLapsed h.kind h.issue] []
            none).leaveLine .pendingHalfLapse)) ∧
  ∀ s : State, s.isRunning = true → s.codeTakes (.halfLapse false) = true →
    exec .pendingHalfLapse s = .next (s.leaveQueue.leaveLine .pendingHalfLapse)) ∧
  ∀ s : State, s.isRunning = true → s.codeTakes .clockSet = true →
    (let limited : Option Lockout → Option Lockout := fun l =>
      l.map (fun x => { x with deadline := min x.deadline (s.clock + 60 * x.minutes) })
    let n : Nv :=
      { s.nv with
        lockouts := ⟨limited s.nv.lockouts.a, limited s.nv.lockouts.l⟩
        pendingHalf := s.nv.pendingHalf.map (fun h => { h with deadline := min h.deadline (s.clock + 1800) }) }
    exec .codeUnitClockSet s =
      .next
        (if n.lockouts = s.nv.lockouts ∧ n.pendingHalf = s.nv.pendingHalf then
          s.leaveQueue.leaveLine .codeUnitClockSet
        else if s.blockBusy .code .codeUnitClockSet = true then s
        else (s.leaveQueue.withWrite n .code .device [] [] none).leaveLine .codeUnitClockSet))

/-! ## Chapter 5: the supply -/

/-- R102, R108, R114, R118: REMOTE_OPEN with a REMOTE hold in the list is answered OK and changes nothing; without room
it is answered JOURNAL_FULL; otherwise the REMOTE hold is placed with origin port L-PORT, in GRACE with the clock plus
grace time as its deadline if LOADHI is asserted and grace time is above 0, FIRM otherwise, with HOLD_PLACED and the
contactor command in one write and the OK once it is stored. The request waits for the journal (R159,
notes/assumptions/18.md). -/
def Obligations.RemoteOpenPlacesTheHold : Prop :=
  ∀ (s : State) (r : Request), s.isRunning = true → s.requestOf .l .remoteOpen = some r →
    (let grace := s.nv.settings.graceTime
    let phase : HoldPhase :=
      if s.supply.loadhi = true ∧ 0 < grace then .grace (min (s.clock + grace) 4294967295) else .firm
    if s.nv.holds.remote ≠ none then exec .remoteOpen s = .next ((s.answer .l .ok []).leaveLine .remoteOpen)
    else if s.mayBegin .remoteOpen .supply true = false then exec .remoteOpen s = .next (s.waits .remoteOpen .supply)
    else if s.nv.journal.free < 17 then
      exec .remoteOpen s = .next ((s.answer .l .journalFull []).leaveLine .remoteOpen)
    else
      ∃ t, exec .remoteOpen s = .next t ∧ s.placed t .remote phase true 0 ∧
        t.nv.journal = s.nv.journal.appendAll s.clock .lPort [.holdPlaced .remote phase (some .l) none] ∧
        .answer .l .ok [] ∈ t.newestFollow ∧ s.beganWrite t .supply ∧
        t.withStoreOf s = (s.takeRequest .l).leaveLine .remoteOpen ∧ t.nv.withSupplyOf s.nv = s.nv)

/-- R103, R83, R115, R117: REMOTE_CONNECT is answered RANGE, NOT_HELD or JOURNAL_FULL in this order, changing nothing;
otherwise the REMOTE hold is removed with the policy named and the lapse marker is cleared. A RECONNECT code removes the
hold with policy PRESS, or finds none, and clears the marker; its effect says whether it removed one, and its commit
spends the code, resets its port's failures and step, and is followed by its response and the end of its service (R84,
R94). An arm deadline past the clock's largest value is a free value (R117 states no holding; notes/assumptions/6.md),
and the request waits for the journal (R159, notes/assumptions/18.md). -/
def Obligations.RemoteHoldIsRemoved : Prop :=
  (∀ (s : State) (r : Request), s.isRunning = true → s.requestOf .l .remoteConnect = some r →
    match decodePolicy r.payload, s.nv.holds.remote with
    | none, _ => exec .remoteConnect s = .next ((s.answer .l .range []).leaveLine .remoteConnect)
    | some _, none => exec .remoteConnect s = .next ((s.answer .l .notHeld []).leaveLine .remoteConnect)
    | some policy, some hold =>
      if s.mayBegin .remoteConnect .supply true = false then
        exec .remoteConnect s = .next (s.waits .remoteConnect .supply)
      else if s.nv.journal.free < 17 then
        exec .remoteConnect s = .next ((s.answer .l .journalFull []).leaveLine .remoteConnect)
      else
        ∃ t, exec .remoteConnect s = .next t ∧ s.removed t .remote policy ∧ t.nv.lapseMarker = false ∧
          t.nv.journal = s.nv.journal.appendAll s.clock .lPort
            [s.nv.removalRecord .remote hold.phase .remoteConnect (some policy) policy] ∧
          .answer .l .ok [] ∈ t.newestFollow ∧ s.beganWrite t .supply ∧
          t.withStoreOf s = (s.takeRequest .l).leaveLine .remoteConnect ∧
          { t.nv.withSupplyOf s.nv with lapseMarker := s.nv.lapseMarker } = s.nv) ∧
  ∀ (s : State) (c : CodeService), s.isRunning = true → s.applicationOf 8 = some c → 2 ≤ s.nv.journal.free →
    s.mayBegin .reconnect .supply true = true →
    ∃ t, exec .reconnect s = .next t ∧ t.nv.lapseMarker = false ∧ t.nv.spent = spend c.issue s.nv.spent ∧
      t.nv.failures = s.nv.failures.set c.port 0 ∧ t.nv.lockoutSteps = s.nv.lockoutSteps.set c.port 0 ∧
      (∀ f ∈ c.servedFollow (.reconnect s.nv.holds.remote.isSome), f ∈ t.newestFollow) ∧
      (match s.nv.holds.remote with
      | none =>
        s.supplyKept t ∧
          t.nv.journal =
            s.nv.journal.appendAll s.clock c.port.origin [.codeApplied 8 c.issue (.reconnect false)]
      | some hold =>
        s.removed t .remote .press ∧
          t.nv.journal = s.nv.journal.appendAll s.clock c.port.origin
            [.codeApplied 8 c.issue (.reconnect true), s.nv.removalRecord .remote hold.phase .reconnect none .press]) ∧
      s.beganWrite t .supply ∧ t.withStoreOf s = (s.withServed c).leaveLine .reconnect ∧
      { t.nv.withSupplyOf s.nv with
        lapseMarker := s.nv.lapseMarker, spent := s.nv.spent, failures := s.nv.failures
        lockoutSteps := s.nv.lockoutSteps } = s.nv

/-- R105, R106: "demand over limit" places the LOAD hold FIRM, its restore time the clock plus the load restore delay,
held at 4,294,967,295, and is ignored while one is present; THERM moving to ACTIVE places the TRIP hold FIRM if there is
none, and moving to INACTIVE changes nothing else. An append waits for the journal (R159, notes/assumptions/18.md). -/
def Obligations.LoadAndTripArePlaced : Prop :=
  (∀ s : State, s.isRunning = true → s.supply.demandHanded = true →
    (let restore := min (s.clock + 60 * s.nv.settings.loadRestoreDelay) 4294967295
    let u := { s with supply := { s.supply with demandHanded := false } }
    if s.nv.holds.load ≠ none then exec .demandOverLimit s = .next (u.leaveLine .demandOverLimit)
    else if s.mayBegin .demandOverLimit .supply true = false then
      exec .demandOverLimit s = .next (s.waits .demandOverLimit .supply)
    else
      ∃ t, exec .demandOverLimit s = .next t ∧ s.placed t .load .firm false restore ∧
        t.nv.journal = s.nv.journal.appendAll s.clock .device [.holdPlaced .load .firm none (some restore)] ∧
        s.beganWrite t .supply ∧ t.withStoreOf s = u.leaveLine .demandOverLimit ∧ t.nv.withSupplyOf s.nv = s.nv)) ∧
  (∀ s : State, s.isRunning = true → s.supply.thermActive = false →
    (let u := { s with supply := { s.supply with thermActive := true } }
    if s.nv.holds.trip = true then exec .thermActive s = .next (u.leaveLine .thermActive)
    else if s.mayBegin .thermActive .supply true = false then
      exec .thermActive s = .next (s.waits .thermActive .supply)
    else
      ∃ t, exec .thermActive s = .next t ∧ s.placed t .trip .firm false 0 ∧
        t.nv.journal = s.nv.journal.appendAll s.clock .device [.holdPlaced .trip .firm none none] ∧
        s.beganWrite t .supply ∧ t.withStoreOf s = u.leaveLine .thermActive ∧ t.nv.withSupplyOf s.nv = s.nv)) ∧
  ∀ s : State, s.isRunning = true →
    exec .thermInactive s = .next { s with supply := { s.supply with thermActive := false } }

/-- R105, R107: a restore time that the clock has reached removes the LOAD hold with policy PRESS; CLEAR_TRIP is
answered WRONG_GROUP when its group is no longer permitted, NOT_HELD without a TRIP hold and STILL_ACTIVE while THERM is
ACTIVE, changing nothing, and otherwise removes the TRIP hold with policy PRESS. An append waits for the journal (R159,
notes/assumptions/18.md). -/
def Obligations.LoadAndTripAreRemoved : Prop :=
  (∀ (s : State) (restore : Nat), s.isRunning = true → s.nv.holds.load = some restore → restore ≤ s.clock →
    if s.mayBegin .restoreTime .supply true = false then exec .restoreTime s = .next (s.waits .restoreTime .supply)
    else
    ∃ t, exec .restoreTime s = .next t ∧ s.removed t .load .press ∧
      t.nv.journal =
        s.nv.journal.appendAll s.clock .device [s.nv.removalRecord .load .firm .restore none .press] ∧
      s.beganWrite t .supply ∧ t.withStoreOf s = s.leaveLine .restoreTime ∧ t.nv.withSupplyOf s.nv = s.nv) ∧
  ∀ (p : Port) (s : State) (r : Request), s.isRunning = true → s.requestOf p .clearTrip = some r →
    (let i := Instr.clearTrip p
    if p = .a ∧ s.nv.window = none then exec i s = .next ((s.answer p .wrongGroup []).leaveLine i)
    else if s.nv.holds.trip = false then exec i s = .next ((s.answer p .notHeld []).leaveLine i)
    else if s.supply.thermActive = true then exec i s = .next ((s.answer p .stillActive []).leaveLine i)
    else if s.mayBegin i .supply true = false then exec i s = .next (s.waits i .supply)
    else
      ∃ t, exec i s = .next t ∧ s.removed t .trip .press ∧
        t.nv.journal =
          s.nv.journal.appendAll s.clock p.origin [s.nv.removalRecord .trip .firm .clearTrip none .press] ∧
        .answer p .ok [] ∈ t.newestFollow ∧ s.beganWrite t .supply ∧
        t.withStoreOf s = (s.takeRequest p).leaveLine i ∧ t.nv.withSupplyOf s.nv = s.nv)

/-- R110, R111: a window start makes a CREDIT hold in GRACE DEFERRED unless the arrears-ceiling condition holds, and
leaves any other; a window end, and "arrears ceiling reached", make a DEFERRED one GRACE with the clock plus grace time
if LOADHI is asserted and grace time is above 0, and otherwise FIRM with its record and its command, and leave any
other. The hand-off is taken once. A grace deadline past the clock's largest value is a free value
(notes/assumptions/6.md). A move waits for the controller's earlier write, and one with a record for the journal (R159,
notes/assumptions/18.md). -/
def Obligations.DeferredCreditHoldIsMoved : Prop :=
  ∀ (c : Instr) (s u : State) (start : Bool) (cause : FirmCause), s.isRunning = true →
    (c = .friendlyWindowEdge ∧ cause = .windowEnd ∧
        (∃ rest, s.supply.edges = (if start then .start else .stop) :: rest ∧
          u = { s with supply := { s.supply with edges := rest } }) ∨
      c = .arrearsCeilingReached ∧ cause = .arrearsCeiling ∧ start = false ∧ s.supply.ceilingHanded = true ∧
        u = { s with supply := { s.supply with ceilingHanded := false } }) →
    (let moves : Bool :=
      match s.nv.holds.credit with
      | some (.grace _) => start && !s.nv.ceilingHolds
      | some .deferred => !start
      | _ => false
    let firms := s.nv.holds.credit == some .deferred && !(s.supply.loadhi && 0 < s.nv.settings.graceTime)
    moves = true ∧ s.mayBegin c .supply firms = false → exec c s = .next (s.waits c .supply)) ∧
    (s.mayBegin c .supply true = true →
    ∃ t, exec c s = .next t ∧
      (match s.nv.holds.credit with
      | some (.grace _) =>
        if start = true ∧ s.nv.ceilingHolds = false then
          t.nv = { s.nv with holds := { s.nv.holds with credit := some .deferred } } ∧ s.beganWrite t .supply ∧
            t.driver = s.driver
        else t = u.leaveLine c
      | some .deferred =>
        if start = true then t = u.leaveLine c
        else if s.supply.loadhi = true ∧ 0 < s.nv.settings.graceTime then
          t.nv =
            { s.nv with
              holds :=
                { s.nv.holds with
                  credit := some (.grace (deadlineSum s.clock s.nv.settings.graceTime)) } } ∧
            s.beganWrite t .supply ∧ t.driver = s.driver
        else
          s.firmed t { s.nv.holds with credit := some .firm } ∧
            t.nv.journal = s.nv.journal.appendAll s.clock .device [.holdFirm .credit .deferred cause] ∧
            s.beganWrite t .supply
      | _ => t = u.leaveLine c) ∧
      t.withStoreOf s = u.leaveLine c ∧ t.nv.withSupplyOf s.nv = s.nv)

/-- R119, R112: an arm deadline that the clock has reached lapses in one write: it is removed, the contactor returns to
OPEN, the REMOTE hold is placed FIRM with no origin port, the lapse marker is set, and ARM_LAPSED is followed by
HOLD_PLACED. A clock-set event takes each deadline of the supply controller that the set has moved the clock past as
reached: what it then does to the hold list, the records, the contactor, its drive and the notices is what the commands
of the grace deadlines, the arm deadline and the restore time do one after another; and it limits each deadline that is
left to the clock plus its duration. With none reached the limits are one write with no record, and with none to limit
nothing is written. That one write holds all of a clock-set event, its records in that order, is the model's reading
(notes/assumptions/21.md, 16.md). A write waits for the controller's earlier one, and an append for the journal (R159,
notes/assumptions/18.md). -/
def Obligations.ArmingLapsesAndDeadlinesAreLimited : Prop :=
  (∀ (s : State) (a : ArmDeadline), s.isRunning = true → s.nv.armDeadline = some a → a.deadline ≤ s.clock →
    s.nv.contactor = .armed →
    if s.mayBegin .armDeadline .supply true = false then exec .armDeadline s = .next (s.waits .armDeadline .supply)
    else
    ∃ t, exec .armDeadline s = .next t ∧ s.beganWrite t .supply ∧
      t.nv =
        { s.nv with
          armDeadline := none, contactor := .opened, lapseMarker := true
          holds := { s.nv.holds with remote := some { phase := .firm, byRequest := false } }
          journal := s.nv.journal.appendAll s.clock .device
            [.armLapsed a.deadline a.minutes, .holdPlaced .remote .firm none none] } ∧
      .notice .supplyChanged ∈ t.newestFollow ∧ t.withStoreOf s = s.leaveLine .armDeadline ∧ t.driver = s.driver) ∧
  ∀ s : State, s.isRunning = true → s.supply.clockSetHanded = true →
    (let i := Instr.supplyClockSet
    let u := { s with supply := { s.supply with clockSetHanded := false } }
    let limited : Nv → Nv := fun n =>
      (let limit : HoldPhase → HoldPhase := fun p =>
        match p with
        | .grace d => .grace (min d (s.clock + n.settings.graceTime))
        | p => p
      { n with
        holds :=
          { n.holds with
            credit := n.holds.credit.map limit
            remote := n.holds.remote.map (fun r => { r with phase := limit r.phase })
            load := n.holds.load.map (fun d => min d (s.clock + 60 * n.settings.loadRestoreDelay)) }
        armDeadline := n.armDeadline.map (fun a => { a with deadline := min a.deadline (s.clock + 60 * a.minutes) }) })
    let reached : Nat → Bool := fun d => decide (d ≤ s.clock)
    let grace : HoldKind → Bool := fun k =>
      match s.nv.holds.phase k with | some (.grace d) => reached d | _ => false
    let anyReached : Bool :=
      grace .credit || grace .remote || s.nv.armDeadline.any (fun a => reached a.deadline) || s.nv.holds.load.any reached
    let alone : Instr → State → State := fun c x =>
      match exec c { x with writes := [], journalWaiting := [] } with | .next y => y | _ => x
    let r1 := alone (.graceDeadline .credit) u
    let r2 := alone (.graceDeadline .remote) r1
    let r3 := alone .armDeadline r2
    let r4 := alone .restoreTime r3
    let n := limited r4.nv
    if anyReached = false then
      exec i s =
        .next
          (if (limited s.nv).holds = s.nv.holds ∧ (limited s.nv).armDeadline = s.nv.armDeadline then u.leaveLine i
          else if s.blockBusy .supply i = true then s
          else (u.withWrite (limited s.nv) .supply .device [] [] none).leaveLine i)
    else if s.mayBegin i .supply true = false then exec i s = .next (s.waits i .supply)
    else
      ∃ t, exec i s = .next t ∧ s.beganWrite t .supply ∧ t.nv = n ∧ t.driver = r4.driver ∧
        t.withStoreOf s = u.leaveLine i ∧
        ∀ k, k ≠ .journalLow → k ≠ .journalFull →
          (.notice k ∈ t.newestFollow ↔ ∃ x ∈ [r1, r2, r3, r4], .notice k ∈ x.newestFollow))

/-- R109, R114: a hold in GRACE whose deadline the clock has reached becomes FIRM with HOLD_FIRM, cause grace deadline,
and the contactor command in one write; LOADHI passing to deasserted makes every hold in GRACE FIRM in one event, with
one HOLD_FIRM record for each; LOADHI passing to asserted does nothing to the list. R115: LOADX passing to deasserted
while the contactor is in BREAK_WAIT gives open: the contactor goes to OPENING with a new drive, in one write with no
record; in any other state, and at a passage to asserted, the level alone changes. A passage to deasserted whose event
may not be taken yet stays marked and is taken with a later command of its line (notes/assumptions/13.md). R207: while
start-up runs the levels change, and a passage to deasserted stays marked for the end of the sequence if the step that
judges it, 12 for LOADHI and 14 for LOADX, has been taken. That the CREDIT hold's record comes before the REMOTE hold's
is the model's choice (notes/assumptions/16.md); a write waits for the controller's earlier one, and an append for the
journal (R159, notes/assumptions/18.md). -/
def Obligations.WaitsEndWithTheirLevels : Prop :=
  (∀ (k : HoldKind) (s : State) (d : Nat), s.isRunning = true → s.nv.holds.phase k = some (.grace d) → d ≤ s.clock →
    (let i := Instr.graceDeadline k
    if s.mayBegin i .supply true = false then exec i s = .next (s.waits i .supply)
    else
    ∃ t, exec i s = .next t ∧ s.firmed t (s.nv.holds.rephase k .firm) ∧
      t.nv.journal = s.nv.journal.appendAll s.clock .device [.holdFirm k .grace .graceDeadline] ∧
      s.beganWrite t .supply ∧ t.withStoreOf s = s.leaveLine i ∧ t.nv.withSupplyOf s.nv = s.nv)) ∧
  (∀ (asserted : Bool) (s : State), s.isRunning = true →
    (let i := Instr.loadhiChange false
    let waits : HoldKind → Bool := fun k => match s.nv.holds.phase k with | some (.grace _) => true | _ => false
    let fell := s.supply.loadhiFell = true ∨ s.supply.loadhi = true ∧ asserted = false
    let level : Bool → State := fun marked =>
      { s with supply := { s.supply with loadhi := asserted, loadhiFell := marked } }
    if ¬ fell then exec (.loadhiChange asserted) s = .next (level false)
    else if (waits .credit || waits .remote) = true ∧ s.mayBegin i .supply true = false then
      exec (.loadhiChange asserted) s = .next ((level true).waits i .supply)
    else
    ∃ t, exec (.loadhiChange asserted) s = .next t ∧
      (let firm : HoldKind → HoldList → HoldList := fun k h => if waits k then h.rephase k .firm else h
      let record : HoldKind → List RecordBody := fun k => if waits k then [.holdFirm k .grace .loadhiEnded] else []
      t.nv.holds = firm .remote (firm .credit s.nv.holds) ∧
      t.nv.journal = s.nv.journal.appendAll s.clock .device (record .credit ++ record .remote) ∧
      (if waits .credit || waits .remote then
        s.firmed t (firm .remote (firm .credit s.nv.holds)) ∧ s.beganWrite t .supply
      else t.nv = s.nv ∧ t.writes = s.writes ∧ t.driver = s.driver)) ∧
      t.withStoreOf s = (level false).leaveLine i ∧ t.nv.withSupplyOf s.nv = s.nv)) ∧
  (∀ (asserted : Bool) (s : State), s.isRunning = true →
    (let i := Instr.loadxChange false
    let fell := s.supply.loadxFell = true ∨ s.supply.loadx = true ∧ asserted = false
    let level : Bool → State := fun marked =>
      { s with supply := { s.supply with loadx := asserted, loadxFell := marked } }
    if ¬ fell then exec (.loadxChange asserted) s = .next (level false)
    else if s.nv.contactor ≠ .breakWait then exec (.loadxChange asserted) s = .next ((level false).leaveLine i)
    else if s.blockBusy .supply i = true then exec (.loadxChange asserted) s = .next (level true)
    else
    ∃ t, exec (.loadxChange asserted) s = .next t ∧ s.commanded t .opening .device ∧ s.beganWrite t .supply ∧
      t.nv = { s.nv with contactor := .opening, driveTarget := .opened } ∧
      t.withStoreOf s = (level false).leaveLine i)) ∧
  ∀ (asserted : Bool) (s : State) (q : StartSequence), s.power = .starting q →
    exec (.loadhiChange asserted) s =
      .next
        { s with
          supply :=
            { s.supply with
              loadhi := asserted
              loadhiFell :=
                s.supply.loadhiFell ||
                  (s.supply.loadhi && !asserted && !decide (StartStep.graceLevels ∈ q.steps)) } } ∧
    exec (.loadxChange asserted) s =
      .next
        { s with
          supply :=
            { s.supply with
              loadx := asserted
              loadxFell :=
                s.supply.loadxFell ||
                  (s.supply.loadx && !asserted && !decide (StartStep.breakWait ∈ q.steps)) } }

/-- R120, R121: a press, from PRESS or from the button moving to PRESSED, is judged on the state when it is taken: in
ARMED it gives close with its own origin and removes the arm deadline; with the lapse marker set in OPEN, OPENING or
BREAK_WAIT it writes CLOSE_LATE; in every other case of the table it changes nothing. PRESS is answered as the table
says; a button that is PRESSED gives no further press until it is released. That a press also changes nothing in OPEN or
BREAK_WAIT with an empty list and no marker, a case the table of R121 has no row for, is the model's choice
(notes/assumptions/8.md). A write waits for the controller's earlier one, and an append for the journal (R159,
notes/assumptions/18.md). -/
def Obligations.PressIsJudged : Prop :=
  (∀ (s : State) (r : Request), s.isRunning = true → s.requestOf .a .press = some r →
    match s.nv.contactor with
    | .armed =>
      if s.blockBusy .supply .press = true then exec .press s = .next s
      else
      ∃ t, exec .press s = .next t ∧ s.commanded t .closing .aPort ∧
        t.nv = { s.nv with contactor := .closing, driveTarget := .closed, armDeadline := none } ∧
        .answer .a .ok [] ∈ t.newestFollow ∧ s.beganWrite t .supply ∧
        t.withStoreOf s = (s.takeRequest .a).leaveLine .press
    | .closed | .closing => exec .press s = .next ((s.answer .a .noAction []).leaveLine .press)
    | .welded | .stuckOpen => exec .press s = .next ((s.answer .a .fault []).leaveLine .press)
    | .opened | .opening | .breakWait =>
      if s.nv.lapseMarker = true then
        exec .press s =
          .next
            (if s.mayBegin .press .supply true = false then s.waits .press .supply
            else
              ((s.takeRequest .a).withWrite s.nv .supply .aPort [.closeLate] [.answer .a .lapsed []] none).leaveLine
                .press)
      else if s.nv.holds.isEmpty = false then exec .press s = .next ((s.answer .a .held []).leaveLine .press)
      else s.nv.contactor = .opening → exec .press s = .next ((s.answer .a .noAction []).leaveLine .press)) ∧
  (∀ s : State, s.isRunning = true → s.supply.buttonPressed = false →
    (let u := { s with supply := { s.supply with buttonPressed := true } }
    match s.nv.contactor with
    | .armed =>
      if s.blockBusy .supply .buttonPress = true then exec .buttonPress s = .next s
      else
      ∃ t, exec .buttonPress s = .next t ∧ s.commanded t .closing .button ∧
        t.nv = { s.nv with contactor := .closing, driveTarget := .closed, armDeadline := none } ∧
        s.beganWrite t .supply ∧ t.withStoreOf s = u.leaveLine .buttonPress
    | .closed | .closing | .welded | .stuckOpen => exec .buttonPress s = .next (u.leaveLine .buttonPress)
    | .opened | .opening | .breakWait =>
      exec .buttonPress s =
        .next
          (if s.nv.lapseMarker = false then u.leaveLine .buttonPress
          else if s.mayBegin .buttonPress .supply true = false then s.waits .buttonPress .supply
          else (u.withWrite s.nv .supply .button [.closeLate] [] none).leaveLine .buttonPress))) ∧
  (∀ s : State, s.isRunning = true → s.supply.buttonPressed = true →
    exec .buttonPress s = .next (s.leaveLine .buttonPress)) ∧
  ∀ s : State, s.isRunning = true →
    exec .buttonRelease s = .next { s with supply := { s.supply with buttonPressed := false } }

/-- R113: when the contactor state is CLOSED the hold list holds no FIRM hold, and when it is ARMED the list is empty,
in what the blocks hold, in what the store holds and in every write on its way: each step keeps it. -/
def Obligations.ClosedHoldsNoFirmHold : Prop :=
  ∀ s t : State, s.everyImage Nv.supplyLaw = true → step s = .next t → t.everyImage Nv.supplyLaw = true

/-- R101, R104, R119, R145: the list holds a CREDIT hold exactly while the account is exhausted, a TAMPER hold exactly
while some ENFORCE kind is ACTIVE or LATCHED, and while the lapse marker is set a FIRM REMOTE hold with no origin port;
in every stored state: each step keeps it. -/
def Obligations.HoldsFollowTheirConditions : Prop :=
  ∀ s t : State, step s = .next t →
    (s.everyImage Nv.creditLaw = true → t.everyImage Nv.creditLaw = true) ∧
    (s.everyImage Nv.tamperLaw = true → t.everyImage Nv.tamperLaw = true) ∧
    (s.everyImage Nv.lapseLaw = true → t.everyImage Nv.lapseLaw = true)

/-! ## Chapter 6: the contactor -/

/-- R126: the end of the pulse releases the output and begins the settle time, while start-up runs too
(notes/assumptions/22.md); each output is asserted in the pulse of an attempt in its own direction alone, so the two are
never asserted together. R127, R128, R129, R116, R62: the reading at the end of the settle time agrees with an open
drive when no phase in use shows voltage, and with a close drive when every one does. A verified close ends in CLOSED,
or with a FIRM hold in a new open drive; a verified open restarts the count of pulses while open and ends in OPEN with
the list not empty, and by the policy in force with it empty, or by one of the three with none in force
(notes/assumptions/8.md); each writes its record with the attempts. A reading that disagrees begins the second attempt
with no write, and after it ends in the fault state of the direction with its record. R125, R134: an entry to CLOSED,
OPEN or a fault state raises SUPPLY_CHANGED, one to ARMED ARMED as well, and the LOAD_SIDE_VOLTAGE input is inactive as
the watch begins. That an AUTO close begins from OPENING in the same write is the model's reading
(notes/assumptions/20.md), and an arm deadline past the clock's largest value is a free value (notes/assumptions/6.md);
an append waits for the journal (R159, notes/assumptions/18.md). -/
def Obligations.AttemptsRunToTheirEnd : Prop :=
  ((∀ s : State, (s.isRunning = true ∨ ∃ q, s.power = .starting q) →
    exec .drivePulseEnd s =
      .next
        { s with
          driver := { s.driver with drive := s.driver.drive.map (fun d => { d with stage := .settle }) } }) ∧
  (∀ s : State, s.cdo = true → s.cdc = false) ∧
  ∀ s t : State, exec .drivePulseEnd s = .next t → s.isRunning = true → t.cdo = false ∧ t.cdc = false) ∧
  ∀ (sense : Sense) (s : State) (d : Drive), s.isRunning = true → s.driver.drive = some d → d.stage = .settle →
    (let shown := sense.shown s.nv.settings.phases
    let agrees := match d.direction with | .opened => !shown.contains true | .closed => !shown.contains false
    let i := Instr.driveSettleEnd sense
    if (agrees = true ∨ d.retryCount ≠ 0) ∧ s.mayBegin i .driver true = false then
      exec i s = .next (s.waits i .driver)
    else
    ∃ t, exec i s = .next t ∧
      (let attempts := d.retryCount + 1
      if agrees = true then
        s.beganWrite t .driver ∧ t.nv.holds = s.nv.holds ∧ t.nv.policy = s.nv.policy ∧
        (s.nv.contactor = .opening ∨ s.nv.contactor = .closing → t.driver.voltageInput = false) ∧
        t.driver.pulsesHanded = s.driver.pulsesHanded ∧
        (.notice .supplyChanged ∈ t.newestFollow ↔ d.direction = .opened ∨ s.nv.holds.anyFirm = false) ∧
        (.notice .armed ∈ t.newestFollow ↔ t.nv.contactor = .armed) ∧
        (match d.direction with
        | .closed =>
          t.nv.journal = s.nv.journal.appendAll s.clock d.origin [.supplyClosed d.cause attempts] ∧
          (if s.nv.holds.anyFirm = true then
            t.nv.contactor = .opening ∧ t.nv.driveTarget = .opened ∧
              t.driver.drive = some (newDrive s.nv .opened .command .device)
          else t.nv.contactor = .closed ∧ t.driver.drive = none ∧ t.nv.driveTarget = s.nv.driveTarget) ∧
          t.nv.armDeadline = s.nv.armDeadline ∧ t.pulse = s.pulse
        | .opened =>
          t.nv.journal = s.nv.journal.appendAll s.clock d.origin [.supplyOpened d.cause attempts] ∧
          t.pulse = { s.pulse with openPulses := 0 } ∧
          (if s.nv.holds.isEmpty = false then
            t.nv.contactor = .opened ∧ t.driver.drive = none ∧ t.nv.driveTarget = s.nv.driveTarget ∧
              t.nv.armDeadline = s.nv.armDeadline
          else
            (let arms : Policy → Prop := fun policy =>
              match policy with
              | .auto =>
                t.nv.contactor = .closing ∧ t.nv.driveTarget = .closed ∧ t.nv.armDeadline = none ∧
                  t.driver.drive = some (newDrive s.nv .closed .command .device)
              | .press =>
                t.nv.contactor = .armed ∧ t.driver.drive = none ∧ t.nv.armDeadline = none ∧
                  t.nv.driveTarget = s.nv.driveTarget
              | .pressWithin m =>
                t.nv.contactor = .armed ∧ t.driver.drive = none ∧ t.nv.driveTarget = s.nv.driveTarget ∧
                  t.nv.armDeadline = some { deadline := deadlineSum s.clock (60 * m), minutes := m }
            match s.nv.policy with
            | some policy => arms policy
            | none =>
              arms .auto ∨ arms .press ∨ ∃ m, 1 ≤ m ∧ m ≤ 240 ∧ arms (.pressWithin m)))) ∧
        { t.withStoreOf s with pulse := s.pulse, choices := s.choices } = s.leaveLine i ∧ t.nv.withSupplyOf s.nv = s.nv
      else if d.retryCount = 0 then
        t =
          { s.leaveLine i with
            driver :=
              { s.driver with
                drive :=
                  some
                    { d with
                      retryCount := 1, stage := .pulse, pulseMs := s.nv.settings.pulseTime
                      settleMs := s.nv.settings.settleTime } } }
      else
        (let fault : FaultState := match d.direction with | .opened => .welded | .closed => .stuckOpen
        s.beganWrite t .driver ∧ t.driver = { s.driver with drive := none, voltageInput := false } ∧
          t.nv =
            { s.nv with
              contactor := match d.direction with | .opened => .welded | .closed => .stuckOpen
              journal := s.nv.journal.appendAll s.clock d.origin
                [.contactorFaultVerify fault d.cause
                  (match s.nv.settings.phases with
                  | .one => { l1 := sense.l1, l2 := false, l3 := false }
                  | .three => sense)] } ∧
          .notice .contactorFault ∈ t.newestFollow ∧ .notice .supplyChanged ∈ t.newestFollow ∧
          t.withStoreOf s = s.leaveLine i)))

/-- R131, R133, R134: CONTACTOR_RETRY drives from WELDED to open and from STUCK_OPEN to close, with cause RETRY, the
request's port as origin and no record, and is answered NO_FAULT in any other state, and WRONG_GROUP when its group is
no longer permitted (R150); "pulses while open" makes an OPEN or ARMED contactor WELDED with its record and removes an
arm deadline, and is discarded in any other state; while the voltage watch runs, in OPEN and ARMED, 5 s of voltage on
some phase in use make its input active and 5 s without voltage on every one make it inactive, and it does nothing else.
That CONTACTOR_FAULT is raised before SUPPLY_CHANGED is the model's choice (notes/assumptions/16.md). A write waits for
the driver's earlier one, and an append for the journal (R159, notes/assumptions/18.md). -/
def Obligations.RetryAndEvidenceOfPulses : Prop :=
  (∀ (p : Port) (s : State) (r : Request), s.isRunning = true → s.requestOf p .contactorRetry = some r →
    (let i := Instr.contactorRetry p
    let target : Option Position :=
      match s.nv.contactor with
      | .welded => some .opened
      | .stuckOpen => some .closed
      | _ => none
    if p = .a ∧ s.nv.window = none then exec i s = .next ((s.answer p .wrongGroup []).leaveLine i)
    else
    match target with
    | none => exec i s = .next ((s.answer p .noFault []).leaveLine i)
    | some d =>
      if s.blockBusy .driver i = true then exec i s = .next s
      else
      ∃ t, exec i s = .next t ∧ s.beganWrite t .driver ∧
        t.nv =
          { s.nv with
            contactor := match d with | .opened => .opening | .closed => .closing
            driveTarget := d } ∧
        t.driver =
          { s.driver with drive := some (newDrive s.nv d .retry p.origin), voltageInput := false } ∧
        .notice .supplyChanged ∉ t.newestFollow ∧ .answer p .ok [] ∈ t.newestFollow ∧
        t.withStoreOf s = (s.takeRequest p).leaveLine i)) ∧
  (∀ s : State, s.isRunning = true → s.driver.pulsesHanded = true →
    (let u := { s with driver := { s.driver with pulsesHanded := false } }
    if s.nv.contactor = .opened ∨ s.nv.contactor = .armed then
      exec .pulsesWhileOpen s =
        .next
          (if s.mayBegin .pulsesWhileOpen .driver true = false then s.waits .pulsesWhileOpen .driver
          else
            ({ u with driver := { u.driver with voltageInput := false } }.withWrite
              { s.nv with contactor := .welded, armDeadline := none } .driver .device [.contactorFaultPulses]
              [.notice .contactorFault, .notice .supplyChanged] none).leaveLine .pulsesWhileOpen)
    else exec .pulsesWhileOpen s = .next (u.leaveLine .pulsesWhileOpen))) ∧
  ∀ (sense : Sense) (s : State), s.isRunning = true →
    (let present := sense.shown s.nv.settings.phases
    exec (.voltageWatchExpiry sense) s =
      .next
        (if s.nv.contactor = .opened ∨ s.nv.contactor = .armed then
          { s with driver := { s.driver with voltageInput := present.contains true } }
        else s))

/-- R118, R123, R124: while the part runs a drive is in progress exactly in OPENING and CLOSING, in that direction,
which is the drive target; while start-up runs a drive found cut short may be missing until the contactor check (R136);
an arm deadline is held in ARMED alone: each step keeps these together. -/
def Obligations.DriveMatchesTheContactor : Prop :=
  ∀ s t : State, s.driveLaw = true → s.everyImage Nv.targetLaw = true → s.armLaw = true → step s = .next t →
    t.driveLaw = true ∧ t.everyImage Nv.targetLaw = true ∧ t.armLaw = true

/-! ## Chapter 7: tamper -/

/-- R138, R140 to R143, R145: the passage of a kind's debounced level is an event that joins the tamper monitor's list
and is taken when it is the oldest there and no event is being taken; until then it waits, and its command, which comes
again, brings no second one (notes/assumptions/34.md); one with a record waits for the journal (R159,
notes/assumptions/18.md). "Input active" for a kind that is not ACTIVE makes it ACTIVE with its count raised to at most
65,535, its time detected the clock and a TAMPER_DETECTED record, raises TAMPER unless the effective class is RECORD,
and moves the TAMPER hold with its condition, in one write; "input inactive" for an ACTIVE kind makes it LATCHED with a
TAMPER_ENDED record of the seconds since its time detected, and changes nothing else. An event that finds the kind
already so does nothing. TAMPER_DETECTED before HOLD_PLACED is the model's choice (notes/assumptions/16.md). -/
def Obligations.TamperIsDetectedAndLatched : Prop :=
  (∀ (k : TamperKind) (s : State), s.isRunning = true →
    (let u : State :=
      if s.tamper.levels.get k = false ∧ s.inputMayBe k true = true ∧ .input k true ∉ s.tamper.arrivals then
        { s with
          tamper :=
            { levels := s.tamper.levels.set k true, arrivals := s.tamper.arrivals ++ [.input k true] } }
      else s
    let i := Instr.tamperInputActive k
    if u.tamperTakes (.input k true) = false then exec i s = .next u
    else if (s.nv.tampers.get k).state = .active then exec i s = .next (u.leaveTamper.leaveLine i)
    else if s.mayBegin i .tamper true = false then exec i s = .next (u.waits i .tamper)
    else
      ∃ t records, exec i s = .next t ∧ s.beganWrite t .tamper ∧
        (let old := s.nv.tampers.get k
        let count := min 65535 (old.count + 1)
        let cls := s.nv.effectiveClass k
        t.nv.tampers = s.nv.tampers.set k { state := .active, count := count, detected := some s.clock } ∧
        t.nv.journal =
          s.nv.journal.appendAll s.clock .device (.tamperDetected k count cls none :: records) ∧
        (.notice .tamper ∈ t.newestFollow ↔
          cls ≠ .record ∨ s.nv.tamperCondition = false ∧ t.nv.tamperCondition = true)) ∧
        s.tamperFollows t records ∧
        t.withStoreOf s = u.leaveTamper.leaveLine i ∧ { t.nv.withSupplyOf s.nv with tampers := s.nv.tampers } = s.nv)) ∧
  ∀ (k : TamperKind) (s : State), s.isRunning = true →
    (let u : State :=
      if s.tamper.levels.get k = true ∧ s.inputMayBe k false = true ∧ .input k false ∉ s.tamper.arrivals then
        { s with
          tamper :=
            { levels := s.tamper.levels.set k false, arrivals := s.tamper.arrivals ++ [.input k false] } }
      else s
    let old := s.nv.tampers.get k
    let i := Instr.tamperInputInactive k
    if u.tamperTakes (.input k false) = false then exec i s = .next u
    else if old.state ≠ .active then exec i s = .next (u.leaveTamper.leaveLine i)
    else if s.mayBegin i .tamper true = false then exec i s = .next (u.waits i .tamper)
    else
      ∃ seconds, (∀ at_, old.detected = some at_ → at_ ≤ s.clock → seconds = s.clock - at_) ∧
        exec i s =
          .next
            ((u.leaveTamper.withWrite
              { s.nv with tampers := s.nv.tampers.set k { old with state := .latched } } .tamper .device
              [.tamperEnded k seconds] [] none).leaveLine i))

/-- R82, R140, R146, R147: CLEAR_TAMPER, when the tamper monitor takes it, is answered WRONG_GROUP when its group is no
longer permitted and RANGE for a number above 5; otherwise each kind it names is made QUIET if it is LATCHED and left as
it is if not, with one byte of result for each and STILL_ACTIVE if any is ACTIVE, one TAMPER_CLEARED record for each
kind cleared, and the TAMPER hold following its condition; with none cleared nothing is written. A TAMPER_CLEAR code
clears in the same way within its commit, its records after CODE_APPLIED, its issue number spent and its port's failures
reset. R148, R195: READ_TAMPER is answered with each kind's state, count, configured class, effective class, debounce
and time detected, then the window and its closing time, in 55 bytes, and changes nothing. Each leaves the monitor's
list; an append waits for the journal (R159, notes/assumptions/18.md), and a hold's record comes after TAMPER_CLEARED by
the model's choice (notes/assumptions/16.md). -/
def Obligations.TamperIsCleared : Prop :=
  (∀ (p : Port) (s : State) (r : Request), s.isRunning = true → s.tamperRequest p .clearTamper = some r →
    (let which := field r.payload 0 1
    let kinds := clearKinds which
    let results := kinds.map (fun k => (s.nv.tampers.get k).state.clearResult)
    let status : Status := if .stillActive ∈ results then .stillActive else .ok
    let payload := results.flatMap (fun x => toBytes 1 x.number)
    let u := s.leaveTamper
    let i := Instr.clearTamper p
    if p = .a ∧ s.nv.window = none then exec i s = .next ((u.answer p .wrongGroup []).leaveLine i)
    else if 5 < which then exec i s = .next ((u.answer p .range []).leaveLine i)
    else if .cleared ∉ results then exec i s = .next ((u.answer p status payload).leaveLine i)
    else if s.mayBegin i .tamper true = false then exec i s = .next (s.waits i .tamper)
    else
      ∃ t records, exec i s = .next t ∧ s.beganWrite t .tamper ∧
        (∀ k, t.nv.tampers.get k =
          if k ∈ kinds ∧ (s.nv.tampers.get k).state = .latched then { s.nv.tampers.get k with state := .quiet }
          else s.nv.tampers.get k) ∧
        t.nv.journal =
          s.nv.journal.appendAll s.clock p.origin
            ((kinds.filter (fun k => (s.nv.tampers.get k).state == .latched)).map (fun k => .tamperCleared k .request)
              ++ records) ∧
        s.tamperFollows t records ∧ .notice .tamper ∉ t.newestFollow ∧
        .answer p status payload ∈ t.newestFollow ∧ t.withStoreOf s = (u.takeRequest p).leaveLine i ∧
        { t.nv.withSupplyOf s.nv with tampers := s.nv.tampers } = s.nv)) ∧
  (∀ (s : State) (c : CodeService), s.isRunning = true → s.tamperApplication 5 = some c → 7 ≤ s.nv.journal.free →
    s.mayBegin .tamperClear .tamper true = true →
    ∃ t records, exec .tamperClear s = .next t ∧ s.beganWrite t .tamper ∧
      (let kinds := clearKinds c.sub
      let effect := CodeEffect.tamperClear (kinds.map (fun k => (s.nv.tampers.get k).state.clearResult))
      (∀ k, t.nv.tampers.get k =
        if k ∈ kinds ∧ (s.nv.tampers.get k).state = .latched then { s.nv.tampers.get k with state := .quiet }
        else s.nv.tampers.get k) ∧
      t.nv.journal =
        s.nv.journal.appendAll s.clock c.port.origin
          (.codeApplied 5 c.issue effect ::
            (kinds.filter (fun k => (s.nv.tampers.get k).state == .latched)).map (fun k => .tamperCleared k .code)
              ++ records) ∧
      ∀ f ∈ c.servedFollow effect, f ∈ t.newestFollow) ∧
      s.tamperFollows t records ∧ .notice .tamper ∉ t.newestFollow ∧
      t.nv.spent = spend c.issue s.nv.spent ∧ t.nv.failures = s.nv.failures.set c.port 0 ∧
      t.nv.lockoutSteps = s.nv.lockoutSteps.set c.port 0 ∧
      t.withStoreOf s = (s.leaveTamper.withServed c).leaveLine .tamperClear ∧
      { t.nv.withSupplyOf s.nv with
        tampers := s.nv.tampers, spent := s.nv.spent, failures := s.nv.failures
        lockoutSteps := s.nv.lockoutSteps } = s.nv) ∧
  ∀ (p : Port) (s : State) (r : Request), s.isRunning = true → s.tamperRequest p .readTamper = some r →
    (let kind : TamperKind → List Byte := fun k =>
      let x := s.nv.tampers.get k
      let state := match x.state with | .quiet => 1 | .active => 2 | .latched => 3
      let cls : TamperClass → Nat := fun y => match y with | .record => 1 | .notify => 2 | .enforce => 3
      let configured := s.nv.settings.classes.get k
      toBytes 1 state ++ toBytes 2 x.count ++ toBytes 1 (cls configured) ++
        toBytes 1 (if k = .terminalCover ∧ s.nv.window ≠ none then 1 else cls configured) ++
        toBytes 1 (s.nv.settings.debounces.get k) ++
        toBytes 4 (match x.detected with | some at_ => at_ | none => 0)
    let payload :=
      kind .mainCover ++ kind .terminalCover ++ kind .magnetic ++ kind .reverseFlow ++ kind .loadSideVoltage ++
        (match s.nv.window with
        | some w => toBytes 1 1 ++ toBytes 4 w.closing
        | none => toBytes 1 0 ++ toBytes 4 0)
    exec (.readTamper p) s = .next (s.leaveTamper.answer p .ok payload) ∧ payload.length = 55)

/-- R149: a SERVICE code opens the window, or replaces its times, with the closing time the clock at the code's taking
plus 5 minutes for each unit of its sub, held at 4,294,967,295, and SERVICE_START. R151, R152: the window closes with
SERVICE_END at an expiry taken with the clock at or past the closing time, at a clock-set event that finds it so, or at
CLOSE_SERVICE, answered OK once stored, and WRONG_GROUP when it is already closed. An expiry that finds the clock short,
or the window closed, does nothing. Each re-evaluates the TAMPER hold's condition in the same write, and a close that
places the hold raises TAMPER. An event that may not be taken yet waits on the monitor's list (R140,
notes/assumptions/34.md), an append for the journal (R159, notes/assumptions/18.md). The order of the records in each
write is the model's choice where the spec gives none (notes/assumptions/16.md). -/
def Obligations.ServiceWindowOpensAndCloses : Prop :=
  (∀ (s : State) (c : CodeService), s.isRunning = true → s.tamperApplication 4 = some c → 3 ≤ s.nv.journal.free →
    s.mayBegin .service .tamper true = true →
    ∃ t records, exec .service s = .next t ∧ s.beganWrite t .tamper ∧
      (let closing := min (c.taken + 60 * (5 * c.sub)) 4294967295
      let effect := CodeEffect.service closing
      t.nv.window = some { closing := closing, minutes := 5 * c.sub } ∧
      t.nv.journal =
        s.nv.journal.appendAll s.clock c.port.origin
          (.codeApplied 4 c.issue effect :: .serviceStart closing (5 * c.sub) s.nv.window.isSome :: records) ∧
      ∀ f ∈ c.servedFollow effect, f ∈ t.newestFollow) ∧
      s.tamperFollows t records ∧ .notice .tamper ∉ t.newestFollow ∧
      t.nv.spent = spend c.issue s.nv.spent ∧ t.nv.failures = s.nv.failures.set c.port 0 ∧
      t.nv.lockoutSteps = s.nv.lockoutSteps.set c.port 0 ∧
      t.withStoreOf s = (s.leaveTamper.withServed c).leaveLine .service ∧
      { t.nv.withSupplyOf s.nv with
        window := s.nv.window, spent := s.nv.spent, failures := s.nv.failures
        lockoutSteps := s.nv.lockoutSteps } = s.nv) ∧
  (∀ (c : Instr) (s u v : State) (cause : CloseCause) (origin : Origin) (w : ServiceWindow), s.isRunning = true →
    s.nv.window = some w →
    (c = .serviceWindowExpiry ∧ w.closing ≤ s.clock ∧ cause = .expiry ∧ origin = .device ∧
        v = (if .windowExpiry ∈ s.tamper.arrivals then s else s.arriveTamper .windowExpiry) ∧
        v.tamperTakes .windowExpiry = true ∧ u = v.leaveTamper ∨
      c = .tamperClockSet ∧ w.closing ≤ s.clock ∧ cause = .expiry ∧ origin = .device ∧ v = s ∧
        s.tamperTakes .clockSet = true ∧ u = s.leaveTamper ∨
      ∃ p r, c = .closeService p ∧ s.tamperRequest p .closeService = some r ∧ cause = .closeService ∧
        origin = p.origin ∧ v = s ∧ u = s.leaveTamper.takeRequest p) →
    if s.mayBegin c .tamper true = false then exec c s = .next (v.waits c .tamper)
    else
    ∃ t records, exec c s = .next t ∧ s.beganWrite t .tamper ∧ t.nv.window = none ∧
      (let opened := s.nv.tamperCondition = false ∧ t.nv.tamperCondition = true
      t.nv.journal =
        s.nv.journal.appendAll s.clock origin
          (records ++
            [.serviceEnd cause s.nv.tampers.terminalCover.state s.tamper.levels.terminalCover opened]) ∧
      (.notice .tamper ∈ t.newestFollow ↔ opened)) ∧
      (∀ p, c = .closeService p → .answer p .ok [] ∈ t.newestFollow) ∧ s.tamperFollows t records ∧
      t.withStoreOf s = u.leaveLine c ∧ { t.nv.withSupplyOf s.nv with window := s.nv.window } = s.nv) ∧
  (∀ s : State, s.isRunning = true →
    (let passed := match s.nv.window with | some w => decide (w.closing ≤ s.clock) | none => false
    let v := if passed = true ∧ .windowExpiry ∉ s.tamper.arrivals then s.arriveTamper .windowExpiry else s
    (v.tamperTakes .windowExpiry = false → exec .serviceWindowExpiry s = .next v) ∧
    (v.tamperTakes .windowExpiry = true → passed = false →
      exec .serviceWindowExpiry s = .next (v.leaveTamper.leaveLine .serviceWindowExpiry)))) ∧
  ∀ (p : Port) (s : State) (r : Request), s.isRunning = true → s.tamperRequest p .closeService = some r →
    s.nv.window = none →
    exec (.closeService p) s = .next ((s.leaveTamper.answer p .wrongGroup []).leaveLine (.closeService p))

/-- R144, R153, R197, R198: a class or debounce setting that the tamper monitor takes is answered WRONG_GROUP with the
window closed and JOURNAL_FULL without room; otherwise it is set with its SETTING_CHANGED record, the TAMPER hold's
condition is re-evaluated in the same write, and the value is answered. A clock-set event with the closing time still
ahead limits it to the clock plus the window's duration, in one write with no record, and with the window closed does
nothing. Each leaves the monitor's list; an append waits for the journal (R159, notes/assumptions/18.md). -/
def Obligations.MonitorSettingsAndClockSet : Prop :=
  (∀ (p : Port) (s : State) (n v : Nat), s.isRunning = true → s.tamperTakes (.request p) = true →
    s.settingOf p = some (n, v) → 13 ≤ n → n ≤ 22 →
    (let u := s.leaveTamper
    let kind := settingKind n
    let x := s.nv.settings
    let old := if n ≤ 17 then (x.classes.get kind).number else x.debounces.get kind
    let i := Instr.tamperSettingChange p
    if s.nv.window = none then exec i s = .next ((u.answer p .wrongGroup []).leaveLine i)
    else if s.mayBegin i .tamper true = false then exec i s = .next (s.waits i .tamper)
    else if s.nv.journal.free < 17 then exec i s = .next ((u.answer p .journalFull []).leaveLine i)
    else
      ∃ t records, exec i s = .next t ∧ s.beganWrite t .tamper ∧
        t.nv.settings =
          (if n ≤ 17 then { x with classes := x.classes.set kind (classOfNumber v) }
          else { x with debounces := x.debounces.set kind v }) ∧
        t.nv.journal = s.nv.journal.appendAll s.clock p.origin (.settingChanged n old v :: records) ∧
        s.tamperFollows t records ∧
        (.notice .tamper ∈ t.newestFollow ↔ s.nv.tamperCondition = false ∧ t.nv.tamperCondition = true) ∧
        .answer p .ok (toBytes 1 v) ∈ t.newestFollow ∧ t.withStoreOf s = (u.takeRequest p).leaveLine i ∧
        { t.nv.withSupplyOf s.nv with settings := s.nv.settings } = s.nv)) ∧
  (∀ s : State, s.isRunning = true → s.tamperTakes .clockSet = true → s.nv.window = none →
    exec .tamperClockSet s = .next (s.leaveTamper.leaveLine .tamperClockSet)) ∧
  ∀ (s : State) (w : ServiceWindow), s.isRunning = true → s.tamperTakes .clockSet = true → s.nv.window = some w →
    s.clock < w.closing →
    (let u := s.leaveTamper
    let latest := s.clock + 60 * w.minutes
    exec .tamperClockSet s =
      .next
        (if w.closing ≤ latest then u.leaveLine .tamperClockSet
        else if s.blockBusy .tamper .tamperClockSet = true then s
        else
          (u.withWrite { s.nv with window := some { w with closing := latest } } .tamper .device [] [] none).leaveLine
            .tamperClockSet))

/-! ## Chapter 8: the journal -/

/-- R158, R163, R166: the records of a write are taken one at a time, in the order handed. A record of an own write is
written while free is at least 1: it takes the number W + 1, free falls by one, it is held in its place, and every
unreleased record stays; with free 0 it is not written, W and free keep their values, and it is counted in the overflow
summary, whose entries stay in the order of the kind table. -/
def Obligations.RecordsAreWrittenOrCounted : Prop :=
  (∀ (j : Journal) (time : Nat) (origin : Origin) (first : RecordBody) (rest : List RecordBody),
    j.appendAll time origin (first :: rest) = (j.append time origin first).appendAll time origin rest) ∧
  ∀ (j : Journal) (time : Nat) (origin : Origin) (body : RecordBody), j.sound = true →
    (let t := j.append time origin body
    (1 ≤ j.free →
      t.newest = (j.newest + 1) % 2 ^ 32 ∧ t.free + 1 = j.free ∧ t.mark = j.mark ∧ t.overflow = j.overflow ∧
        t.place t.newest = some { seq := t.newest, time := time, origin := origin, body := body } ∧
        ∀ seq, 1 ≤ j.offset seq → j.offset seq ≤ j.unreleased → t.place seq = j.place seq) ∧
    (j.free = 0 →
      { t with overflow := j.overflow } = j ∧
      match j.overflow with
      | none => t.overflow = some { first := time, last := time, entries := [(body.kind, 1)] }
      | some v =>
        (let count : List (RecordKind × Nat) → RecordKind → Nat := fun entries k =>
          ((entries.find? (fun x => x.1 == k)).map (fun x => x.2)).getD 0
        strictlyAscending (v.entries.map (fun x => x.1.number)) = true →
        ∃ w, t.overflow = some w ∧ w.first = v.first ∧ w.last = time ∧
          strictlyAscending (w.entries.map (fun x => x.1.number)) = true ∧
          ∀ k, count w.entries k = if k = body.kind then min 255 (count v.entries k + 1) else count v.entries k)))

/-- R158, R168, R169, R170, R167: READ_JOURNAL is answered RANGE for a count of 0 or above 3 or a number that is
released or ahead of the next, OK with nothing for the next, and otherwise with the records from that number onward, up
to the count and up to W, as many as fit whole in 56 bytes. RELEASE_JOURNAL is answered WRONG_GROUP at a port the
release setting does not name; an unreleased number becomes the release mark and an overflow summary is written as one
record and emptied, in one write, the records still unreleased keeping their places; a released number changes nothing;
any other is answered RANGE. R159: either is taken when the journal is taking no event and the request is the oldest
that waits there. While the part runs a command begins at most one write, and only when its block has none on its way
and, for an append, when the journal is taking no event and the append is the oldest that waits there, or comes with
none waiting. An event that waits stays in its place until it is taken itself: a command takes at most the oldest
request, or its own append, from the list, and what it adds joins at the end. An append that waits for the journal
leaves its place there and nothing else, and its command comes again (notes/assumptions/18.md). -/
def Obligations.JournalIsReadAndReleased : Prop :=
  ((∀ (p : Port) (s : State) (r : Request), s.isRunning = true → s.journalRequest p .readJournal = some r →
    s.nv.journal.sound = true →
    ∃ status payload, exec (.readJournal p) s = .next (s.leaveJournal.answer p status payload) ∧
      (let j := s.nv.journal
      let seq := field r.payload 0 4
      let n := field r.payload 4 1
      let o := (seq + 2 ^ 32 - j.mark) % 2 ^ 32
      let bytes : Nat → List Byte := fun i => match j.place (seq + i) with | some x => x.bytes | none => []
      if n = 0 ∨ 3 < n ∨ o = 0 ∨ j.unreleased + 1 < o then status = .range ∧ payload = []
      else
        status = .ok ∧ payload.length ≤ 56 ∧
          ∃ k, k ≤ n ∧ payload = (List.range k).flatMap bytes ∧ o + k ≤ j.unreleased + 1 ∧
            (k = n ∨ o + k = j.unreleased + 1 ∨ 56 < payload.length + (bytes k).length))) ∧
  ∀ (p : Port) (s : State) (r : Request), s.isRunning = true → s.journalRequest p .releaseJournal = some r →
    s.nv.journal.sound = true →
    (let j := s.nv.journal
    let seq := field r.payload 0 4
    let o := (seq + 2 ^ 32 - j.mark) % 2 ^ 32
    let named := match s.nv.settings.release with | .either => true | .aPort => p == .a | .lPort => p == .l
    if named = false then exec (.releaseJournal p) s = .next (s.leaveJournal.answer p .wrongGroup [])
    else if o = 0 ∨ 2 ^ 31 ≤ o then
      exec (.releaseJournal p) s =
        .next (s.leaveJournal.answer p .ok (toBytes 4 j.mark ++ toBytes 2 j.free))
    else if j.unreleased < o then exec (.releaseJournal p) s = .next (s.leaveJournal.answer p .range [])
    else
      ∃ t, exec (.releaseJournal p) s = .next t ∧ s.beganWrite t .journal ∧
        (let k := t.nv.journal
        k.mark = seq ∧ k.overflow = none ∧
        (∀ x, 1 ≤ x → x ≤ j.unreleased - o → k.place ((seq + x) % 2 ^ 32) = j.place ((seq + x) % 2 ^ 32)) ∧
        (match j.overflow with
        | none => k = { j with mark := seq } ∧ k.free = j.free + o
        | some v =>
          k.newest = (j.newest + 1) % 2 ^ 32 ∧ k.free + 1 = j.free + o ∧
            k.place k.newest =
              some { seq := k.newest, time := s.clock, origin := p.origin, body := .overflowSummary v }) ∧
        t.newestFollow = [.answer p .ok (toBytes 4 seq ++ toBytes 2 k.free)]) ∧
        { t.nv with journal := j } = s.nv ∧
        t.withStoreOf s = s.leaveJournal.takeRequest p)) ∧
  (∀ (c : Instr) (s t : State), s.isRunning = true → c ≠ .writeStored → (∀ b, c ≠ .powerFailWarning b) →
    c ≠ .externalReset → c ≠ .brownOut → exec c s = .next t →
    t.writes = s.writes ∨
    ∃ w, t.writes = s.writes ++ [w] ∧ (∀ v ∈ s.writes, v.owner ≠ w.owner) ∧
      (w.appends = true →
        (s.journalWaiting = [] ∨ ∃ d, s.journalWaiting.head? = some (.append w.owner d)) ∧
          ∀ v ∈ s.writes, v.appends = false ∧ v.owner ≠ .journal)) ∧
  (∀ (c : Instr) (s t : State), s.isRunning = true → (∀ b, c ≠ .powerFailWarning b) → c ≠ .externalReset →
    c ≠ .brownOut → exec c s = .next t →
    ∃ kept added, t.journalWaiting = kept ++ added ∧
      (kept = s.journalWaiting ∨ (∃ d, kept = s.journalWaiting.filter (fun e => !e.appendOf d) ∧ (c = d ∨
          (d = .loadhiChange false ∧ c = .loadhiChange true) ∨ d = .loadxChange false ∧ c = .loadxChange true)) ∨
        ∃ p, (c = .readJournal p ∨ c = .releaseJournal p) ∧ s.journalWaiting = .request p :: kept)) ∧
  ∀ (c : Instr) (s : State), s.isRunning = true →
    (∃ v ∈ s.writes, v.appends = true ∨ v.owner = .journal) ∨
      (∃ e, s.journalWaiting.head? = some e ∧ e.appendOf c = false) →
    (c ∈ [.credit, .emergencyLimit, .debtSet, .bandPrice, .service, .tamperClear, .reconnect, .dayClose,
        .tariffActivation, .restoreTime, .armDeadline] ∨
      (∃ k, c = .graceDeadline k) ∨ ∃ p, c = .lockoutExpiry p) →
    exec c s = .next s ∨ exec c s = .next (s.leaveLine c) ∨ ∃ b, exec c s = .next (s.joinLine b c)

/-- R157, R158, R163, R166: the ring has 512 places, at most 512 consecutive records are unreleased, each of them is
held in the place of its number, and the overflow summary is held only while free is 0; in every stored state: each step
keeps it. R159: the journal takes one event at a time: at most one of the writes on their way carries an append or a
release, each block has at most one on its way, and at most one append of each block waits at the journal: each step
keeps that. -/
def Obligations.JournalLawIsKept : Prop :=
  ∀ s t : State, step s = .next t →
    (s.everyImage Nv.journalLaw = true → t.everyImage Nv.journalLaw = true) ∧
    (s.writesLaw = true → t.writesLaw = true)

/-! ## Chapter 9: the ports -/

/-- R173, R177: a request frame made of a code and a payload of at most 56 bytes has L + 5 bytes and a CRC that agrees,
and is read back as that code and payload; received from HUNTING at the L-port it is tested by R175 in IDLE, marks a
port clear if it is an empty PORT_CLEAR in WORKING or READY, and any other is refused with BUSY there. A frame whose CRC
disagrees is refused with FRAME_CHECK in any state. That a PORT_CLEAR is marked as its frame is judged, and acts by its
own command, is the model's reading (notes/assumptions/25.md). -/
def Obligations.RequestFramesAreReceived : Prop :=
  (∀ (code : Byte) (payload : List Byte), payload.length ≤ 56 →
    (let f := requestFrame code payload
    f.length = payload.length + 5 ∧ crcAgrees f = true ∧ frameCode f = code ∧ framePayload f = payload ∧
    ∀ s : State, s.isRunning = true → s.ports.l.receive = [] →
      exec (.lPortFrame f) s =
        .next
          (if s.ports.l.state = .idle then s.judgeRequest .l code payload
          else if code = 0x0C ∧ payload = [] then s.updatePort .l (fun u => { u with clearing := true })
          else s.refuseFrame .busy code))) ∧
  ∀ (f : List Byte) (s : State), f.head? = some 0xA5 → f.length = frameLength f + 5 → frameLength f ≤ 56 →
    crcAgrees f = false → s.isRunning = true → s.ports.l.receive = [] →
    exec (.lPortFrame f) s = .next (s.refuseFrame .frameCheck (frameCode f))

/-- R175, R176, R183: a request whose code names none is answered UNKNOWN, one that no group permits at the port
WRONG_GROUP, one of a wrong length LENGTH and a SNAPSHOT that fails its checks by them, in this order: at once, with an
empty payload, and nothing else changes. A request that passes is taken: the port passes to WORKING, the request joins
the order of the block that takes it, and nothing else changes. R182: a PORT_CLEAR that passes is marked, and acts by
its own command, which is the model's reading of its taking (notes/assumptions/25.md). R183: the catalogue of the
requests, their codes, where their groups are permitted, their payload lengths, and which block's order each joins. -/
def Obligations.RequestsAreTestedAndTaken : Prop :=
  (∀ (p : Port) (s : State) (code : Byte) (payload : List Byte),
    (let windowOpen := s.nv.window.isSome
    let refused : Status → State := fun st => s.respond p { code := code, status := st.byte, payload := [] }
    match RequestCode.ofByte code with
    | none => s.judgeRequest p code payload = refused .unknown
    | some c =>
      c.byte = code ∧
      (if c.permitted windowOpen p = false then s.judgeRequest p code payload = refused .wrongGroup
      else if c.lengthAccepted payload.length = false then s.judgeRequest p code payload = refused .length
      else if c = .snapshot ∧ payload.any (fun b => 17 < b.toNat) = true then
        s.judgeRequest p code payload = refused .range
      else if c = .snapshot ∧ 56 < (payload.map (fun b => snapshotSize b.toNat)).sum then
        s.judgeRequest p code payload = refused .length
      else if c = .portClear then
        s.judgeRequest p code payload = s.updatePort p (fun u => { u with clearing := true })
      else
        (let t := s.judgeRequest p code payload
        (t.ports.get p).state = .working ∧
          (t.ports.get p).request =
            some { code := c, payload := payload, handedSetting := none, taken := false } ∧
          t.arrivals = s.arrivals ++ (if c.queue = .account then [.request p] else []) ∧
          t.code.queue = s.code.queue ++ (if c.queue = .code then [.request p] else []) ∧
          t.journalWaiting = s.journalWaiting ++ (if c.queue = .journal then [.request p] else []) ∧
          t.tamper.arrivals = s.tamper.arrivals ++ (if c.queue = .tamper then [.request p] else []) ∧
          { t.ports.get p with state := (s.ports.get p).state, request := (s.ports.get p).request } = s.ports.get p ∧
          (∀ q, q ≠ p → t.ports.get q = s.ports.get q) ∧
          { t with
            ports := s.ports, arrivals := s.arrivals, journalWaiting := s.journalWaiting
            code := { t.code with queue := s.code.queue }
            tamper := { t.tamper with arrivals := s.tamper.arrivals } } = s)))) ∧
  (∀ (code : Byte) (c : RequestCode), RequestCode.ofByte code = some c ↔
    (code, c) ∈
      [((0x01 : Byte), RequestCode.status), (0x02, .snapshot), (0x03, .readNotices), (0x04, .readJournal),
        (0x05, .releaseJournal), (0x06, .submitCode), (0x07, .readFirstRefusal), (0x08, .clearFirstRefusal),
        (0x09, .readTariff), (0x0A, .readTamper), (0x0B, .readSetting), (0x0C, .portClear), (0x10, .press),
        (0x11, .acceptEmergency), (0x20, .setClock), (0x21, .remoteOpen), (0x22, .remoteConnect),
        (0x23, .stageTariff), (0x24, .cancelTariff), (0x25, .setDebt), (0x26, .clearTamper), (0x27, .clearTrip),
        (0x28, .contactorRetry), (0x30, .writeSetting), (0x31, .closeService)]) ∧
  ∀ (c : RequestCode) (windowOpen : Bool) (p : Port) (n : Nat),
    (c.permitted windowOpen p = true ↔
      match c with
      | .press | .acceptEmergency => p = .a
      | .setClock | .remoteOpen | .remoteConnect | .stageTariff | .cancelTariff | .setDebt => p = .l
      | .clearTamper | .clearTrip | .contactorRetry => p = .l ∨ windowOpen = true
      | .writeSetting | .closeService => windowOpen = true
      | .status | .snapshot | .readNotices | .readJournal | .releaseJournal | .submitCode | .readFirstRefusal
      | .clearFirstRefusal | .readTariff | .readTamper | .readSetting | .portClear => True) ∧
    (c.lengthAccepted n = true ↔
      match c with
      | .snapshot => 1 ≤ n ∧ n ≤ 16
      | .readJournal => n = 5
      | .releaseJournal | .setClock => n = 4
      | .submitCode => n = 21
      | .readTariff | .readSetting | .clearTamper => n = 1
      | .remoteConnect => n = 2
      | .stageTariff => n = 56
      | .setDebt => n = 9
      | .writeSetting => True
      | .status | .readNotices | .readFirstRefusal | .clearFirstRefusal | .readTamper | .portClear | .press
      | .acceptEmergency | .remoteOpen | .cancelTariff | .clearTrip | .contactorRetry | .closeService => n = 0) ∧
    c.queue =
      (match c with
      | .snapshot | .acceptEmergency | .setDebt => .account
      | .submitCode | .readFirstRefusal | .clearFirstRefusal => .code
      | .readJournal | .releaseJournal => .journal
      | .readTamper | .clearTamper | .closeService => .tamper
      | .status | .readNotices | .readTariff | .readSetting | .portClear | .press | .setClock | .remoteOpen
      | .remoteConnect | .stageTariff | .cancelTariff | .clearTrip | .contactorRetry | .writeSetting => .none)

/-- R177, R178, R179, R182: a byte at the L-port in HUNTING begins a frame only if it is A5h, and a length above 56 or a
gap returns the buffer to HUNTING; a frame sent empties its slot, a response passing the port to IDLE, and the other
slot is sent next if it is full; a break, and a marked PORT_CLEAR at either port, clear the port by its state, and at
the L-port both slots. That a break clears the port at once, and a judged PORT_CLEAR by its own command, is the model's
reading (notes/assumptions/25.md). -/
def Obligations.LPortKeepsItsFrames : Prop :=
  (∀ (b : Byte) (s : State), s.isRunning = true →
    (s.ports.l.receive = [] →
      exec (.lPortByteReceived b) s =
        .next (if b = 0xA5 then s.updatePort .l (fun u => { u with receive := [b] }) else s)) ∧
    (∀ m, s.ports.l.receive = [m] →
      exec (.lPortByteReceived b) s =
        .next (s.updatePort .l (fun u => { u with receive := if 56 < b.toNat then [] else [m, b] }))) ∧
    (2 ≤ s.ports.l.receive.length → s.ports.l.receive.length + 1 < frameLength s.ports.l.receive + 5 →
      exec (.lPortByteReceived b) s =
        .next (s.updatePort .l (fun u => { u with receive := u.receive ++ [b] })))) ∧
  (∀ s : State, s.isRunning = true →
    exec .lPortGap s = .next (s.updatePort .l (fun u => { u with receive := [] })) ∧
    exec .lPortFrameSent s =
      .next
        (match s.lPort.sending with
        | none => s
        | some .response =>
          { s.updatePort .l (fun u => { u with state := .idle, response := none }) with
            txd := match s.ports.l.response with | some f => f.bytes | none => []
            lPort := { s.lPort with sending := if s.lPort.refusal = none then none else some .refusal } }
        | some .refusal =>
          { s with
            txd := match s.lPort.refusal with | some f => f.bytes | none => []
            lPort := { refusal := none, sending := if s.ports.l.response = none then none else some .response } })) ∧
  ∀ (c : Instr) (p : Port) (s : State), s.isRunning = true →
    c = .portClear p ∧ (s.ports.get p).clearing = true ∨ c = .lPortBreak ∧ p = .l →
    ∃ t, exec c s = .next t ∧
      t.ports.get p =
        (let u := { s.ports.get p with receive := [], clearing := false }
        match u.state with
        | .idle => u
        | .working => { u with discard := true }
        | .ready => { u with state := .idle, response := none }) ∧
      (∀ q, q ≠ p → t.ports.get q = s.ports.get q) ∧
      t.lPort = (if p = .l then { refusal := none, sending := none } else s.lPort) ∧
      { t with ports := s.ports, lPort := s.lPort } = s

/-- R180, R181: a request transaction returns the state byte and then 00h. Begun in IDLE, a whole frame whose CRC agrees
is tested by R175, one whose CRC disagrees is answered FRAME_CHECK, and a frame cut short or too long is discarded;
begun in WORKING or READY it is ignored unless it is an empty PORT_CLEAR. A read transaction begun in READY returns the
frame after the state byte, and empties the slot once the whole frame is clocked out; begun in IDLE or WORKING it
returns 00h and changes nothing. ARDY is asserted while the port is READY. R190: after a taken power-fail warning every
byte of every transaction is 00h, the state byte included, no frame is judged, and ARDY is deasserted. The bytes
returned are held in a field of the model's own (notes/assumptions/26.md), and a judged PORT_CLEAR is marked and acts by
its own command (notes/assumptions/25.md). -/
def Obligations.APortTransactionsAreServed : Prop :=
  (∀ (bytes : List Byte) (s : State), s.isRunning = true → bytes.head? = some 0xA5 →
    (let u : State := { s with sdo := 0x01 :: List.replicate (bytes.length - 1) 0 }
    let whole := 2 ≤ bytes.length ∧ frameLength bytes ≤ 56 ∧ frameLength bytes + 5 ≤ bytes.length
    s.ports.a.state = .idle →
      exec (.aPortRequestTransaction .idle bytes) s =
        .next
          (if ¬ whole then u
          else if crcAgrees bytes = true then u.judgeRequest .a (frameCode bytes) (framePayload bytes)
          else u.respond .a { code := frameCode bytes, status := 0x02, payload := [] })) ∧
    (let u : State := { s with sdo := 0x02 :: List.replicate (bytes.length - 1) 0 }
    let clears := 2 ≤ bytes.length ∧ frameLength bytes + 5 ≤ bytes.length ∧ crcAgrees bytes = true ∧
      frameCode bytes = 0x0C ∧ frameLength bytes = 0
    ∀ begun, begun = .working ∨ begun = .ready ∧ s.ports.a.state = .ready →
      exec (.aPortRequestTransaction begun bytes) s =
        .next (if clears then u.updatePort .a (fun v => { v with clearing := true }) else u))) ∧
  (∀ (n : Nat) (s : State) (f : Frame), s.isRunning = true → s.ports.a.state = .ready →
    s.ports.a.response = some f →
    (let u : State :=
      { s with sdo := 0x02 :: (f.bytes.take n ++ List.replicate (n - f.bytes.length) 0) }
    exec (.aPortReadTransaction .ready n) s =
      .next
        (if f.bytes.length ≤ n then u.updatePort .a (fun v => { v with state := .idle, response := none })
        else u))) ∧
  (∀ (n : Nat) (s : State), s.isRunning = true →
    (s.ardy = true ↔ s.ports.a.state = .ready) ∧
    (s.ports.a.state = .idle →
      exec (.aPortReadTransaction .idle n) s = .next { s with sdo := 0x01 :: List.replicate n 0 }) ∧
    exec (.aPortReadTransaction .working n) s = .next { s with sdo := 0x02 :: List.replicate n 0 }) ∧
  ∀ (begun : PortPhase) (bytes : List Byte) (n : Nat) (s : State), s.power = .warned ∨ s.power = .lastWrite →
    s.ardy = false ∧
    exec (.aPortRequestTransaction begun bytes) s = .next { s with sdo := List.replicate bytes.length 0 } ∧
    exec (.aPortReadTransaction begun n) s = .next { s with sdo := List.replicate (n + 1) 0 }

/-- R184, R195: STATUS is answered with the 51 bytes of R184 in its order, its stored values as the last stored write
left them and its flags as R195 gives them, and changes nothing. R186, R187, R188: READ_NOTICES is answered with the
clock and the kind and age of each notice, oldest first, and empties the set; a raise that is not masked puts the kind
in the set at the clock, in its place if it is there and last if it is not, and leaves every other notice. -/
def Obligations.StatusAndNoticesAreRead : Prop :=
  (∀ (p : Port) (s : State) (r : Request), s.isRunning = true →
    (s.requestOf p .status = some r →
      (let n := s.stored
      let a := n.account
      let flag : Bool → Nat := fun b => if b then 1 else 0
      let phase : HoldKind → Nat := fun k =>
        match n.holds.phase k with | none => 0 | some .deferred => 1 | some (.grace _) => 2 | some .firm => 3
      let contactor : Nat :=
        match n.contactor with
        | .closed => 1 | .breakWait => 2 | .opening => 3 | .opened => 4 | .armed => 5 | .closing => 6 | .welded => 7
        | .stuckOpen => 8
      let flags1 :=
        flag a.emergencyActive + 2 * flag a.exhausted + 4 * flag (a.lowCredit == .atOrBelow) + 8 * flag n.lapseMarker
          + 16 * flag s.clockUnit.windowInForce + 32 * flag n.window.isSome + 64 * flag n.pendingTariff.isSome
          + 128 * flag (n.settings.arrearsCeiling != 0 && n.settings.arrearsCeiling ≤ a.arrears)
      let flags2 :=
        flag n.pendingHalf.isSome + 2 * flag n.lockouts.a.isSome + 4 * flag n.lockouts.l.isSome
          + 8 * flag n.journal.overflow.isSome
      let summary := phase .credit + 4 * phase .remote + 16 * phase .tamper + 64 * phase .load + 256 * phase .trip
      let payload :=
        toBytes 4 s.clock ++ toBytes 1 (flag s.ret.valid) ++ toBytes 4 a.credit ++ toBytes 4 a.emergencyUsed ++
          toBytes 4 a.emergencyLimit ++ toBytes 4 a.arrears ++ toBytes 1 flags1 ++ toBytes 1 flags2 ++
          toBytes 1 (n.activeTariff.bandAt s.clock) ++ toBytes 2 summary ++ toBytes 1 contactor ++
          toBytes 4 (match n.armDeadline with | some x => x.deadline | none => 0) ++
          (match n.policy with
          | none => [0xFF, 0x00]
          | some .auto => [0x00, 0x00]
          | some .press => [0x01, 0x00]
          | some (.pressWithin m) => 0x02 :: toBytes 1 m) ++
          toBytes 4 s.pulse.lastDemand ++ toBytes 4 n.journal.newest ++ toBytes 4 n.journal.mark ++
          toBytes 2 (512 - (n.journal.newest + 2 ^ 32 - n.journal.mark) % 2 ^ 32) ++
          toBytes 4 (match n.window with | some w => w.closing | none => 0)
      exec (.status p) s = .next (s.answer p .ok payload) ∧ payload.length = 51)) ∧
    (s.requestOf p .readNotices = some r →
      exec (.readNotices p) s =
        .next
          ((s.updatePort p (fun u => { u with notices := [] })).answer p .ok
            (toBytes 4 s.clock ++
              (s.ports.get p).notices.flatMap (fun n =>
                toBytes 1 n.kind.number ++ toBytes 3 (min (s.clock - n.time) 16777215)))))) ∧
  ∀ (s : State) (k : NoticeKind) (p : Port),
    (let t := s.raiseAt k p
    let before := (s.ports.get p).notices
    let after := (t.ports.get p).notices
    if noticeMasked (s.stored.settings.masks.get p) k = true then t = s
    else
      after.map (·.kind) = before.map (·.kind) ++ (if k ∈ before.map (·.kind) then [] else [k]) ∧
        ⟨k, s.clock⟩ ∈ after ∧
        after.filter (fun n => n.kind != k) = before.filter (fun n => n.kind != k) ∧
        { t with ports := s.ports } = s ∧ ∀ q, q ≠ p → t.ports.get q = s.ports.get q)

/-- R174, R178, R186: an IDLE port holds no request and no response, a WORKING one a request alone, a READY one a
response alone; the transmitter sends a frame exactly while a slot holds one; each notice set holds a kind at most once;
each step keeps these. -/
def Obligations.PortLawsAreKept : Prop :=
  ∀ s t : State, step s = .next t →
    (s.portLaw = true → t.portLaw = true) ∧ (s.noticeLaw = true → t.noticeLaw = true)

/-! ## Chapter 10: settings, the store, power loss and start-up -/

/-- R196, R197, R198, R200: WRITE_SETTING is answered WRONG_GROUP with the window closed, RANGE for a number that names
no setting, LENGTH for a value of another size, and RANGE for a value out of range that is not clamped, in this order; a
setting of the store and power monitor is then set in one write with its SETTING_CHANGED record, or answered
JOURNAL_FULL without room, and one of the account or the tamper monitor joins its list. No other setting changes. R49,
R54: with phases in use set from 1 to 3 the lines of L2 and L3 begin ASSERTED, a reverse threshold at or below the
hour's count makes the REVERSE_FLOW input active at once, and the pulse input unit is otherwise unchanged. An append
waits for the journal (R159, notes/assumptions/18.md). READ_SETTING is answered with the value as stored in its size, or
RANGE. R196: the settings by their numbers, their sizes, and what WRITE_SETTING makes of a value out of range. -/
def Obligations.SettingsAreReadAndWritten : Prop :=
  (∀ (p : Port) (s : State) (r : Request) (n : Byte) (value : List Byte), s.isRunning = true →
    s.requestOf p .writeSetting = some r → r.payload = n :: value →
    (let x := ofBytes value
    let i := Instr.writeSetting p
    if s.nv.window = none then exec i s = .next ((s.answer p .wrongGroup []).leaveLine i)
    else
      match settingSize n.toNat with
      | none => exec i s = .next ((s.answer p .range []).leaveLine i)
      | some size =>
        if value.length ≠ size then exec i s = .next ((s.answer p .length []).leaveLine i)
        else
          match settingAccepted n.toNat x with
          | none => exec i s = .next ((s.answer p .range []).leaveLine i)
          | some v =>
            if n.toNat = 2 ∨ n.toNat = 4 then
              exec i s =
                .next (({ s.handSetting p n.toNat v with arrivals := s.arrivals ++ [.request p] } : State).leaveLine i)
            else if 13 ≤ n.toNat ∧ n.toNat ≤ 22 then
              exec i s =
                .next
                  (({ s.handSetting p n.toNat v with
                    tamper := { s.tamper with arrivals := s.tamper.arrivals ++ [.request p] } } : State).leaveLine i)
            else if s.mayBegin i .store true = false then exec i s = .next (s.waits i .store)
            else if s.nv.journal.free < 17 then exec i s = .next ((s.answer p .journalFull []).leaveLine i)
            else
              ∃ t, exec i s = .next t ∧ s.beganWrite t .store ∧
                t.nv =
                  { s.nv with
                    settings := s.nv.settings.write n.toNat v
                    journal := s.nv.journal.appendAll s.clock p.origin
                      [.settingChanged n.toNat (s.nv.settings.read n.toNat) v] } ∧
                t.nv.settings.read n.toNat = v ∧
                (∀ m, m ≠ n.toNat → t.nv.settings.read m = s.nv.settings.read m) ∧
                .answer p .ok (toBytes size v) ∈ t.newestFollow ∧
                t.pulse =
                  (if n.toNat = 1 ∧ s.nv.settings.phases = .one ∧ v = 3 then
                    { s.pulse with
                      importLines := { s.pulse.importLines with l2 := .asserted, l3 := .asserted }
                      exportLines := { s.pulse.exportLines with l2 := .asserted, l3 := .asserted } }
                  else if n.toNat = 11 then
                    { s.pulse with reverseInput := s.pulse.reverseInput || decide (v ≤ s.pulse.hourExports) }
                  else s.pulse) ∧
                { t.withStoreOf s with pulse := s.pulse } = (s.takeRequest p).leaveLine i)) ∧
  (∀ (p : Port) (s : State) (r : Request), s.isRunning = true → s.requestOf p .writeSetting = some r →
    r.payload = [] →
    exec (.writeSetting p) s =
      .next ((s.answer p (if s.nv.window = none then .wrongGroup else .range) []).leaveLine (.writeSetting p))) ∧
  (∀ (p : Port) (s : State) (r : Request), s.isRunning = true → s.requestOf p .readSetting = some r →
    (let n := field r.payload 0 1
    exec (.readSetting p) s =
      .next
        (match settingSize n with
        | some size => s.answer p .ok (toBytes size (s.stored.settings.read n))
        | none => s.answer p .range []))) ∧
  (∀ n, settingSize n =
    if n = 0 ∨ 28 < n then none
    else if n ∈ [2, 3, 4] then some 4
    else if n ∈ [5, 7, 23, 25, 26, 27, 28] then some 2
    else some 1) ∧
  (∀ n size x, settingSize n = some size → x < 256 ^ size →
    settingAccepted n x =
      (let within : Nat → Nat → Option Nat := fun low high => some (max low (min high x))
      let among : Nat → Nat → Option Nat := fun low high => if low ≤ x ∧ x ≤ high then some x else none
      match n with
      | 1 => if x = 1 ∨ x = 3 then some x else none
      | 2 => within 0 999999
      | 3 => within 0 99999
      | 4 => within 0 9999999
      | 5 => within 0 600
      | 6 | 8 | 10 => among 0 1
      | 9 => within 1 60
      | 11 | 18 | 19 | 20 | 21 | 22 => within 1 255
      | 13 | 14 | 15 | 16 | 17 | 24 => among 1 3
      | 23 => within 17 256
      | 25 => within 20 200
      | 26 => within 100 1000
      | 27 | 28 =>
        if x.testBit 0 = true ∨ x.testBit 13 = true ∨ x.testBit 14 = true ∨ x.testBit 15 = true then none else some x
      | _ => some x)) ∧
  ∀ x : Settings,
    (let cls : TamperKind → Nat := fun k => match x.classes.get k with | .record => 1 | .notify => 2 | .enforce => 3
    (List.range' 1 28).map x.read =
      [match x.phases with | .one => 1 | .three => 3, x.lowCreditThreshold, x.availabilityThreshold, x.arrearsCeiling,
        x.graceTime, match x.creditPolicy with | .auto => 0 | .press => 1, x.demandLimit,
        match x.demandMode with | .always => 0 | .emergencyOnly => 1, x.loadRestoreDelay,
        match x.reversePolicy with | .add => 0 | .ignore => 1, x.reverseThreshold, x.fallback, cls .mainCover,
        cls .terminalCover, cls .magnetic, cls .reverseFlow, cls .loadSideVoltage, x.debounces.get .mainCover,
        x.debounces.get .terminalCover, x.debounces.get .magnetic, x.debounces.get .reverseFlow,
        x.debounces.get .loadSideVoltage, x.journalLow,
        match x.release with | .aPort => 1 | .lPort => 2 | .either => 3, x.pulseTime, x.settleTime, x.masks.a.toNat,
        x.masks.l.toNat])

/-- R2, R33, R176: while the part runs, WRITE_STORED stores the oldest write on its way: the store then holds its image,
a write of SET_CLOCK puts the new clock in force, valid (notes/assumptions/9.md), the mark of the retention domain that
a write of start-up clears is cleared (notes/assumptions/35.md), what the blocks hold stays, and what follows the write
is performed, one after another in its order. Each follow-up: an answer fills the response slot of a port in WORKING, or
is thrown away under the discard mark (R176); a notice is raised on both ports (R186); the end of a quantum offers the
next (R51); the end of a day close hands the days found owed meanwhile (R47); "arrears ceiling reached" is handed to the
supply controller (R20); the code's service ends; the window state is re-evaluated, with its edge (R39, R45); and a
clock set re-evaluates the window, ends the pulse input unit's minute and hour without a judgement where the set leaves
them and makes both short (R55, R56), keeping the marks of their ends (notes/assumptions/13.md), hands a clock-set event
to each of the three blocks, lets the code unit's reached deadlines join its queue, and hands the days owed if the clock
was valid (R32, R33). With no write on its way nothing happens (notes/assumptions/3.md). What the blocks hold is what
the newest write holds: each step keeps it. The list of writes on their way is the model's (notes/assumptions/4.md). -/
def Obligations.StoredWriteIsFollowed : Prop :=
  ((∀ (s : State) (w : Write) (rest : List Write), s.isRunning = true → s.writes = w :: rest →
    ∃ t, exec .writeStored s = .next t ∧
      t = w.follow.foldl State.perform
        { s with
          writes := rest, stored := w.image
          ret :=
            { s.ret with
              clock := w.setsClock.getD s.ret.clock, valid := w.setsClock.isSome || s.ret.valid
              latch := s.ret.latch && w.clears != some .latch
              resetMark := s.ret.resetMark && w.clears != some .reset } } ∧
      t.stored = w.image ∧ t.nv = s.nv ∧ t.writes = rest ∧
      t.clock = (match w.setsClock with | some new => new | none => s.clock) ∧
      ∀ k p, .notice k ∈ w.follow → noticeMasked (w.image.settings.masks.get p) k = false →
        ∃ n ∈ (t.ports.get p).notices, n.kind = k) ∧
  (∀ s : State, s.isRunning = true → s.writes = [] → exec .writeStored s = .next s) ∧
  ∀ s t : State, s.storeAgrees = true → step s = .next t → t.storeAgrees = true) ∧
  ∀ s : State,
    (∀ (p : Port) (status : Status) (payload : List Byte),
      s.perform (.answer p status payload) =
        (match (s.ports.get p).state, (s.ports.get p).request with
        | .working, some r =>
          if (s.ports.get p).discard = true then
            s.updatePort p (fun u => { u with state := .idle, request := none, discard := false })
          else
            (let filled := s.updatePort p (fun u =>
              { u with
                state := .ready, request := none
                response := some { code := r.code.byte, status := status.byte, payload := payload } })
            if p = .l ∧ s.lPort.sending = none then { filled with lPort := { s.lPort with sending := some .response } }
            else filled)
        | _, _ => s)) ∧
    (∀ k, s.perform (.notice k) = (s.raiseAt k .a).raiseAt k .l) ∧
    s.perform .quantumTaken =
      (if 0 < s.pulse.waiting then
        { s with
          pulse := { s.pulse with waiting := s.pulse.waiting - 1, outstanding := true }
          arrivals := s.arrivals ++ [.quantum] }
      else { s with pulse := { s.pulse with outstanding := false } }) ∧
    s.perform .dayCloseTaken =
      { s with
        clockUnit :=
          { s.clockUnit with
            dayClose := s.clockUnit.laterDayClose, dayCloseTaking := false, laterDayClose := none }
        arrivals := s.arrivals ++ (if s.clockUnit.laterDayClose = none then [] else [.dayClose]) } ∧
    s.perform .ceilingReached = { s with supply := { s.supply with ceilingHanded := true } } ∧
    s.perform .codeServed = { s with code := { s.code with service := none } } ∧
    (let now := s.nv.activeTariff.friendlyAt s.clock
    let edge : List WindowEdge :=
      if now = s.clockUnit.windowInForce then [] else [if now then .start else .stop]
    s.perform .windowReevaluated =
      { s with
        clockUnit := { s.clockUnit with windowInForce := now }
        supply := { s.supply with edges := s.supply.edges ++ edge } } ∧
    ∀ (old new : Nat) (wasValid : Bool),
      (let t := s.perform (.clockMoved old new wasValid)
      let minute := old / 60 = new / 60
      let hour := old / 3600 = new / 3600
      let handed : Option DayCloseEvent → Nat := fun d => match d with | some e => e.last | none => 0
      let closed := max s.nv.lastChargedDay (max (handed s.clockUnit.dayClose) (handed s.clockUnit.laterDayClose))
      let owed := s.clock / 86400 - (closed + 1)
      let more : Option DayCloseEvent → DayCloseEvent := fun d =>
        match d with
        | none => { days := min 31 owed, last := s.clock / 86400 - 1, passedOver := 0 }
        | some e => { days := min 31 (e.days + owed), last := s.clock / 86400 - 1, passedOver := e.passedOver }
      let hands := wasValid = true ∧ s.ret.valid = true ∧ owed ≠ 0
      let taking := s.clockUnit.dayCloseTaking = true
      t.clockUnit =
        { s.clockUnit with
          windowInForce := now
          dayClose := if hands ∧ ¬ taking then some (more s.clockUnit.dayClose) else s.clockUnit.dayClose
          laterDayClose := if hands ∧ taking then some (more s.clockUnit.laterDayClose) else s.clockUnit.laterDayClose } ∧
      t.arrivals =
        s.arrivals ++ (if hands ∧ ¬ taking ∧ s.clockUnit.dayClose = none then [.dayClose] else []) ∧
      t.pulse =
        { s.pulse with
          minuteImports := if minute then s.pulse.minuteImports else 0
          minuteExports := if minute then s.pulse.minuteExports else 0
          minuteFull := false
          hourExports := if hour then s.pulse.hourExports else 0
          hourFull := false } ∧
      t.supply = { s.supply with edges := s.supply.edges ++ edge, clockSetHanded := true } ∧
      t.tamper.arrivals =
        s.tamper.arrivals ++ (if .clockSet ∈ s.tamper.arrivals then [] else [.clockSet]) ∧
      .clockSet ∈ t.code.queue ∧ (∀ i ∈ s.code.queue, i ≠ .halfLapse false → i ∈ t.code.queue) ∧
      (∀ h, s.nv.pendingHalf = some h → h.deadline ≤ s.clock → .halfLapse true ∈ t.code.queue) ∧
      (∀ p l, s.nv.lockouts.get p = some l → l.deadline ≤ s.clock → .lockoutExpiry p ∈ t.code.queue) ∧
      { t with
        clockUnit := s.clockUnit, arrivals := s.arrivals, pulse := s.pulse, supply := s.supply
        code := { t.code with queue := s.code.queue }
        tamper := { t.tamper with arrivals := s.tamper.arrivals } } = s))

/-- R201, R95, R135, R172: a power-fail warning, while the part runs or starts up, abandons the drive, the code unit's
work, the code that waits at an owner and the journal's waiting requests, and leaves the writes that had begun; each of
these is then stored, with its notices alone, and after the last of them the last write, the stored clock at the clock
as it then stands and the warned mark, is begun; once it is stored the part is in RETAIN. A supply that falls before any
of these is stored is a fall of VDD after the warning. R2, R154, R203: a reset or a brown-out of a supplied part leaves
of the writes on their way the first so many, whole, and none of the rest, with the clock that a surviving SET_CLOCK had
put in force and the mark that a surviving write of start-up clears (notes/assumptions/35.md); it ends with every
volatile state gone, the retention domain kept, its watched level from MAIN_COVER's, and the reset mark set by RST_N.
R190: the attention lines keep their level until then. R202: without supply only the clock (O13), the outage cover
watch, the reset mark, the loss of the retention domain and start-up have an effect. That the survivors are the first
ones, that the stops and the warning act so on start-up and after a warning, and that a lost domain holds zeros, are the
model's choices (notes/assumptions/5.md, 11.md, 23.md, 24.md). -/
def Obligations.StopsKeepTheStoreAndTheDomain : Prop :=
  (let last : State → State := fun u =>
    { u with
      power := .lastWrite, nv := { u.stored with storedClock := u.clock, warnedMark := true }
      writes :=
        [{ owner := .store, image := { u.stored with storedClock := u.clock, warnedMark := true }, appends := false
           setsClock := none, follow := [] }] }
  let put : Retention → Write → Retention := fun r w =>
    { r with
      clock := w.setsClock.getD r.clock, valid := w.setsClock.isSome || r.valid
      latch := r.latch && w.clears != some .latch, resetMark := r.resetMark && w.clears != some .reset }
  let gone : State → Power → Nv → Retention → Nat → State := fun s power stored ret choices =>
    { State.delivered with
      pending := s.pending, power := power, stored := stored, nv := stored, choices := choices
      ret := { ret with coverOpen := s.tamper.levels.mainCover } }
  (∀ s : State, (s.isRunning = true ∨ ∃ q, s.power = .starting q) →
    (let u : State :=
      { s with
        power := .warned, driver := { s.driver with drive := none, voltageInput := false }
        code := { queue := [], service := none }, journalWaiting := []
        arrivals := s.arrivals.filter (fun e => e != .code)
        tamper := { s.tamper with arrivals := s.tamper.arrivals.filter (fun e => e != .code) } }
    exec (.powerFailWarning true) s = .next (if s.writes = [] then last u else u) ∧
    exec (.powerFailWarning false) s = exec .brownOut (if s.writes = [] then last u else u))) ∧
  (∀ (s : State) (w : Write) (rest : List Write), s.power = .warned → s.writes = w :: rest →
    ∃ u, exec .writeStored s = .next (if rest = [] then last u else u) ∧ u.writes = rest ∧ u.stored = w.image ∧
      u.ret = put s.ret w ∧ { u with writes := s.writes, stored := s.stored, ret := s.ret, ports := s.ports } = s ∧
      ∀ p, { u.ports.get p with notices := (s.ports.get p).notices } = s.ports.get p ∧
        (∀ n ∈ (s.ports.get p).notices, n.kind ∈ (u.ports.get p).notices.map (·.kind)) ∧
        ∀ k, .notice k ∈ w.follow → noticeMasked (w.image.settings.masks.get p) k = false →
          k ∈ (u.ports.get p).notices.map (·.kind)) ∧
  (∀ (s : State) (w : Write) (rest : List Write), s.power = .lastWrite → s.writes = w :: rest →
    exec .writeStored s = .next (gone s .retain w.image (put s.ret w) s.choices)) ∧
  ∀ (c : Instr) (s : State) (power : Power), s.isSupplied = true →
    (c = .externalReset ∧ power = .reset ∨
      c = .brownOut ∧ power = if s.power = .warned ∨ s.power = .lastWrite then .retain else .brownOut) →
    ∃ survive lost choices, s.writes = survive ++ lost ∧
      exec c s =
        .next
          (let kept := survive.foldl put s.ret
          gone s power ((survive.getLast?.map (·.image)).getD s.stored)
            { kept with resetMark := kept.resetMark || (c == .externalReset && s.ret.intact) } choices)) ∧
  (∀ (s : State) (p : Port), s.attention p = true ↔ s.isSupplied = true ∧ (s.ports.get p).notices ≠ []) ∧
  (∀ (c : Instr) (s : State), s.power = .warned ∨ s.power = .lastWrite →
    c ≠ .writeStored → c ≠ .clockAdvance → c ≠ .externalReset → c ≠ .brownOut →
    (∀ b x, c ≠ .aPortRequestTransaction b x) → (∀ b n, c ≠ .aPortReadTransaction b n) → exec c s = .next s) ∧
  ∀ s : State, s.isSupplied = false →
    exec .externalReset s = .next { s with ret := { s.ret with resetMark := s.ret.resetMark || s.ret.intact } } ∧
    exec .retentionDomainLoss s =
      .next
        { s with
          ret :=
            { intact := false, clock := 0, valid := false, latch := false, coverOpen := false, resetMark := false } } ∧
    (∀ isOpen, exec (.outageCoverWatch isOpen) s =
      .next
        (if s.ret.intact = true then
          { s with
            ret :=
              { s.ret with
                coverOpen := isOpen
                latch := s.ret.latch || (isOpen && !s.ret.coverOpen) } }
        else s)) ∧
    ∀ c : Instr, c ≠ .externalReset → c ≠ .retentionDomainLoss → c ≠ .clockAdvance →
      (∀ b, c ≠ .outageCoverWatch b) → (∀ h x v, c ≠ .startUp h x v) → exec c s = .next s

/-- R30, R204: START_UP of a part without supply begins volatile state afresh from the store and the retention domain:
both ports IDLE with a notice set of POWER_UP alone at the clock, the clock kept in an intact domain and taken from the
stored clock, invalid, in a lost one, LOADHI and LOADX as sampled, the button PRESSED, THERM INACTIVE and each debounced
level ACTIVE where its kind is. R205, R207: the steps of the sequence are then taken in their order; one that makes a
write waits for its storing, by WRITE_STORED, before the next, and one that makes none passes to the next at once. When
none is left the part runs, every write stored, the warned mark, the reset mark and the outage cover latch cleared, the
service window closed, and the settings, the key, the spent list, the failures and the first refusal as stored. The
sequence keeps the clock as R204 leaves it, and the sense lines at its contactor check, which the command names. On a
supplied part START_UP has no effect. That WRITE_STORED carries the sequence on, and the order of the steps within 11
and 13, are the model's choices (notes/assumptions/3.md, 22.md), as are the window state's value before step 13
(notes/assumptions/15.md) and the clearing of the two marks with their steps' writes (notes/assumptions/35.md). -/
def Obligations.StartUpSettlesTheStore : Prop :=
  (∀ (loadhi loadx : Bool) (sense : Sense) (s : State), s.isSupplied = false →
    (let clock := if s.ret.intact then s.ret.clock else s.stored.storedClock
    let valid := s.ret.intact && s.ret.valid
    let coverOpen := s.ret.intact && s.ret.coverOpen
    let active : TamperKind → Bool := fun k => (s.stored.tampers.get k).state == .active
    let port : PortUnit := { PortUnit.fresh with notices := [⟨.powerUp, clock⟩] }
    ∃ (inForce : Bool) (choices : Nat),
      let q : StartSequence := { steps := startSteps, intact := s.ret.intact, clock := clock, sense := sense }
      let u : State :=
        { State.delivered with
          pending := s.pending, nv := s.stored, stored := s.stored, choices := choices, power := .starting q
          ret :=
            { intact := true, clock := clock, valid := valid, latch := s.ret.intact && s.ret.latch
              coverOpen := coverOpen, resetMark := s.ret.intact && s.ret.resetMark }
          clockUnit := { ClockUnit.fresh with windowInForce := inForce }
          supply := { SupplyUnit.fresh with loadhi := loadhi, loadx := loadx }
          tamper :=
            { levels :=
                ⟨active .mainCover, active .terminalCover, active .magnetic, active .reverseFlow,
                  active .loadSideVoltage⟩
              arrivals := [] }
          ports := ⟨port, port⟩ }
      exec (.startUp loadhi loadx sense) s = .next (u.runStartUp q startSteps) ∧
      (let stored : State → State := fun x => match exec .writeStored x with | .next y => y | _ => x
      ∃ n, n ≤ 18 ∧
        (let t := stored^[n] (u.runStartUp q startSteps)
        t.isRunning = true ∧
        t.pending = s.pending ∧ t.writes = [] ∧ t.nv = t.stored ∧
        t.ret =
          { intact := true, clock := clock, valid := valid, latch := false, coverOpen := coverOpen
            resetMark := false } ∧
        t.nv.warnedMark = false ∧ t.nv.window = none ∧ t.nv.settings = s.stored.settings ∧
        t.nv.key = s.stored.key ∧ t.nv.spent = s.stored.spent ∧ t.nv.failures = s.stored.failures ∧
        t.nv.lockoutSteps = s.stored.lockoutSteps ∧ t.nv.firstRefusal = s.stored.firstRefusal ∧
        t.clockUnit.windowInForce = t.nv.activeTariff.friendlyAt clock ∧
        t.supply = { SupplyUnit.fresh with loadhi := loadhi, loadx := loadx } ∧ t.code.service = none ∧
        ∀ p, { t.ports.get p with notices := [] } = PortUnit.fresh ∧
          (t.ports.get p).notices.head? = some ⟨.powerUp, clock⟩)))) ∧
  (∀ (loadhi loadx : Bool) (sense : Sense) (s : State), s.isSupplied = true →
    exec (.startUp loadhi loadx sense) s = .next s) ∧
  (∀ (s : State) (q : StartSequence),
    (s.runStartUp q []).isRunning = true ∧
    { s.runStartUp q [] with power := s.power, code := s.code } = s ∧
    ∀ (step : StartStep) (rest : List StartStep),
      s.runStartUp q (step :: rest) =
        (let t := s.startStep q step
        if t.writes = [] then t.runStartUp q rest else { t with power := .starting { q with steps := rest } })) ∧
  ∀ (s : State) (q : StartSequence) (w : Write) (rest : List Write), s.power = .starting q → s.writes = w :: rest →
    exec .writeStored s =
      .next
        (let t := w.follow.foldl State.perform
          { s with
            writes := rest, stored := w.image
            ret :=
              { s.ret with
                clock := w.setsClock.getD s.ret.clock, valid := w.setsClock.isSome || s.ret.valid
                latch := s.ret.latch && w.clears != some .latch
                resetMark := s.ret.resetMark && w.clears != some .reset } }
        if rest = [] then t.runStartUp q q.steps else t)

/-- R203, R205: what each step of start-up takes, from a state with no write on its way, judged against the clock as
R204 leaves it, so that what the clock crosses meanwhile is left to the end of the sequence (R207,
notes/assumptions/22.md). 1: the OUTAGE record of the cause, the domain, the duration and the days that step 4 will pass
over, and the marks cleared. 2, 3: an open window closes with START_UP (R151), and the outage step (R155). 4 to 9 and
13: the owed days as one day close, passed arm and restore deadlines, the window edge and "arrears ceiling reached" are
what their commands do while the part runs (R16, R46, R105, R110, R111, R119, R45, R20); a passed grace deadline, and a
hold still in GRACE with LOADHI deasserted, becomes FIRM (R109, R122); a passed half lapses and passed lockouts end
(R86, R93). 10: a set that is due is activated, with the clock valid (R39). 11: deadlines ahead are limited (R87, R112).
14: the open for BREAK_WAIT with LOADX deasserted (R115). 15: the contactor check, on the sense lines that START_UP
names for it (R136). A step with nothing to do changes nothing. The records' order where the spec gives none, the order
within 11 and 13, and the two marks cleared with their steps' writes, are the model's (notes/assumptions/16.md, 22.md,
35.md). -/
def Obligations.StartUpStepsAreTaken : Prop :=
  ∀ (s : State) (q : StartSequence), s.power = .starting q → s.writes = [] → s.journalWaiting = [] → s.arrivals = [] →
    s.clockUnit = { ClockUnit.fresh with windowInForce := s.clockUnit.windowInForce } → s.supply.edges = [] →
    s.supply.ceilingHanded = false →
    (let runs : State → State := fun x => { x with power := .running }
    let today := q.clock / 86400
    let owed := if s.ret.valid then today - (s.nv.lastChargedDay + 1) else 0
    (let t := s.startStep q .outageRecord
    let cause : StartCause :=
      if s.nv.warnedMark then .outage
      else if q.intact = true ∧ s.ret.resetMark = true then .externalReset else .brownOut
    t = s.withWrite { s.nv with warnedMark := false } .store .device
      [.outage cause q.intact
        (if s.nv.warnedMark = true ∧ q.intact = true then some (s.clock - s.nv.storedClock) else none) (owed - 31)]
      [] none (some .reset)) ∧
    (let t := s.startStep q .windowClose
    if s.nv.window = none then t = s
    else
      ∃ records, s.beganWrite t .tamper ∧ s.tamperFollows t records ∧
        (let opened := s.nv.tamperCondition = false ∧ t.nv.tamperCondition = true
        t.nv.journal =
          s.nv.journal.appendAll s.clock .device
            (records ++
              [.serviceEnd .startUp s.nv.tampers.terminalCover.state s.tamper.levels.terminalCover opened]) ∧
        (.notice .tamper ∈ t.newestFollow ↔ opened)) ∧
        t.nv.window = none ∧ t.withStoreOf s = s ∧ { t.nv.withSupplyOf s.nv with window := s.nv.window } = s.nv) ∧
    (let t := s.startStep q .coverStep
    if q.intact = false ∨ s.ret.latch = false then t = s
    else
      ∃ records, s.beganWrite t .tamper ∧ t.writes.map (·.clears) = [some .latch] ∧ s.tamperFollows t records ∧
        (let entered : TamperState := if s.ret.coverOpen then .active else .latched
        let count := min 65535 (s.nv.tampers.mainCover.count + 1)
        let cls := s.nv.settings.classes.mainCover
        t.nv.tampers.mainCover = { state := entered, count := count, detected := some s.clock } ∧
        t.nv.journal =
          s.nv.journal.appendAll s.clock .device (.tamperDetected .mainCover count cls (some entered) :: records) ∧
        (.notice .tamper ∈ t.newestFollow ↔
          cls ≠ .record ∨ s.nv.tamperCondition = false ∧ t.nv.tamperCondition = true)) ∧
        t.withStoreOf s =
          { s with
            tamper := { s.tamper with levels := { s.tamper.levels with mainCover := s.ret.coverOpen } } } ∧
        { t.nv.withSupplyOf s.nv with
          tampers := { t.nv.tampers with mainCover := s.nv.tampers.mainCover } } = s.nv) ∧
    (let t := s.startStep q .owedDays
    if owed = 0 then t = s
    else
      exec .dayClose
          { runs s with
            arrivals := [.dayClose]
            clockUnit :=
              { s.clockUnit with
                dayClose := some { days := min 31 owed, last := today - 1, passedOver := 0 } } } = .next (runs t) ∧
        t.power = s.power) ∧
    (let firm : (HoldKind → Bool) → State → FirmCause → Prop := fun ends t cause =>
      let move : HoldKind → HoldList → HoldList := fun k h => if ends k then h.rephase k .firm else h
      let record : HoldKind → List RecordBody := fun k => if ends k then [.holdFirm k .grace cause] else []
      if ends .credit || ends .remote then
        s.firmed t (move .remote (move .credit s.nv.holds)) ∧ s.beganWrite t .supply ∧
          t.nv.journal = s.nv.journal.appendAll s.clock .device (record .credit ++ record .remote) ∧
          t.withStoreOf s = s ∧ t.nv.withSupplyOf s.nv = s.nv
      else t = s
    firm (fun k => match s.nv.holds.phase k with | some (.grace d) => d ≤ q.clock | _ => false)
        (s.startStep q .graceDeadlines) .graceDeadline ∧
      firm (fun k => match s.nv.holds.phase k with | some (.grace _) => !s.supply.loadhi | _ => false)
        (s.startStep q .graceLevels) .startUp) ∧
    (let passed : Option Nat → StartStep → Instr → Prop := fun deadline step command =>
      let t := s.startStep q step
      match deadline with
      | none => t = s
      | some d =>
        if q.clock < d then t = s
        else d ≤ s.clock → exec command (runs s) = .next (runs t) ∧ t.power = s.power
    passed (s.nv.armDeadline.map (·.deadline)) .armDeadline .armDeadline ∧
      passed s.nv.holds.load .restoreTime .restoreTime) ∧
    s.startStep q .halfLapse =
      (match s.nv.pendingHalf with
      | some h =>
        if h.deadline ≤ q.clock then
          s.withWrite { s.nv with pendingHalf := none } .code .device [.keyHalfLapsed h.kind h.issue] [] none
        else s
      | none => s) ∧
    (let expired : Port → State := fun p =>
      match s.nv.lockouts.get p with
      | some l =>
        if l.deadline ≤ q.clock then
          s.withWrite { s.nv with lockouts := s.nv.lockouts.set p none } .code .device [.lockoutEnded p] [] none
        else s
      | none => s
    s.startStep q .lockoutA = expired .a ∧ s.startStep q .lockoutL = expired .l) ∧
    s.startStep q .activation =
      (match s.nv.pendingTariff with
      | some t =>
        if s.ret.valid = true ∧ t.time ≤ q.clock then
          s.withWrite { s.nv with activeTariff := t, pendingTariff := none } .clockTariff .device
            [.tariffActivated t.time] [.notice .tariffChanged] none
        else s
      | none => s) ∧
    (let limited : Option Lockout → Option Lockout := fun l =>
      l.map (fun x => { x with deadline := min x.deadline (q.clock + 60 * x.minutes) })
    let n : Nv :=
      { s.nv with
        lockouts := ⟨limited s.nv.lockouts.a, limited s.nv.lockouts.l⟩
        pendingHalf := s.nv.pendingHalf.map (fun h => { h with deadline := min h.deadline (q.clock + 1800) }) }
    s.startStep q .codeLimits = if n = s.nv then s else s.withWrite n .code .device [] [] none) ∧
    (let limit : HoldPhase → HoldPhase := fun p =>
      match p with
      | .grace d => .grace (min d (q.clock + s.nv.settings.graceTime))
      | p => p
    let n : Nv :=
      { s.nv with
        holds :=
          { s.nv.holds with
            credit := s.nv.holds.credit.map limit
            remote := s.nv.holds.remote.map (fun r => { r with phase := limit r.phase })
            load := s.nv.holds.load.map (fun d => min d (q.clock + 60 * s.nv.settings.loadRestoreDelay)) }
        armDeadline :=
          s.nv.armDeadline.map (fun a => { a with deadline := min a.deadline (q.clock + 60 * a.minutes) }) }
    s.startStep q .supplyLimits = if n = s.nv then s else s.withWrite n .supply .device [] [] none) ∧
    (let now := s.nv.activeTariff.friendlyAt q.clock
    let t := s.startStep q .windowEdge
    t.power = s.power ∧
    exec .friendlyWindowEdge
        { runs s with
          clockUnit := { s.clockUnit with windowInForce := now }
          supply := { s.supply with edges := [if now then .start else .stop] } } = .next (runs t)) ∧
    (let t := s.startStep q .ceiling
    t.power = s.power ∧
    exec .arrearsCeilingReached { runs s with supply := { s.supply with ceilingHanded := s.nv.ceilingHolds } } =
      .next (runs t)) ∧
    (let t := s.startStep q .breakWait
    if s.nv.contactor = .breakWait ∧ s.supply.loadx = false then
      s.commanded t .opening .device ∧ s.beganWrite t .supply ∧
        t.nv = { s.nv with contactor := .opening, driveTarget := .opened } ∧ t.withStoreOf s = s
    else t = s) ∧
    (let t := s.startStep q .contactorCheck
    let shown := q.sense.shown s.nv.settings.phases
    let begins : Option Position :=
      match s.nv.contactor with
      | .opening | .closing => if s.driver.drive = none then some s.nv.driveTarget else none
      | .closed => if shown.contains false then some .closed else none
      | .breakWait => if shown.contains false then some .opened else none
      | .opened | .armed => if shown.contains true then some .opened else none
      | .welded | .stuckOpen => none
    match begins with
    | none => t = s
    | some d =>
      s.beganWrite t .driver ∧ t.newestFollow = [] ∧
        t.nv =
          { s.nv with
            contactor := match d with | .opened => .opening | .closed => .closing
            driveTarget := d, armDeadline := none } ∧
        t.driver = { s.driver with drive := some (newDrive s.nv d .startUp .device), voltageInput := false } ∧
        t.withStoreOf s = s))

/-- The state right after reset is that of a new part after its first start-up (R1, R19, R24, R98, R99, R101, R123,
R157, R185, R190): it meets every law that a step keeps. That reset means this state is the model's choice
(notes/assumptions/2.md). -/
def Obligations.ResetMeetsTheLaws : Prop :=
  State.reset.everyImage Nv.balanced = true ∧ State.reset.everyImage Nv.emergencyLaw = true ∧
  State.reset.everyImage Nv.supplyLaw = true ∧ State.reset.everyImage Nv.creditLaw = true ∧
  State.reset.everyImage Nv.tamperLaw = true ∧ State.reset.everyImage Nv.lapseLaw = true ∧
  State.reset.everyImage Nv.targetLaw = true ∧ State.reset.driveLaw = true ∧ State.reset.armLaw = true ∧
  State.reset.everyImage Nv.spentLaw = true ∧ State.reset.serviceLaw = true ∧
  State.reset.everyImage Nv.journalLaw = true ∧ State.reset.portLaw = true ∧ State.reset.noticeLaw = true ∧
  State.reset.storeAgrees = true ∧ State.reset.writesLaw = true ∧ State.reset.pulse.inRange = true ∧ State.reset.clockLaw = true
end

