-- ==== Sys2Proof/Laws/State.lean ====
section
/-! SUPPORT. What each named update of the state, of the stored state and of an event leaves in each field: one lemma
per field and update, so that no later proof unfolds an update. -/

namespace Sys2Proof.Machine

section
variable (s : State)


@[simp] theorem State.countChoice_pending : s.countChoice.pending = s.pending := rfl
@[simp] theorem State.countChoice_power : s.countChoice.power = s.power := rfl
@[simp] theorem State.countChoice_ret : s.countChoice.ret = s.ret := rfl
@[simp] theorem State.countChoice_stored : s.countChoice.stored = s.stored := rfl
@[simp] theorem State.countChoice_nv : s.countChoice.nv = s.nv := rfl
@[simp] theorem State.countChoice_writes : s.countChoice.writes = s.writes := rfl
@[simp] theorem State.countChoice_pulse : s.countChoice.pulse = s.pulse := rfl
@[simp] theorem State.countChoice_clockUnit : s.countChoice.clockUnit = s.clockUnit := rfl
@[simp] theorem State.countChoice_arrivals : s.countChoice.arrivals = s.arrivals := rfl
@[simp] theorem State.countChoice_code : s.countChoice.code = s.code := rfl
@[simp] theorem State.countChoice_supply : s.countChoice.supply = s.supply := rfl
@[simp] theorem State.countChoice_driver : s.countChoice.driver = s.driver := rfl
@[simp] theorem State.countChoice_tamper : s.countChoice.tamper = s.tamper := rfl
@[simp] theorem State.countChoice_journalWaiting : s.countChoice.journalWaiting = s.journalWaiting := rfl
@[simp] theorem State.countChoice_ports : s.countChoice.ports = s.ports := rfl
@[simp] theorem State.countChoice_lPort : s.countChoice.lPort = s.lPort := rfl
@[simp] theorem State.countChoice_sdo : s.countChoice.sdo = s.sdo := rfl
@[simp] theorem State.countChoice_txd : s.countChoice.txd = s.txd := rfl
@[simp] theorem State.countChoice_choices : s.countChoice.choices = s.choices + 1 := rfl

@[simp] theorem State.updatePort_pending (p : Port) (f : PortUnit → PortUnit) : (s.updatePort p f).pending = s.pending := rfl
@[simp] theorem State.updatePort_power (p : Port) (f : PortUnit → PortUnit) : (s.updatePort p f).power = s.power := rfl
@[simp] theorem State.updatePort_ret (p : Port) (f : PortUnit → PortUnit) : (s.updatePort p f).ret = s.ret := rfl
@[simp] theorem State.updatePort_stored (p : Port) (f : PortUnit → PortUnit) : (s.updatePort p f).stored = s.stored := rfl
@[simp] theorem State.updatePort_nv (p : Port) (f : PortUnit → PortUnit) : (s.updatePort p f).nv = s.nv := rfl
@[simp] theorem State.updatePort_writes (p : Port) (f : PortUnit → PortUnit) : (s.updatePort p f).writes = s.writes := rfl
@[simp] theorem State.updatePort_pulse (p : Port) (f : PortUnit → PortUnit) : (s.updatePort p f).pulse = s.pulse := rfl
@[simp] theorem State.updatePort_clockUnit (p : Port) (f : PortUnit → PortUnit) : (s.updatePort p f).clockUnit = s.clockUnit := rfl
@[simp] theorem State.updatePort_arrivals (p : Port) (f : PortUnit → PortUnit) : (s.updatePort p f).arrivals = s.arrivals := rfl
@[simp] theorem State.updatePort_code (p : Port) (f : PortUnit → PortUnit) : (s.updatePort p f).code = s.code := rfl
@[simp] theorem State.updatePort_supply (p : Port) (f : PortUnit → PortUnit) : (s.updatePort p f).supply = s.supply := rfl
@[simp] theorem State.updatePort_driver (p : Port) (f : PortUnit → PortUnit) : (s.updatePort p f).driver = s.driver := rfl
@[simp] theorem State.updatePort_tamper (p : Port) (f : PortUnit → PortUnit) : (s.updatePort p f).tamper = s.tamper := rfl
@[simp] theorem State.updatePort_journalWaiting (p : Port) (f : PortUnit → PortUnit) : (s.updatePort p f).journalWaiting = s.journalWaiting := rfl
@[simp] theorem State.updatePort_ports (p : Port) (f : PortUnit → PortUnit) : (s.updatePort p f).ports = s.ports.set p (f (s.ports.get p)) := rfl
@[simp] theorem State.updatePort_lPort (p : Port) (f : PortUnit → PortUnit) : (s.updatePort p f).lPort = s.lPort := rfl
@[simp] theorem State.updatePort_sdo (p : Port) (f : PortUnit → PortUnit) : (s.updatePort p f).sdo = s.sdo := rfl
@[simp] theorem State.updatePort_txd (p : Port) (f : PortUnit → PortUnit) : (s.updatePort p f).txd = s.txd := rfl
@[simp] theorem State.updatePort_choices (p : Port) (f : PortUnit → PortUnit) : (s.updatePort p f).choices = s.choices := rfl

@[simp] theorem State.updatePulse_pending (f : PulseUnit → PulseUnit) : (s.updatePulse f).pending = s.pending := rfl
@[simp] theorem State.updatePulse_power (f : PulseUnit → PulseUnit) : (s.updatePulse f).power = s.power := rfl
@[simp] theorem State.updatePulse_ret (f : PulseUnit → PulseUnit) : (s.updatePulse f).ret = s.ret := rfl
@[simp] theorem State.updatePulse_stored (f : PulseUnit → PulseUnit) : (s.updatePulse f).stored = s.stored := rfl
@[simp] theorem State.updatePulse_nv (f : PulseUnit → PulseUnit) : (s.updatePulse f).nv = s.nv := rfl
@[simp] theorem State.updatePulse_writes (f : PulseUnit → PulseUnit) : (s.updatePulse f).writes = s.writes := rfl
@[simp] theorem State.updatePulse_pulse (f : PulseUnit → PulseUnit) : (s.updatePulse f).pulse = f s.pulse := rfl
@[simp] theorem State.updatePulse_clockUnit (f : PulseUnit → PulseUnit) : (s.updatePulse f).clockUnit = s.clockUnit := rfl
@[simp] theorem State.updatePulse_arrivals (f : PulseUnit → PulseUnit) : (s.updatePulse f).arrivals = s.arrivals := rfl
@[simp] theorem State.updatePulse_code (f : PulseUnit → PulseUnit) : (s.updatePulse f).code = s.code := rfl
@[simp] theorem State.updatePulse_supply (f : PulseUnit → PulseUnit) : (s.updatePulse f).supply = s.supply := rfl
@[simp] theorem State.updatePulse_driver (f : PulseUnit → PulseUnit) : (s.updatePulse f).driver = s.driver := rfl
@[simp] theorem State.updatePulse_tamper (f : PulseUnit → PulseUnit) : (s.updatePulse f).tamper = s.tamper := rfl
@[simp] theorem State.updatePulse_journalWaiting (f : PulseUnit → PulseUnit) : (s.updatePulse f).journalWaiting = s.journalWaiting := rfl
@[simp] theorem State.updatePulse_ports (f : PulseUnit → PulseUnit) : (s.updatePulse f).ports = s.ports := rfl
@[simp] theorem State.updatePulse_lPort (f : PulseUnit → PulseUnit) : (s.updatePulse f).lPort = s.lPort := rfl
@[simp] theorem State.updatePulse_sdo (f : PulseUnit → PulseUnit) : (s.updatePulse f).sdo = s.sdo := rfl
@[simp] theorem State.updatePulse_txd (f : PulseUnit → PulseUnit) : (s.updatePulse f).txd = s.txd := rfl
@[simp] theorem State.updatePulse_choices (f : PulseUnit → PulseUnit) : (s.updatePulse f).choices = s.choices := rfl

@[simp] theorem State.arriveTamper_pending (e : TamperEvent) : (s.arriveTamper e).pending = s.pending := rfl
@[simp] theorem State.arriveTamper_power (e : TamperEvent) : (s.arriveTamper e).power = s.power := rfl
@[simp] theorem State.arriveTamper_ret (e : TamperEvent) : (s.arriveTamper e).ret = s.ret := rfl
@[simp] theorem State.arriveTamper_stored (e : TamperEvent) : (s.arriveTamper e).stored = s.stored := rfl
@[simp] theorem State.arriveTamper_nv (e : TamperEvent) : (s.arriveTamper e).nv = s.nv := rfl
@[simp] theorem State.arriveTamper_writes (e : TamperEvent) : (s.arriveTamper e).writes = s.writes := rfl
@[simp] theorem State.arriveTamper_pulse (e : TamperEvent) : (s.arriveTamper e).pulse = s.pulse := rfl
@[simp] theorem State.arriveTamper_clockUnit (e : TamperEvent) : (s.arriveTamper e).clockUnit = s.clockUnit := rfl
@[simp] theorem State.arriveTamper_arrivals (e : TamperEvent) : (s.arriveTamper e).arrivals = s.arrivals := rfl
@[simp] theorem State.arriveTamper_code (e : TamperEvent) : (s.arriveTamper e).code = s.code := rfl
@[simp] theorem State.arriveTamper_supply (e : TamperEvent) : (s.arriveTamper e).supply = s.supply := rfl
@[simp] theorem State.arriveTamper_driver (e : TamperEvent) : (s.arriveTamper e).driver = s.driver := rfl
@[simp] theorem State.arriveTamper_tamper (e : TamperEvent) : (s.arriveTamper e).tamper = { s.tamper with arrivals := s.tamper.arrivals ++ [e] } := rfl
@[simp] theorem State.arriveTamper_journalWaiting (e : TamperEvent) : (s.arriveTamper e).journalWaiting = s.journalWaiting := rfl
@[simp] theorem State.arriveTamper_ports (e : TamperEvent) : (s.arriveTamper e).ports = s.ports := rfl
@[simp] theorem State.arriveTamper_lPort (e : TamperEvent) : (s.arriveTamper e).lPort = s.lPort := rfl
@[simp] theorem State.arriveTamper_sdo (e : TamperEvent) : (s.arriveTamper e).sdo = s.sdo := rfl
@[simp] theorem State.arriveTamper_txd (e : TamperEvent) : (s.arriveTamper e).txd = s.txd := rfl
@[simp] theorem State.arriveTamper_choices (e : TamperEvent) : (s.arriveTamper e).choices = s.choices := rfl

@[simp] theorem State.leaveTamper_pending : s.leaveTamper.pending = s.pending := rfl
@[simp] theorem State.leaveTamper_power : s.leaveTamper.power = s.power := rfl
@[simp] theorem State.leaveTamper_ret : s.leaveTamper.ret = s.ret := rfl
@[simp] theorem State.leaveTamper_stored : s.leaveTamper.stored = s.stored := rfl
@[simp] theorem State.leaveTamper_nv : s.leaveTamper.nv = s.nv := rfl
@[simp] theorem State.leaveTamper_writes : s.leaveTamper.writes = s.writes := rfl
@[simp] theorem State.leaveTamper_pulse : s.leaveTamper.pulse = s.pulse := rfl
@[simp] theorem State.leaveTamper_clockUnit : s.leaveTamper.clockUnit = s.clockUnit := rfl
@[simp] theorem State.leaveTamper_arrivals : s.leaveTamper.arrivals = s.arrivals := rfl
@[simp] theorem State.leaveTamper_code : s.leaveTamper.code = s.code := rfl
@[simp] theorem State.leaveTamper_supply : s.leaveTamper.supply = s.supply := rfl
@[simp] theorem State.leaveTamper_driver : s.leaveTamper.driver = s.driver := rfl
@[simp] theorem State.leaveTamper_tamper : s.leaveTamper.tamper = { s.tamper with arrivals := s.tamper.arrivals.tail } := rfl
@[simp] theorem State.leaveTamper_journalWaiting : s.leaveTamper.journalWaiting = s.journalWaiting := rfl
@[simp] theorem State.leaveTamper_ports : s.leaveTamper.ports = s.ports := rfl
@[simp] theorem State.leaveTamper_lPort : s.leaveTamper.lPort = s.lPort := rfl
@[simp] theorem State.leaveTamper_sdo : s.leaveTamper.sdo = s.sdo := rfl
@[simp] theorem State.leaveTamper_txd : s.leaveTamper.txd = s.txd := rfl
@[simp] theorem State.leaveTamper_choices : s.leaveTamper.choices = s.choices := rfl

@[simp] theorem State.arrive_pending (x : AccountEvent) : (s.arrive x).pending = s.pending := rfl
@[simp] theorem State.arrive_power (x : AccountEvent) : (s.arrive x).power = s.power := rfl
@[simp] theorem State.arrive_ret (x : AccountEvent) : (s.arrive x).ret = s.ret := rfl
@[simp] theorem State.arrive_stored (x : AccountEvent) : (s.arrive x).stored = s.stored := rfl
@[simp] theorem State.arrive_nv (x : AccountEvent) : (s.arrive x).nv = s.nv := rfl
@[simp] theorem State.arrive_writes (x : AccountEvent) : (s.arrive x).writes = s.writes := rfl
@[simp] theorem State.arrive_pulse (x : AccountEvent) : (s.arrive x).pulse = s.pulse := rfl
@[simp] theorem State.arrive_clockUnit (x : AccountEvent) : (s.arrive x).clockUnit = s.clockUnit := rfl
@[simp] theorem State.arrive_arrivals (x : AccountEvent) : (s.arrive x).arrivals = s.arrivals ++ [x] := rfl
@[simp] theorem State.arrive_code (x : AccountEvent) : (s.arrive x).code = s.code := rfl
@[simp] theorem State.arrive_supply (x : AccountEvent) : (s.arrive x).supply = s.supply := rfl
@[simp] theorem State.arrive_driver (x : AccountEvent) : (s.arrive x).driver = s.driver := rfl
@[simp] theorem State.arrive_tamper (x : AccountEvent) : (s.arrive x).tamper = s.tamper := rfl
@[simp] theorem State.arrive_journalWaiting (x : AccountEvent) : (s.arrive x).journalWaiting = s.journalWaiting := rfl
@[simp] theorem State.arrive_ports (x : AccountEvent) : (s.arrive x).ports = s.ports := rfl
@[simp] theorem State.arrive_lPort (x : AccountEvent) : (s.arrive x).lPort = s.lPort := rfl
@[simp] theorem State.arrive_sdo (x : AccountEvent) : (s.arrive x).sdo = s.sdo := rfl
@[simp] theorem State.arrive_txd (x : AccountEvent) : (s.arrive x).txd = s.txd := rfl
@[simp] theorem State.arrive_choices (x : AccountEvent) : (s.arrive x).choices = s.choices := rfl

@[simp] theorem State.leaveArrivals_pending : s.leaveArrivals.pending = s.pending := rfl
@[simp] theorem State.leaveArrivals_power : s.leaveArrivals.power = s.power := rfl
@[simp] theorem State.leaveArrivals_ret : s.leaveArrivals.ret = s.ret := rfl
@[simp] theorem State.leaveArrivals_stored : s.leaveArrivals.stored = s.stored := rfl
@[simp] theorem State.leaveArrivals_nv : s.leaveArrivals.nv = s.nv := rfl
@[simp] theorem State.leaveArrivals_writes : s.leaveArrivals.writes = s.writes := rfl
@[simp] theorem State.leaveArrivals_pulse : s.leaveArrivals.pulse = s.pulse := rfl
@[simp] theorem State.leaveArrivals_clockUnit : s.leaveArrivals.clockUnit = s.clockUnit := rfl
@[simp] theorem State.leaveArrivals_arrivals : s.leaveArrivals.arrivals = s.arrivals.tail := rfl
@[simp] theorem State.leaveArrivals_code : s.leaveArrivals.code = s.code := rfl
@[simp] theorem State.leaveArrivals_supply : s.leaveArrivals.supply = s.supply := rfl
@[simp] theorem State.leaveArrivals_driver : s.leaveArrivals.driver = s.driver := rfl
@[simp] theorem State.leaveArrivals_tamper : s.leaveArrivals.tamper = s.tamper := rfl
@[simp] theorem State.leaveArrivals_journalWaiting : s.leaveArrivals.journalWaiting = s.journalWaiting := rfl
@[simp] theorem State.leaveArrivals_ports : s.leaveArrivals.ports = s.ports := rfl
@[simp] theorem State.leaveArrivals_lPort : s.leaveArrivals.lPort = s.lPort := rfl
@[simp] theorem State.leaveArrivals_sdo : s.leaveArrivals.sdo = s.sdo := rfl
@[simp] theorem State.leaveArrivals_txd : s.leaveArrivals.txd = s.txd := rfl
@[simp] theorem State.leaveArrivals_choices : s.leaveArrivals.choices = s.choices := rfl

@[simp] theorem State.queueCode_pending (i : CodeItem) : (s.queueCode i).pending = s.pending := rfl
@[simp] theorem State.queueCode_power (i : CodeItem) : (s.queueCode i).power = s.power := rfl
@[simp] theorem State.queueCode_ret (i : CodeItem) : (s.queueCode i).ret = s.ret := rfl
@[simp] theorem State.queueCode_stored (i : CodeItem) : (s.queueCode i).stored = s.stored := rfl
@[simp] theorem State.queueCode_nv (i : CodeItem) : (s.queueCode i).nv = s.nv := rfl
@[simp] theorem State.queueCode_writes (i : CodeItem) : (s.queueCode i).writes = s.writes := rfl
@[simp] theorem State.queueCode_pulse (i : CodeItem) : (s.queueCode i).pulse = s.pulse := rfl
@[simp] theorem State.queueCode_clockUnit (i : CodeItem) : (s.queueCode i).clockUnit = s.clockUnit := rfl
@[simp] theorem State.queueCode_arrivals (i : CodeItem) : (s.queueCode i).arrivals = s.arrivals := rfl
@[simp] theorem State.queueCode_code (i : CodeItem) : (s.queueCode i).code = { s.code with queue := s.code.queue ++ [i] } := rfl
@[simp] theorem State.queueCode_supply (i : CodeItem) : (s.queueCode i).supply = s.supply := rfl
@[simp] theorem State.queueCode_driver (i : CodeItem) : (s.queueCode i).driver = s.driver := rfl
@[simp] theorem State.queueCode_tamper (i : CodeItem) : (s.queueCode i).tamper = s.tamper := rfl
@[simp] theorem State.queueCode_journalWaiting (i : CodeItem) : (s.queueCode i).journalWaiting = s.journalWaiting := rfl
@[simp] theorem State.queueCode_ports (i : CodeItem) : (s.queueCode i).ports = s.ports := rfl
@[simp] theorem State.queueCode_lPort (i : CodeItem) : (s.queueCode i).lPort = s.lPort := rfl
@[simp] theorem State.queueCode_sdo (i : CodeItem) : (s.queueCode i).sdo = s.sdo := rfl
@[simp] theorem State.queueCode_txd (i : CodeItem) : (s.queueCode i).txd = s.txd := rfl
@[simp] theorem State.queueCode_choices (i : CodeItem) : (s.queueCode i).choices = s.choices := rfl

@[simp] theorem State.leaveQueue_pending : s.leaveQueue.pending = s.pending := rfl
@[simp] theorem State.leaveQueue_power : s.leaveQueue.power = s.power := rfl
@[simp] theorem State.leaveQueue_ret : s.leaveQueue.ret = s.ret := rfl
@[simp] theorem State.leaveQueue_stored : s.leaveQueue.stored = s.stored := rfl
@[simp] theorem State.leaveQueue_nv : s.leaveQueue.nv = s.nv := rfl
@[simp] theorem State.leaveQueue_writes : s.leaveQueue.writes = s.writes := rfl
@[simp] theorem State.leaveQueue_pulse : s.leaveQueue.pulse = s.pulse := rfl
@[simp] theorem State.leaveQueue_clockUnit : s.leaveQueue.clockUnit = s.clockUnit := rfl
@[simp] theorem State.leaveQueue_arrivals : s.leaveQueue.arrivals = s.arrivals := rfl
@[simp] theorem State.leaveQueue_code : s.leaveQueue.code = { s.code with queue := s.code.queue.tail } := rfl
@[simp] theorem State.leaveQueue_supply : s.leaveQueue.supply = s.supply := rfl
@[simp] theorem State.leaveQueue_driver : s.leaveQueue.driver = s.driver := rfl
@[simp] theorem State.leaveQueue_tamper : s.leaveQueue.tamper = s.tamper := rfl
@[simp] theorem State.leaveQueue_journalWaiting : s.leaveQueue.journalWaiting = s.journalWaiting := rfl
@[simp] theorem State.leaveQueue_ports : s.leaveQueue.ports = s.ports := rfl
@[simp] theorem State.leaveQueue_lPort : s.leaveQueue.lPort = s.lPort := rfl
@[simp] theorem State.leaveQueue_sdo : s.leaveQueue.sdo = s.sdo := rfl
@[simp] theorem State.leaveQueue_txd : s.leaveQueue.txd = s.txd := rfl
@[simp] theorem State.leaveQueue_choices : s.leaveQueue.choices = s.choices := rfl

@[simp] theorem State.serve_pending (c : CodeService) : (s.serve c).pending = s.pending := rfl
@[simp] theorem State.serve_power (c : CodeService) : (s.serve c).power = s.power := rfl
@[simp] theorem State.serve_ret (c : CodeService) : (s.serve c).ret = s.ret := rfl
@[simp] theorem State.serve_stored (c : CodeService) : (s.serve c).stored = s.stored := rfl
@[simp] theorem State.serve_nv (c : CodeService) : (s.serve c).nv = s.nv := rfl
@[simp] theorem State.serve_writes (c : CodeService) : (s.serve c).writes = s.writes := rfl
@[simp] theorem State.serve_pulse (c : CodeService) : (s.serve c).pulse = s.pulse := rfl
@[simp] theorem State.serve_clockUnit (c : CodeService) : (s.serve c).clockUnit = s.clockUnit := rfl
@[simp] theorem State.serve_arrivals (c : CodeService) : (s.serve c).arrivals = s.arrivals := rfl
@[simp] theorem State.serve_code (c : CodeService) : (s.serve c).code = { s.code with service := some c } := rfl
@[simp] theorem State.serve_supply (c : CodeService) : (s.serve c).supply = s.supply := rfl
@[simp] theorem State.serve_driver (c : CodeService) : (s.serve c).driver = s.driver := rfl
@[simp] theorem State.serve_tamper (c : CodeService) : (s.serve c).tamper = s.tamper := rfl
@[simp] theorem State.serve_journalWaiting (c : CodeService) : (s.serve c).journalWaiting = s.journalWaiting := rfl
@[simp] theorem State.serve_ports (c : CodeService) : (s.serve c).ports = s.ports := rfl
@[simp] theorem State.serve_lPort (c : CodeService) : (s.serve c).lPort = s.lPort := rfl
@[simp] theorem State.serve_sdo (c : CodeService) : (s.serve c).sdo = s.sdo := rfl
@[simp] theorem State.serve_txd (c : CodeService) : (s.serve c).txd = s.txd := rfl
@[simp] theorem State.serve_choices (c : CodeService) : (s.serve c).choices = s.choices := rfl

@[simp] theorem State.leaveJournal_pending : s.leaveJournal.pending = s.pending := rfl
@[simp] theorem State.leaveJournal_power : s.leaveJournal.power = s.power := rfl
@[simp] theorem State.leaveJournal_ret : s.leaveJournal.ret = s.ret := rfl
@[simp] theorem State.leaveJournal_stored : s.leaveJournal.stored = s.stored := rfl
@[simp] theorem State.leaveJournal_nv : s.leaveJournal.nv = s.nv := rfl
@[simp] theorem State.leaveJournal_writes : s.leaveJournal.writes = s.writes := rfl
@[simp] theorem State.leaveJournal_pulse : s.leaveJournal.pulse = s.pulse := rfl
@[simp] theorem State.leaveJournal_clockUnit : s.leaveJournal.clockUnit = s.clockUnit := rfl
@[simp] theorem State.leaveJournal_arrivals : s.leaveJournal.arrivals = s.arrivals := rfl
@[simp] theorem State.leaveJournal_code : s.leaveJournal.code = s.code := rfl
@[simp] theorem State.leaveJournal_supply : s.leaveJournal.supply = s.supply := rfl
@[simp] theorem State.leaveJournal_driver : s.leaveJournal.driver = s.driver := rfl
@[simp] theorem State.leaveJournal_tamper : s.leaveJournal.tamper = s.tamper := rfl
@[simp] theorem State.leaveJournal_journalWaiting : s.leaveJournal.journalWaiting = s.journalWaiting.tail := rfl
@[simp] theorem State.leaveJournal_ports : s.leaveJournal.ports = s.ports := rfl
@[simp] theorem State.leaveJournal_lPort : s.leaveJournal.lPort = s.lPort := rfl
@[simp] theorem State.leaveJournal_sdo : s.leaveJournal.sdo = s.sdo := rfl
@[simp] theorem State.leaveJournal_txd : s.leaveJournal.txd = s.txd := rfl
@[simp] theorem State.leaveJournal_choices : s.leaveJournal.choices = s.choices := rfl

@[simp] theorem State.endService_pending : s.endService.pending = s.pending := rfl
@[simp] theorem State.endService_power : s.endService.power = s.power := rfl
@[simp] theorem State.endService_ret : s.endService.ret = s.ret := rfl
@[simp] theorem State.endService_stored : s.endService.stored = s.stored := rfl
@[simp] theorem State.endService_nv : s.endService.nv = s.nv := rfl
@[simp] theorem State.endService_writes : s.endService.writes = s.writes := rfl
@[simp] theorem State.endService_pulse : s.endService.pulse = s.pulse := rfl
@[simp] theorem State.endService_clockUnit : s.endService.clockUnit = s.clockUnit := rfl
@[simp] theorem State.endService_arrivals : s.endService.arrivals = s.arrivals := rfl
@[simp] theorem State.endService_code : s.endService.code = { s.code with service := none } := rfl
@[simp] theorem State.endService_supply : s.endService.supply = s.supply := rfl
@[simp] theorem State.endService_driver : s.endService.driver = s.driver := rfl
@[simp] theorem State.endService_tamper : s.endService.tamper = s.tamper := rfl
@[simp] theorem State.endService_journalWaiting : s.endService.journalWaiting = s.journalWaiting := rfl
@[simp] theorem State.endService_ports : s.endService.ports = s.ports := rfl
@[simp] theorem State.endService_lPort : s.endService.lPort = s.lPort := rfl
@[simp] theorem State.endService_sdo : s.endService.sdo = s.sdo := rfl
@[simp] theorem State.endService_txd : s.endService.txd = s.txd := rfl
@[simp] theorem State.endService_choices : s.endService.choices = s.choices := rfl

@[simp] theorem State.setLevel_pending (k : TamperKind) (b : Bool) : (s.setLevel k b).pending = s.pending := rfl
@[simp] theorem State.setLevel_power (k : TamperKind) (b : Bool) : (s.setLevel k b).power = s.power := rfl
@[simp] theorem State.setLevel_ret (k : TamperKind) (b : Bool) : (s.setLevel k b).ret = s.ret := rfl
@[simp] theorem State.setLevel_stored (k : TamperKind) (b : Bool) : (s.setLevel k b).stored = s.stored := rfl
@[simp] theorem State.setLevel_nv (k : TamperKind) (b : Bool) : (s.setLevel k b).nv = s.nv := rfl
@[simp] theorem State.setLevel_writes (k : TamperKind) (b : Bool) : (s.setLevel k b).writes = s.writes := rfl
@[simp] theorem State.setLevel_pulse (k : TamperKind) (b : Bool) : (s.setLevel k b).pulse = s.pulse := rfl
@[simp] theorem State.setLevel_clockUnit (k : TamperKind) (b : Bool) : (s.setLevel k b).clockUnit = s.clockUnit := rfl
@[simp] theorem State.setLevel_arrivals (k : TamperKind) (b : Bool) : (s.setLevel k b).arrivals = s.arrivals := rfl
@[simp] theorem State.setLevel_code (k : TamperKind) (b : Bool) : (s.setLevel k b).code = s.code := rfl
@[simp] theorem State.setLevel_supply (k : TamperKind) (b : Bool) : (s.setLevel k b).supply = s.supply := rfl
@[simp] theorem State.setLevel_driver (k : TamperKind) (b : Bool) : (s.setLevel k b).driver = s.driver := rfl
@[simp] theorem State.setLevel_tamper (k : TamperKind) (b : Bool) : (s.setLevel k b).tamper = { s.tamper with levels := s.tamper.levels.set k b } := rfl
@[simp] theorem State.setLevel_journalWaiting (k : TamperKind) (b : Bool) : (s.setLevel k b).journalWaiting = s.journalWaiting := rfl
@[simp] theorem State.setLevel_ports (k : TamperKind) (b : Bool) : (s.setLevel k b).ports = s.ports := rfl
@[simp] theorem State.setLevel_lPort (k : TamperKind) (b : Bool) : (s.setLevel k b).lPort = s.lPort := rfl
@[simp] theorem State.setLevel_sdo (k : TamperKind) (b : Bool) : (s.setLevel k b).sdo = s.sdo := rfl
@[simp] theorem State.setLevel_txd (k : TamperKind) (b : Bool) : (s.setLevel k b).txd = s.txd := rfl
@[simp] theorem State.setLevel_choices (k : TamperKind) (b : Bool) : (s.setLevel k b).choices = s.choices := rfl

@[simp] theorem State.takeRequest_pending (p : Port) : (s.takeRequest p).pending = s.pending := rfl
@[simp] theorem State.takeRequest_power (p : Port) : (s.takeRequest p).power = s.power := rfl
@[simp] theorem State.takeRequest_ret (p : Port) : (s.takeRequest p).ret = s.ret := rfl
@[simp] theorem State.takeRequest_stored (p : Port) : (s.takeRequest p).stored = s.stored := rfl
@[simp] theorem State.takeRequest_nv (p : Port) : (s.takeRequest p).nv = s.nv := rfl
@[simp] theorem State.takeRequest_writes (p : Port) : (s.takeRequest p).writes = s.writes := rfl
@[simp] theorem State.takeRequest_pulse (p : Port) : (s.takeRequest p).pulse = s.pulse := rfl
@[simp] theorem State.takeRequest_clockUnit (p : Port) : (s.takeRequest p).clockUnit = s.clockUnit := rfl
@[simp] theorem State.takeRequest_arrivals (p : Port) : (s.takeRequest p).arrivals = s.arrivals := rfl
@[simp] theorem State.takeRequest_code (p : Port) : (s.takeRequest p).code = s.code := rfl
@[simp] theorem State.takeRequest_supply (p : Port) : (s.takeRequest p).supply = s.supply := rfl
@[simp] theorem State.takeRequest_driver (p : Port) : (s.takeRequest p).driver = s.driver := rfl
@[simp] theorem State.takeRequest_tamper (p : Port) : (s.takeRequest p).tamper = s.tamper := rfl
@[simp] theorem State.takeRequest_journalWaiting (p : Port) : (s.takeRequest p).journalWaiting = s.journalWaiting := rfl
@[simp] theorem State.takeRequest_ports (p : Port) : (s.takeRequest p).ports = s.ports.set p { s.ports.get p with request := (s.ports.get p).request.map (fun r => { r with taken := true }) } := rfl
@[simp] theorem State.takeRequest_lPort (p : Port) : (s.takeRequest p).lPort = s.lPort := rfl
@[simp] theorem State.takeRequest_sdo (p : Port) : (s.takeRequest p).sdo = s.sdo := rfl
@[simp] theorem State.takeRequest_txd (p : Port) : (s.takeRequest p).txd = s.txd := rfl
@[simp] theorem State.takeRequest_choices (p : Port) : (s.takeRequest p).choices = s.choices := rfl

@[simp] theorem State.handSetting_pending (p : Port) (n v : Nat) : (s.handSetting p n v).pending = s.pending := rfl
@[simp] theorem State.handSetting_power (p : Port) (n v : Nat) : (s.handSetting p n v).power = s.power := rfl
@[simp] theorem State.handSetting_ret (p : Port) (n v : Nat) : (s.handSetting p n v).ret = s.ret := rfl
@[simp] theorem State.handSetting_stored (p : Port) (n v : Nat) : (s.handSetting p n v).stored = s.stored := rfl
@[simp] theorem State.handSetting_nv (p : Port) (n v : Nat) : (s.handSetting p n v).nv = s.nv := rfl
@[simp] theorem State.handSetting_writes (p : Port) (n v : Nat) : (s.handSetting p n v).writes = s.writes := rfl
@[simp] theorem State.handSetting_pulse (p : Port) (n v : Nat) : (s.handSetting p n v).pulse = s.pulse := rfl
@[simp] theorem State.handSetting_clockUnit (p : Port) (n v : Nat) : (s.handSetting p n v).clockUnit = s.clockUnit := rfl
@[simp] theorem State.handSetting_arrivals (p : Port) (n v : Nat) : (s.handSetting p n v).arrivals = s.arrivals := rfl
@[simp] theorem State.handSetting_code (p : Port) (n v : Nat) : (s.handSetting p n v).code = s.code := rfl
@[simp] theorem State.handSetting_supply (p : Port) (n v : Nat) : (s.handSetting p n v).supply = s.supply := rfl
@[simp] theorem State.handSetting_driver (p : Port) (n v : Nat) : (s.handSetting p n v).driver = s.driver := rfl
@[simp] theorem State.handSetting_tamper (p : Port) (n v : Nat) : (s.handSetting p n v).tamper = s.tamper := rfl
@[simp] theorem State.handSetting_journalWaiting (p : Port) (n v : Nat) : (s.handSetting p n v).journalWaiting = s.journalWaiting := rfl
@[simp] theorem State.handSetting_ports (p : Port) (n v : Nat) : (s.handSetting p n v).ports = s.ports.set p { s.ports.get p with request := (s.ports.get p).request.map (fun r => { r with handedSetting := some (n, v) }) } := rfl
@[simp] theorem State.handSetting_lPort (p : Port) (n v : Nat) : (s.handSetting p n v).lPort = s.lPort := rfl
@[simp] theorem State.handSetting_sdo (p : Port) (n v : Nat) : (s.handSetting p n v).sdo = s.sdo := rfl
@[simp] theorem State.handSetting_txd (p : Port) (n v : Nat) : (s.handSetting p n v).txd = s.txd := rfl
@[simp] theorem State.handSetting_choices (p : Port) (n v : Nat) : (s.handSetting p n v).choices = s.choices := rfl

@[simp] theorem State.leaveLine_pending (c : Instr) : (s.leaveLine c).pending = s.pending := rfl
@[simp] theorem State.leaveLine_power (c : Instr) : (s.leaveLine c).power = s.power := rfl
@[simp] theorem State.leaveLine_ret (c : Instr) : (s.leaveLine c).ret = s.ret := rfl
@[simp] theorem State.leaveLine_stored (c : Instr) : (s.leaveLine c).stored = s.stored := rfl
@[simp] theorem State.leaveLine_nv (c : Instr) : (s.leaveLine c).nv = s.nv := rfl
@[simp] theorem State.leaveLine_writes (c : Instr) : (s.leaveLine c).writes = s.writes := rfl
@[simp] theorem State.leaveLine_pulse (c : Instr) : (s.leaveLine c).pulse = s.pulse := rfl
@[simp] theorem State.leaveLine_clockUnit (c : Instr) : (s.leaveLine c).clockUnit = s.clockUnit := rfl
@[simp] theorem State.leaveLine_arrivals (c : Instr) : (s.leaveLine c).arrivals = s.arrivals := rfl
@[simp] theorem State.leaveLine_code (c : Instr) : (s.leaveLine c).code = s.code := rfl
@[simp] theorem State.leaveLine_supply (c : Instr) : (s.leaveLine c).supply = s.supply := rfl
@[simp] theorem State.leaveLine_driver (c : Instr) : (s.leaveLine c).driver = s.driver := rfl
@[simp] theorem State.leaveLine_tamper (c : Instr) : (s.leaveLine c).tamper = s.tamper := rfl
@[simp] theorem State.leaveLine_journalWaiting (c : Instr) : (s.leaveLine c).journalWaiting = s.journalWaiting.filter (fun e => !e.appendOf c) := rfl
@[simp] theorem State.leaveLine_ports (c : Instr) : (s.leaveLine c).ports = s.ports := rfl
@[simp] theorem State.leaveLine_lPort (c : Instr) : (s.leaveLine c).lPort = s.lPort := rfl
@[simp] theorem State.leaveLine_sdo (c : Instr) : (s.leaveLine c).sdo = s.sdo := rfl
@[simp] theorem State.leaveLine_txd (c : Instr) : (s.leaveLine c).txd = s.txd := rfl
@[simp] theorem State.leaveLine_choices (c : Instr) : (s.leaveLine c).choices = s.choices := rfl

@[simp] theorem State.setLoadhi_pending (b : Bool) : (s.setLoadhi b).pending = s.pending := rfl
@[simp] theorem State.setLoadhi_power (b : Bool) : (s.setLoadhi b).power = s.power := rfl
@[simp] theorem State.setLoadhi_ret (b : Bool) : (s.setLoadhi b).ret = s.ret := rfl
@[simp] theorem State.setLoadhi_stored (b : Bool) : (s.setLoadhi b).stored = s.stored := rfl
@[simp] theorem State.setLoadhi_nv (b : Bool) : (s.setLoadhi b).nv = s.nv := rfl
@[simp] theorem State.setLoadhi_writes (b : Bool) : (s.setLoadhi b).writes = s.writes := rfl
@[simp] theorem State.setLoadhi_pulse (b : Bool) : (s.setLoadhi b).pulse = s.pulse := rfl
@[simp] theorem State.setLoadhi_clockUnit (b : Bool) : (s.setLoadhi b).clockUnit = s.clockUnit := rfl
@[simp] theorem State.setLoadhi_arrivals (b : Bool) : (s.setLoadhi b).arrivals = s.arrivals := rfl
@[simp] theorem State.setLoadhi_code (b : Bool) : (s.setLoadhi b).code = s.code := rfl
@[simp] theorem State.setLoadhi_supply (b : Bool) : (s.setLoadhi b).supply = { s.supply with loadhi := b, loadhiFell := s.supply.loadhiFell || (s.supply.loadhi && !b && s.power.fallIsEvent .graceLevels) } := rfl
@[simp] theorem State.setLoadhi_driver (b : Bool) : (s.setLoadhi b).driver = s.driver := rfl
@[simp] theorem State.setLoadhi_tamper (b : Bool) : (s.setLoadhi b).tamper = s.tamper := rfl
@[simp] theorem State.setLoadhi_journalWaiting (b : Bool) : (s.setLoadhi b).journalWaiting = s.journalWaiting := rfl
@[simp] theorem State.setLoadhi_ports (b : Bool) : (s.setLoadhi b).ports = s.ports := rfl
@[simp] theorem State.setLoadhi_lPort (b : Bool) : (s.setLoadhi b).lPort = s.lPort := rfl
@[simp] theorem State.setLoadhi_sdo (b : Bool) : (s.setLoadhi b).sdo = s.sdo := rfl
@[simp] theorem State.setLoadhi_txd (b : Bool) : (s.setLoadhi b).txd = s.txd := rfl
@[simp] theorem State.setLoadhi_choices (b : Bool) : (s.setLoadhi b).choices = s.choices := rfl

@[simp] theorem State.setLoadx_pending (b : Bool) : (s.setLoadx b).pending = s.pending := rfl
@[simp] theorem State.setLoadx_power (b : Bool) : (s.setLoadx b).power = s.power := rfl
@[simp] theorem State.setLoadx_ret (b : Bool) : (s.setLoadx b).ret = s.ret := rfl
@[simp] theorem State.setLoadx_stored (b : Bool) : (s.setLoadx b).stored = s.stored := rfl
@[simp] theorem State.setLoadx_nv (b : Bool) : (s.setLoadx b).nv = s.nv := rfl
@[simp] theorem State.setLoadx_writes (b : Bool) : (s.setLoadx b).writes = s.writes := rfl
@[simp] theorem State.setLoadx_pulse (b : Bool) : (s.setLoadx b).pulse = s.pulse := rfl
@[simp] theorem State.setLoadx_clockUnit (b : Bool) : (s.setLoadx b).clockUnit = s.clockUnit := rfl
@[simp] theorem State.setLoadx_arrivals (b : Bool) : (s.setLoadx b).arrivals = s.arrivals := rfl
@[simp] theorem State.setLoadx_code (b : Bool) : (s.setLoadx b).code = s.code := rfl
@[simp] theorem State.setLoadx_supply (b : Bool) : (s.setLoadx b).supply = { s.supply with loadx := b, loadxFell := s.supply.loadxFell || (s.supply.loadx && !b && s.power.fallIsEvent .breakWait) } := rfl
@[simp] theorem State.setLoadx_driver (b : Bool) : (s.setLoadx b).driver = s.driver := rfl
@[simp] theorem State.setLoadx_tamper (b : Bool) : (s.setLoadx b).tamper = s.tamper := rfl
@[simp] theorem State.setLoadx_journalWaiting (b : Bool) : (s.setLoadx b).journalWaiting = s.journalWaiting := rfl
@[simp] theorem State.setLoadx_ports (b : Bool) : (s.setLoadx b).ports = s.ports := rfl
@[simp] theorem State.setLoadx_lPort (b : Bool) : (s.setLoadx b).lPort = s.lPort := rfl
@[simp] theorem State.setLoadx_sdo (b : Bool) : (s.setLoadx b).sdo = s.sdo := rfl
@[simp] theorem State.setLoadx_txd (b : Bool) : (s.setLoadx b).txd = s.txd := rfl
@[simp] theorem State.setLoadx_choices (b : Bool) : (s.setLoadx b).choices = s.choices := rfl

end

section
variable (e : Event)

@[simp] theorem Event.log_state (r : RecordBody) : (e.log r).state = e.state := rfl
@[simp] theorem Event.log_origin (r : RecordBody) : (e.log r).origin = e.origin := rfl
@[simp] theorem Event.log_low (r : RecordBody) : (e.log r).low = e.low := rfl
@[simp] theorem Event.log_records (r : RecordBody) : (e.log r).records = e.records ++ [r] := rfl
@[simp] theorem Event.log_follow (r : RecordBody) : (e.log r).follow = e.follow := rfl
@[simp] theorem Event.log_nv (r : RecordBody) : (e.log r).nv = e.nv := rfl

@[simp] theorem Event.andThen_state (f : FollowUp) : (e.andThen f).state = e.state := rfl
@[simp] theorem Event.andThen_origin (f : FollowUp) : (e.andThen f).origin = e.origin := rfl
@[simp] theorem Event.andThen_low (f : FollowUp) : (e.andThen f).low = e.low := rfl
@[simp] theorem Event.andThen_records (f : FollowUp) : (e.andThen f).records = e.records := rfl
@[simp] theorem Event.andThen_follow (f : FollowUp) : (e.andThen f).follow = e.follow ++ [f] := rfl
@[simp] theorem Event.andThen_nv (f : FollowUp) : (e.andThen f).nv = e.nv := rfl

@[simp] theorem Event.notify_state (k : NoticeKind) : (e.notify k).state = e.state := rfl
@[simp] theorem Event.notify_origin (k : NoticeKind) : (e.notify k).origin = e.origin := rfl
@[simp] theorem Event.notify_low (k : NoticeKind) : (e.notify k).low = e.low := rfl
@[simp] theorem Event.notify_records (k : NoticeKind) : (e.notify k).records = e.records := rfl
@[simp] theorem Event.notify_follow (k : NoticeKind) : (e.notify k).follow = e.follow ++ [.notice k] := rfl
@[simp] theorem Event.notify_nv (k : NoticeKind) : (e.notify k).nv = e.nv := rfl

@[simp] theorem Event.updateNv_state (f : Nv → Nv) : (e.updateNv f).state = { e.state with nv := f e.state.nv } := rfl
@[simp] theorem Event.updateNv_origin (f : Nv → Nv) : (e.updateNv f).origin = e.origin := rfl
@[simp] theorem Event.updateNv_low (f : Nv → Nv) : (e.updateNv f).low = e.low := rfl
@[simp] theorem Event.updateNv_records (f : Nv → Nv) : (e.updateNv f).records = e.records := rfl
@[simp] theorem Event.updateNv_follow (f : Nv → Nv) : (e.updateNv f).follow = e.follow := rfl
@[simp] theorem Event.updateNv_nv (f : Nv → Nv) : (e.updateNv f).nv = f e.nv := rfl

@[simp] theorem Event.updateDriver_state (f : DriverUnit → DriverUnit) : (e.updateDriver f).state = { e.state with driver := f e.state.driver } := rfl
@[simp] theorem Event.updateDriver_origin (f : DriverUnit → DriverUnit) : (e.updateDriver f).origin = e.origin := rfl
@[simp] theorem Event.updateDriver_low (f : DriverUnit → DriverUnit) : (e.updateDriver f).low = e.low := rfl
@[simp] theorem Event.updateDriver_records (f : DriverUnit → DriverUnit) : (e.updateDriver f).records = e.records := rfl
@[simp] theorem Event.updateDriver_follow (f : DriverUnit → DriverUnit) : (e.updateDriver f).follow = e.follow := rfl
@[simp] theorem Event.updateDriver_nv (f : DriverUnit → DriverUnit) : (e.updateDriver f).nv = e.nv := rfl

@[simp] theorem Event.updateAccount_state (f : Account → Account) : (e.updateAccount f).state = { e.state with nv := { e.state.nv with account := f e.state.nv.account } } := rfl
@[simp] theorem Event.updateAccount_origin (f : Account → Account) : (e.updateAccount f).origin = e.origin := rfl
@[simp] theorem Event.updateAccount_low (f : Account → Account) : (e.updateAccount f).low = e.low := rfl
@[simp] theorem Event.updateAccount_records (f : Account → Account) : (e.updateAccount f).records = e.records := rfl
@[simp] theorem Event.updateAccount_follow (f : Account → Account) : (e.updateAccount f).follow = e.follow := rfl
@[simp] theorem Event.updateAccount_nv (f : Account → Account) : (e.updateAccount f).nv = { e.nv with account := f e.nv.account } := rfl

@[simp] theorem Event.setTamper_state (k : TamperKind) (t : TamperRecord) : (e.setTamper k t).state = { e.state with nv := { e.state.nv with tampers := e.state.nv.tampers.set k t } } := rfl
@[simp] theorem Event.setTamper_origin (k : TamperKind) (t : TamperRecord) : (e.setTamper k t).origin = e.origin := rfl
@[simp] theorem Event.setTamper_low (k : TamperKind) (t : TamperRecord) : (e.setTamper k t).low = e.low := rfl
@[simp] theorem Event.setTamper_records (k : TamperKind) (t : TamperRecord) : (e.setTamper k t).records = e.records := rfl
@[simp] theorem Event.setTamper_follow (k : TamperKind) (t : TamperRecord) : (e.setTamper k t).follow = e.follow := rfl
@[simp] theorem Event.setTamper_nv (k : TamperKind) (t : TamperRecord) : (e.setTamper k t).nv = { e.nv with tampers := e.nv.tampers.set k t } := rfl

@[simp] theorem Event.dropArmDeadline_state : e.dropArmDeadline.state = { e.state with nv := { e.state.nv with armDeadline := none } } := rfl
@[simp] theorem Event.dropArmDeadline_origin : e.dropArmDeadline.origin = e.origin := rfl
@[simp] theorem Event.dropArmDeadline_low : e.dropArmDeadline.low = e.low := rfl
@[simp] theorem Event.dropArmDeadline_records : e.dropArmDeadline.records = e.records := rfl
@[simp] theorem Event.dropArmDeadline_follow : e.dropArmDeadline.follow = e.follow := rfl
@[simp] theorem Event.dropArmDeadline_nv : e.dropArmDeadline.nv = { e.nv with armDeadline := none } := rfl

@[simp] theorem Event.endDrive_state : e.endDrive.state = { e.state with driver := { e.state.driver with drive := none } } := rfl
@[simp] theorem Event.endDrive_origin : e.endDrive.origin = e.origin := rfl
@[simp] theorem Event.endDrive_low : e.endDrive.low = e.low := rfl
@[simp] theorem Event.endDrive_records : e.endDrive.records = e.records := rfl
@[simp] theorem Event.endDrive_follow : e.endDrive.follow = e.follow := rfl
@[simp] theorem Event.endDrive_nv : e.endDrive.nv = e.nv := rfl

@[simp] theorem Event.begin_state (s : State) (o : Origin) : (Event.begin s o).state = s := rfl
@[simp] theorem Event.begin_origin (s : State) (o : Origin) : (Event.begin s o).origin = o := rfl
@[simp] theorem Event.begin_low (s : State) (o : Origin) : (Event.begin s o).low = s.nv.settings.journalLow := rfl
@[simp] theorem Event.begin_records (s : State) (o : Origin) : (Event.begin s o).records = [] := rfl
@[simp] theorem Event.begin_follow (s : State) (o : Origin) : (Event.begin s o).follow = [] := rfl
@[simp] theorem Event.begin_nv (s : State) (o : Origin) : (Event.begin s o).nv = s.nv := rfl

end

/-! ## Tables -/

@[simp] theorem PerPort.get_set {α : Type} (t : PerPort α) (p : Port) (x : α) : (t.set p x).get p = x := by
  cases p <;> rfl

@[simp] theorem PerPort.get_set_ne {α : Type} (t : PerPort α) {p q : Port} (x : α) (h : q ≠ p) :
    (t.set p x).get q = t.get q := by
  cases p <;> cases q <;> first | rfl | exact absurd rfl h

@[simp] theorem PerPort.set_set {α : Type} (t : PerPort α) (p : Port) (x y : α) : (t.set p x).set p y = t.set p y := by
  cases p <;> rfl

@[simp] theorem PerPort.set_get {α : Type} (t : PerPort α) (p : Port) : t.set p (t.get p) = t := by
  cases p <;> rfl

@[simp] theorem PerPhase.get_set {α : Type} (t : PerPhase α) (p : Phase) (x : α) : (t.set p x).get p = x := by
  cases p <;> rfl

@[simp] theorem PerKind.get_set {α : Type} (t : PerKind α) (k : TamperKind) (x : α) : (t.set k x).get k = x := by
  cases k <;> rfl

@[simp] theorem PerKind.get_set_ne {α : Type} (t : PerKind α) {k j : TamperKind} (x : α) (h : j ≠ k) :
    (t.set k x).get j = t.get j := by
  cases k <;> cases j <;> first | rfl | exact absurd rfl h

@[simp] theorem PerKind.set_get {α : Type} (t : PerKind α) (k : TamperKind) : t.set k (t.get k) = t := by
  cases k <;> rfl

/-! ## Writes -/

/-- The write of an event is one write of the state it has made, if it still reads the threshold it found (R165). -/
theorem Event.commitSetting_eq (e : Event) (owner : Block) (clock : Option Nat) (mark : Option RetentionMark) (s : State)
    (h : e.low = s.nv.settings.journalLow) (hj : e.nv.journal = s.nv.journal) :
    e.commitSetting owner clock mark
      = ({ e.state with nv := s.nv } : State).withWrite e.nv owner e.origin e.records e.follow clock mark := by
  simp only [Event.commitSetting, State.withWrite, Event.image, Event.journal, Nv.withRecords, h, hj]
  rfl

@[simp] theorem Event.commitSetting_nv (e : Event) (b : Block) (c : Option Nat) (m : Option RetentionMark) :
    (e.commitSetting b c m).nv = e.image := rfl

@[simp] theorem Event.commit_nv (e : Event) (b : Block) : (e.commit b).nv = e.image := rfl

@[simp] theorem Event.commitClearing_nv (e : Event) (b : Block) (m : RetentionMark) :
    (e.commitClearing b m).nv = e.image := rfl

/-! ## Events that wait (R159) -/

/-- An append that joins the events at the journal touches their list alone, and joins it at its end, once. -/
theorem State.joinLine_eq (s : State) (b : Block) (c : Instr) :
    s.joinLine b c =
      { s with
        journalWaiting :=
          s.journalWaiting ++ (if s.journalWaiting.contains (.append b c) then [] else [.append b c]) } := by
  unfold State.joinLine
  split <;> simp_all

/-- An event that waits leaves the state as it was, or its append at the journal and nothing else. -/
theorem State.waits_cases (s : State) (c : Instr) (b : Block) :
    s.waits c b = s ∧ s.blockBusy b c = true ∨ s.waits c b = s.joinLine b c ∧ s.blockBusy b c = false := by
  unfold State.waits
  split
  · next h => exact .inl ⟨rfl, h⟩
  · next h => exact .inr ⟨rfl, by simpa using h⟩

/-- An event is taken when every write that it asks for may begin, and else waits for the first that may not. -/
theorem State.takes_spec (s : State) (c : Instr) (turn : Option Block) (t : State) :
    (s.takes c turn t = t.leaveLine c ∧ ∀ x ∈ s.claims t turn, s.mayBegin c x.1 x.2 = true) ∨
      ∃ x ∈ s.claims t turn, s.mayBegin c x.1 x.2 = false ∧ s.takes c turn t = s.waits c x.1 := by
  unfold State.takes
  split
  · next h => exact .inl ⟨rfl, by simpa using h⟩
  · next x h =>
    exact .inr ⟨x, List.mem_of_find?_eq_some h, by simpa using List.find?_some h, rfl⟩

/-- An event that asks for no write is taken. -/
@[simp] theorem State.takes_of_writes {s t : State} (c : Instr) (h : t.writes = s.writes) :
    s.takes c none t = t.leaveLine c := by
  simp [State.takes, State.claims, h]

/-- An event whose one write may begin is taken. -/
theorem State.takes_of_mayBegin {s t : State} {c : Instr} {w : Write} (h : t.writes = s.writes ++ [w])
    (hw : s.mayBegin c w.owner w.appends = true) : s.takes c none t = t.leaveLine c := by
  simp [State.takes, State.claims, h, hw]

/-- An event whose one write may not begin waits. -/
theorem State.takes_of_waits {s t : State} {c : Instr} {w : Write} (h : t.writes = s.writes ++ [w])
    (hw : s.mayBegin c w.owner w.appends = false) : s.takes c none t = s.waits c w.owner := by
  simp [State.takes, State.claims, h, hw]

/-- An event that is tested for room waits for the journal's turn. -/
theorem State.takesTurn_of_waits {s : State} (t : State) {c : Instr} {b : Block} (h : s.mayBegin c b true = false) :
    s.takesTurn c b t = s.waits c b := by
  simp [State.takesTurn, State.takes, State.claims, h]

/-- An event that is tested for room and begins no write is taken at the journal's turn. -/
theorem State.takesTurn_of_writes {s t : State} {c : Instr} {b : Block} (h : s.mayBegin c b true = true)
    (hw : t.writes = s.writes) : s.takesTurn c b t = t.leaveLine c := by
  simp [State.takesTurn, State.takes, State.claims, h, hw]

/-- An event that is tested for room and begins a write that may begin is taken at the journal's turn. -/
theorem State.takesTurn_of_mayBegin {s t : State} {c : Instr} {b : Block} {w : Write} (h : s.mayBegin c b true = true)
    (ht : t.writes = s.writes ++ [w]) (hw : s.mayBegin c w.owner w.appends = true) :
    s.takesTurn c b t = t.leaveLine c := by
  simp [State.takesTurn, State.takes, State.claims, h, ht, hw]

@[simp] theorem ifRunning_of_running {s : State} (f : State → State) (h : s.isRunning = true) :
    ifRunning s f = .next (f s) := by simp [ifRunning, h]

@[simp] theorem ifRunning_of_stopped {s : State} (f : State → State) (h : s.isRunning = false) :
    ifRunning s f = .next s := by simp [ifRunning, h]

@[simp] theorem whenRunning_of_running {s : State} (c : Instr) (f : State → State) (h : s.isRunning = true) :
    whenRunning c s f = .next (s.takes c none (f s)) := by simp [whenRunning, h]

@[simp] theorem whenRunning_of_stopped {s : State} (c : Instr) (f : State → State) (h : s.isRunning = false) :
    whenRunning c s f = .next s := by simp [whenRunning, h]

end Sys2Proof.Machine
end

