-- ==== Sys2Proof/Laws/Ops.lean ====
section
/-! SUPPORT. For each operation that the blocks share, one lemma that says everything it can do; later proofs cite these
and do not unfold the operation. -/

namespace Sys2Proof.Machine

/-! ## The journal -/

/-- An append writes the record at the next sequence number or counts it as missed (R163). -/
theorem Journal.append_cases (j : Journal) (t : Nat) (o : Origin) (b : RecordBody) :
    (1 ≤ j.free ∧ j.append t o b = j.write t o b)
      ∨ (j.free = 0 ∧ j.append t o b = { j with overflow := some (countMissed j.overflow b.kind t) }) := by
  unfold Journal.append
  split
  · exact .inl ⟨‹_›, rfl⟩
  · exact .inr ⟨by omega, rfl⟩

/-- A record written takes the number after the newest, moves neither the release mark nor the summary, and touches one
place of the ring (R158, R163). -/
theorem Journal.write_spec (j : Journal) (t : Nat) (o : Origin) (b : RecordBody) :
    (j.write t o b).newest = (j.newest + 1) % seqModulus
      ∧ (j.write t o b).ring
          = j.ring.set (((j.newest + 1) % seqModulus) % ringPlaces) (some ⟨(j.newest + 1) % seqModulus, t, o, b⟩)
      ∧ (j.write t o b).mark = j.mark ∧ (j.write t o b).overflow = j.overflow :=
  ⟨rfl, rfl, rfl, rfl⟩

/-- No append moves the release mark. -/
theorem Journal.append_mark (j : Journal) (t : Nat) (o : Origin) (b : RecordBody) :
    (j.append t o b).mark = j.mark := by
  rcases j.append_cases t o b with ⟨_, h⟩ | ⟨_, h⟩
  · exact (congrArg Journal.mark h).trans rfl
  · exact (congrArg Journal.mark h).trans rfl

/-- The appends of one write leave the release mark where it is. -/
theorem Journal.appendAll_mark (l : List RecordBody) (j : Journal) (t : Nat) (o : Origin) :
    (j.appendAll t o l).mark = j.mark := by
  induction l generalizing j with
  | nil => rfl
  | cons r rest ih => exact (ih _).trans (j.append_mark t o r)

/-- The records of two lists appended in order. -/
theorem Journal.appendAll_append (l m : List RecordBody) (j : Journal) (t : Nat) (o : Origin) :
    j.appendAll t o (l ++ m) = (j.appendAll t o l).appendAll t o m := by
  induction l generalizing j with
  | nil => rfl
  | cons r rest ih => exact ih _

/-! ## An event's write -/

/-- What an event's write leaves: the stored state of the event with its journal, and one more write at the end of
those on their way; every other field as the event has it (R2, R159). -/
theorem Event.commitSetting_spec (e : Event) (b : Block) (c : Option Nat) (m : Option RetentionMark) :
    e.commitSetting b c m
      = { e.state with
          nv := e.image
          writes := e.state.writes ++ [{
            owner := b, image := e.image, appends := !e.records.isEmpty, setsClock := c,
            follow := e.follow ++ (journalNotices e.low e.nv.journal.free e.journal.free).map .notice,
            clears := m }] } := rfl

/-! ## The ports -/

/-- An answer to a port either finds no request at work and changes nothing, or is discarded, or becomes the port's
response (R176). -/
theorem State.answerByte_cases (s : State) (p : Port) (status : Byte) (payload : List Byte) :
    (s.answerByte p status payload = s
        ∧ ∀ r, (s.ports.get p).state = .working → (s.ports.get p).request = some r → False)
      ∨ (∃ r, (s.ports.get p).state = .working ∧ (s.ports.get p).request = some r ∧ (s.ports.get p).discard = true
          ∧ s.answerByte p status payload
            = s.updatePort p (fun u => { u with state := .idle, request := none, discard := false }))
      ∨ (∃ r, (s.ports.get p).state = .working ∧ (s.ports.get p).request = some r ∧ (s.ports.get p).discard = false
          ∧ s.answerByte p status payload
            = s.respond p { code := r.code.byte, status := status, payload := payload }) := by
  unfold State.answerByte
  dsimp only
  split
  · rename_i r hs hr
    split
    · exact .inr (.inl ⟨r, hs, hr, ‹_›, rfl⟩)
    · exact .inr (.inr ⟨r, hs, hr, Bool.eq_false_iff.mpr ‹_›, rfl⟩)
  · rename_i h
    exact .inl ⟨rfl, fun r hs hr => h r hs hr⟩

/-- A response put in a slot touches the ports and the L-port's transmitter, and nothing else. -/
theorem State.respond_frame (s : State) (p : Port) (f : Frame) :
    ∃ ps u, s.respond p f = { s with ports := ps, lPort := u } := by
  cases p
  · exact ⟨_, s.lPort, rfl⟩
  · exact ⟨_, _, rfl⟩

/-- An owner's answer touches the ports and the L-port's transmitter, and nothing else. -/
theorem State.answerByte_frame (s : State) (p : Port) (status : Byte) (payload : List Byte) :
    ∃ ps u, s.answerByte p status payload = { s with ports := ps, lPort := u } := by
  rcases s.answerByte_cases p status payload with ⟨h, _⟩ | ⟨_, _, _, _, h⟩ | ⟨_, _, _, _, h⟩ <;> rw [h]
  · exact ⟨s.ports, s.lPort, rfl⟩
  · exact ⟨_, s.lPort, rfl⟩
  · exact s.respond_frame p _

/-- A raise at a port is masked and changes nothing, or puts the kind in that port's set (R186, R187). -/
theorem State.raiseAt_cases (s : State) (k : NoticeKind) (p : Port) :
    (noticeMasked (s.stored.settings.masks.get p) k = true ∧ s.raiseAt k p = s)
      ∨ (noticeMasked (s.stored.settings.masks.get p) k = false
          ∧ s.raiseAt k p = s.updatePort p (fun u => { u with notices := raiseInto k s.clock u.notices })) := by
  unfold State.raiseAt
  split
  · exact .inl ⟨‹_›, rfl⟩
  · exact .inr ⟨Bool.eq_false_iff.mpr ‹_›, rfl⟩

/-- A raise touches the ports and nothing else. -/
theorem State.raise_frame (s : State) (k : NoticeKind) : ∃ ps, s.raise k = { s with ports := ps } := by
  unfold State.raise
  rcases s.raiseAt_cases k .a with ⟨_, h⟩ | ⟨_, h⟩ <;> rw [h]
  · rcases s.raiseAt_cases k .l with ⟨_, g⟩ | ⟨_, g⟩ <;> rw [g] <;> exact ⟨_, rfl⟩
  · generalize ht : s.updatePort .a _ = t
    rcases t.raiseAt_cases k .l with ⟨_, g⟩ | ⟨_, g⟩ <;> rw [g, ← ht] <;> exact ⟨_, rfl⟩

/-- After a raise that is not masked, the set holds the kind at the clock. -/
theorem raiseInto_mem (k : NoticeKind) (t : Nat) (l : List Notice) : (⟨k, t⟩ : Notice) ∈ raiseInto k t l := by
  induction l with
  | nil => exact List.mem_singleton.mpr rfl
  | cons n rest ih =>
    unfold raiseInto
    split
    · exact List.mem_cons_self
    · exact List.mem_cons_of_mem _ ih

/-- A raise leaves the notices of the other kinds as they are. -/
theorem raiseInto_other (k : NoticeKind) (t : Nat) (l : List Notice) (n : Notice) (h : n.kind ≠ k) :
    n ∈ raiseInto k t l ↔ n ∈ l := by
  have hne : n ≠ ⟨k, t⟩ := fun e => h (e ▸ rfl)
  induction l with
  | nil => simp [raiseInto, hne]
  | cons m rest ih =>
    unfold raiseInto
    split
    · rename_i hm
      have : n ≠ m := fun e => h (e ▸ hm)
      simp [hne, this]
    · simp [ih]

/-! ## The quanta -/

/-- The pulse unit has a quantum to offer and offers it, or nothing changes (R51). -/
theorem State.offerQuantum_cases (s : State) :
    (0 < s.pulse.waiting ∧ s.pulse.outstanding = false
        ∧ s.offerQuantum = { s with
            pulse := { s.pulse with waiting := s.pulse.waiting - 1, outstanding := true }
            arrivals := s.arrivals ++ [.quantum] })
      ∨ ((s.pulse.waiting = 0 ∨ s.pulse.outstanding = true) ∧ s.offerQuantum = s) := by
  unfold State.offerQuantum
  split
  · rename_i h
    exact .inl ⟨h.1, h.2, rfl⟩
  · rename_i h
    refine .inr ⟨?_, rfl⟩
    cases ho : s.pulse.outstanding
    · exact .inl (Nat.eq_zero_of_not_pos fun hw => h ⟨hw, ho⟩)
    · exact .inr rfl

/-- Quanta added touch the pulse unit and the arrival list, and nothing else. -/
theorem State.addQuanta_frame (s : State) (n : Nat) :
    ∃ u l, s.addQuanta n = { s with pulse := u, arrivals := l } := by
  unfold State.addQuanta
  generalize ht : ({ s with pulse := { s.pulse with waiting := min 65535 (s.pulse.waiting + n) } } : State) = t
  rcases t.offerQuantum_cases with ⟨_, _, h⟩ | ⟨_, h⟩ <;> rw [h, ← ht] <;> exact ⟨_, _, rfl⟩

/-! ## The code unit's queue -/

/-- The expiry of a port's lockout joins the queue, or nothing changes (R86). -/
theorem State.queueExpiry_cases (s : State) (p : Port) :
    (∃ l, s.nv.lockouts.get p = some l ∧ l.deadline ≤ s.clock ∧ s.code.queue.contains (.lockoutExpiry p) = false
        ∧ s.queueExpiry p = s.queueCode (.lockoutExpiry p))
      ∨ s.queueExpiry p = s := by
  unfold State.queueExpiry
  split
  · split
    · rename_i l hl h
      exact .inl ⟨l, hl, h.1, h.2, rfl⟩
    · exact .inr rfl
  · exact .inr rfl

/-- The deadlines that the clock has reached touch the code unit's queue and nothing else (R86, R93). -/
theorem State.queueDeadlines_frame (s : State) :
    ∃ q, s.queueDeadlines = { s with code := { s.code with queue := q } } := by
  have lapse : ∃ q, s.queueLapse = { s with code := { s.code with queue := q } } := by
    unfold State.queueLapse
    split
    · split <;> exact ⟨_, rfl⟩
    · exact ⟨_, rfl⟩
  have expiry (t : State) (p : Port) : ∃ q, t.queueExpiry p = { t with code := { t.code with queue := q } } := by
    rcases t.queueExpiry_cases p with ⟨_, _, _, _, h⟩ | h <;> rw [h] <;> exact ⟨_, rfl⟩
  obtain ⟨q, h⟩ := lapse
  unfold State.queueDeadlines
  rw [h]
  obtain ⟨q₁, h₁⟩ := expiry { s with code := { s.code with queue := q } } .a
  rw [h₁]
  obtain ⟨q₂, h₂⟩ := expiry { s with code := { s.code with queue := q₁ } } .l
  exact ⟨q₂, h₂⟩

/-- A code that waits at the journal is the code in service, of that port, with its append on the list (R159). -/
theorem State.codeAtJournal_spec {s : State} {p : Port} {c : CodeService} (h : s.codeAtJournal p = some c) :
    s.code.service = some c ∧ c.port = p ∧ .append .code (.submitCode p) ∈ s.journalWaiting := by
  unfold State.codeAtJournal at h
  split at h
  · split at h
    · rename_i hs hc
      cases h
      exact ⟨hs, hc.1, by simpa using hc.2⟩
    · cases h
  · cases h

/-- A code in service goes on by its half's taking or by its refusal at CHECK, or waits and stays in service. -/
theorem State.goOn_cases (s : State) (c : CodeService) :
    (∃ b, s.goOn c = s.waits (.submitCode c.port) b)
      ∨ c.atOwner = true ∧ s.goOn c = (s.applyHalf c (s.halfOf c)).leaveLine (.submitCode c.port)
      ∨ c.atOwner = false ∧ s.goOn c = (s.refuseAtCheck c).leaveLine (.submitCode c.port) := by
  unfold State.goOn State.takesTurn
  split
  · rename_i h
    rcases s.takes_spec (.submitCode c.port) (some .code) (s.applyHalf c (s.halfOf c)) with h' | ⟨x, _, _, h'⟩
    · exact .inr (.inl ⟨h, h'.1⟩)
    · exact .inl ⟨x.1, h'⟩
  · rename_i h
    rcases s.takes_spec (.submitCode c.port) none (s.refuseAtCheck c) with h' | ⟨x, _, _, h'⟩
    · exact .inr (.inr ⟨by simpa using h, h'.1⟩)
    · exact .inl ⟨x.1, h'⟩

/-! ## Deadlines -/

/-- A held deadline never passes the clock's largest value, and is the plain sum where that fits (R85). -/
theorem deadlineHeld_spec (c d : Nat) :
    deadlineHeld c d ≤ maxClock ∧ (c + d ≤ maxClock → deadlineHeld c d = c + d) := by
  unfold deadlineHeld
  omega

/-- A deadline brought back lies within its duration of the clock, and never moves later (R87, R112, R153). -/
theorem limitDeadline_spec (c d x : Nat) : limitDeadline c d x ≤ c + d ∧ limitDeadline c d x ≤ x := by
  unfold limitDeadline
  split <;> omega

end Sys2Proof.Machine
end

