-- ==== Sys2Proof/Laws/Power.lean ====
section
/-! SUPPORT. What an event that waits, a stop and start-up can do, each said once; later proofs cite these and do not
unfold the operations. -/

namespace Sys2Proof.Machine

/-! ## Events that wait -/

/-- An event of the tamper monitor that may not be taken leaves the state as it was. -/
theorem State.takeTamper_waits (s : State) (c : Instr) (e : TamperEvent) (f : State → State)
    (h : s.tamperTakes e = false) : s.takeTamper c e f = s := by
  simp [State.takeTamper, h]

/-! ## Stops and start-up -/

/-- What a stop leaves of the writes on their way: the first of them are stored, and the rest are lost. -/
theorem State.survivors_spec (ws : List Write) (s : State) :
    ∃ survive lost choices, ws = survive ++ lost ∧
      State.survivors ws s =
        { s with
          stored := (survive.getLast?.map (·.image)).getD s.stored
          ret := survive.foldl (fun r w => r.after w) s.ret
          choices := choices } := by
  induction ws generalizing s with
  | nil => exact ⟨[], [], s.choices, rfl, rfl⟩
  | cons w rest ih =>
    unfold State.survivors
    split
    · obtain ⟨survive, lost, choices, rfl, h⟩ := ih (s.store w).countChoice
      refine ⟨w :: survive, lost, choices, rfl, ?_⟩
      rw [h]
      cases survive with
      | nil => rfl
      | cons x xs => simp [State.store, State.countChoice, List.getLast?_cons]
    · exact ⟨[], w :: rest, s.choices + 1, rfl, rfl⟩

/-- A step of start-up that makes no write passes to the next at once, and one that makes a write waits for its storing
(R205). -/
theorem State.runStartUp_cons (s : State) (q : StartSequence) (step : StartStep) (rest : List StartStep) :
    s.runStartUp q (step :: rest) =
      (let t := s.startStep q step
      if t.writes.isEmpty then t.runStartUp q rest else { t with power := .starting { q with steps := rest } }) := rfl

end Sys2Proof.Machine
end

