-- ==== Sys2Proof/Laws/Supply.lean ====
section
/-! SUPPORT. What the operations of the supply controller and the contactor driver can do to an event, said once:
`Event.Within` bounds it, and each operation is within that bound. -/

namespace Sys2Proof.Machine

/-- The event `e'` has been made from `e` by operations of the supply controller and the contactor driver alone: beyond
the hold list, the policy, the arm deadline, the contactor state and target, and the driver, nothing of the state
differs, and records and what follows are only added. -/
structure Event.Within (e e' : Event) : Prop where
  origin : e'.origin = e.origin
  low : e'.low = e.low
  state : e'.state.withStoreOf e.state = e.state
  writes : e'.state.writes = e.state.writes
  nv : e'.nv.withSupplyOf e.nv = e.nv
  journal : e'.nv.journal = e.nv.journal
  records : ∃ rs, e'.records = e.records ++ rs
  follow : ∃ fs, e'.follow = e.follow ++ fs

theorem Event.Within.refl (e : Event) : e.Within e :=
  ⟨rfl, rfl, rfl, rfl, rfl, rfl, ⟨[], by simp⟩, ⟨[], by simp⟩⟩

theorem State.withStoreOf_trans {a b c : State} (h : b.withStoreOf a = a) (k : c.withStoreOf b = b) :
    c.withStoreOf a = a := by
  rw [← h, ← k]; rfl

theorem Nv.withSupplyOf_trans {a b c : Nv} (h : b.withSupplyOf a = a) (k : c.withSupplyOf b = b) :
    c.withSupplyOf a = a := by
  rw [← h, ← k]; rfl

theorem Event.Within.trans {a b c : Event} (h : a.Within b) (k : b.Within c) : a.Within c := by
  obtain ⟨rs, hr⟩ := h.records
  obtain ⟨fs, hf⟩ := h.follow
  obtain ⟨rs', kr⟩ := k.records
  obtain ⟨fs', kf⟩ := k.follow
  exact
    ⟨k.origin.trans h.origin, k.low.trans h.low, State.withStoreOf_trans h.state k.state, k.writes.trans h.writes,
      Nv.withSupplyOf_trans h.nv k.nv, k.journal.trans h.journal,
      ⟨rs ++ rs', by rw [kr, hr, List.append_assoc]⟩, ⟨fs ++ fs', by rw [kf, hf, List.append_assoc]⟩⟩

theorem Event.within_log (e : Event) (r : RecordBody) : e.Within (e.log r) :=
  ⟨rfl, rfl, rfl, rfl, rfl, rfl, ⟨[r], rfl⟩, ⟨[], by simp⟩⟩

theorem Event.within_andThen (e : Event) (f : FollowUp) : e.Within (e.andThen f) :=
  ⟨rfl, rfl, rfl, rfl, rfl, rfl, ⟨[], by simp⟩, ⟨[f], rfl⟩⟩

theorem Event.within_notify (e : Event) (k : NoticeKind) : e.Within (e.notify k) := e.within_andThen (.notice k)

theorem Event.within_updateDriver (e : Event) (f : DriverUnit → DriverUnit) : e.Within (e.updateDriver f) :=
  ⟨rfl, rfl, rfl, rfl, rfl, rfl, ⟨[], by simp⟩, ⟨[], by simp⟩⟩

theorem Event.within_updateNv (e : Event) (f : Nv → Nv) (h : (f e.nv).withSupplyOf e.nv = e.nv)
    (hj : (f e.nv).journal = e.nv.journal) : e.Within (e.updateNv f) :=
  ⟨rfl, rfl, rfl, rfl, h, hj, ⟨[], by simp⟩, ⟨[], by simp⟩⟩

theorem Event.within_holds (e : Event) (f : HoldList → HoldList) :
    e.Within (e.updateNv (fun n => { n with holds := f n.holds })) :=
  ⟨rfl, rfl, rfl, rfl, rfl, rfl, ⟨[], by simp⟩, ⟨[], by simp⟩⟩

theorem Event.within_ite (e a b : Event) (c : Prop) [Decidable c] (ha : e.Within a) (hb : e.Within b) :
    e.Within (if c then a else b) := by
  split <;> assumption

theorem Event.within_enter (e : Event) (c : Contactor) : e.Within (e.enter c) := by
  unfold Event.enter
  dsimp only
  split <;> split <;>
    refine ⟨rfl, rfl, rfl, rfl, rfl, rfl, ⟨[], (List.append_nil _).symm⟩, ?_⟩
  · exact ⟨[.notice .supplyChanged, .notice .armed], List.append_assoc _ _ _⟩
  · exact ⟨[.notice .armed], rfl⟩
  · exact ⟨[.notice .supplyChanged], rfl⟩
  · exact ⟨[], (List.append_nil _).symm⟩

theorem Event.within_beginDrive (e : Event) (d : Position) (c : DriveCause) (o : Origin) :
    e.Within (e.beginDrive d c o) := by
  unfold Event.beginDrive
  exact ((Event.within_updateNv _ _ (by rfl) (by rfl)).trans (Event.within_enter _ _)).trans (Event.within_updateDriver _ _)

theorem Event.within_dropArmDeadline (e : Event) : e.Within e.dropArmDeadline := Event.within_updateNv _ _ rfl rfl

theorem Event.within_giveClose (e : Event) (o : Origin) : e.Within (e.giveClose o) :=
  e.within_dropArmDeadline.trans (Event.within_beginDrive _ _ _ _)

theorem Event.within_giveArm (e : Event) (d : Option ArmDeadline) : e.Within (e.giveArm d) :=
  (Event.within_updateNv e _ (by rfl) (by rfl)).trans (Event.within_enter _ _)

theorem Event.within_giveDisarm (e : Event) : e.Within e.giveDisarm :=
  e.within_dropArmDeadline.trans (Event.within_enter _ _)

theorem Event.within_armBy (e : Event) (p : Policy) : e.Within (e.armBy p) := by
  cases p
  · exact e.within_giveClose _
  · exact e.within_giveArm _
  · exact e.within_giveArm _

theorem Event.within_commandForFirm (e : Event) (k : HoldKind) : e.Within (e.commandForFirm k) := by
  unfold Event.commandForFirm
  split
  · exact Event.within_ite _ _ _ _ (e.within_enter _) (e.within_beginDrive _ _ _)
  · exact Event.within_ite _ _ _ _ (e.within_beginDrive _ _ _) (Event.Within.refl e)
  · exact Event.Within.refl e

theorem Event.within_commandForEmptied (e : Event) (p : Policy) : e.Within (e.commandForEmptied p) := by
  unfold Event.commandForEmptied
  split
  · exact e.within_armBy p
  · exact e.within_enter _
  · exact Event.Within.refl e

theorem Event.within_place (e : Event) (k : HoldKind) (phase : HoldPhase) (byRequest : Bool) (restore : Nat) :
    e.Within (e.place k phase byRequest restore) := by
  unfold Event.place
  refine Event.Within.trans (e.within_holds (fun h => h.place k phase byRequest restore)) ?_
  dsimp only
  exact Event.within_ite _ _ _ _ ((Event.within_log _ _).trans (Event.within_giveDisarm _))
    (Event.within_ite _ _ _ _ ((Event.within_log _ _).trans (Event.within_commandForFirm _ _)) (Event.within_log _ _))

theorem Event.within_makeFirm (e : Event) (k : HoldKind) (left : PhaseName) (cause : FirmCause) :
    e.Within (e.makeFirm k left cause) := by
  unfold Event.makeFirm
  exact ((Event.within_updateNv e _ (by rfl) (by rfl)).trans (Event.within_log _ _)).trans (Event.within_commandForFirm _ _)

theorem Event.within_remove (e : Event) (k : HoldKind) (cause : RemovalCause) (named : Option Policy)
    (policy : Policy) : e.Within (e.remove k cause named policy) := by
  unfold Event.remove
  split
  · exact Event.Within.refl e
  · refine Event.Within.trans (e.within_holds (fun h => h.remove k)) ?_
    dsimp only
    split
    · exact ((Event.within_updateNv _ _ (by rfl) (by rfl)).trans (Event.within_log _ _)).trans
        (Event.within_commandForEmptied _ _)
    · exact (Event.within_log _ _).trans
        (Event.within_ite _ _ _ _ (Event.within_enter _ _) (Event.Within.refl _))

theorem Event.within_creditCondition (e : Event) (before after : Bool) : e.Within (e.creditCondition before after) := by
  unfold Event.creditCondition
  refine Event.within_ite _ _ _ _ ?_ (Event.within_ite _ _ _ _ (e.within_remove _ _ _ _) (Event.Within.refl e))
  exact Event.Within.trans (Event.within_ite _ _ _ _ (e.within_place _ _ _ _) (Event.Within.refl e))
    (Event.within_notify _ _)

theorem Event.within_tamperCondition (e : Event) (before after : Bool) : e.Within (e.tamperCondition before after) := by
  unfold Event.tamperCondition
  exact Event.within_ite _ _ _ _ (Event.within_ite _ _ _ _ (Event.Within.refl e) (e.within_place _ _ _ _))
    (Event.within_ite _ _ _ _ (e.within_remove _ _ _ _) (Event.Within.refl e))

theorem Event.within_tamperResults (e : Event) (before : Nv) (detected : Bool) :
    e.Within (e.tamperResults before detected) := by
  unfold Event.tamperResults
  exact (e.within_tamperCondition _ _).trans
    (Event.within_ite _ _ _ _ (Event.within_notify _ _) (Event.Within.refl _))

theorem Event.within_handCeiling (e : Event) (before : Nv) : e.Within (e.handCeiling before) := by
  unfold Event.handCeiling
  exact Event.within_ite _ _ _ _ (e.within_andThen _) (Event.Within.refl e)

theorem Event.within_leaveDeferred (e : Event) (cause : FirmCause) : e.Within (e.leaveDeferred cause) := by
  unfold Event.leaveDeferred
  exact Event.within_ite _ _ _ _ (Event.within_updateNv e _ (by rfl) (by rfl)) (e.within_makeFirm _ _ _)

theorem Event.within_windowEdge (e : Event) (edge : WindowEdge) : e.Within (e.windowEdge edge) := by
  unfold Event.windowEdge
  split
  · exact Event.within_ite _ _ _ _ (Event.Within.refl e) (Event.within_updateNv e _ (by rfl) (by rfl))
  · exact e.within_leaveDeferred _
  · exact Event.Within.refl e

theorem Event.within_ceilingReached (e : Event) : e.Within e.ceilingReached := by
  unfold Event.ceilingReached
  split
  · exact e.within_leaveDeferred _
  · exact Event.Within.refl e

theorem Event.within_graceReached (e : Event) (clock : Nat) (k : HoldKind) :
    e.Within (e.graceReached clock k) := by
  unfold Event.graceReached
  split
  · exact Event.within_ite _ _ _ _ (e.within_makeFirm _ _ _) (Event.Within.refl e)
  · exact Event.Within.refl e

theorem Event.within_graceEnds (e : Event) (cause : FirmCause) (k : HoldKind) : e.Within (e.graceEnds cause k) := by
  unfold Event.graceEnds
  split
  · exact e.within_makeFirm _ _ _
  · exact Event.Within.refl e

theorem Event.within_restoreReached (e : Event) (clock : Nat) : e.Within (e.restoreReached clock) := by
  unfold Event.restoreReached
  split
  · exact Event.within_ite _ _ _ _ (e.within_remove _ _ _ _) (Event.Within.refl e)
  · exact Event.Within.refl e

theorem Event.within_limitDeadlines (e : Event) (clock : Nat) : e.Within (e.limitDeadlines clock) := by
  unfold Event.limitDeadlines
  exact Event.within_updateNv e _ (by rfl) (by rfl)

theorem Event.within_press (e : Event) (r : PressResult) : e.Within (e.press r) := by
  unfold Event.press
  split
  · exact e.within_giveClose _
  · exact e.within_log _
  · exact Event.Within.refl e

end Sys2Proof.Machine
end

