-- ==== Sys2Proof/Tests/Slice0.lean ====
section
/-! SUPPORT. Tests of the model, each on one step of a small state, with results taken from the spec (the rule is named
at each), and for every statement with hypotheses a state that meets them all (`witness_...`). -/

namespace Sys2Proof.Tests

open Sys2Proof Sys2Proof.Machine

/-! ## Helpers -/

/-- The state of a next outcome. -/
def after : Host.Outcome State Fault Refusal → State
  | .next t => t
  | .fault f => nomatch f
  | .refused _ => State.reset

/-- The state with a request that waits for its owner. -/
def asks (s : State) (p : Port) (c : RequestCode) (payload : List Byte) : State :=
  s.updatePort p (fun u =>
    { u with state := .working, request := some { code := c, payload := payload, handedSetting := none, taken := false } })

/-- The state with a setting handed on to its block. -/
def hands (s : State) (p : Port) (n v : Nat) : State := (asks s p .writeSetting []).handSetting p n v

/-- The state with the clock at a value, valid. -/
def clockAt (s : State) (t : Nat) : State := { s with ret := { s.ret with clock := t, valid := true } }

/-- The stored state changed, as the blocks and the store hold it. -/
def holding (s : State) (f : Nv → Nv) : State := { s with nv := f s.nv, stored := f s.stored }

/-- The state with a number of free places in its journal (the records themselves left out). -/
def freeIs (s : State) (n : Nat) : State :=
  holding s (fun v => { v with journal := { v.journal with mark := (2 ^ 32 + v.journal.newest + n - 512) % 2 ^ 32 } })

/-- The state with the service window open to a closing time. -/
def opened (s : State) (closing minutes : Nat) : State :=
  holding s (fun v => { v with window := some { closing := closing, minutes := minutes } })

/-- The state with a contactor state. -/
def contactorIs (s : State) (c : Contactor) : State := holding s (fun v => { v with contactor := c })

/-- The state with an application waiting at its owner. -/
def applies (s : State) (kind value sub : Nat) : State :=
  { s with
    arrivals := if kind ≤ 2 then [.code] else []
    tamper := { s.tamper with arrivals := if kind = 4 ∨ kind = 5 then [.code] else [] }
    code :=
      { queue := []
        service :=
          some
            { port := .l, digits := [], kind := kind, issue := 42, value := value, sub := sub, taken := s.clock
              atOwner := true } } }

/-- The state with an event waiting at the tamper monitor. -/
def tamperEvent (s : State) (e : TamperEvent) : State := { s with tamper := { s.tamper with arrivals := [e] } }

/-- The state with a request waiting at the tamper monitor. -/
def asksTamper (s : State) (p : Port) (c : RequestCode) (payload : List Byte) : State :=
  tamperEvent (asks s p c payload) (.request p)

/-- The state with a journal request waiting at the journal. -/
def journalHeld (s : State) : State := { s with journalWaiting := [.request .a] }

/-- A start-up sequence with no step left, judged against a clock value. -/
def sequenceAt (clock : Nat) : StartSequence := { steps := [], intact := true, clock := clock, sense := .absent }

/-- The state with start-up under way and no step left. -/
def starting (s : State) : State := { s with power := .starting (sequenceAt s.clock) }

/-- An account with main credit, after a credit code of that amount. -/
def credited (n : Nat) : Account := { Account.delivered with credit := n, totalIn := n, lowCredit := .above }

/-- The state with an account record. -/
def accountIs (s : State) (a : Account) : State := holding s (fun v => { v with account := a })

/-- The state with a hold list. -/
def holdsAre (s : State) (h : HoldList) : State := holding s (fun v => { v with holds := h })

/-- No hold. -/
def noHolds : HoldList := { credit := none, remote := none, tamper := false, load := none, trip := false }

/-! ## Well-formed commands: each check refuses what fails it -/

theorem test_empty_frame_ill_formed : (Instr.lPortFrame []).wellFormed = false := by decide

theorem test_long_frame_ill_formed : (Instr.lPortFrame (List.replicate 62 0)).wellFormed = false := by decide

theorem test_longest_frame_well_formed : (Instr.lPortFrame (List.replicate 61 0)).wellFormed = true := by decide

theorem test_unmarked_transaction_ill_formed :
    (Instr.aPortRequestTransaction .idle [0x3C, 0x00]).wellFormed = false := by decide

theorem test_tamper_grace_ill_formed : (Instr.graceDeadline .tamper).wellFormed = false := by decide

/-! ## The step and the queue -/

theorem test_idle : step State.reset = .next State.reset := rfl

theorem test_front_command_first :
    step { State.reset with pending := [.buttonRelease, .clockAdvance] }
      = exec .buttonRelease { State.reset with pending := [.clockAdvance] } := rfl

theorem test_no_word_spells_a_command : State.withFetchWord State.reset 16 0xA5 = State.reset := rfl

/-! ## Chapter 1 -/

/-- R5: the four sources in order, at their boundaries. -/
theorem test_charge_sources :
    ({ Account.delivered with credit := 1, emergencyActive := true } : Account).chargeOne.credit = 0
      ∧ ({ Account.delivered with emergencyActive := true, emergencyUsed := 499 } : Account).chargeOne.emergencyUsed = 500
      ∧ ({ Account.delivered with emergencyActive := true, emergencyUsed := 500 } : Account).chargeOne.arrears = 1
      ∧ ({ Account.delivered with arrears := 99999999 } : Account).chargeOne.unbooked = 1 := by decide

/-- A state with a quantum at the account: 50 minor units of credit, a residue of 0.6 of one, and a price of 2.5
minor units each Wh in band 0. -/
def quantumState : State :=
  { accountIs (holding State.reset (fun v => { v with
      activeTariff := { v.activeTariff with prices := [2500000, 0, 0, 0] }, holds := noHolds }))
      { credited 50 with residue := 600000 } with
    arrivals := [.quantum], pulse := { State.reset.pulse with outstanding := true } }

theorem witness_QuantumIsCharged :
    quantumState.isRunning = true ∧ quantumState.accountTakes .quantum = true
      ∧ quantumState.mayBegin .energyQuantum .account true = true
      ∧ (journalHeld quantumState).mayBegin .energyQuantum .account false = true
      ∧ ({ Account.chargeOne^[3] quantumState.nv.account with residue := 100000 } : Account).exhausted
        = quantumState.nv.account.exhausted := by decide

/-- R8: 2.5 and 0.6 are 3.1 minor units: 3 are charged, 0.1 stays. -/
theorem test_quantum :
    (after (exec .energyQuantum quantumState)).nv.account.credit = 47
      ∧ (after (exec .energyQuantum quantumState)).nv.account.residue = 100000 := by decide

/-- A state with a day close of 31 days. -/
def dayState : State :=
  { accountIs State.reset { credited 1000 with debt := 300, dailyRecovery := 10 } with
    arrivals := [.dayClose]
    clockUnit := { State.reset.clockUnit with dayClose := some { days := 31, last := 40, passedOver := 0 } } }

theorem witness_DayCloseRepeatsTheDay :
    dayState.isRunning = true ∧ dayState.accountTakes .dayClose = true
      ∧ dayState.clockUnit.dayClose = some { days := 31, last := 40, passedOver := 0 }
      ∧ dayState.mayBegin .dayClose .account true = true := by decide

/-- R15: the debt of 300 is recovered at 10 a day until none is left. -/
theorem test_day_close :
    (after (exec .dayClose dayState)).nv.account.debt = 0
      ∧ (after (exec .dayClose dayState)).nv.account.credit = 700
      ∧ (after (exec .dayClose dayState)).nv.lastChargedDay = 40 := by decide

/-- A state with a credit code of an amount at the account: arrears 20, debt 100 at 25 percent. -/
def creditState (v : Nat) : State :=
  applies (accountIs State.reset { Account.delivered with arrears := 20, debt := 100, recoveryPercent := 25 }) 0 v 0

theorem witness_CreditCodeIsSplit :
    (freeIs (creditState 5000) 2).isRunning = true
      ∧ ((freeIs (creditState 5000) 2).accountApplication 0).isSome = true
      ∧ (freeIs (creditState 5000) 2).nv.account.overflows 5000 = false
      ∧ (freeIs (creditState 5000) 2).mayBegin .credit .account true = true
      ∧ 2 ≤ (freeIs (creditState 5000) 2).nv.journal.free := by decide

/-- R9: 20 to arrears, a quarter of the rest up to the debt of 100, the remainder to credit. -/
theorem test_credit :
    (after (exec .credit (creditState 5000))).nv.account.credit = 4880
      ∧ (after (exec .credit (creditState 120))).nv.account.debt = 75
      ∧ (after (exec .credit (creditState 120))).nv.account.credit = 75 := by decide

/-- A credit code that would carry C past its largest value. -/
def overflowState : State := applies (accountIs State.reset (credited 99999999)) 0 1 0

/-- For each kind of code that has an owner, its command, a state with it waiting there and no place free, and that it may
be taken. -/
def roomless : List (Instr × State × Bool) :=
  let at_ : Nat → State := fun kind => freeIs (applies State.reset kind 1 1) 0
  [(.credit, at_ 0, ((at_ 0).accountApplication 0).isSome), (.emergencyLimit, at_ 1, ((at_ 1).accountApplication 1).isSome),
    (.debtSet, at_ 2, ((at_ 2).accountApplication 2).isSome), (.bandPrice, at_ 3, ((at_ 3).applicationOf 3).isSome),
    (.service, at_ 4, ((at_ 4).tamperApplication 4).isSome), (.tamperClear, at_ 5, ((at_ 5).tamperApplication 5).isSome),
    (.reconnect, at_ 8, ((at_ 8).applicationOf 8).isSome)]

theorem witness_RefusedCodeChangesOnlyItsOwn :
    overflowState.isRunning = true ∧ (overflowState.accountApplication 0).isSome = true
      ∧ 2 ≤ overflowState.nv.journal.free ∧ overflowState.mayBegin .credit .account true = true
      ∧ overflowState.blockBusy .code .credit = false
      ∧ 99999999 < overflowState.nv.account.credit
        + (1 - min 1 overflowState.nv.account.arrears - min (1 - min 1 overflowState.nv.account.arrears)
            overflowState.nv.account.emergencyUsed - min overflowState.nv.account.debt (1 * 0 / 100))
      ∧ roomless.all (fun x => (x.2.1.nv.journal.free == 0) && x.2.1.isRunning && !x.2.1.blockBusy .code x.1
        && [Block.account, .clockTariff, .tamper, .supply].all (fun b => x.2.1.mayBegin x.1 b true) && x.2.2) = true := by
  decide

/-- R10: C stays at its largest value, and its issue number is not spent; R164: without room the stage is ROOM. -/
theorem test_overflow :
    (after (exec .credit overflowState)).nv.account.credit = 99999999
      ∧ (after (exec .credit overflowState)).nv.spent = []
      ∧ ((after (exec .credit (freeIs overflowState 0))).nv.firstRefusal.map (·.stage)) = some .room := by decide

theorem witness_LimitAndDebtCodesReplace :
    ((freeIs (applies State.reset 1 700 0) 2).accountApplication 1).isSome = true
      ∧ 2 ≤ (freeIs (applies State.reset 1 700 0) 2).nv.journal.free
      ∧ ((freeIs (applies State.reset 2 9000 50) 1).accountApplication 2).isSome = true
      ∧ 1 ≤ (freeIs (applies State.reset 2 9000 50) 1).nv.journal.free
      ∧ (freeIs (applies State.reset 1 700 0) 2).mayBegin .emergencyLimit .account true = true
      ∧ (freeIs (applies State.reset 2 9000 50) 1).mayBegin .debtSet .account true = true := by decide

/-- R12, R13. -/
theorem test_limit_and_debt_codes :
    (after (exec .emergencyLimit (applies State.reset 1 700 0))).nv.account.emergencyLimit = 700
      ∧ (after (exec .debtSet (applies State.reset 2 9000 50))).nv.account.recoveryPercent = 50 := by decide

/-- A state with ACCEPT_EMERGENCY at the account. -/
def acceptState : State := { asks State.reset .a .acceptEmergency [] with arrivals := [.request .a] }

/-- A state with SET_DEBT of the largest values at the account. -/
def debtState : State :=
  { asks State.reset .l .setDebt (toBytes 4 99999999 ++ toBytes 1 50 ++ toBytes 4 99999) with arrivals := [.request .l] }

theorem witness_EmergencyAndDebtRequests :
    acceptState.isRunning = true ∧ (acceptState.accountRequest .a .acceptEmergency).isSome = true
      ∧ 0 < acceptState.nv.account.emergencyLimit
      ∧ acceptState.nv.account.credit ≤ acceptState.nv.settings.availabilityThreshold
      ∧ (debtState.accountRequest .l .setDebt).isSome = true := by decide

/-- R17: the exhausted condition ends with the acceptance, and the CREDIT hold with it. -/
theorem test_accept_emergency :
    (after (exec .acceptEmergency acceptState)).nv.account.emergencyActive = true
      ∧ (after (exec .acceptEmergency acceptState)).nv.holds.credit = none
      ∧ (after (exec .acceptEmergency acceptState)).nv.contactor = .armed := by decide

/-- R14. -/
theorem test_set_debt :
    (after (exec .setDebt debtState)).nv.account.dailyRecovery = 99999
      ∧ (after (exec .setDebt debtState)).ports.l.state = .working := by decide

/-- A state with SNAPSHOT of C and of the newest sequence number at the account. -/
def snapshotState : State := { asks State.reset .l .snapshot [0, 13] with arrivals := [.request .l] }

theorem witness_SnapshotReadsOneState :
    snapshotState.isRunning = true ∧ (snapshotState.accountRequest .l .snapshot).isSome = true := by decide

theorem test_snapshot :
    (after (exec (.snapshot .l) snapshotState)).ports.l.state = .ready
      ∧ (after (exec (.snapshot .l) snapshotState)).nv = snapshotState.nv := by
  exact ⟨by decide, rfl⟩

/-- A state with a new arrears ceiling at the account. -/
def ceilingState : State :=
  { hands (opened (accountIs State.reset { Account.delivered with arrears := 20 }) 300 5) .l 4 20 with
    arrivals := [.request .l] }

theorem witness_AccountSettingIsTaken :
    ceilingState.isRunning = true ∧ ceilingState.accountTakes (.request .l) = true
      ∧ ceilingState.settingOf .l = some (4, 20) ∧ (freeIs ceilingState 17).nv.journal.free = 17
      ∧ (freeIs ceilingState 17).settingOf .l = some (4, 20) ∧ (freeIs ceilingState 16).nv.journal.free = 16 := by decide

/-- R20: a ceiling set at the arrears hands "arrears ceiling reached". -/
theorem test_account_setting :
    (after (exec (.accountSettingChange .l) ceilingState)).newestFollow.contains .ceilingReached = true := by decide

/-! ## The laws: a state with a command waiting that meets each, and its next state -/

/-- The reset state with a command waiting that makes a write. -/
def waiting : State := { State.reset with pending := [.thermActive] }

/-- The next state of `waiting`. -/
def waited : State := after (step waiting)

theorem witness_step : step waiting = .next waited := rfl

theorem witness_AccountLawsAreKept :
    waiting.everyImage Nv.balanced = true ∧ waiting.everyImage Nv.emergencyLaw = true
      ∧ step waiting = .next waited := ⟨by decide, by decide, rfl⟩

theorem witness_PulseCountsStayInRange :
    waiting.pulse.inRange = true ∧ waiting.clockLaw = true ∧ step waiting = .next waited := ⟨by decide, by decide, rfl⟩

theorem witness_ClosedHoldsNoFirmHold : waiting.everyImage Nv.supplyLaw = true ∧ step waiting = .next waited :=
  ⟨by decide, rfl⟩

theorem witness_HoldsFollowTheirConditions :
    step waiting = .next waited ∧ waiting.everyImage Nv.creditLaw = true ∧ waiting.everyImage Nv.tamperLaw = true
      ∧ waiting.everyImage Nv.lapseLaw = true := ⟨rfl, by decide, by decide, by decide⟩

theorem witness_DriveMatchesTheContactor :
    waiting.driveLaw = true ∧ waiting.everyImage Nv.targetLaw = true ∧ waiting.armLaw = true
      ∧ step waiting = .next waited := ⟨by decide, by decide, by decide, rfl⟩

theorem witness_JournalLawIsKept :
    waiting.everyImage Nv.journalLaw = true ∧ waiting.writesLaw = true ∧ step waiting = .next waited :=
  ⟨by decide +kernel, by decide, rfl⟩

theorem witness_PortLawsAreKept :
    step waiting = .next waited ∧ waiting.portLaw = true ∧ waiting.noticeLaw = true := ⟨rfl, by decide, by decide⟩

/-! ## Chapter 2 -/

/-- R27, R28: a minute ends at 60, and the clock stays at its largest value. -/
theorem test_clock_advance :
    (after (exec .clockAdvance (clockAt State.reset 59))).clockUnit.minuteMark = true
      ∧ (after (exec .clockAdvance (clockAt State.reset 4294967294))).clock = 4294967295
      ∧ exec .clockAdvance (clockAt State.reset 4294967295) = .next (clockAt State.reset 4294967295) :=
  ⟨by decide, by decide, rfl⟩

/-- A schedule of two switch points: band 1 from minute 360, band 0 from minute 1320. -/
def daySchedule : List SwitchPoint := [{ minute := 360, band := 1 }, { minute := 1320, band := 0 }]

/-- R36: at a point, before the first point (the last point's band), and with no point. -/
theorem witness_BandIsOfTheLastPoint :
    strictlyAscending (daySchedule.map (·.minute)) = true ∧ scheduleBand daySchedule 360 = 1
      ∧ scheduleBand daySchedule 359 = 0 ∧ scheduleBand daySchedule 1319 = 1 ∧ scheduleBand [] 0 = 0 := by decide

/-- A tariff set within its ranges, with an activation time. -/
def tariffFor (time : Nat) : TariffSet :=
  { TariffSet.delivered with
    time := time, prices := [1, 2, 3, 4], workdaySchedule := daySchedule
    workdayWindows := [{ start := 1080, stop := 420 }] }

theorem witness_TariffFormRoundTrips :
    (tariffFor 5).valid = true ∧ ((asks State.reset .a .readTariff [1]).requestOf .a .readTariff).isSome = true := by
  decide

/-- R41: nothing is pending, so the pending set's form is empty. -/
theorem test_read_tariff :
    (after (exec (.readTariff .a) (asks State.reset .a .readTariff [1]))).ports.a.response
      = some { code := 9, status := 0, payload := [] } := by decide

/-- The clock at 1,000 and valid, with SET_CLOCK to a value. -/
def setClockTo (new : Nat) : State := asks (clockAt State.reset 1000) .l .setClock (toBytes 4 new)

theorem witness_SetClockIsTaken :
    (setClockTo 1900).isRunning = true ∧ ((setClockTo 1900).requestOf .l .setClock).isSome = true
      ∧ (setClockTo 1900).stepPasses 1900 = true ∧ (setClockTo 1901).stepPasses 1901 = false := by decide

/-- R31: a step of 901 is refused; R33: one of 900 is taken, and the clock moves as its write is stored. -/
theorem test_set_clock :
    (after (exec .setClock (setClockTo 1901))).writes = []
      ∧ (after (exec .writeStored (after (exec .setClock (setClockTo 1900))))).clock = 1900 := by decide

/-- STAGE_TARIFF of a set at the clock 1,000. -/
def stageAt (time : Nat) : State := asks (clockAt State.reset 1000) .l .stageTariff (encodeTariff (tariffFor time))

/-- A pending set at the clock 1,000. -/
def pendingAt (time : Nat) : State :=
  holding (clockAt State.reset 1000) (fun v => { v with pendingTariff := some (tariffFor time) })

theorem witness_TariffSetsAreStagedAndActivated :
    ((stageAt 1000).requestOf .l .stageTariff).isSome = true
      ∧ (pendingAt 1000).nv.pendingTariff = some (tariffFor 1000) ∧ (tariffFor 1000).time ≤ (pendingAt 1000).clock
      ∧ ((asks (pendingAt 1001) .l .cancelTariff []).requestOf .l .cancelTariff).isSome = true
      ∧ ((freeIs (applies State.reset 3 999 2) 1).applicationOf 3).isSome = true
      ∧ 1 ≤ (freeIs (applies State.reset 3 999 2) 1).nv.journal.free
      ∧ (freeIs (applies State.reset 3 999 2) 1).mayBegin .bandPrice .clockTariff true = true := by decide

/-- R38: a set whose time is reached is activated with its staging; one second later it waits. -/
theorem test_stage_tariff :
    (after (exec .stageTariff (stageAt 1000))).nv.activeTariff = tariffFor 1000
      ∧ (after (exec .stageTariff (stageAt 1001))).nv.pendingTariff = some (tariffFor 1001) := by decide

/-- R39, R40, R42. -/
theorem test_tariff_changes :
    (after (exec .tariffActivation (pendingAt 1000))).nv.activeTariff.prices = [1, 2, 3, 4]
      ∧ (after (exec .tariffActivation (pendingAt 1001))).nv.activeTariff.prices = [0, 0, 0, 0]
      ∧ (after (exec .cancelTariff (asks (pendingAt 1001) .l .cancelTariff []))).nv.pendingTariff = none
      ∧ (after (exec .bandPrice (applies State.reset 3 999 2))).nv.activeTariff.prices = [0, 0, 999, 0] := by decide

/-- The end of a full minute with MAGNETIC ACTIVE: a fallback of 3, two phases' worth already counted, and a limit. -/
def minuteState : State :=
  let s := holding (clockAt State.reset 120) (fun v =>
    { v with
      settings := { v.settings with fallback := 3, demandLimit := 539 }
      tampers := { v.tampers with magnetic := { state := .active, count := 1, detected := some 0 } } })
  { s with
    clockUnit := { s.clockUnit with minuteMark := true }
    pulse := { s.pulse with minuteFull := true, minuteImports := 2 } }

theorem witness_MinuteEndIsJudged :
    minuteState.isRunning = true ∧ minuteState.clockUnit.minuteMark = true ∧ minuteState.pulse.minuteFull = true := by
  decide

/-- R57, R59: 3 × 3 − 2 quanta are inserted, and the demand is 60 × 9 W, over 539. -/
theorem test_minute_end :
    (after (exec (.minuteEnd false) minuteState)).pulse.lastDemand = 540
      ∧ (after (exec (.minuteEnd false) minuteState)).pulse.waiting = 6
      ∧ (after (exec (.minuteEnd false) minuteState)).supply.demandHanded = true := by decide

/-- A midnight at the beginning of a day, with day 1 the last charged. -/
def midnightState (day : Nat) : State :=
  let s := holding (clockAt State.reset (86400 * day)) (fun v => { v with lastChargedDay := 1 })
  { s with clockUnit := { s.clockUnit with midnightMark := true } }

/-- A midnight with a SET_CLOCK of the clock unit being stored. -/
def midnightSetState : State :=
  after (exec .setClock (asks (midnightState 3) .l .setClock (toBytes 4 (86400 * 3))))

theorem witness_MidnightHandsTheOwedDays :
    (midnightState 3).isRunning = true ∧ (midnightState 3).clockUnit.midnightMark = true
      ∧ (midnightState 3).writing .clockTariff = false ∧ midnightSetState.isRunning = true
      ∧ midnightSetState.clockUnit.midnightMark = true ∧ midnightSetState.writing .clockTariff = true := by decide

/-- R46: one day is owed; of 40, the last 31 are closed and 9 passed over; at the next day's end, none. R32: a midnight
waits while a SET_CLOCK is stored. -/
theorem test_midnight :
    (after (exec .midnight (midnightState 3))).clockUnit.dayClose = some { days := 1, last := 2, passedOver := 0 }
      ∧ (after (exec .midnight (midnightState 42))).clockUnit.dayClose
        = some { days := 31, last := 41, passedOver := 9 }
      ∧ (after (exec .midnight (midnightState 2))).clockUnit.dayClose = none
      ∧ exec .midnight midnightSetState = .next midnightSetState := ⟨by decide, by decide, by decide, rfl⟩

/-! ## Chapter 3 -/

/-- The lines RESTING, the contactor OPEN, ten pulses while open counted. -/
def pulseState : State :=
  { State.reset with
    pulse :=
      { State.reset.pulse with importLines := .all .resting, exportLines := .all .resting, openPulses := 10
                               hourExports := 19 } }

theorem witness_ImportPulseIsAQuantum :
    pulseState.isRunning = true ∧ pulseState.nv.settings.phases.uses .l3 = true
      ∧ pulseState.pulse.importLines.get .l3 = .resting := by decide

/-- R63: the eleventh pulse while open is handed on; R51: its quantum goes to the account. -/
theorem test_import_pulse :
    (after (exec (.importPulse .l3) pulseState)).driver.pulsesHanded = true
      ∧ (after (exec (.importPulse .l3) pulseState)).arrivals = [.quantum]
      ∧ exec (.importPulse .l3) State.reset = .next State.reset := ⟨by decide, by decide, rfl⟩

/-- The end of a full hour with a number of export pulses. -/
def hourState (n : Nat) : State :=
  { State.reset with
    clockUnit := { State.reset.clockUnit with hourMark := true }
    pulse := { State.reset.pulse with hourFull := true, hourExports := n, reverseInput := true } }

theorem witness_ExportPulsesAreJudged :
    pulseState.nv.settings.phases.uses .l1 = true ∧ pulseState.pulse.exportLines.get .l1 = .resting
      ∧ (hourState 19).isRunning = true ∧ (hourState 19).clockUnit.hourMark = true := by decide

/-- R54: the twentieth export pulse of the hour reaches the threshold of 20. -/
theorem test_export_pulse :
    (after (exec (.exportPulse .l1) pulseState)).pulse.reverseInput = true
      ∧ (after (exec (.exportPulse .l1) pulseState)).pulse.minuteExports = 1 := by decide

/-- R54: an hour below the threshold ends reverse flow, one at it does not; R49: a line at rest. -/
theorem test_hour_end_and_resting :
    (after (exec .hourEnd (hourState 19))).pulse.reverseInput = false
      ∧ (after (exec .hourEnd (hourState 20))).pulse.reverseInput = true
      ∧ (after (exec (.pulseLineResting .imp .l2) State.reset)).pulse.importLines.l2 = .resting := by decide

/-! ## Chapter 4 -/

/-- The key of the worked code of 04_meter_codes.md. -/
def workedKey : Key := { mask := [3, 1, 4, 1, 5, 9, 2, 6, 5, 3, 5, 8, 9, 7, 9, 3], check := 1234 }

/-- The worked code of 04_meter_codes.md: a credit of 5,000 with issue number 42. -/
def workedCode : List Byte := [3, 1, 4, 1, 9, 1, 2, 6, 5, 3, 0, 8, 9, 7, 9, 3, 7, 9, 3, 3, 9]

theorem witness_MeterCodeRoundTrips :
    workedKey.mask.length = 16 ∧ (∀ m ∈ workedKey.mask, m ≤ 9) ∧ workedCode.length = 21
      ∧ ∀ b ∈ workedCode, b.toNat ≤ 9 := by decide

/-- R66, R67 on the worked code. -/
theorem test_worked_code :
    checkPasses workedKey workedCode = true ∧ codeKind workedKey workedCode = 0
      ∧ codeIssue workedKey workedCode = 42 ∧ codeValue workedKey workedCode = 5000
      ∧ codeSub workedKey workedCode = 0 ∧ makeCode workedKey 0 42 5000 0 = workedCode := by decide

/-- A code at the code unit. -/
def codeState (code : List Byte) : State :=
  let s := asks (clockAt (holding State.reset (fun v => { v with key := workedKey })) 100) .l .submitCode code
  { s with code := { s.code with queue := [.request .l] } }

/-- The worked code with its last digit wrong. -/
def wrongCode : List Byte := workedCode.set 20 8

/-- A lockout of the L-port to a deadline. -/
def locked (s : State) (deadline : Nat) : State :=
  holding s (fun v => { v with lockouts := { v.lockouts with l := some { deadline := deadline, minutes := 1 } } })

/-- A code that the code unit has taken from the L-port, its append waiting at the journal. -/
def goesOn (s : State) (c : CodeService) : State :=
  { s.serve c with journalWaiting := [.append .code (.submitCode .l)] }

/-- A code in service that failed its check. -/
def failedCode : CodeService :=
  { port := .l, digits := wrongCode, kind := 0, issue := 0, value := 0, sub := 0, taken := 100, atOwner := false }

theorem witness_CodeIsTestedInOrder :
    (codeState workedCode).codeTakes (.request .l) = true
      ∧ (codeState workedCode).blockBusy .code (.submitCode .l) = false
      ∧ (goesOn State.reset failedCode).codeAtJournal .l = some failedCode
      ∧ (goesOn State.reset failedCode).isRunning = true
      ∧ State.reset.codeAtJournal .l = none ∧ State.reset.codeTakes (.request .l) = false
      ∧ ((codeState workedCode).requestOf .l .submitCode).isSome = true
      ∧ checkPasses (codeState workedCode).nv.key workedCode = true
      ∧ (codeState workedCode).nv.lockouts.get .l = none
      ∧ ((locked (codeState workedCode) 130).nv.lockouts.get .l).isSome = true
      ∧ (workedCode.set 0 10).any (fun b => 9 < b.toNat) = true := by decide

/-- R70: the worked code waits at the account; R73, R74: a digit of 10, and a lockout with 30 seconds left. -/
theorem test_submit_code :
    (after (exec (.submitCode .l) (codeState workedCode))).arrivals = [.code]
      ∧ ((after (exec (.submitCode .l) (codeState (workedCode.set 0 10)))).nv.firstRefusal.map (·.outcome)) = some .format
      ∧ ((after (exec (.submitCode .l) (locked (codeState workedCode) 130))).nv.firstRefusal.map (·.outcome))
        = some .locked := by decide

/-- Four failures in a row at the L-port. -/
def fourFailures : State := holding (codeState wrongCode) (fun v => { v with failures := { v.failures with l := 4 } })

theorem witness_FailedCheckCountsAndLocks :
    fourFailures.codeTakes (.request .l) = true ∧ (fourFailures.requestOf .l .submitCode).isSome = true
      ∧ fourFailures.isRunning = true ∧ fourFailures.blockBusy .code (.submitCode .l) = false
      ∧ (goesOn fourFailures failedCode).codeAtJournal .l = some failedCode ∧ failedCode.atOwner = false
      ∧ (goesOn fourFailures failedCode).isRunning = true
      ∧ (∀ b ∈ wrongCode, b.toNat ≤ 9) ∧ fourFailures.nv.lockouts.get .l = none
      ∧ checkPasses fourFailures.nv.key wrongCode = false ∧ fourFailures.mayBegin (.submitCode .l) .code true = true
      ∧ (journalHeld (codeState wrongCode)).mayBegin (.submitCode .l) .code false = true
      ∧ (journalHeld (codeState wrongCode)).nv.lockoutSteps.get .l = 0
      ∧ (journalHeld (codeState wrongCode)).nv.failures.get .l < 4 := by decide

/-- R85: the fifth failure begins a lockout of one minute, from the taking although its append has waited. -/
theorem test_failed_check :
    (after (exec (.submitCode .l) fourFailures)).nv.lockouts.l = some { deadline := 160, minutes := 1 }
      ∧ (after (exec (.submitCode .l) (codeState wrongCode))).nv.failures.l = 1
      ∧ (after (exec (.submitCode .l) (goesOn (clockAt fourFailures 107) failedCode))).nv.lockouts.l
        = some { deadline := 160, minutes := 1 } := by decide

/-- A full spent list. -/
def fullSpent : List Nat := (List.range 32).map (fun i => 2 * i + 10)

theorem witness_SpentListIsSound :
    waiting.everyImage Nv.spentLaw = true ∧ waiting.serviceLaw = true ∧ step waiting = .next waited :=
  ⟨by decide, by decide, rfl⟩

/-- The lists of CreditCodeIsSplit's clause on spending: full, with a number to drop, and not full. -/
theorem witness_CreditCodeIsSplit_spending :
    strictlyAscending fullSpent = true ∧ fullSpent.length = 32 ∧ 11 ∉ fullSpent ∧ (∃ y ∈ fullSpent, y < 11)
      ∧ 10 ∉ spend 11 fullSpent ∧ strictlyAscending [3, 9] = true ∧ 7 ∉ [3, 9] := by decide

/-- R84: the smallest number makes room. -/
theorem test_spend : (spend 11 fullSpent).take 2 = [11, 12] ∧ spend 7 [3, 9] = [3, 7, 9] := by decide

/-- A key half of a kind with an issue number. -/
def half (kind : HalfKind) (issue : Nat) : PendingHalf :=
  { kind := kind, issue := issue, digits := [1, 2, 3, 4, 5, 6, 7, 8], check := 12, deadline := 1900 }

/-- A code in service that carries a key half. -/
def halfCode (kind issue : Nat) : CodeService :=
  { port := .l, digits := workedCode, kind := kind, issue := issue, value := 12345678, sub := 12, taken := 100
    atOwner := true }

/-- A pending KEY_FIRST half with issue number 8. -/
def halfPending : State := holding State.reset (fun v => { v with pendingHalf := some (half .first 8) })

theorem witness_KeyHalvesAreHeldOrPaired :
    (halfCode 7 9).atOwner = true ∧ (halfCode 7 9).kind = 7 ∧ (halfCode 6 9).kind = 6
      ∧ halfPending.mayBegin (.submitCode .l) .code true = true
      ∧ (journalHeld halfPending).mayBegin (.submitCode .l) .code true = false
      ∧ 2 ≤ (freeIs halfPending 2).nv.journal.free ∧ (freeIs halfPending 1).nv.journal.free = 1
      ∧ (freeIs halfPending 2).nv.pendingHalf = some (half .first 8) := by decide

/-- R90 to R92: 9 pairs with 8 and 10 does not; a half of the same kind replaces it. R78, R164: a half that has passed its
tests at the taking is applied at its turn with two places free, and has no room with one, which is tested before
PAIR. -/
theorem test_key_halves :
    let goOn : Nat → Nat → Nat → State := fun free kind issue =>
      after (exec (.submitCode .l) (goesOn (freeIs halfPending free) (halfCode kind issue)))
    (goOn 2 7 9).nv.key.check = 1212
      ∧ (goOn 2 7 10).nv.firstRefusal.map (fun r => (r.stage, r.outcome)) = some (.apply, .pair)
      ∧ (goOn 1 7 10).nv.firstRefusal.map (fun r => (r.stage, r.outcome)) = some (.room, .journalFull)
      ∧ (goOn 2 6 9).nv.pendingHalf.map (fun h => (h.kind, h.issue)) = some (.first, 9) := by decide

/-- An item at the front of the code unit's queue. -/
def queued (s : State) (i : CodeItem) : State := { s with code := { s.code with queue := [i] } }

/-- The first refusal record full. -/
def refusedOnce : State :=
  holding State.reset (fun v =>
    { v with firstRefusal := some { digits := workedCode, port := .l, stage := .check, outcome := .check, time := 5 } })

theorem witness_RefusalsReadAndDeadlinesTaken :
    (queued (asks State.reset .a .readFirstRefusal []) (.request .a)).codeTakes (.request .a) = true
      ∧ ((queued (asks State.reset .a .readFirstRefusal []) (.request .a)).requestOf .a .readFirstRefusal).isSome = true
      ∧ ((queued (asks refusedOnce .a .clearFirstRefusal []) (.request .a)).requestOf .a .clearFirstRefusal).isSome = true
      ∧ (queued (locked State.reset 60) (.lockoutExpiry .l)).codeTakes (.lockoutExpiry .l) = true
      ∧ (queued halfPending (.halfLapse true)).codeTakes (.halfLapse true) = true
      ∧ (queued halfPending (.halfLapse true)).nv.pendingHalf = some (half .first 8)
      ∧ (queued State.reset (.halfLapse false)).codeTakes (.halfLapse false) = true
      ∧ (queued (locked State.reset 61) .clockSet).codeTakes .clockSet = true := by decide

/-- R89. -/
theorem test_first_refusal :
    ((after (exec (.readFirstRefusal .a) (queued (asks State.reset .a .readFirstRefusal []) (.request .a)))).ports.a.response)
        = some { code := 7, status := 0, payload := [] }
      ∧ (after (exec (.clearFirstRefusal .a)
          (queued (asks refusedOnce .a .clearFirstRefusal []) (.request .a)))).nv.firstRefusal = none := by decide

/-- R86, R93, R87: an expiry, a lapse, and a deadline a second too far ahead. -/
theorem test_code_deadlines :
    (after (exec (.lockoutExpiry .l) (queued (locked State.reset 60) (.lockoutExpiry .l)))).nv.lockouts.l = none
      ∧ (after (exec .pendingHalfLapse (queued halfPending (.halfLapse true)))).nv.pendingHalf = none
      ∧ (after (exec .clockAdvance (clockAt halfPending 1899))).code.queue = [.halfLapse true]
      ∧ (after (exec .codeUnitClockSet (queued (locked State.reset 61) .clockSet))).nv.lockouts.l
        = some { deadline := 60, minutes := 1 } := by decide

/-! ## Chapter 5 -/

/-- The contactor CLOSED with an empty list and REMOTE_OPEN waiting, LOADHI as given. -/
def remoteOpenState (loadhi : Bool) : State :=
  let s := asks (contactorIs (holdsAre State.reset noHolds) .closed) .l .remoteOpen []
  { s with supply := { s.supply with loadhi := loadhi } }

theorem witness_RemoteOpenPlacesTheHold :
    (remoteOpenState true).isRunning = true ∧ ((remoteOpenState true).requestOf .l .remoteOpen).isSome = true
      ∧ (remoteOpenState true).nv.holds.remote = none ∧ (freeIs (remoteOpenState true) 17).nv.journal.free = 17 := by
  decide

/-- R102, R108, R114: GRACE for 120 seconds with LOADHI asserted; FIRM, and an open drive, without it. -/
theorem test_remote_open :
    (after (exec .remoteOpen (remoteOpenState true))).nv.holds.remote
        = some { phase := .grace 120, byRequest := true }
      ∧ (after (exec .remoteOpen (remoteOpenState true))).nv.contactor = .closed
      ∧ (after (exec .remoteOpen (remoteOpenState false))).nv.contactor = .opening
      ∧ (after (exec .remoteOpen (freeIs (remoteOpenState true) 16))).nv.holds.remote = none := by decide

/-- The REMOTE hold alone, FIRM, with the contactor OPEN. -/
def remoteHeld : State :=
  holdsAre State.reset { noHolds with remote := some { phase := .firm, byRequest := true } }

/-- REMOTE_CONNECT with a policy's bytes. -/
def connectState (policy minutes : Nat) : State :=
  asks remoteHeld .l .remoteConnect (toBytes 1 policy ++ toBytes 1 minutes)

theorem witness_RemoteHoldIsRemoved :
    ((connectState 1 0).requestOf .l .remoteConnect).isSome = true
      ∧ ((freeIs (applies remoteHeld 8 0 0) 2).applicationOf 8).isSome = true
      ∧ 2 ≤ (freeIs (applies remoteHeld 8 0 0) 2).nv.journal.free
      ∧ (freeIs (applies remoteHeld 8 0 0) 2).mayBegin .reconnect .supply true = true
      ∧ ((applies State.reset 8 0 0).applicationOf 8).isSome = true ∧ (applies State.reset 8 0 0).nv.holds.remote = none := by
  decide

/-- R83, R117: a RECONNECT code arms for a press. -/
theorem test_reconnect :
    (after (exec .reconnect (applies remoteHeld 8 0 0))).nv.contactor = .armed
      ∧ (after (exec .reconnect (applies remoteHeld 8 0 0))).nv.holds.remote = none := by decide

/-- The contactor CLOSED with "demand over limit" handed, LOADX asserted. -/
def demandState : State :=
  let s := contactorIs (holdsAre State.reset noHolds) .closed
  { s with supply := { s.supply with demandHanded := true, loadx := true } }

theorem witness_LoadAndTripArePlaced :
    demandState.isRunning = true ∧ demandState.supply.demandHanded = true ∧ demandState.supply.thermActive = false
      ∧ demandState.nv.holds.load = none ∧ demandState.nv.holds.trip = false := by decide

/-- R105, R106, R114: a LOAD hold waits while LOADX is asserted, a TRIP hold does not. -/
theorem test_load_and_trip :
    (after (exec .demandOverLimit demandState)).nv.contactor = .breakWait
      ∧ (after (exec .demandOverLimit demandState)).nv.holds.load = some 300
      ∧ (after (exec .thermActive demandState)).nv.contactor = .opening
      ∧ (after (exec .thermInactive State.reset)).supply.thermActive = false := by decide

/-- The LOAD hold alone, with the clock at a value. -/
def loadHeld (clock : Nat) : State := clockAt (holdsAre State.reset { noHolds with load := some 300 }) clock

/-- The TRIP hold alone, with CLEAR_TRIP at the L-port. -/
def tripState : State := asks (holdsAre State.reset { noHolds with trip := true }) .l .clearTrip []

theorem witness_LoadAndTripAreRemoved :
    (loadHeld 300).isRunning = true ∧ (loadHeld 300).nv.holds.load = some 300 ∧ 300 ≤ (loadHeld 300).clock
      ∧ (tripState.requestOf .l .clearTrip).isSome = true ∧ tripState.nv.holds.trip = true
      ∧ tripState.supply.thermActive = false := by decide

/-- R105: the restore time is reached at 300 and not at 299; R107. -/
theorem test_restore_and_clear_trip :
    (after (exec .restoreTime (loadHeld 300))).nv.holds.load = none
      ∧ (after (exec .restoreTime (loadHeld 299))).nv.holds.load = some 300
      ∧ (after (exec (.clearTrip .l) tripState)).nv.holds.trip = false := by decide

/-- A CREDIT hold in a phase, the contactor CLOSED, LOADHI asserted, with a window edge and "arrears ceiling reached"
handed. -/
def edgeState (phase : HoldPhase) (edge : WindowEdge) : State :=
  let s := contactorIs (holdsAre State.reset { noHolds with credit := some phase }) .closed
  { s with supply := { s.supply with edges := [edge], ceilingHanded := true, loadhi := true } }

theorem witness_DeferredCreditHoldIsMoved :
    (edgeState .deferred .stop).isRunning = true ∧ (edgeState .deferred .stop).supply.edges = [.stop]
      ∧ (edgeState (.grace 9) .start).supply.edges = [.start]
      ∧ (edgeState .deferred .stop).supply.ceilingHanded = true
      ∧ (edgeState .deferred .stop).mayBegin .friendlyWindowEdge .supply true = true
      ∧ (edgeState .deferred .stop).mayBegin .arrearsCeilingReached .supply true = true
      ∧ (journalHeld (edgeState .deferred .stop)).mayBegin .friendlyWindowEdge .supply true = false
      ∧ (edgeState .deferred .stop).nv.holds.credit = some .deferred := by decide

/-- R110, R111. -/
theorem test_window_edge :
    (after (exec .friendlyWindowEdge (edgeState .deferred .stop))).nv.holds.credit = some (.grace 120)
      ∧ (after (exec .friendlyWindowEdge (edgeState (.grace 9) .start))).nv.holds.credit = some .deferred
      ∧ (after (exec .arrearsCeilingReached (edgeState .deferred .stop))).nv.holds.credit = some (.grace 120)
      ∧ (after (exec .friendlyWindowEdge (edgeState .firm .start))).nv.holds.credit = some .firm := by decide

/-- ARMED with a deadline of 60. -/
def armedState (clock : Nat) : State :=
  clockAt (contactorIs (holding State.reset (fun v =>
    { v with holds := noHolds, armDeadline := some { deadline := 60, minutes := 1 } })) .armed) clock

/-- A clock-set event at the supply controller, the LOAD hold's restore time further ahead than its delay of 300. -/
def clockSetState : State :=
  let s := holdsAre State.reset { noHolds with load := some 301 }
  { s with supply := { s.supply with clockSetHanded := true } }

/-- A clock-set event that finds a CREDIT hold's grace deadline reached and a restore time further ahead than its delay. -/
def clockSetReached : State :=
  let s := contactorIs (holdsAre (clockAt State.reset 60) { noHolds with credit := some (.grace 60), load := some 999 }) .closed
  { s with supply := { s.supply with clockSetHanded := true } }

theorem witness_ArmingLapsesAndDeadlinesAreLimited :
    (armedState 60).nv.armDeadline = some { deadline := 60, minutes := 1 } ∧ 60 ≤ (armedState 60).clock
      ∧ (armedState 60).nv.contactor = .armed ∧ clockSetState.isRunning = true
      ∧ clockSetState.supply.clockSetHanded = true ∧ clockSetState.nv.holds.load = some 301
      ∧ clockSetState.clock < 301 ∧ clockSetState.nv.armDeadline = none ∧ clockSetState.nv.holds.credit = none
      ∧ clockSetState.nv.holds.remote = none
      ∧ clockSetReached.isRunning = true ∧ clockSetReached.supply.clockSetHanded = true
      ∧ clockSetReached.nv.holds.phase .credit = some (.grace 60) ∧ clockSetReached.clock = 60
      ∧ clockSetReached.mayBegin .supplyClockSet .supply true = true
      ∧ (journalHeld clockSetReached).mayBegin .supplyClockSet .supply true = false := by decide

/-- R112: a reached grace deadline makes its hold FIRM and begins the open drive, and the restore time is limited in the
same write. -/
theorem test_clock_set_reached :
    (after (exec .supplyClockSet clockSetReached)).nv.holds.credit = some .firm
      ∧ (after (exec .supplyClockSet clockSetReached)).nv.holds.load = some 360
      ∧ (after (exec .supplyClockSet clockSetReached)).nv.contactor = .opening
      ∧ (after (exec .supplyClockSet clockSetReached)).writes.length = 1 := by decide

/-- R119, R112. -/
theorem test_arm_deadline_and_clock_set :
    (after (exec .armDeadline (armedState 60))).nv.lapseMarker = true
      ∧ (after (exec .armDeadline (armedState 60))).nv.contactor = .opened
      ∧ (after (exec .armDeadline (armedState 59))).nv.contactor = .armed
      ∧ (after (exec .supplyClockSet clockSetState)).nv.holds.load = some 300 := by decide

/-- A CREDIT hold in GRACE to 60, the contactor CLOSED and LOADHI asserted. -/
def graceState (clock : Nat) : State := clockAt (edgeState (.grace 60) .start) clock

/-- BREAK_WAIT with LOADX asserted. -/
def breakWaitState : State :=
  let s := contactorIs State.reset .breakWait
  { s with supply := { s.supply with loadx := true } }

theorem witness_WaitsEndWithTheirLevels :
    (graceState 60).nv.holds.phase .credit = some (.grace 60) ∧ 60 ≤ (graceState 60).clock
      ∧ (graceState 60).supply.loadhi = true ∧ breakWaitState.isRunning = true ∧ breakWaitState.supply.loadx = true
      ∧ breakWaitState.nv.contactor = .breakWait
      ∧ (starting State.reset).power = .starting (sequenceAt 0) := by
  decide

/-- R109. -/
theorem test_grace :
    (after (exec (.graceDeadline .credit) (graceState 60))).nv.contactor = .opening
      ∧ (after (exec (.graceDeadline .credit) (graceState 59))).nv.holds.credit = some (.grace 60)
      ∧ (after (exec (.loadhiChange false) (graceState 59))).nv.holds.credit = some .firm := by decide

/-- R115; R207: a fall of LOADHI once step 12 is taken leaves the hold in GRACE until the sequence has ended. -/
theorem test_break_wait :
    (after (exec (.loadxChange false) breakWaitState)).nv.contactor = .opening
      ∧ (after (exec (.loadxChange true) breakWaitState)).nv.contactor = .breakWait
      ∧ (let fallen := after (exec (.loadhiChange false) (starting (graceState 59)))
        fallen.nv.holds.credit = some (.grace 60)
          ∧ (after (exec (.loadhiChange false) { fallen with power := .running })).nv.holds.credit = some .firm) := by
  decide

/-- The button RELEASED. -/
def released (s : State) : State := { s with supply := { s.supply with buttonPressed := false } }

theorem witness_PressIsJudged :
    ((asks (armedState 5) .a .press []).requestOf .a .press).isSome = true
      ∧ (released (armedState 5)).supply.buttonPressed = false ∧ (armedState 5).supply.buttonPressed = true
      ∧ (armedState 5).isRunning = true := by decide

/-- R120, R121: a press in ARMED closes; one with the list not empty is answered HELD. -/
theorem test_press :
    (after (exec .press (asks (armedState 5) .a .press []))).nv.contactor = .closing
      ∧ ((after (exec .press (asks State.reset .a .press []))).ports.a.response.map (·.status))
        = some Status.held.byte := by decide

/-- R120. -/
theorem test_button :
    (after (exec .buttonPress (released (armedState 5)))).nv.contactor = .closing
      ∧ exec .buttonPress (armedState 5) = .next (armedState 5)
      ∧ (after (exec .buttonRelease (armedState 5))).supply.buttonPressed = false := ⟨by decide, rfl, by decide⟩

/-! ## Chapter 6 -/

/-- A drive in progress at the end of its settle time. -/
def driveState (direction : Position) (retries : Nat) : State :=
  let s := contactorIs (holdsAre State.reset noHolds) direction.driving
  { s with
    driver :=
      { s.driver with
        drive :=
          some
            { direction := direction, cause := .command, origin := .device, retryCount := retries, stage := .settle
              pulseMs := 60, settleMs := 300 } } }

theorem witness_AttemptsRunToTheirEnd :
    (driveState .closed 1).isRunning = true
      ∧ ((driveState .closed 1).driver.drive.map (·.stage)) = some .settle
      ∧ (exec .drivePulseEnd (driveState .opened 0)) = .next (after (exec .drivePulseEnd (driveState .opened 0)))
      ∧ (after (exec .buttonPress (released (armedState 5)))).cdc = true
      ∧ (starting (driveState .opened 0)).isRunning = false
      ∧ (after (exec .buttonPress (released (armedState 5)))).isRunning = true :=
  ⟨by decide, by decide, rfl, by decide, by decide, by decide⟩

/-- R127: two phases of three disagree with a close; R128: STUCK_OPEN after the second attempt. -/
theorem test_settle_end :
    (after (exec (.driveSettleEnd ⟨true, true, true⟩) (driveState .closed 1))).nv.contactor = .closed
      ∧ (after (exec (.driveSettleEnd ⟨true, true, false⟩) (driveState .closed 1))).nv.contactor = .stuckOpen
      ∧ ((after (exec (.driveSettleEnd ⟨true, true, false⟩) (driveState .closed 0))).driver.drive.map (·.retryCount))
        = some 1 := by decide

/-- R126: the output is released. -/
theorem test_pulse_end :
    (after (exec .drivePulseEnd (after (exec .buttonPress (released (armedState 5)))))).cdc = false := by decide

/-- WELDED with CONTACTOR_RETRY at the L-port. -/
def weldedState : State := asks (contactorIs State.reset .welded) .l .contactorRetry []

/-- OPEN with "pulses while open" handed. -/
def openPulsed : State := { State.reset with driver := { State.reset.driver with pulsesHanded := true } }

theorem witness_RetryAndEvidenceOfPulses :
    weldedState.isRunning = true ∧ (weldedState.requestOf .l .contactorRetry).isSome = true
      ∧ ((asks (opened State.reset 300 5) .a .contactorRetry []).requestOf .a .contactorRetry).isSome = true
      ∧ (opened State.reset 300 5).nv.window ≠ none ∧ openPulsed.driver.pulsesHanded = true
      ∧ ((asks State.reset .a .contactorRetry []).requestOf .a .contactorRetry).isSome = true
      ∧ State.reset.nv.window = none := by decide

/-- R133, R131, R134. -/
theorem test_retry_pulses_and_voltage :
    (after (exec (.contactorRetry .l) weldedState)).nv.contactor = .opening
      ∧ (after (exec .pulsesWhileOpen openPulsed)).nv.contactor = .welded
      ∧ (after (exec (.voltageWatchExpiry ⟨false, true, false⟩) State.reset)).driver.voltageInput = true := by decide

/-! ## Chapter 7 -/

/-- A kind ACTIVE since 40, its input still active, with the clock at 100. -/
def tamperState (k : TamperKind) (state : TamperState) : State :=
  (clockAt (holding State.reset (fun v =>
    { v with tampers := v.tampers.set k { state := state, count := 65535, detected := some 40 } })) 100).setLevel k
      (state == .active)

theorem witness_TamperIsDetectedAndLatched :
    (tamperState .mainCover .latched).tamper.levels.get .mainCover = false
      ∧ (tamperState .mainCover .latched).inputMayBe .mainCover true = true
      ∧ ((tamperState .mainCover .latched).nv.tampers.get .mainCover).state ≠ .active
      ∧ (tamperState .magnetic .active).tamper.levels.get .magnetic = true
      ∧ (tamperState .magnetic .active).inputMayBe .magnetic false = true
      ∧ ((tamperState .magnetic .active).nv.tampers.get .magnetic).detected = some 40
      ∧ 40 ≤ (tamperState .magnetic .active).clock
      ∧ ((tamperState .magnetic .active).setLevel .magnetic false).tamper.levels.get .magnetic = false
      ∧ (tamperState .magnetic .active).mayBegin (.tamperInputInactive .magnetic) .tamper true = true
      ∧ (tamperState .mainCover .latched).mayBegin (.tamperInputActive .mainCover) .tamper true = true
      ∧ ((tamperState .mainCover .latched).passLevel .mainCover true).tamperTakes (.input .mainCover true) = true
      ∧ ((tamperState .magnetic .active).passLevel .magnetic false).tamperTakes (.input .magnetic false) = true
      ∧ ((tamperEvent (tamperState .magnetic .active) .clockSet).passLevel .magnetic false).tamperTakes
        (.input .magnetic false) = false := by decide

/-- R141: an ENFORCE kind places the TAMPER hold; R139: the count stops at 65,535. -/
theorem test_tamper_active :
    (after (exec (.tamperInputActive .mainCover) State.reset)).nv.holds.tamper = true
      ∧ (after (exec (.tamperInputActive .mainCover) (tamperState .mainCover .latched))).nv.tampers.mainCover
        = { state := .active, count := 65535, detected := some 100 } := by decide

/-- R142; R140: a second passage waits until the write of the first is stored. -/
theorem test_tamper_inactive :
    (after (exec (.tamperInputInactive .magnetic) (tamperState .magnetic .active))).nv.tampers.magnetic.state
      = .latched
      ∧ (let first := after (exec (.tamperInputActive .mainCover) (tamperState .magnetic .active))
        let waits := after (exec (.tamperInputInactive .magnetic) first)
        waits.nv.tampers.magnetic.state = .active ∧ waits.tamper.arrivals = [.input .magnetic false]
          ∧ (after (exec (.tamperInputInactive .magnetic) (after (exec .writeStored waits)))).nv.tampers.magnetic.state
            = .latched) := by decide

/-- R140: an opening and a closing of the cover that both wait are taken one after the other, and no third passage with
them. -/
theorem test_both_passages_wait :
    let run : State → Instr → State := fun s c => after (exec c s)
    let first := run (tamperState .magnetic .active) (.tamperInputInactive .magnetic)
    let both := run (run first (.tamperInputActive .mainCover)) (.tamperInputInactive .mainCover)
    let taken := run (run (run both .writeStored) (.tamperInputActive .mainCover)) .writeStored
    let closed := run taken (.tamperInputInactive .mainCover)
    both.tamper.arrivals = [.input .mainCover true, .input .mainCover false]
      ∧ closed.tamper.arrivals = [] ∧ closed.nv.tampers.mainCover.state = .latched
      ∧ closed.nv.tampers.mainCover.count = 1 := by decide

/-- CLEAR_TAMPER of a number at the L-port, waiting at the monitor. -/
def clearState (s : State) (n : Nat) : State := asksTamper s .l .clearTamper (toBytes 1 n)

theorem witness_TamperIsCleared :
    ((clearState (tamperState .magnetic .latched) 5).tamperRequest .l .clearTamper).isSome = true
      ∧ ((clearState (tamperState .magnetic .latched) 6).tamperRequest .l .clearTamper).isSome = true
      ∧ (clearState (tamperState .magnetic .latched) 5).isRunning = true
      ∧ ((freeIs (applies (tamperState .magnetic .latched) 5 0 0) 7).tamperApplication 5).isSome = true
      ∧ 7 ≤ (freeIs (applies (tamperState .magnetic .latched) 5 0 0) 7).nv.journal.free
      ∧ (freeIs (applies (tamperState .magnetic .latched) 5 0 0) 7).mayBegin .tamperClear .tamper true = true
      ∧ ((asksTamper State.reset .a .readTamper []).tamperRequest .a .readTamper).isSome = true := by decide

/-- R147, R82: 0 names every kind, 3 the third; R148. -/
theorem test_clear_tamper :
    (after (exec (.clearTamper .l) (clearState (tamperState .magnetic .latched) 3))).nv.tampers.magnetic.state = .quiet
      ∧ (after (exec (.clearTamper .l) (clearState (tamperState .magnetic .active) 0))).writes = []
      ∧ (after (exec .tamperClear (applies (tamperState .magnetic .latched) 5 0 0))).nv.tampers.magnetic.state
        = .quiet
      ∧ ((after (exec (.readTamper .a) (asksTamper State.reset .a .readTamper []))).ports.a.response.map (·.payload.length))
        = some 55 := by decide

/-- CLOSE_SERVICE at the A-port with the window open. -/
def closeState : State := asksTamper (opened State.reset 300 5) .a .closeService []

/-- CLOSE_SERVICE at the L-port with the window closed. -/
def closedState : State := asksTamper State.reset .l .closeService []

theorem witness_ServiceWindowOpensAndCloses :
    ((freeIs (applies State.reset 4 0 48) 3).tamperApplication 4).isSome = true
      ∧ 3 ≤ (freeIs (applies State.reset 4 0 48) 3).nv.journal.free
      ∧ (freeIs (applies State.reset 4 0 48) 3).mayBegin .service .tamper true = true
      ∧ (clockAt (opened State.reset 300 5) 300).nv.window = some { closing := 300, minutes := 5 }
      ∧ 300 ≤ (clockAt (opened State.reset 300 5) 300).clock
      ∧ ((clockAt (opened State.reset 300 5) 300).arriveTamper .windowExpiry).tamperTakes .windowExpiry = true
      ∧ (tamperEvent (clockAt (opened State.reset 300 5) 300) .clockSet).tamperTakes .clockSet = true
      ∧ (closeState.tamperRequest .a .closeService).isSome = true ∧ closeState.isRunning = true
      ∧ (tamperEvent (clockAt (opened State.reset 300 5) 299) .windowExpiry).tamperTakes .windowExpiry = true
      ∧ (tamperEvent (clockAt (opened State.reset 300 5) 300) .clockSet).tamperTakes .windowExpiry = false
      ∧ (closedState.tamperRequest .l .closeService).isSome = true ∧ closedState.nv.window = none := by decide

/-- R149, R151, R152: 48 units of 5 minutes; an expiry at 300 and none at 299. -/
theorem test_service :
    (after (exec .service (applies State.reset 4 0 48))).nv.window = some { closing := 14400, minutes := 240 }
      ∧ (after (exec .serviceWindowExpiry (clockAt (opened State.reset 300 5) 300))).nv.window = none
      ∧ (after (exec .serviceWindowExpiry (clockAt (opened State.reset 300 5) 299))).nv.window
        = some { closing := 300, minutes := 5 }
      ∧ (after (exec (.closeService .a) closeState)).nv.window = none
      ∧ ((after (exec (.closeService .l) closedState)).ports.l.response.map (·.status)) = some Status.wrongGroup.byte := by
  decide +kernel

/-- A clock-set event at the tamper monitor with the closing time a second too far ahead. -/
def monitorSet : State := tamperEvent (opened State.reset 301 5) .clockSet

/-- A class of MAIN_COVER handed to the tamper monitor, with MAIN_COVER LATCHED. -/
def classState (cls : Nat) : State :=
  tamperEvent (hands (opened (tamperState .mainCover .latched) 900 10) .l 13 cls) (.request .l)

theorem witness_MonitorSettingsAndClockSet :
    (classState 1).settingOf .l = some (13, 1) ∧ (classState 1).tamperTakes (.request .l) = true
      ∧ monitorSet.isRunning = true ∧ monitorSet.tamperTakes .clockSet = true
      ∧ monitorSet.nv.window = some { closing := 301, minutes := 5 } ∧ monitorSet.clock < 301
      ∧ (tamperEvent State.reset .clockSet).tamperTakes .clockSet = true ∧ State.reset.nv.window = none := by decide

/-- R144: a class that is no longer ENFORCE ends the TAMPER hold's condition; R153. -/
theorem test_monitor :
    (after (exec (.tamperSettingChange .l) (classState 1))).nv.tamperCondition = false
      ∧ (after (exec .tamperClockSet monitorSet)).nv.window = some { closing := 300, minutes := 5 } := by decide +kernel

/-! ## Chapter 8 -/

/-- A journal with a number of free places and a sound ring of one record. -/
def soundJournal : Journal := State.reset.nv.journal

theorem witness_RecordsAreWrittenOrCounted :
    soundJournal.sound = true ∧ 1 ≤ soundJournal.free
      ∧ strictlyAscending ([(RecordKind.lockout, 255), (RecordKind.outage, 1)].map (fun x => x.1.number)) = true := by
  decide +kernel

/-- R163: with no place free the record is counted; with one free it is written. -/
theorem test_append :
    ((freeIs State.reset 0).nv.journal.append 7 .device .closeLate).overflow
        = some { first := 7, last := 7, entries := [(.closeLate, 1)] }
      ∧ ((freeIs State.reset 1).nv.journal.append 7 .device .closeLate).newest = 2 := by decide

/-- A journal request at the front of the journal's order. -/
def journalAsks (c : RequestCode) (payload : List Byte) : State :=
  { asks State.reset .a c payload with journalWaiting := [.request .a] }

theorem witness_JournalIsReadAndReleased :
    ((journalAsks .readJournal (toBytes 4 1 ++ toBytes 1 3)).journalRequest .a .readJournal).isSome = true
      ∧ ((journalAsks .releaseJournal (toBytes 4 1)).journalRequest .a .releaseJournal).isSome = true
      ∧ (journalAsks .releaseJournal (toBytes 4 1)).nv.journal.sound = true
      ∧ (journalAsks .releaseJournal (toBytes 4 1)).isRunning = true
      ∧ waiting.isRunning = true ∧ exec .thermActive waiting = .next (after (exec .thermActive waiting))
      ∧ waited.isRunning = true ∧ (∃ v ∈ waited.writes, v.appends = true)
      ∧ (journalHeld State.reset).journalWaiting.head? = some (.request .a)
      ∧ (JournalEvent.request .a).appendOf .credit = false :=
  ⟨by decide +kernel, by decide +kernel, by decide +kernel, by decide, by decide, rfl, by decide, by decide, by decide,
    by decide⟩

/-- R159: an append that waits keeps its place before a request that arrives after it. -/
theorem test_journal_line :
    let waits := after (exec (.tamperInputActive .mainCover) waited)
    let asked := (asks waits .a .readJournal (toBytes 4 1 ++ toBytes 1 1)).joinQueue .a .readJournal
    let stored := after (exec .writeStored asked)
    asked.journalWaiting = [.append .tamper (.tamperInputActive .mainCover), .request .a]
      ∧ (after (exec (.readJournal .a) stored)).ports.a.state = .working
      ∧ (after (exec (.tamperInputActive .mainCover) stored)).journalWaiting = [.request .a]
      ∧ (after (exec (.tamperInputActive .mainCover) stored)).nv.tampers.mainCover.state = .active := by decide

/-- R170, R168: the one record is read whole, and released; number 3 is ahead. -/
theorem test_journal_requests :
    ((after (exec (.readJournal .a) (journalAsks .readJournal (toBytes 4 1 ++ toBytes 1 3)))).ports.a.response.map
        (·.payload)) = some firstOutageRecord.bytes
      ∧ ((after (exec (.readJournal .a) (journalAsks .readJournal (toBytes 4 3 ++ toBytes 1 1)))).ports.a.response.map
        (·.status)) = some Status.range.byte
      ∧ (after (exec (.releaseJournal .a) (journalAsks .releaseJournal (toBytes 4 1)))).nv.journal.free = 512 := by decide

/-! ## Chapter 9 -/

/-- The CRC's check value (R173): that of the digits 1 to 9. -/
theorem test_crc : crc [0x31, 0x32, 0x33, 0x34, 0x35, 0x36, 0x37, 0x38, 0x39] = 0x29B1 := by decide +kernel

/-- A frame whose CRC disagrees. -/
def badFrame : List Byte := [0xA5, 0x00, 0x01, 0x00, 0x00]

theorem witness_RequestFramesAreReceived :
    ([0x01] : List Byte).length ≤ 56 ∧ State.reset.isRunning = true ∧ State.reset.ports.l.receive = []
      ∧ badFrame.head? = some 0xA5 ∧ badFrame.length = frameLength badFrame + 5 ∧ frameLength badFrame ≤ 56
      ∧ crcAgrees badFrame = false := by decide +kernel

/-- R177, R175: STATUS is taken; a frame that disagrees is answered FRAME_CHECK. -/
theorem test_l_port_frame :
    (after (exec (.lPortFrame (requestFrame 0x01 [])) State.reset)).ports.l.state = .working
      ∧ ((after (exec (.lPortFrame badFrame) State.reset)).lPort.refusal.map (·.status))
        = some Status.frameCheck.byte := by decide +kernel

/-- R176: a code that names none, and a code that the L-port does not take. -/
theorem test_request_checks :
    ((State.reset.judgeRequest .l 0x7F []).ports.l.response.map (·.status)) = some Status.unknown.byte
      ∧ ((State.reset.judgeRequest .l RequestCode.press.byte []).ports.l.response.map (·.status))
        = some Status.wrongGroup.byte
      ∧ ((State.reset.judgeRequest .l RequestCode.status.byte [0]).ports.l.response.map (·.status))
        = some Status.length.byte := by decide

/-- The L-port's receive buffer. -/
def received (bytes : List Byte) : State := State.reset.updatePort .l (fun u => { u with receive := bytes })

/-- The L-port READY and sending. -/
def sendingState : State := after (exec (.status .l) (asks State.reset .l .status []))

theorem witness_LPortKeepsItsFrames :
    (received [0xA5]).ports.l.receive = [0xA5] ∧ 2 ≤ (received [0xA5, 3, 1]).ports.l.receive.length
      ∧ (received [0xA5, 3, 1]).ports.l.receive.length + 1 < frameLength [0xA5, 3, 1] + 5
      ∧ (State.reset.updatePort .a (fun u => { u with clearing := true })).ports.a.clearing = true := by decide

/-- R177: a length of 57 is out of range, 56 is not; R178, R179, R182. -/
theorem test_l_port :
    (after (exec (.lPortByteReceived 57) (received [0xA5]))).ports.l.receive = []
      ∧ (after (exec (.lPortByteReceived 56) (received [0xA5]))).ports.l.receive = [0xA5, 56]
      ∧ (after (exec .lPortGap (received [0xA5]))).ports.l.receive = []
      ∧ (after (exec .lPortFrameSent sendingState)).ports.l.state = .idle
      ∧ (after (exec .lPortBreak sendingState)).ports.l.response = none
      ∧ (after (exec (.portClear .a) ((asks State.reset .a .press []).updatePort .a (fun u =>
          { u with clearing := true })))).ports.a.discard = true := by decide

/-- The A-port READY with the answer to STATUS. -/
def readyState : State := after (exec (.status .a) (asks State.reset .a .status []))

/-- A taken warning with its last write on its way. -/
def warnedLast : State := after (exec (.powerFailWarning true) State.reset)

theorem witness_APortTransactionsAreServed :
    State.reset.isRunning = true ∧ (requestFrame 0x01 []).head? = some 0xA5 ∧ State.reset.ports.a.state = .idle
      ∧ readyState.ports.a.state = .ready ∧ readyState.ports.a.response.isSome = true ∧ readyState.isRunning = true
      ∧ warnedLast.power = .lastWrite := by
  decide

/-- R180, R181: the response to STATUS has 57 bytes; 56 clocked out leave the port READY. -/
theorem test_a_port :
    (after (exec (.aPortRequestTransaction .idle (requestFrame 0x01 [])) State.reset)).ports.a.state = .working
      ∧ (after (exec (.aPortReadTransaction .ready 57) readyState)).ports.a.state = .idle
      ∧ (after (exec (.aPortReadTransaction .ready 56) readyState)).ports.a.state = .ready := by decide +kernel

theorem witness_StatusAndNoticesAreRead :
    ((asks State.reset .a .status []).requestOf .a .status).isSome = true
      ∧ ((asks State.reset .a .readNotices []).requestOf .a .readNotices).isSome = true
      ∧ noticeMasked (State.reset.stored.settings.masks.get .a) .tamper = false := by decide

/-- R188: POWER_UP at the clock, and then an empty set; R184. -/
theorem test_status_and_notices :
    ((after (exec (.readNotices .a) (asks State.reset .a .readNotices []))).ports.a.response.map (·.payload))
        = some [0, 0, 0, 0, 1, 0, 0, 0]
      ∧ (after (exec (.readNotices .a) (asks State.reset .a .readNotices []))).ports.a.notices = []
      ∧ (readyState.ports.a.response.map (·.payload.length)) = some 51 := by decide

/-! ## Chapter 10 -/

/-- WRITE_SETTING of the grace time with the window open. -/
def gradeState (v : Nat) : State := asks (opened State.reset 300 5) .l .writeSetting (5 :: toBytes 2 v)

theorem witness_SettingsAreReadAndWritten :
    (gradeState 60).isRunning = true ∧ ((gradeState 60).requestOf .l .writeSetting).isSome = true
      ∧ ((asks State.reset .a .readSetting [5]).requestOf .a .readSetting).isSome = true
      ∧ (asks State.reset .a .readSetting [5]).isRunning = true
      ∧ ((asks State.reset .l .writeSetting []).requestOf .l .writeSetting).isSome = true
      ∧ settingSize 28 = some 2 ∧ 8192 < 256 ^ 2 := by decide

/-- R196, R200: the grace time is set; a setting 29 does not exist. -/
theorem test_settings :
    (after (exec (.writeSetting .l) (gradeState 60))).nv.settings.graceTime = 60
      ∧ ((after (exec (.readSetting .a) (asks State.reset .a .readSetting [5]))).ports.a.response.map (·.payload))
        = some [120, 0]
      ∧ ((after (exec (.readSetting .a) (asks State.reset .a .readSetting [29]))).ports.a.response.map (·.status))
        = some Status.range.byte := by decide

/-- A write on its way, with the answer to a request of the L-port. -/
def writingState : State := after (exec (.writeSetting .l) (gradeState 60))

theorem witness_StoredWriteIsFollowed :
    writingState.isRunning = true ∧ writingState.writes.length = 1 ∧ writingState.storeAgrees = true
      ∧ writingState.ports.l.state = .working ∧ step waiting = .next waited ∧ waiting.storeAgrees = true :=
  ⟨by decide, by decide, by decide +kernel, by decide, rfl, by decide +kernel⟩

/-- R2, R176: the store takes the write up, and the answer reaches the port. -/
theorem test_write_stored :
    (after (exec .writeStored writingState)).stored.settings.graceTime = 60
      ∧ (after (exec .writeStored writingState)).ports.l.state = .ready := by decide

/-- The part in RETAIN after a taken warning. -/
def retained : State := after (exec .writeStored warnedLast)

/-- A taken warning with a write begun before it. -/
def warnedWriting : State := after (exec (.powerFailWarning true) writingState)

theorem witness_StopsKeepTheStoreAndTheDomain :
    State.reset.isRunning = true
      ∧ (starting State.reset).power = .starting (sequenceAt 0)
      ∧ warnedWriting.power = .warned ∧ warnedWriting.writes.length = 1 ∧ warnedLast.power = .lastWrite
      ∧ warnedLast.writes.length = 1 ∧ writingState.isSupplied = true ∧ warnedWriting.isSupplied = true
      ∧ retained.isSupplied = false ∧ retained.ret.intact = true := by decide

/-- R201: a write begun before the warning is stored, and the warned mark with the last; R203, R202: the reset mark, a
brown-out, the domain's loss. -/
theorem test_stops :
    retained.stored.warnedMark = true
      ∧ (after (exec .writeStored (after (exec .writeStored warnedWriting)))).stored.settings.graceTime = 60
      ∧ (after (exec .externalReset State.reset)).ret.resetMark = true
      ∧ (after (exec .brownOut State.reset)).isSupplied = false
      ∧ (after (exec (.powerFailWarning false) State.reset)).isSupplied = false
      ∧ (after (exec .retentionDomainLoss retained)).ret.intact = false := by decide

/-- R154: the cover found open in RETAIN sets the latch. -/
theorem test_outage_watch :
    (after (exec (.outageCoverWatch true) retained)).ret.latch = true
      ∧ (after (exec (.outageCoverWatch true) State.reset)).ret.latch = false := by decide

/-- START_UP of the part as delivered: the OUTAGE record is being stored. -/
def firstStart : State := after (exec (.startUp false false ⟨false, false, false⟩) State.delivered)

theorem witness_StartUpSettlesTheStore :
    State.delivered.isSupplied = false ∧ State.reset.isSupplied = true ∧ firstStart.isRunning = false
      ∧ firstStart.isSupplied = true ∧ firstStart.writes.length = 1 := by decide

/-- Section 11.7: the first start-up of a new part, its writes stored, gives the reset state. -/
theorem test_first_start_up :
    after (exec .writeStored firstStart) = State.reset := by decide +kernel

/-- Start-up under way, with a service window open and the cover latch set. -/
def midStart : State :=
  let s := starting (opened State.reset 300 5)
  { s with ret := { s.ret with latch := true } }

theorem witness_StartUpStepsAreTaken :
    midStart.power = .starting (sequenceAt 0)
      ∧ midStart.writes = [] ∧ midStart.journalWaiting = [] ∧ midStart.arrivals = []
      ∧ midStart.clockUnit = { ClockUnit.fresh with windowInForce := midStart.clockUnit.windowInForce }
      ∧ midStart.supply.edges = [] ∧ midStart.supply.ceilingHanded = false := by decide

/-- R205, R207: LOADHI changed while the first event is stored is what a later step is judged against; a brown-out
meanwhile leaves the part without supply. R151, R155: the window closes, and the latch is cleared as the step's write is
stored. -/
theorem test_start_up_steps :
    (after (exec (.loadhiChange true) firstStart)).supply.loadhi = true
      ∧ (after (exec .brownOut firstStart)).isSupplied = false
      ∧ (midStart.startStep (sequenceAt 0) .windowClose).nv.window = none
      ∧ (midStart.startStep (sequenceAt 0) .coverStep).nv.tampers.mainCover.state = .latched
      ∧ (midStart.startStep (sequenceAt 0) .coverStep).ret.latch = true
      ∧ (midStart.startStep (sequenceAt 0) .coverStep).storeOldest.ret.latch = false := by decide +kernel

/-- R207: a midnight that the clock crosses while the sequence runs is no owed day of step 4; R46: the day before is. -/
theorem test_start_up_midnight :
    let s := starting (holding (clockAt State.reset (86400 * 3)) (fun v => { v with lastChargedDay := 1 }))
    (s.startStep (sequenceAt (86400 * 3 - 1)) .owedDays).nv.lastChargedDay = 1
      ∧ (s.startStep (sequenceAt (86400 * 3)) .owedDays).nv.lastChargedDay = 2 := by decide +kernel

end Sys2Proof.Tests
end

