-- ==== Sys2Proof/Laws/AccountRecord.lean ====
section
/-! SUPPORT and PROOFS. The state right after reset, snapshots, and the account record under charging (R5, R25). -/

namespace Sys2Proof.Machine

/-! ## The state right after reset -/

/-- A law of the stored state holds in the state right after reset if the store of a new part meets it: with no write on
its way, reset holds that one image everywhere. -/
theorem State.everyImage_reset {P : Nv → Bool} (h : P Nv.reset = true) : State.reset.everyImage P = true := by
  have hn : State.reset.nv = Nv.reset := rfl
  have hs : State.reset.stored = Nv.reset := rfl
  have hw : State.reset.writes = [] := rfl
  simp [State.everyImage, hn, hs, hw, h]

/-- Settles O60: the laws of the stored state by the one image that reset holds, the others by evaluation. -/
theorem resetMeetsTheLaws : Obligations.ResetMeetsTheLaws :=
  have image {P : Nv → Bool} (h : P Nv.reset = true) := State.everyImage_reset h
  ⟨image rfl, image rfl, image rfl, image rfl, image rfl, image rfl, image rfl, rfl, rfl, image rfl, rfl,
    image (by decide +kernel), rfl, rfl, by decide +kernel, rfl, rfl, rfl⟩

/-! ## Snapshots (R25, R26) -/

/-- The bytes of a number, as many as asked for (R191). -/
@[simp] theorem length_toBytes (n x : Nat) : (toBytes n x).length = n := by
  induction n generalizing x with
  | zero => rfl
  | succ n ih => simp [toBytes, ih]

/-- A snapshot item has its own size (R25). -/
theorem State.length_snapshotItem (s : State) (n : Nat) : (s.snapshotItem n).length = snapshotSize n := by
  unfold State.snapshotItem snapshotSize
  split <;> simp

/-- The two bits of a kind in the hold summary are the number of its phase, or 0 (R195). -/
theorem HoldList.summaryPair_eq (h : HoldList) (k : HoldKind) :
    h.summaryPair k =
      match h.phase k with
      | none => 0
      | some .deferred => 1
      | some (.grace _) => 2
      | some .firm => 3 := by
  unfold HoldList.summaryPair
  rcases h.phase k with _ | _ | _ | _ <;> rfl

/-- A kind that is FIRM from its placing has both bits in the hold summary while it is held (R98, R195). -/
theorem HoldList.summaryPair_firm (h : HoldList) {k : HoldKind} {held : Bool}
    (hk : h.phase k = if held then some .firm else none) : h.summaryPair k = if held then 3 else 0 := by
  rw [HoldList.summaryPair, hk]
  cases held <;> rfl

/-- Settles O10: the request by its arm, the items by their codes. -/
theorem snapshotReadsOneState : Obligations.SnapshotReadsOneState := by
  refine ⟨fun s p r hr ha => ?_, fun s => ⟨?_, rfl, s.length_snapshotItem⟩⟩
  · change execSnapshot p s = _
    rw [execSnapshot, ifRunning_of_running _ hr, ha, List.flatMap_def]
    rfl
  · have hc := s.nv.holds.summaryPair_eq .credit
    have hm := s.nv.holds.summaryPair_eq .remote
    have ht := s.nv.holds.summaryPair_firm (k := .tamper) rfl
    have hl : s.nv.holds.summaryPair .load = if s.nv.holds.load.isSome then 3 else 0 :=
      s.nv.holds.summaryPair_firm (by simp only [HoldList.phase]; cases s.nv.holds.load <;> rfl)
    have hx := s.nv.holds.summaryPair_firm (k := .trip) rfl
    have contactor : s.nv.contactor.number =
        match s.nv.contactor with
        | .closed => 1 | .breakWait => 2 | .opening => 3 | .opened => 4 | .armed => 5 | .closing => 6 | .welded => 7
        | .stuckOpen => 8 := by
      cases s.nv.contactor <;> rfl
    simp only [List.range_succ, List.range_zero, List.map_cons, List.map_nil, State.snapshotItem,
      HoldList.summary, hc, hm, ht, hl, hx, contactor, yesNo, List.nil_append, List.cons_append]
    rfl

/-! ## Charging (R5) -/

/-- A total that is raised in two parts is raised by their sum (R1). -/
theorem raiseTotal_raiseTotal (t m n : Nat) : raiseTotal (raiseTotal t m) n = raiseTotal t (m + n) := by
  unfold raiseTotal
  rcases Nat.eq_zero_or_pos m with rfl | hm
  · simp
  · rcases Nat.eq_zero_or_pos n with rfl | hn
    · simp
    · rw [if_neg (by omega), if_neg (by omega), if_neg (by omega), Nat.mod_add_mod, Nat.add_assoc]

/-- Nothing charged changes nothing. -/
theorem Account.charge_zero (a : Account) : a.charge 0 = a := by
  simp [Account.charge, raiseTotal]

/-- Charging one unit more takes that unit first. -/
theorem Account.charge_succ (a : Account) (n : Nat) : a.charge (n + 1) = a.chargeOne.charge n := by
  have unit {x : Nat} (h : 0 < x) : min (n + 1) x = min n (x - 1) + 1 := by omega
  have hl : a.emergencyLeft = if a.emergencyActive = true then a.emergencyLimit - a.emergencyUsed else 0 := rfl
  unfold Account.chargeOne Account.charge
  generalize maxMoney = m
  split
  · next hc =>
    have hk (c t) : ({ a with credit := c, totalCharged := t } : Account).emergencyLeft = a.emergencyLeft := rfl
    simp only [hk, unit hc, Nat.add_sub_add_right, raiseTotal_raiseTotal, Account.mk.injEq, true_and, and_true]
    exact ⟨by omega, by ac_rfl⟩
  · next hc =>
    have h0 : a.credit = 0 := by omega
    split
    · next he =>
      have hk (t) : ({ a with emergencyUsed := a.emergencyUsed + 1, totalCharged := t } : Account).emergencyLeft
          = a.emergencyLimit - (a.emergencyUsed + 1) := if_pos he.1
      rw [if_pos he.1] at hl
      have hu := unit (Nat.sub_pos_of_lt he.2)
      simp only [hk, hl, raiseTotal_raiseTotal, Account.mk.injEq, true_and, and_true]
      simp only [h0, hu, Nat.sub_sub, Nat.min_zero, Nat.sub_zero, Nat.zero_add, Nat.add_sub_add_right, true_and]
      exact ⟨by ac_rfl, by ac_rfl⟩
    · next he =>
      have hl0 : a.emergencyLeft = 0 := by
        rw [hl]
        split
        · next ha => have := not_and.mp he ha; omega
        · rfl
      split
      · next hr =>
        have hk (x t) : ({ a with arrears := x, totalCharged := t } : Account).emergencyLeft = a.emergencyLeft := rfl
        have hu := unit (Nat.sub_pos_of_lt hr)
        simp only [hk, hl0, raiseTotal_raiseTotal, Account.mk.injEq, true_and, and_true]
        simp only [h0, hu, Nat.sub_sub, Nat.min_zero, Nat.sub_zero, Nat.zero_add, Nat.add_sub_add_right, true_and]
        exact ⟨by ac_rfl, by ac_rfl⟩
      · next hr =>
        have hk (t) : ({ a with unbooked := t } : Account).emergencyLeft = a.emergencyLeft := rfl
        have hm : m - a.arrears = 0 := by omega
        simp only [hk, hl0, hm, raiseTotal_raiseTotal, Account.mk.injEq, true_and, and_true]
        simp only [h0, Nat.min_zero, Nat.sub_zero, Nat.add_zero, Nat.add_comm, true_and]
/-- Charging is charging one unit again and again (R5). -/
theorem Account.charge_eq_iterate (a : Account) (n : Nat) : a.charge n = Account.chargeOne^[n] a := by
  induction n generalizing a with
  | zero => exact a.charge_zero
  | succ n ih => rw [a.charge_succ, ih, Function.iterate_succ_apply]

/-- Settles O3: the first source that applies, and the closed form of `charge` by induction on the units. -/
theorem chargeTakesUnitByUnit : Obligations.ChargeTakesUnitByUnit :=
  fun a => ⟨rfl, a.charge_eq_iterate⟩

end Sys2Proof.Machine
end

