-- ==== Sys2Proof/Laws/SupplyEvent.lean ====
section
namespace Sys2Proof.Machine

/-! ## An event as a state

The rules of chapter 5 are said of the state that an event leaves (`State.commanded`, `State.placed` and the others of
Safety.lean). They read only a part of it, and that part stands in the event before its write is made. -/

/-- The event read as a state: what the blocks hold as it stands, and its follow-ups as those of the newest write. -/
def Event.view (e : Event) : State :=
  { e.state with
    writes := [{ owner := .store, image := e.nv, appends := false, setsClock := none, follow := e.follow }] }

@[simp] theorem Event.view_nv (e : Event) : e.view.nv = e.nv := rfl
@[simp] theorem Event.view_driver (e : Event) : e.view.driver = e.state.driver := rfl
@[simp] theorem Event.view_newestFollow (e : Event) : e.view.newestFollow = e.follow := rfl

/-- Two states agree in all that the rules of the hold list and the contactor read of the state that an event leaves. -/
structure State.SameSupply (t u : State) : Prop where
  holds : t.nv.holds = u.nv.holds
  policy : t.nv.policy = u.nv.policy
  armDeadline : t.nv.armDeadline = u.nv.armDeadline
  contactor : t.nv.contactor = u.nv.contactor
  driveTarget : t.nv.driveTarget = u.nv.driveTarget
  driver : t.driver = u.driver
  changed : .notice .supplyChanged ∈ t.newestFollow ↔ .notice .supplyChanged ∈ u.newestFollow
  armed : .notice .armed ∈ t.newestFollow ↔ .notice .armed ∈ u.newestFollow

section
variable {s t u : State}

theorem State.SameSupply.commanded (h : t.SameSupply u) (c : Contactor) (o : Origin) :
    s.commanded t c o ↔ s.commanded u c o := by
  simp only [State.commanded, h.contactor, h.driver, h.driveTarget, h.changed, h.armed]

theorem State.SameSupply.supplyKept (h : t.SameSupply u) : s.supplyKept t ↔ s.supplyKept u := by
  simp only [State.supplyKept, h.holds, h.policy, h.armDeadline, h.commanded]

theorem State.SameSupply.placed (h : t.SameSupply u) (k : HoldKind) (phase : HoldPhase) (byRequest : Bool)
    (restore : Nat) : s.placed t k phase byRequest restore ↔ s.placed u k phase byRequest restore := by
  simp only [State.placed, h.holds, h.policy, h.armDeadline, h.commanded]

theorem State.SameSupply.firmed (h : t.SameSupply u) (l : HoldList) : s.firmed t l ↔ s.firmed u l := by
  simp only [State.firmed, h.holds, h.policy, h.armDeadline, h.commanded]

theorem State.SameSupply.removed (h : t.SameSupply u) (k : HoldKind) (p : Policy) :
    s.removed t k p ↔ s.removed u k p := by
  simp only [State.removed, h.holds, h.policy, h.armDeadline, h.commanded]

end

/-- Two states agree also in what the rules of the CREDIT hold read of the state that an event leaves. -/
structure State.SameCredit (t u : State) : Prop extends State.SameSupply t u where
  account : t.nv.account = u.nv.account
  settings : t.nv.settings = u.nv.settings
  exhausted : .notice .creditExhausted ∈ t.newestFollow ↔ .notice .creditExhausted ∈ u.newestFollow

/-- Two states agree also in what the rules of the account read of the state that an event leaves. -/
structure State.Alike (t u : State) : Prop extends State.SameCredit t u where
  low : .notice .creditLow ∈ t.newestFollow ↔ .notice .creditLow ∈ u.newestFollow
  ceiling : .ceilingReached ∈ t.newestFollow ↔ .ceilingReached ∈ u.newestFollow

section
variable {s t u : State}

theorem State.SameCredit.ceilingHolds (h : t.SameCredit u) : t.nv.ceilingHolds = u.nv.ceilingHolds := by
  simp only [Nv.ceilingHolds, h.account, h.settings]

theorem State.SameCredit.creditFollows (h : t.SameCredit u) (rs : List RecordBody) :
    s.creditFollows t rs ↔ s.creditFollows u rs := by
  simp only [State.creditFollows, State.creditPhase, h.ceilingHolds, h.account, h.exhausted, h.placed, h.removed,
    h.supplyKept]

theorem State.Alike.accountFollows (h : t.Alike u) (rs : List RecordBody) :
    s.accountFollows t rs ↔ s.accountFollows u rs := by
  simp only [State.accountFollows, h.creditFollows, h.account, h.low, h.ceiling, h.ceilingHolds]

end

/-! ### Writes and follow-ups -/

theorem Event.commitSetting_newestFollow (e : Event) (b : Block) (c : Option Nat) (m : Option RetentionMark) :
    (e.commitSetting b c m).newestFollow
      = e.follow ++ (journalNotices e.low e.nv.journal.free e.journal.free).map .notice := by
  simp [Event.commitSetting, State.newestFollow]

/-- The journal notices of a write are JOURNAL_LOW and JOURNAL_FULL alone (R165). -/
theorem mem_journalNotices {low before after : Nat} {k : NoticeKind} (h : k ∈ journalNotices low before after) :
    k = .journalLow ∨ k = .journalFull := by
  unfold journalNotices at h
  rw [List.mem_append] at h
  rcases h with h | h <;> split at h <;> simp_all

/-- What an event calls for follows its write; the journal's notices add nothing but themselves. -/
theorem Event.mem_commitSetting_follow (e : Event) (b : Block) (c : Option Nat) (m : Option RetentionMark)
    {f : FollowUp} (hf : f ≠ .notice .journalLow ∧ f ≠ .notice .journalFull) :
    f ∈ (e.commitSetting b c m).newestFollow ↔ f ∈ e.follow := by
  rw [e.commitSetting_newestFollow, List.mem_append, List.mem_map, or_iff_left]
  rintro ⟨k, hk, rfl⟩
  rcases mem_journalNotices hk with rfl | rfl
  · exact hf.1 rfl
  · exact hf.2 rfl

/-- The write of an event leaves a state that reads as the event does. -/
theorem Event.alike_commitSetting (e : Event) (b : Block) (c : Option Nat) (m : Option RetentionMark) :
    (e.commitSetting b c m).Alike e.view :=
  have hf {f : FollowUp} := e.mem_commitSetting_follow b c m (f := f)
  ⟨⟨⟨rfl, rfl, rfl, rfl, rfl, rfl, hf (by decide), hf (by decide)⟩, rfl, rfl, hf (by decide)⟩, hf (by decide),
    hf (by decide)⟩

/-! ## The contactor's commands (R113) -/

/-- An event that has moved nothing of the supply yet, and reads what `s` has: it still may give its one command. -/
structure Event.Ready (s : State) (e : Event) : Prop where
  kept : s.supplyKept e.view
  settings : e.nv.settings = s.nv.settings
  supply : e.state.supply = s.supply
  clock : e.state.clock = s.clock
  window : e.state.clockUnit.windowInForce = s.clockUnit.windowInForce

/-- An event has moved nothing of the supply when each of its fields stands as in `s` and it calls for no notice of the
contactor. -/
theorem State.supplyKept_of_fields {s t : State} (holds : t.nv.holds = s.nv.holds) (policy : t.nv.policy = s.nv.policy)
    (arm : t.nv.armDeadline = s.nv.armDeadline) (contactor : t.nv.contactor = s.nv.contactor)
    (target : t.nv.driveTarget = s.nv.driveTarget) (driver : t.driver = s.driver)
    (changed : .notice .supplyChanged ∉ t.newestFollow) (armed : .notice .armed ∉ t.newestFollow) : s.supplyKept t := by
  refine ⟨holds, policy, arm, contactor, by rw [driver], by simp [driver], by simp [changed], by simp [armed], ?_⟩
  simp [target, driver]

section
variable {s : State} {e : Event}

/-- An event that has just begun has moved nothing. -/
theorem Event.ready_begin (s : State) (o : Origin) : (Event.begin s o).Ready s :=
  ⟨State.supplyKept_of_fields rfl rfl rfl rfl rfl rfl List.not_mem_nil List.not_mem_nil, rfl, rfl, rfl, rfl⟩

end

theorem Event.enter_nv (e : Event) (c : Contactor) : (e.enter c).nv = { e.nv with contactor := c } := by
  unfold Event.enter
  dsimp only
  split <;> split <;> rfl

theorem Event.enter_driver (e : Event) (c : Contactor) :
    (e.enter c).state.driver =
      { e.state.driver with
        voltageInput := e.state.driver.voltageInput && (e.nv.contactor.watched && c.watched) } := by
  unfold Event.enter
  dsimp only
  split <;> split <;> rfl

theorem Event.enter_follow (e : Event) (c : Contactor) :
    (e.enter c).follow =
      e.follow ++ ((if c.announced = true then [.notice .supplyChanged] else [])
        ++ (if c = .armed then [.notice .armed] else [])) := by
  unfold Event.enter
  dsimp only
  split <;> split <;> simp

theorem Event.beginDrive_nv (e : Event) (d : Position) (cause : DriveCause) (o : Origin) :
    (e.beginDrive d cause o).nv = { e.nv with driveTarget := d, contactor := d.driving } := by
  unfold Event.beginDrive
  simp [Event.enter_nv]

theorem Event.beginDrive_driver (e : Event) (d : Position) (cause : DriveCause) (o : Origin) :
    (e.beginDrive d cause o).state.driver =
      { e.state.driver with voltageInput := false, drive := some (newDrive e.nv d cause o) } := by
  unfold Event.beginDrive
  cases d <;> simp [Event.enter_driver, Event.enter_nv, Contactor.watched, newDrive, Position.driving]

theorem Event.beginDrive_follow (e : Event) (d : Position) (cause : DriveCause) (o : Origin) :
    (e.beginDrive d cause o).follow = e.follow := by
  unfold Event.beginDrive
  cases d <;> simp [Event.enter_follow, Position.driving, Contactor.announced]

/-- The states whose entry raises SUPPLY_CHANGED are the five of R125. -/
theorem Contactor.announced_iff (c : Contactor) :
    c.announced = true ↔ c ∈ [Contactor.closed, .opened, .armed, .welded, .stuckOpen] := by
  cases c <;> decide

section
variable {s : State} {e : Event}

theorem Event.Ready.log (h : e.Ready s) (r : RecordBody) : (e.log r).Ready s :=
  ⟨h.kept, h.settings, h.supply, h.clock, h.window⟩

theorem Event.Ready.updateAccount (h : e.Ready s) (f : Account → Account) : (e.updateAccount f).Ready s :=
  ⟨h.kept, h.settings, h.supply, h.clock, h.window⟩

/-- Another follow-up than the contactor's two notices leaves the supply as it is. -/
theorem Event.sameSupply_andThen (e : Event) {f : FollowUp} (hs : f ≠ .notice .supplyChanged)
    (ha : f ≠ .notice .armed) : (e.andThen f).view.SameSupply e.view :=
  ⟨rfl, rfl, rfl, rfl, rfl, rfl, by simp [hs.symm], by simp [ha.symm]⟩

theorem Event.sameSupply_notify (e : Event) {k : NoticeKind} (hs : k ≠ .supplyChanged) (ha : k ≠ .armed) :
    (e.notify k).view.SameSupply e.view :=
  e.sameSupply_andThen (by simpa using hs) (by simpa using ha)

theorem Event.Ready.andThen (h : e.Ready s) {f : FollowUp} (hs : f ≠ .notice .supplyChanged) (ha : f ≠ .notice .armed) :
    (e.andThen f).Ready s :=
  ⟨(e.sameSupply_andThen hs ha).supplyKept.mpr h.kept, h.settings, h.supply, h.clock, h.window⟩

/-- An event that has given no command enters a state that no drive leads to: that is its one command. -/
theorem Event.commanded_enter (h : s.commanded e.view s.nv.contactor .device) {c : Contactor} (o : Origin)
    (hc : c ≠ s.nv.contactor) (hd : c.drivenTo = none) : s.commanded (e.enter c).view c o := by
  obtain ⟨hcon, hpulses, hvolt, hchanged, harmed, hdrive⟩ := h
  simp only [Event.view_nv, Event.view_driver, Event.view_newestFollow, ne_eq, not_true_eq_false, false_and, iff_false,
    if_true, beq_self_eq_true, Bool.true_or, Bool.and_true] at hcon hpulses hvolt hchanged harmed hdrive
  simp only [State.commanded, Event.view_nv, Event.view_driver, Event.view_newestFollow, Event.enter_nv,
    Event.enter_driver, Event.enter_follow, ← Contactor.announced_iff, hd, ite_self]
  refine ⟨trivial, hpulses, ?_, ?_, ?_, hdrive⟩
  · rw [hvolt, hcon, beq_false_of_ne hc, Bool.false_or, Bool.and_comm c.watched]
  · simp [hchanged, hc]
  · simp [harmed, hc]

/-- An event that has given no command begins a drive: that is its one command. -/
theorem Event.commanded_beginDrive (h : s.commanded e.view s.nv.contactor .device)
    (hs : e.nv.settings = s.nv.settings) (d : Position) (o : Origin) (hd : d.driving ≠ s.nv.contactor) :
    s.commanded (e.beginDrive d .command o).view d.driving o := by
  obtain ⟨hcon, hpulses, hvolt, hchanged, harmed, hdrive⟩ := h
  simp only [Event.view_nv, Event.view_driver, Event.view_newestFollow, ne_eq, not_true_eq_false, false_and, iff_false,
    if_true, beq_self_eq_true, Bool.true_or, Bool.and_true] at hcon hpulses hvolt hchanged harmed hdrive
  simp only [State.commanded, Event.view_nv, Event.view_driver, Event.view_newestFollow, Event.beginDrive_nv,
    Event.beginDrive_driver, Event.beginDrive_follow, ← Contactor.announced_iff, if_neg hd, newDrive, hs]
  have hw : d.driving.watched = false := by cases d <;> rfl
  have ha : d.driving.announced = false := by cases d <;> rfl
  have hne : d.driving ≠ .armed := by cases d <;> decide
  have ht : d.driving.drivenTo = some d := by cases d <;> rfl
  refine ⟨trivial, hpulses, ?_, ?_, ?_, ?_⟩
  · simp [hd, hw]
  · simp [hchanged, ha]
  · simp [harmed, hne]
  · simp [ht]


/-- What a hold that becomes FIRM calls for, outside ARMED, is the one command of R114. -/
theorem Event.commanded_commandForFirm (h : s.commanded e.view s.nv.contactor .device)
    (hs : e.nv.settings = s.nv.settings) (hl : e.state.supply = s.supply) (k : HoldKind)
    (ha : s.nv.contactor ≠ .armed) :
    s.commanded (e.commandForFirm k).view (s.nv.contactor.afterPlacing k true s.supply.loadx) .device := by
  have hc : e.nv.contactor = s.nv.contactor := h.1
  have opens (hd : Contactor.opening ≠ s.nv.contactor) : s.commanded e.giveOpen.view .opening .device :=
    Event.commanded_beginDrive h hs .opened .device hd
  unfold Event.commandForFirm Contactor.afterPlacing
  rw [hc, hl]
  cases hcon : s.nv.contactor with
  | closed =>
    by_cases hw : s.supply.loadx = true ∧ k ≠ .trip
    · simpa [hw, Event.giveWait] using Event.commanded_enter h (c := .breakWait) .device (by simp [hcon]) rfl
    · have hw' : (s.supply.loadx && k != .trip) = false := by simpa using hw
      simpa [hw, hw'] using opens (by simp [hcon])
  | breakWait =>
    by_cases hk : k = .trip
    · simpa [hk] using opens (by simp [hcon])
    · simpa [hk, hcon] using h
  | armed => exact absurd hcon ha
  | opening | opened | closing | welded | stuckOpen => simpa [hcon] using h

end

/-- What a hold that becomes FIRM calls for touches the contactor state and the drive target, and nothing else of the
stored state. -/
theorem Event.commandForFirm_nv (e : Event) (k : HoldKind) :
    ∃ c d, (e.commandForFirm k).nv = { e.nv with contactor := c, driveTarget := d } := by
  have same : ∃ c d, e.nv = { e.nv with contactor := c, driveTarget := d } := ⟨_, _, rfl⟩
  unfold Event.commandForFirm
  split
  · split
    · exact ⟨_, _, e.enter_nv _⟩
    · exact ⟨_, _, e.beginDrive_nv _ _ _⟩
  · split
    · exact ⟨_, _, e.beginDrive_nv _ _ _⟩
    · exact same
  · exact same

/-- The first part of a placing: the hold joins the list, with its HOLD_PLACED record (R98, R161). -/
def Event.join (e : Event) (k : HoldKind) (phase : HoldPhase) (byRequest : Bool) (restore : Nat) : Event :=
  (e.updateNv (fun n => { n with holds := n.holds.place k phase byRequest restore })).log
    (.holdPlaced k phase (if byRequest then some Port.l else none) (if k = .load then some restore else none))

/-- A placing is the joining and then the command it calls for (R114, R118). -/
theorem Event.place_eq (e : Event) (k : HoldKind) (phase : HoldPhase) (byRequest : Bool) (restore : Nat) :
    e.place k phase byRequest restore =
      (let p := e.join k phase byRequest restore
      if e.nv.contactor = .armed then p.giveDisarm else if phase = .firm then p.commandForFirm k else p) := rfl

@[simp] theorem Event.join_nv (e : Event) (k : HoldKind) (phase : HoldPhase) (byRequest : Bool) (restore : Nat) :
    (e.join k phase byRequest restore).nv = { e.nv with holds := e.nv.holds.place k phase byRequest restore } := rfl

/-- The first part of a passage to FIRM: the hold's phase in the list, with its HOLD_FIRM record (R100). -/
def Event.firm (e : Event) (k : HoldKind) (left : PhaseName) (cause : FirmCause) : Event :=
  (e.updateNv (fun n => { n with holds := n.holds.rephase k .firm })).log (.holdFirm k left cause)

/-- A passage to FIRM is the change of the list and then the command it calls for (R114). -/
theorem Event.makeFirm_eq (e : Event) (k : HoldKind) (left : PhaseName) (cause : FirmCause) :
    e.makeFirm k left cause = (e.firm k left cause).commandForFirm k := rfl

/-- The first part of a removal: the hold leaves the list, with the policy that an emptied list sets in force and the
HOLD_REMOVED record (R117, R161). -/
def Event.drop (e : Event) (k : HoldKind) (had : HoldPhase) (cause : RemovalCause) (named : Option Policy)
    (policy : Policy) : Event :=
  (e.updateNv (fun n =>
    { n with
      holds := n.holds.remove k
      policy := if (e.nv.holds.remove k).isEmpty then some policy else e.nv.policy })).log
    (e.nv.removalRecord k had cause named policy)

/-- A removal is the leaving and then the command that the emptied list, or the end of a wait, calls for (R115, R117). -/
theorem Event.remove_eq (e : Event) {k : HoldKind} {had : HoldPhase} (hk : e.nv.holds.phase k = some had)
    (cause : RemovalCause) (named : Option Policy) (policy : Policy) :
    e.remove k cause named policy =
      (let p := e.drop k had cause named policy
      if (e.nv.holds.remove k).isEmpty then p.commandForEmptied policy
      else if e.nv.contactor = .breakWait ∧ (e.nv.holds.remove k).anyFirm = false then p.giveResume else p) := by
  unfold Event.remove Event.drop Nv.removalRecord
  rw [hk]
  dsimp only [Event.updateNv_nv]
  by_cases hempty : (e.nv.holds.remove k).isEmpty = true
  · simp only [hempty, if_true]
    rfl
  · simp only [hempty]
    rfl

section
variable {s : State} {e : Event}

/-- A placing in an event that has moved nothing is the placing of R114 and R118. -/
theorem Event.Ready.placed (h : e.Ready s) (k : HoldKind) (phase : HoldPhase) (byRequest : Bool) (restore : Nat) :
    s.placed (e.place k phase byRequest restore).view k phase byRequest restore := by
  obtain ⟨⟨hholds, hpolicy, harm, hcom⟩, hs, hl, -, -⟩ := h
  have hc : e.nv.contactor = s.nv.contactor := hcom.1
  rw [Event.view_nv] at hholds hpolicy harm
  rw [e.place_eq, hc]
  have hnv := e.join_nv k phase byRequest restore
  replace hcom : s.commanded (e.join k phase byRequest restore).view s.nv.contactor .device := hcom
  replace hl : (e.join k phase byRequest restore).state.supply = s.supply := hl
  replace hs : (e.join k phase byRequest restore).nv.settings = s.nv.settings := hs
  generalize e.join k phase byRequest restore = p at *
  unfold State.placed
  by_cases ha : s.nv.contactor = .armed
  · have hd : p.giveDisarm.nv = { p.nv with armDeadline := none, contactor := .opened } := Event.enter_nv _ _
    simp only [ha, if_true, Event.view_nv, hd, hnv, hholds, hpolicy, true_and]
    exact Event.commanded_enter (e := p.dropArmDeadline) hcom .device (by simp [ha]) rfl
  · simp only [if_neg ha]
    by_cases hf : phase = .firm
    · obtain ⟨c, d, hn⟩ := p.commandForFirm_nv k
      simp only [hf, if_true, Event.view_nv, hn, hnv, hholds, hpolicy, harm, beq_self_eq_true, true_and]
      exact Event.commanded_commandForFirm hcom hs hl k ha
    · have hkeep : s.nv.contactor.afterPlacing k false s.supply.loadx = s.nv.contactor := by
        cases hcon : s.nv.contactor <;> simp_all [Contactor.afterPlacing]
      simp only [if_neg hf, Event.view_nv, hnv, hholds, hpolicy, harm, beq_false_of_ne hf, hkeep, true_and]
      exact hcom

/-- A passage to FIRM of a hold that is no TRIP hold, in an event that has moved nothing. -/
theorem Event.Ready.firmed (h : e.Ready s) {k : HoldKind} (hk : k ≠ .trip) (left : PhaseName) (cause : FirmCause) :
    s.firmed (e.makeFirm k left cause).view (s.nv.holds.rephase k .firm) := by
  obtain ⟨⟨hholds, hpolicy, harm, hcom⟩, hs, hl, -, -⟩ := h
  rw [Event.view_nv] at hholds hpolicy harm
  rw [e.makeFirm_eq]
  have hnv : (e.firm k left cause).nv = { e.nv with holds := e.nv.holds.rephase k .firm } := rfl
  replace hcom : s.commanded (e.firm k left cause).view s.nv.contactor .device := hcom
  replace hl : (e.firm k left cause).state.supply = s.supply := hl
  replace hs : (e.firm k left cause).nv.settings = s.nv.settings := hs
  generalize e.firm k left cause = p at *
  obtain ⟨c, d, hn⟩ := p.commandForFirm_nv k
  simp only [State.firmed, Event.view_nv, hn, hnv, hholds, hpolicy, harm, true_and]
  by_cases ha : s.nv.contactor = .armed
  · have : p.commandForFirm k = p := by
      simp [Event.commandForFirm, show p.nv.contactor = .armed from hcom.1.trans ha]
    rw [this]
    simpa [Contactor.afterFirm, ha] using hcom
  · have hafter : s.nv.contactor.afterPlacing k true s.supply.loadx = s.nv.contactor.afterFirm s.supply.loadx := by
      cases hcon : s.nv.contactor <;> simp_all [Contactor.afterPlacing, Contactor.afterFirm]
    rw [← hafter]
    exact Event.commanded_commandForFirm hcom hs hl k ha

/-- A list that holds no hold holds no FIRM one. -/
theorem HoldList.anyFirm_of_isEmpty {h : HoldList} (he : h.isEmpty = true) : h.anyFirm = false := by
  simp_all [HoldList.isEmpty, HoldList.anyFirm]

/-- The emptying of the list, in an event that has given no command, is the one of R115 and R117. -/
theorem Event.commandForEmptied_spec (hcom : s.commanded e.view s.nv.contactor .device)
    (hs : e.nv.settings = s.nv.settings) (hclock : e.state.clock = s.clock) (harm : e.nv.armDeadline = s.nv.armDeadline)
    {left : HoldList} (hempty : left.isEmpty = true) (policy : Policy) :
    s.commanded (e.commandForEmptied policy).view (s.nv.contactor.afterRemoval left policy) .device ∧
      (e.commandForEmptied policy).nv.holds = e.nv.holds ∧ (e.commandForEmptied policy).nv.policy = e.nv.policy ∧
      (e.commandForEmptied policy).nv.armDeadline =
        (if s.nv.contactor = .opened then
          match policy with
          | .pressWithin m => some { deadline := deadlineSum s.clock (60 * m), minutes := m }
          | .auto | .press => none
        else s.nv.armDeadline) := by
  have hc : e.nv.contactor = s.nv.contactor := hcom.1
  have hany : left.anyFirm = false := HoldList.anyFirm_of_isEmpty hempty
  have arms (d : Option ArmDeadline) (hd : Contactor.armed ≠ s.nv.contactor) :
      s.commanded (e.giveArm d).view .armed .device :=
    Event.commanded_enter (e := e.updateNv (fun n => { n with armDeadline := d })) hcom .device hd rfl
  have closes (hd : Contactor.closing ≠ s.nv.contactor) : s.commanded (e.giveClose .device).view .closing .device :=
    Event.commanded_beginDrive (e := e.dropArmDeadline) hcom hs .closed .device hd
  have harms (d : Option ArmDeadline) : (e.giveArm d).nv = { e.nv with armDeadline := d, contactor := .armed } :=
    Event.enter_nv _ _
  have hcloses : (e.giveClose .device).nv
      = { e.nv with armDeadline := none, driveTarget := .closed, contactor := .closing } := Event.beginDrive_nv _ _ _ _
  have hresume : e.giveResume.nv = { e.nv with contactor := .closed } := Event.enter_nv _ _
  unfold Event.commandForEmptied Contactor.afterRemoval
  rw [hc]
  cases hcon : s.nv.contactor with
  | opened =>
    rw [hcon] at arms closes
    cases policy with
    | auto => simpa [Event.armBy, hempty, hcloses] using closes (by decide)
    | press => simpa [Event.armBy, hempty, harms] using arms none (by decide)
    | pressWithin m => simpa [Event.armBy, hempty, harms, hclock] using arms _ (by decide)
  | breakWait =>
    have resumes : s.commanded e.giveResume.view .closed .device :=
      Event.commanded_enter hcom .device (by simp [hcon]) rfl
    simpa [hany, hresume, harm] using resumes
  | closed | opening | armed | closing | welded | stuckOpen => simpa [hcon, harm] using hcom

/-- A removal in an event that has moved nothing is the removal of R115 and R117. -/
theorem Event.Ready.removed (h : e.Ready s) {k : HoldKind} {had : HoldPhase} (hk : s.nv.holds.phase k = some had)
    (cause : RemovalCause) (named : Option Policy) (policy : Policy) :
    s.removed (e.remove k cause named policy).view k policy := by
  obtain ⟨⟨hholds, hpolicy, harm, hcom⟩, hs, -, hclock, -⟩ := h
  have hc : e.nv.contactor = s.nv.contactor := hcom.1
  rw [Event.view_nv] at hholds hpolicy harm
  rw [e.remove_eq (hholds ▸ hk), hholds, hc]
  have hnv : (e.drop k had cause named policy).nv =
      { e.nv with
        holds := s.nv.holds.remove k
        policy := if (s.nv.holds.remove k).isEmpty then some policy else s.nv.policy } := by
    rw [← hholds, ← hpolicy]; rfl
  replace hcom : s.commanded (e.drop k had cause named policy).view s.nv.contactor .device := hcom
  replace hs : (e.drop k had cause named policy).nv.settings = s.nv.settings := hs
  replace hclock : (e.drop k had cause named policy).state.clock = s.clock := hclock
  generalize e.drop k had cause named policy = p at *
  unfold State.removed
  generalize s.nv.holds.remove k = left at *
  cases hempty : left.isEmpty with
  | true =>
    obtain ⟨h₁, h₂, h₃, h₄⟩ := p.commandForEmptied_spec hcom hs hclock (by rw [hnv]; exact harm) hempty policy
    simp only [hempty, if_true, true_and, Event.view_nv, h₂, h₃, hnv, h₁, and_true]
    exact h₄
  | false =>
    simp only [hempty, Bool.false_eq_true, false_and, if_false, Event.view_nv] at hnv ⊢
    have hkeep : s.nv.contactor ≠ .breakWait → s.nv.contactor.afterRemoval left policy = s.nv.contactor := by
      intro hb
      cases hcon : s.nv.contactor <;> simp_all [Contactor.afterRemoval]
    by_cases hb : s.nv.contactor = .breakWait
    · cases hf : left.anyFirm with
      | false =>
        have hn : p.giveResume.nv = { p.nv with contactor := .closed } := Event.enter_nv _ _
        simp only [hb, true_and, if_true, hn, hnv, harm, Contactor.afterRemoval, hf,
          Bool.false_eq_true, if_false]
        exact Event.commanded_enter hcom (c := .closed) .device (by simp [hb]) rfl
      | true =>
        simpa [hb, hnv, hempty, harm, Contactor.afterRemoval, hf] using hcom
    · simp only [hb, false_and, if_false, hnv, harm, hkeep hb, true_and]
      exact hcom

end

end Sys2Proof.Machine
end

