-- ==== Sys2Proof/Laws/AccountEvent.lean ====
section
namespace Sys2Proof.Machine

/-! ## What a command adds to an event

A command of the supply controller writes no record of its own and calls for no other notice than SUPPLY_CHANGED and
ARMED (R113, R118, R125). -/

/-- The event `e'` is `e` with commands given in it. -/
structure Event.Commands (e e' : Event) : Prop where
  within : e.Within e'
  records : e'.records = e.records
  follow : ∀ f : FollowUp, f ≠ .notice .supplyChanged → f ≠ .notice .armed → (f ∈ e'.follow ↔ f ∈ e.follow)

theorem Event.Commands.refl (e : Event) : e.Commands e := ⟨.refl e, rfl, fun _ _ _ => Iff.rfl⟩

theorem Event.Commands.trans {a b c : Event} (h : a.Commands b) (k : b.Commands c) : a.Commands c :=
  ⟨h.within.trans k.within, k.records.trans h.records, fun f hs ha => (k.follow f hs ha).trans (h.follow f hs ha)⟩

section
variable (e : Event)

theorem Event.commands_ite (a b : Event) (c : Prop) [Decidable c] (ha : e.Commands a) (hb : e.Commands b) :
    e.Commands (if c then a else b) := by
  split <;> assumption

theorem Event.commands_enter (c : Contactor) : e.Commands (e.enter c) := by
  refine ⟨e.within_enter c, ?_, fun f hs ha => ?_⟩
  · unfold Event.enter
    dsimp only
    split <;> split <;> rfl
  · rw [e.enter_follow, List.mem_append, List.mem_append]
    constructor
    · rintro (h | h | h)
      · exact h
      all_goals split at h <;> simp_all
    · exact .inl

theorem Event.commands_updateNv (f : Nv → Nv) (h : (f e.nv).withSupplyOf e.nv = e.nv)
    (hj : (f e.nv).journal = e.nv.journal) : e.Commands (e.updateNv f) :=
  ⟨e.within_updateNv f h hj, rfl, fun _ _ _ => Iff.rfl⟩

theorem Event.commands_updateDriver (f : DriverUnit → DriverUnit) : e.Commands (e.updateDriver f) :=
  ⟨e.within_updateDriver f, rfl, fun _ _ _ => Iff.rfl⟩

theorem Event.commands_beginDrive (d : Position) (c : DriveCause) (o : Origin) : e.Commands (e.beginDrive d c o) := by
  unfold Event.beginDrive
  exact ((Event.commands_updateNv _ _ rfl rfl).trans (Event.commands_enter _ _)).trans (Event.commands_updateDriver _ _)

theorem Event.commands_giveClose (o : Origin) : e.Commands (e.giveClose o) :=
  (Event.commands_updateNv e _ rfl rfl).trans (Event.commands_beginDrive _ _ _ _)

theorem Event.commands_giveArm (d : Option ArmDeadline) : e.Commands (e.giveArm d) :=
  (Event.commands_updateNv e _ rfl rfl).trans (Event.commands_enter _ _)

theorem Event.commands_giveDisarm : e.Commands e.giveDisarm :=
  (Event.commands_updateNv e _ rfl rfl).trans (Event.commands_enter _ _)

theorem Event.commands_commandForFirm (k : HoldKind) : e.Commands (e.commandForFirm k) := by
  unfold Event.commandForFirm
  split
  · exact e.commands_ite _ _ _ (e.commands_enter _) (e.commands_beginDrive _ _ _)
  · exact e.commands_ite _ _ _ (e.commands_beginDrive _ _ _) (.refl e)
  · exact .refl e

theorem Event.commands_commandForEmptied (p : Policy) : e.Commands (e.commandForEmptied p) := by
  unfold Event.commandForEmptied
  split
  · cases p
    · exact e.commands_giveClose _
    · exact e.commands_giveArm _
    · exact e.commands_giveArm _
  · exact e.commands_enter _
  · exact .refl e

theorem Event.commands_place (k : HoldKind) (phase : HoldPhase) (byRequest : Bool) (restore : Nat) :
    (e.join k phase byRequest restore).Commands (e.place k phase byRequest restore) := by
  rw [e.place_eq]
  exact Event.commands_ite _ _ _ _ (Event.commands_giveDisarm _)
    (Event.commands_ite _ _ _ _ (Event.commands_commandForFirm _ _) (.refl _))

theorem Event.commands_makeFirm (k : HoldKind) (left : PhaseName) (cause : FirmCause) :
    (e.firm k left cause).Commands (e.makeFirm k left cause) :=
  Event.commands_commandForFirm _ _

theorem Event.commands_remove {k : HoldKind} {had : HoldPhase} (hk : e.nv.holds.phase k = some had)
    (cause : RemovalCause) (named : Option Policy) (policy : Policy) :
    (e.drop k had cause named policy).Commands (e.remove k cause named policy) := by
  rw [e.remove_eq hk]
  exact Event.commands_ite _ _ _ _ (Event.commands_commandForEmptied _ _)
    (Event.commands_ite _ _ _ _ (Event.commands_enter _ _) (.refl _))

/-! ### Records and follow-ups of a placing, a passage to FIRM and a removal -/

theorem Event.place_records (k : HoldKind) (phase : HoldPhase) (byRequest : Bool) (restore : Nat) :
    (e.place k phase byRequest restore).records =
      e.records ++
        [.holdPlaced k phase (if byRequest then some Port.l else none) (if k = .load then some restore else none)] :=
  (e.commands_place k phase byRequest restore).records

theorem Event.makeFirm_records (k : HoldKind) (left : PhaseName) (cause : FirmCause) :
    (e.makeFirm k left cause).records = e.records ++ [.holdFirm k left cause] :=
  (e.commands_makeFirm k left cause).records

theorem Event.remove_records {k : HoldKind} {had : HoldPhase} (hk : e.nv.holds.phase k = some had)
    (cause : RemovalCause) (named : Option Policy) (policy : Policy) :
    (e.remove k cause named policy).records = e.records ++ [e.nv.removalRecord k had cause named policy] :=
  (e.commands_remove hk cause named policy).records

/-- A kind that is not in the list leaves it unchanged by its removal. -/
theorem Event.remove_of_absent {k : HoldKind} (hk : e.nv.holds.phase k = none) (cause : RemovalCause)
    (named : Option Policy) (policy : Policy) : e.remove k cause named policy = e := by
  unfold Event.remove
  rw [hk]

/-- A removal's record is read off the list alone (R161). -/
theorem Nv.removalRecord_congr {n m : Nv} (h : n.holds = m.holds) (k : HoldKind) (had : HoldPhase) (cause : RemovalCause)
    (named : Option Policy) (policy : Policy) :
    n.removalRecord k had cause named policy = m.removalRecord k had cause named policy := by
  simp only [Nv.removalRecord, h]

section
variable {f : FollowUp} (hs : f ≠ .notice .supplyChanged) (ha : f ≠ .notice .armed)
include hs ha

theorem Event.mem_place_follow (k : HoldKind) (phase : HoldPhase) (byRequest : Bool) (restore : Nat) :
    f ∈ (e.place k phase byRequest restore).follow ↔ f ∈ e.follow :=
  (e.commands_place k phase byRequest restore).follow f hs ha

theorem Event.mem_remove_follow (k : HoldKind) (cause : RemovalCause) (named : Option Policy) (policy : Policy) :
    f ∈ (e.remove k cause named policy).follow ↔ f ∈ e.follow := by
  cases hk : e.nv.holds.phase k with
  | none => rw [e.remove_of_absent hk]
  | some had => exact (e.commands_remove hk cause named policy).follow f hs ha

end

/-! ## The CREDIT hold (R19, R101) -/

/-- A change of the exhausted condition calls, beside its commands, for CREDIT_EXHAUSTED when the condition begins. -/
theorem Event.mem_creditCondition_follow (before after : Bool) {f : FollowUp} (hs : f ≠ .notice .supplyChanged)
    (ha : f ≠ .notice .armed) :
    f ∈ (e.creditCondition before after).follow ↔
      f ∈ e.follow ∨ f = .notice .creditExhausted ∧ before = false ∧ after = true := by
  unfold Event.creditCondition
  cases before <;> cases after
  · simp
  · simp only [Event.notify_follow, List.mem_append, List.mem_singleton, and_self, if_true, and_true]
    refine or_congr_left ?_
    split
    · exact e.mem_place_follow hs ha _ _ _ _
    · exact Iff.rfl
  · simpa using e.mem_remove_follow hs ha _ _ _ _
  · simp

end

theorem Event.Within.account {e e' : Event} (h : e.Within e') : e'.nv.account = e.nv.account := by
  have := congrArg Nv.account h.nv
  exact this

theorem Event.Within.settings {e e' : Event} (h : e.Within e') : e'.nv.settings = e.nv.settings := by
  have := congrArg Nv.settings h.nv
  exact this

theorem Event.Within.ceilingHolds {e e' : Event} (h : e.Within e') : e'.nv.ceilingHolds = e.nv.ceilingHolds := by
  simp only [Nv.ceilingHolds, h.account, h.settings]

/-- The phase that an event gives a CREDIT hold is the one of R108. -/
theorem Event.Ready.creditPhase {s : State} {e : Event} (h : e.Ready s) {t : State}
    (ht : t.nv.ceilingHolds = e.nv.ceilingHolds) : e.creditPhase = s.creditPhase t := by
  have hw : e.state.mayWait = true ↔ s.supply.loadhi = true ∧ 0 < s.nv.settings.graceTime := by
    have := h.settings
    simp only [Event.nv] at this
    simp [State.mayWait, h.supply, this]
  simp only [Event.creditPhase, State.creditPhase, h.window, h.clock, h.settings, ht, hw]
  rfl

/-- The CREDIT hold follows the exhausted condition in an event that has moved nothing (R19, R101). -/
theorem Event.Ready.creditFollows {s : State} {e : Event} (h : e.Ready s)
    (hx : .notice .creditExhausted ∉ e.follow) :
    let e' := e.creditCondition s.nv.account.exhausted e.nv.account.exhausted
    ∃ rs, e'.records = e.records ++ rs ∧ s.creditFollows e'.view rs ∧
      (rs ≠ [] → e.nv.account.exhausted ≠ s.nv.account.exhausted) := by
  intro e'
  have hin : e.Within e' := e.within_creditCondition _ _
  have hacc : e'.view.nv.account.exhausted = e.nv.account.exhausted := congrArg Account.exhausted hin.account
  have hholds : e.nv.holds = s.nv.holds := h.kept.1
  have hphase : e.creditPhase = s.creditPhase e'.view := h.creditPhase hin.ceilingHolds
  have hnotice : .notice .creditExhausted ∈ e'.view.newestFollow ↔
      s.nv.account.exhausted = false ∧ e'.view.nv.account.exhausted = true := by
    rw [hacc, Event.view_newestFollow, e.mem_creditCondition_follow _ _ (by decide) (by decide)]
    simp [hx]
  unfold State.creditFollows
  rw [hacc] at hnotice ⊢
  have kept : e' = e → s.supplyKept e'.view := fun he => by rw [he]; exact h.kept
  have hcond : e' = e.creditCondition s.nv.account.exhausted e.nv.account.exhausted := rfl
  unfold Event.creditCondition at hcond
  rw [hholds] at hcond
  cases hb : s.nv.account.exhausted <;> cases ha : e.nv.account.exhausted <;> rw [hb, ha] at hcond hnotice
  case false.true =>
    cases hc : s.nv.holds.credit with
    | none =>
      replace hcond : e' = (e.place .credit e.creditPhase false 0).notify .creditExhausted := by
        simpa [hc] using hcond
      refine ⟨[.holdPlaced .credit e.creditPhase none none], ?_, ⟨hnotice, ?_, ?_⟩, by simp⟩
      · rw [hcond]
        exact e.place_records _ _ _ _
      · rw [← hphase, hcond]
        exact ((Event.sameSupply_notify _ (by decide) (by decide)).placed _ _ _ _).mpr (h.placed _ _ _ _)
      · rw [hphase]
    | some had =>
      replace hcond : e' = e.notify .creditExhausted := by simpa [hc] using hcond
      refine ⟨[], by rw [hcond]; simp, ⟨hnotice, ?_, rfl⟩, by simp⟩
      rw [hcond]
      exact (Event.sameSupply_notify _ (by decide) (by decide)).supplyKept.mpr h.kept
  case true.false =>
    replace hcond : e' = e.remove .credit .credit none s.nv.settings.creditPolicy.policy := by
      simpa [h.settings] using hcond
    cases hc : s.nv.holds.credit with
    | none =>
      have he : e' = e := hcond.trans (e.remove_of_absent (by rw [hholds]; exact hc) _ _ _)
      exact ⟨[], by rw [he]; simp, ⟨hnotice, kept he, rfl⟩, by simp⟩
    | some had =>
      have hpolicy : s.nv.settings.creditPolicy.policy =
          match s.nv.settings.creditPolicy with | .auto => .auto | .press => .press := by
        cases s.nv.settings.creditPolicy <;> rfl
      refine ⟨[s.nv.removalRecord .credit had .credit none s.nv.settings.creditPolicy.policy], ?_,
        ⟨hnotice, ?_, congrArg (fun p => [s.nv.removalRecord .credit had .credit none p]) hpolicy⟩, by simp⟩
      · rw [hcond, e.remove_records (by rw [hholds]; exact hc), Nv.removalRecord_congr hholds]
      · have := h.removed (k := .credit) hc .credit none s.nv.settings.creditPolicy.policy
        rw [← hcond, hpolicy] at this
        exact this
  all_goals
    have he : e' = e := by simpa using hcond
    exact ⟨[], by rw [he]; simp, ⟨hnotice, kept he, rfl⟩, by simp⟩

/-! ## The end of an event at the account (R4) -/

/-- A change of the account record that leaves it as it is changes nothing. -/
theorem Event.updateAccount_of_eq (e : Event) {f : Account → Account} (h : f e.nv.account = e.nv.account) :
    e.updateAccount f = e := by
  simp only [Event.nv] at h
  simp only [Event.updateAccount, Event.updateNv, h]

/-- Where a main credit stands against a threshold (R21). -/
def LowCredit.at (credit threshold : Nat) : LowCredit := if credit ≤ threshold then .atOrBelow else .above

/-- The event with the low-credit state evaluated (R21, R22). -/
def Event.judgeLow (e : Event) : Event :=
  e.updateAccount (fun a => { a with lowCredit := .at a.credit e.nv.settings.lowCreditThreshold })

theorem Event.judgeLow_eq (e : Event) {l : LowCredit}
    (h : .at e.nv.account.credit e.nv.settings.lowCreditThreshold = l) :
    e.judgeLow = e.updateAccount (fun a => { a with lowCredit := l }) := by
  rw [← h]
  rfl

/-- The low-credit state evaluated stands by C and the threshold, with CREDIT_LOW at a fall (R21, R22). -/
theorem Event.lowCredit_eq (e : Event) :
    e.lowCredit =
      if e.nv.account.lowCredit = .above ∧ e.judgeLow.nv.account.lowCredit = .atOrBelow then
        e.judgeLow.notify .creditLow
      else e.judgeLow := by
  have stays {l : LowCredit} (hl : e.nv.account.lowCredit = l) :
      e.updateAccount (fun a => { a with lowCredit := l }) = e := e.updateAccount_of_eq (by rw [← hl])
  unfold Event.lowCredit
  dsimp only
  by_cases hc : e.nv.account.credit ≤ e.nv.settings.lowCreditThreshold
  · rw [e.judgeLow_eq (if_pos hc)]
    cases hl : e.nv.account.lowCredit with
    | above => simp only [hc, if_true, Event.updateAccount_nv, and_self]; rfl
    | atOrBelow => simp [hc, stays hl]
  · rw [e.judgeLow_eq (if_neg hc)]
    cases hl : e.nv.account.lowCredit with
    | above => simp [hc, stays hl, hl]
    | atOrBelow => simp only [hc, if_false, reduceCtorEq, false_and]; rfl

/-- The event with the low-credit state as its end leaves it (R21). -/
def Event.settle (e : Event) (before : Account) : Event :=
  e.updateAccount (fun a => a.settled before e.nv.settings.lowCreditThreshold)

/-- The low-credit state at the end of an event is the one of R21, with CREDIT_LOW at a fall. -/
theorem Event.lowCreditIfChanged_eq (e : Event) {before : Account} (h : e.nv.account.lowCredit = before.lowCredit) :
    e.lowCreditIfChanged before =
      if before.lowCredit = .above ∧ (e.settle before).nv.account.lowCredit = .atOrBelow then
        (e.settle before).notify .creditLow
      else e.settle before := by
  unfold Event.lowCreditIfChanged
  by_cases hc : e.nv.account.credit = before.credit
  · have hs : e.settle before = e := e.updateAccount_of_eq (by simp only [Account.settled, if_pos hc, ← h])
    rw [if_pos hc, hs, h, if_neg (by rintro ⟨ha, hb⟩; rw [ha] at hb; cases hb)]
  · have hs : e.settle before = e.judgeLow := by
      simp only [Event.settle, Event.judgeLow, Account.settled, LowCredit.at, Event.updateAccount, Event.updateNv]
      simp only [Event.nv] at hc
      simp only [if_neg hc]
    rw [if_neg hc, hs, e.lowCredit_eq, h]

/-- An event at the account before its end: nothing of the supply is moved, the low-credit state is the one that `s`
has, and none of the notices and hand-offs of the end is called for. -/
structure Event.AtAccount (s : State) (e : Event) : Prop where
  ready : e.Ready s
  lowCredit : e.nv.account.lowCredit = s.nv.account.lowCredit
  exhausted : .notice .creditExhausted ∉ e.follow
  low : .notice .creditLow ∉ e.follow
  ceiling : .ceilingReached ∉ e.follow

/-- The event `e'` is `e` brought to its end at the account: nothing but the supply, records and follow-ups differs, and
other things than the five of the end follow exactly where they did. -/
structure Event.Ends (e e' : Event) : Prop where
  within : e.Within e'
  follow : ∀ f : FollowUp, f ∉ [FollowUp.notice .supplyChanged, .notice .armed, .notice .creditExhausted,
    .notice .creditLow, .ceilingReached] → (f ∈ e'.follow ↔ f ∈ e.follow)

theorem Event.Ends.trans {a b c : Event} (h : a.Ends b) (k : b.Ends c) : a.Ends c :=
  ⟨h.within.trans k.within, fun f hf => (k.follow f hf).trans (h.follow f hf)⟩

theorem Event.ends_refl (e : Event) : e.Ends e := ⟨.refl e, fun _ _ => Iff.rfl⟩

theorem Event.ends_notifyLow (e : Event) : e.Ends (e.notify .creditLow) :=
  ⟨e.within_notify _, fun f hf => by simp_all⟩

/-- "Arrears ceiling reached" is handed as its condition begins to hold, and nothing else with it (R20). -/
theorem Event.mem_handCeiling_follow (e : Event) (before : Nv) (f : FollowUp) :
    f ∈ (e.handCeiling before).follow ↔
      f ∈ e.follow ∨ f = .ceilingReached ∧ before.ceilingHolds = false ∧ e.nv.ceilingHolds = true := by
  unfold Event.handCeiling
  split <;> simp_all

theorem Event.ends_handCeiling (e : Event) (before : Nv) : e.Ends (e.handCeiling before) :=
  ⟨e.within_handCeiling before, fun f hf => by rw [e.mem_handCeiling_follow]; simp_all⟩

theorem Event.ends_creditCondition (e : Event) (before after : Bool) : e.Ends (e.creditCondition before after) :=
  ⟨e.within_creditCondition before after, fun f hf => by
    rw [e.mem_creditCondition_follow before after (by simp_all) (by simp_all)]
    simp_all⟩

theorem Event.sameCredit_handCeiling (e : Event) (before : Nv) : (e.handCeiling before).view.SameCredit e.view := by
  unfold Event.handCeiling
  split
  · exact ⟨e.sameSupply_andThen (by decide) (by decide), rfl, rfl, by simp⟩
  · exact ⟨⟨rfl, rfl, rfl, rfl, rfl, rfl, Iff.rfl, Iff.rfl⟩, rfl, rfl, Iff.rfl⟩

/-- The end of an event at the account (R4): the low-credit state is settled, and the CREDIT hold, CREDIT_LOW and
"arrears ceiling reached" follow their conditions; a record means that the exhausted condition changed. -/
theorem Event.AtAccount.accountResults {s : State} {e : Event} (h : e.AtAccount s) :
    (e.settle s.nv.account).Ends (e.accountResults s.nv) ∧
      ∃ rs, (e.accountResults s.nv).records = e.records ++ rs ∧ s.accountFollows (e.accountResults s.nv).view rs ∧
        (rs ≠ [] → e.nv.account.exhausted ≠ s.nv.account.exhausted) := by
  let d := e.lowCreditIfChanged s.nv.account
  let c := d.creditCondition s.nv.account.exhausted d.nv.account.exhausted
  have he' : e.accountResults s.nv = c.handCeiling s.nv := rfl
  have hd : d = if s.nv.account.lowCredit = .above ∧ (e.settle s.nv.account).nv.account.lowCredit = .atOrBelow then
      (e.settle s.nv.account).notify .creditLow else e.settle s.nv.account := e.lowCreditIfChanged_eq h.lowCredit
  have hends : (e.settle s.nv.account).Ends d := by
    rw [hd]
    split
    · exact Event.ends_notifyLow _
    · exact Event.ends_refl _
  have hready : d.Ready s := by
    rw [hd]
    split
    · exact (h.ready.updateAccount _).andThen (by decide) (by decide)
    · exact h.ready.updateAccount _
  have hrecords : d.records = e.records := by rw [hd]; split <;> rfl
  have hx : .notice .creditExhausted ∉ d.follow := by rw [hd]; split <;> simp [Event.settle, h.exhausted]
  have hl : .notice .creditLow ∈ d.follow ↔
      s.nv.account.lowCredit = .above ∧ (e.settle s.nv.account).nv.account.lowCredit = .atOrBelow := by
    rw [hd]; split <;> simp_all [Event.settle, h.low]
  have hc : .ceilingReached ∉ d.follow := by rw [hd]; split <;> simp [Event.settle, h.ceiling]
  have hexhausted : d.nv.account.exhausted = e.nv.account.exhausted := by rw [hends.within.account]; rfl
  have hcd : d.Ends c := d.ends_creditCondition _ _
  have hce : c.Ends (e.accountResults s.nv) := c.ends_handCeiling s.nv
  have hall := (hends.trans hcd).trans hce
  obtain ⟨rs, hrs, hcredit, hne⟩ := hready.creditFollows hx
  refine ⟨hall, rs, ?_, ⟨?_, ?_, ?_⟩, hexhausted ▸ hne⟩
  · rw [← hrecords, ← hrs, he']
    unfold Event.handCeiling
    split <;> rfl
  · exact (c.sameCredit_handCeiling s.nv).creditFollows rs |>.mpr hcredit
  · rw [Event.view_nv, hall.within.account, ← hl, Event.view_newestFollow, he', c.mem_handCeiling_follow,
      d.mem_creditCondition_follow _ _ (by decide) (by decide)]
    simp
  · rw [Event.view_nv, hce.within.ceilingHolds, Event.view_newestFollow, he']
    rw [c.mem_handCeiling_follow, d.mem_creditCondition_follow _ _ (by decide) (by decide)]
    simp [hc]

end Sys2Proof.Machine
end

