-- ==== Sys2Proof/Proofs/EnergyQuantum.lean ====
section
namespace Sys2Proof.Machine

/-! ## The write of an event at the account -/

/-- All that an event's write leaves beside the store, the writes and the driver is as the event began. -/
theorem Event.Within.commit_withStoreOf {e e' : Event} (h : e.Within e') (b : Block) (s : State) :
    (e'.commit b).withStoreOf s = e.state.withStoreOf s := by
  have : (e'.commit b).withStoreOf s = (e'.state.withStoreOf e.state).withStoreOf s := rfl
  rw [this, h.state]

/-- All that an event's write holds beside the supply's fields and the journal is as the event began. -/
theorem Event.Within.image_withSupplyOf {e e' : Event} (h : e.Within e') (n : Nv) :
    e'.image.withSupplyOf n = e.nv.withSupplyOf n := by
  have : e'.image.withSupplyOf n = (e'.nv.withSupplyOf e.nv).withSupplyOf n := rfl
  rw [this, h.nv]

theorem Event.Within.clock {e e' : Event} (h : e.Within e') : e'.state.clock = e.state.clock := by
  have := congrArg State.clock h.state
  exact this

/-- The journal that an event's write leaves is the one it found with its records appended. -/
theorem Event.Within.image_journal {e e' : Event} (h : e.Within e') :
    e'.image.journal = e.nv.journal.appendAll e.state.clock e.origin e'.records := by
  rw [← h.journal, ← h.clock, ← h.origin]
  rfl

/-- A write that may begin with an append may begin without one. -/
theorem State.mayBegin_weaken {s : State} {c : Instr} {b : Block} {needs appends : Bool}
    (h : s.mayBegin c b needs = true) (ha : appends = true → needs = true) : s.mayBegin c b appends = true := by
  simp only [State.mayBegin, Bool.and_eq_true, Bool.or_eq_true, Bool.not_eq_true'] at h ⊢
  cases appends
  · exact ⟨h.1, .inl rfl⟩
  · rw [ha rfl] at h
    exact h

/-- An event whose write may begin is taken. -/
theorem Event.takes_commit {s : State} {e : Event} {c : Instr} {b : Block} {needs : Bool}
    (hw : e.state.writes = s.writes) (h : s.mayBegin c b needs = true) (hr : e.records ≠ [] → needs = true) :
    s.takes c none (e.commit b) = (e.commit b).leaveLine c := by
  refine State.takes_of_mayBegin (by rw [← hw]; rfl) (State.mayBegin_weaken h fun ha => hr ?_)
  simpa using ha

/-- An event tested for room whose write may begin is taken at the journal's turn. -/
theorem Event.takesTurn_commit {s : State} {e : Event} {c : Instr} {b : Block} (hw : e.state.writes = s.writes)
    (h : s.mayBegin c b true = true) : s.takesTurn c b (e.commit b) = (e.commit b).leaveLine c :=
  State.takesTurn_of_mayBegin h (by rw [← hw]; rfl) (State.mayBegin_weaken h fun _ => rfl)

/-- The write of an event is one write of its owner. -/
theorem Event.beganWrite_commit {s : State} {e : Event} (hw : e.state.writes = s.writes) (b : Block) (c : Instr) :
    s.beganWrite ((e.commit b).leaveLine c) b :=
  ⟨_, by rw [← hw]; rfl, rfl, rfl⟩

/-- An event that begins with all that an event of the supply reads as `s` has it has moved nothing. -/
theorem Event.ready_begin_of {s u : State} (o : Origin) (nv : u.nv = s.nv) (supply : u.supply = s.supply)
    (driver : u.driver = s.driver) (clock : u.clock = s.clock)
    (window : u.clockUnit.windowInForce = s.clockUnit.windowInForce) : (Event.begin u o).Ready s := by
  refine ⟨State.supplyKept_of_fields ?_ ?_ ?_ ?_ ?_ driver List.not_mem_nil List.not_mem_nil, ?_, supply, clock, window⟩
  all_goals simp [nv]

theorem Event.atAccount_begin_of {s u : State} (o : Origin) (nv : u.nv = s.nv) (supply : u.supply = s.supply)
    (driver : u.driver = s.driver) (clock : u.clock = s.clock)
    (window : u.clockUnit.windowInForce = s.clockUnit.windowInForce) : (Event.begin u o).AtAccount s :=
  ⟨Event.ready_begin_of o nv supply driver clock window, by simp [nv], List.not_mem_nil, List.not_mem_nil,
    List.not_mem_nil⟩

theorem Event.AtAccount.updateAccount {s : State} {e : Event} (h : e.AtAccount s) {f : Account → Account}
    (hf : ∀ a, (f a).lowCredit = a.lowCredit) : (e.updateAccount f).AtAccount s :=
  ⟨h.ready.updateAccount f, (hf _).trans h.lowCredit, h.exhausted, h.low, h.ceiling⟩

theorem Event.AtAccount.log {s : State} {e : Event} (h : e.AtAccount s) (r : RecordBody) : (e.log r).AtAccount s :=
  ⟨h.ready.log r, h.lowCredit, h.exhausted, h.low, h.ceiling⟩

/-- What follows an event's write is what the event calls for, beside the journal's notices. -/
theorem Event.mem_commit_follow (e : Event) (b : Block) (c : Instr) {f : FollowUp}
    (hf : f ≠ .notice .journalLow ∧ f ≠ .notice .journalFull) :
    f ∈ ((e.commit b).leaveLine c).newestFollow ↔ f ∈ e.follow :=
  e.mem_commitSetting_follow b none none hf

/-- The rules of the account hold of the state that an event leaves if they hold of the event. -/
theorem Event.accountFollows_commit {s : State} {e : Event} {rs : List RecordBody} (h : s.accountFollows e.view rs)
    (b : Block) (c : Instr) : s.accountFollows ((e.commit b).leaveLine c) rs := by
  have halike : ((e.commit b).leaveLine c).Alike e.view := by
    obtain ⟨⟨⟨h₁, h₂, h₃, h₄, h₅, h₆, h₇, h₈⟩, h₉, h₁₀, h₁₁⟩, h₁₂, h₁₃⟩ := e.alike_commitSetting b none none
    exact ⟨⟨⟨h₁, h₂, h₃, h₄, h₅, h₆, h₇, h₈⟩, h₉, h₁₀, h₁₁⟩, h₁₂, h₁₃⟩
  exact (halike.accountFollows rs).mpr h

/-- Another follow-up than the five of the end leaves the rules of the account as they are. -/
theorem Event.accountFollows_andThen {s : State} {e : Event} {rs : List RecordBody} (h : s.accountFollows e.view rs)
    {f : FollowUp} (hf : f ∉ [FollowUp.notice .supplyChanged, .notice .armed, .notice .creditExhausted,
      .notice .creditLow, .ceilingReached]) : s.accountFollows (e.andThen f).view rs := by
  simp only [List.mem_cons, List.not_mem_nil, or_false, not_or] at hf
  obtain ⟨h₁, h₂, h₃, h₄, h₅⟩ := hf
  have halike : (e.andThen f).view.Alike e.view :=
    ⟨⟨e.sameSupply_andThen h₁ h₂, rfl, rfl, by simp [Ne.symm h₃]⟩, by simp [Ne.symm h₄], by simp [Ne.symm h₅]⟩
  exact (halike.accountFollows rs).mpr h

/-! ## Energy quanta (R7, R8) -/

/-- Settles O4: the quantum's event up to its end, and the end by `Event.AtAccount.accountResults`. -/
theorem quantumIsCharged : Obligations.QuantumIsCharged := by
  intro s hr ht a q after hmay
  let e := (Event.begin s.leaveArrivals .device).updateAccount (fun a => a.chargeQuantum s.priceInForce)
  have hbegin : (Event.begin s.leaveArrivals .device).AtAccount s := Event.atAccount_begin_of .device rfl rfl rfl rfl rfl
  have he : e.AtAccount s := hbegin.updateAccount (f := fun a => a.chargeQuantum s.priceInForce) fun _ => rfl
  obtain ⟨hends, rs, hrs, hfollows, hne⟩ := he.accountResults
  let e' := (e.accountResults s.nv).andThen .quantumTaken
  have hin : (e.settle a).Within e' := hends.within.trans (Event.within_andThen _ _)
  have hafter : (e.settle a).nv.account = after := by
    simp only [after, q, a, ← Account.charge_eq_iterate]
    rfl
  have hchanged : e'.records ≠ [] → (after.exhausted != s.nv.account.exhausted) = true := fun h => by
    rw [← hafter]
    exact bne_iff_ne.mpr (hne (by rintro rfl; exact h hrs))
  have hwrites : e'.state.writes = s.writes := hin.writes
  refine ⟨(e'.commit .account).leaveLine .energyQuantum, rs, ?_, ?_, ?_, ?_, ?_, ?_, ?_, ?_, ?_⟩
  · change execEnergyQuantum s = _
    rw [execEnergyQuantum, whenRunning_of_running _ _ hr]
    simp only [ht, if_true]
    exact congrArg _ (Event.takes_commit (e := e') hwrites hmay hchanged)
  · exact hin.account.trans hafter
  · exact Event.accountFollows_commit (Event.accountFollows_andThen hfollows (by decide)) _ _
  · have : e'.records = rs := hrs
    rw [← this]
    exact hin.image_journal
  · exact congrArg State.arrivals (hin.commit_withStoreOf .account s)
  · exact Event.beganWrite_commit hwrites _ _
  · rw [Event.mem_commit_follow _ _ _ (by decide)]
    simp [e']
  · have := congrArg (fun t => ({ t with arrivals := s.arrivals } : State).leaveLine .energyQuantum)
      (hin.commit_withStoreOf .account s)
    exact this
  · have := congrArg (fun n => ({ n with account := s.nv.account } : Nv)) (hin.image_withSupplyOf s.nv)
    exact this

end Sys2Proof.Machine
end

