-- ==== Sys2Proof/Proofs/DayClose.lean ====
section
namespace Sys2Proof.Machine

/-! ## Day closes (R15, R16) -/

/-- Charging leaves the debt as it is. -/
theorem Account.charge_debt (a : Account) (n : Nat) : (a.charge n).debt = a.debt := rfl

/-- The days closed are closed one after another (R16). -/
theorem Account.closeDays_account (a : Account) (standing k : Nat) :
    (a.closeDays standing k).1 = (fun x => x.closeDay standing)^[k] a := by
  induction k generalizing a with
  | zero => rfl
  | succ k ih => exact ih _

/-- What several days recover is what the debt falls by (R15, R16). -/
theorem Account.closeDays_recovered (a : Account) (standing k : Nat) :
    (a.closeDays standing k).1.debt + (a.closeDays standing k).2 = a.debt := by
  induction k generalizing a with
  | zero => rfl
  | succ k ih =>
    have hday : (a.closeDay standing).debt = a.debt - (a.charge standing).recoverable := rfl
    have hle : (a.charge standing).recoverable ≤ a.debt := by
      have := a.charge_debt standing
      unfold Account.recoverable
      omega
    have := ih (a.closeDay standing)
    simp only [Account.closeDays]
    omega

/-- Closing days leaves the low-credit state as it is: it is evaluated at the event's end. -/
theorem Account.closeDays_lowCredit (a : Account) (standing k : Nat) :
    (a.closeDays standing k).1.lowCredit = a.lowCredit := by
  induction k generalizing a with
  | zero => rfl
  | succ k ih => exact ih _

/-- A change of the stored state that leaves the supply's fields and the settings moves nothing of the supply. -/
theorem Event.Ready.updateNv {s : State} {e : Event} (h : e.Ready s) {f : Nv → Nv}
    (hn : e.nv.withSupplyOf (f e.nv) = e.nv) (hs : (f e.nv).settings = e.nv.settings) : (e.updateNv f).Ready s := by
  have keep {α : Type} (g : Nv → α) (hg : ∀ n m : Nv, g (n.withSupplyOf m) = g m) : g (f e.nv) = g e.nv := by
    rw [← hg e.nv, hn]
  have same : (e.updateNv f).view.SameSupply e.view :=
    ⟨keep (·.holds) fun _ _ => rfl, keep (·.policy) fun _ _ => rfl, keep (·.armDeadline) fun _ _ => rfl,
      keep (·.contactor) fun _ _ => rfl, keep (·.driveTarget) fun _ _ => rfl, rfl, Iff.rfl, Iff.rfl⟩
  exact ⟨same.supplyKept.mpr h.kept, hs.trans h.settings, h.supply, h.clock, h.window⟩

theorem Event.AtAccount.updateNv {s : State} {e : Event} (h : e.AtAccount s) {f : Nv → Nv}
    (hn : e.nv.withSupplyOf (f e.nv) = e.nv) (hs : (f e.nv).settings = e.nv.settings)
    (hl : (f e.nv).account.lowCredit = e.nv.account.lowCredit) : (e.updateNv f).AtAccount s :=
  ⟨h.ready.updateNv hn hs, hl.trans h.lowCredit, h.exhausted, h.low, h.ceiling⟩

/-- Settles O5: the days by `Account.closeDays_account`, the end by `Event.AtAccount.accountResults`. -/
theorem dayCloseRepeatsTheDay : Obligations.DayCloseRepeatsTheDay := by
  intro s d hr ht hd hmay
  let u : State := { s.leaveArrivals with clockUnit := { s.clockUnit with dayCloseTaking := true } }
  let standing := s.nv.activeTariff.standingCharge
  let closed := s.nv.account.closeDays standing d.days
  let e := ((Event.begin u .device).updateNv (fun n =>
    { n with account := closed.1, lastChargedDay := d.last, storedClock := s.clock })).log
      (.standing d.days d.last (d.days * standing) closed.2 d.passedOver)
  have hbegin : (Event.begin u .device).AtAccount s := Event.atAccount_begin_of .device rfl rfl rfl rfl rfl
  have he : e.AtAccount s := (hbegin.updateNv (f := fun n =>
    { n with account := closed.1, lastChargedDay := d.last, storedClock := s.clock }) rfl rfl
      (s.nv.account.closeDays_lowCredit standing d.days)).log _
  obtain ⟨hends, rs, hrs, hfollows, -⟩ := he.accountResults
  let changed := if closed.1.credit = s.nv.account.credit then e.accountResults s.nv
    else (e.accountResults s.nv).notify .creditChanged
  let e' := changed.andThen .dayCloseTaken
  have hchanged : (e.accountResults s.nv).Within changed := by
    simp only [changed]
    split
    · exact .refl _
    · exact Event.within_notify _ _
  have hin : (e.settle s.nv.account).Within e' := (hends.within.trans hchanged).trans (Event.within_andThen _ _)
  have hwrites : e'.state.writes = s.writes := hin.writes
  have hrecords : e'.records = (e.accountResults s.nv).records := by
    simp only [e', changed]
    split <;> rfl
  have hfollows' : s.accountFollows changed.view rs := by
    simp only [changed]
    split
    · exact hfollows
    · exact Event.accountFollows_andThen hfollows (by decide)
  have hacc : ((e'.commit .account).leaveLine .dayClose).nv.account
      = closed.1.settled s.nv.account s.nv.settings.lowCreditThreshold := hin.account
  have hnotice : .notice .creditChanged ∈ (e.accountResults s.nv).follow ↔ False := by
    rw [hends.follow _ (by decide)]
    simp [Event.settle, e]
  refine ⟨(e'.commit .account).leaveLine .dayClose, rs, ?_, ⟨?_, ?_⟩, ?_, ?_, ?_, ?_, ?_, ?_, ?_, ?_, ?_, ?_⟩
  · change execDayClose s = _
    rw [execDayClose, whenRunning_of_running _ _ hr]
    dsimp only
    split
    · next d' _ hd' =>
      cases hd.symm.trans hd'
      exact congrArg _ (Event.takes_commit (e := e') hwrites hmay fun _ => rfl)
    · next h => exact absurd hd (h d ht)
  · rw [hacc, Account.closeDays_account]
    simp only [Account.closeDay, Account.charge_eq_iterate]
    rfl
  · have hj : ((e'.commit .account).leaveLine .dayClose).nv.journal
        = s.nv.journal.appendAll s.clock .device e'.records := hin.image_journal
    have hdebt := s.nv.account.closeDays_recovered standing d.days
    have hsum : s.nv.account.debt - closed.1.debt = closed.2 := by simp only [closed]; omega
    rw [hj, hrecords, hrs, hacc]
    have : (closed.1.settled s.nv.account s.nv.settings.lowCreditThreshold).debt = closed.1.debt := rfl
    rw [this, hsum]
    rfl
  · exact Event.accountFollows_commit (Event.accountFollows_andThen hfollows' (by decide)) _ _
  · exact congrArg Nv.lastChargedDay (hin.image_withSupplyOf s.nv)
  · exact congrArg Nv.storedClock (hin.image_withSupplyOf s.nv)
  · rw [Event.mem_commit_follow _ _ _ (by decide), hacc]
    have : (closed.1.settled s.nv.account s.nv.settings.lowCreditThreshold).credit = closed.1.credit := rfl
    rw [this]
    simp only [e', changed]
    split <;> simp_all
  · rw [Event.mem_commit_follow _ _ _ (by decide)]
    simp [e']
  · exact congrArg State.arrivals (hin.commit_withStoreOf .account s)
  · exact congrArg State.clockUnit (hin.commit_withStoreOf .account s)
  · exact Event.beganWrite_commit hwrites _ _
  · have := congrArg (fun t => ({ t with arrivals := s.arrivals, clockUnit := s.clockUnit } : State).leaveLine .dayClose)
      (hin.commit_withStoreOf .account s)
    exact this
  · have := congrArg (fun n => ({ n with
      account := s.nv.account, lastChargedDay := s.nv.lastChargedDay, storedClock := s.nv.storedClock } : Nv))
      (hin.image_withSupplyOf s.nv)
    exact this

end Sys2Proof.Machine
end

