-- ==== Sys2Proof/Proofs/AccountRequests.lean ====
section
namespace Sys2Proof.Machine

/-! ## Requests at the account (R14, R17) -/

/-- An owner's answer begins no write. -/
@[simp] theorem State.answer_writes (s : State) (p : Port) (status : Status) (payload : List Byte) :
    (s.answer p status payload).writes = s.writes := by
  obtain ⟨ps, u, h⟩ := s.answerByte_frame p status.byte payload
  rw [State.answer, h]

/-- Emergency credit is available by the four conditions of R17. -/
theorem State.emergencyAvailable_iff (s : State) :
    s.emergencyAvailable = true ↔
      0 < s.nv.account.emergencyLimit ∧ s.nv.account.emergencyActive = false ∧ s.nv.account.emergencyUsed = 0
        ∧ s.nv.account.credit ≤ s.nv.settings.availabilityThreshold := by
  simp [State.emergencyAvailable, and_assoc]

/-- The event of an acceptance up to its end (R17). -/
def State.acceptBegun (s : State) : Event :=
  ((Event.begin s .aPort).updateAccount (fun a => { a with emergencyActive := true })).log
    (.emergencyStart s.nv.account.credit s.nv.account.emergencyLimit)

theorem State.acceptBegun_atAccount (s : State) : (s.leaveArrivals.takeRequest .a).acceptBegun.AtAccount s := by
  have hbegin : (Event.begin (s.leaveArrivals.takeRequest .a) .aPort).AtAccount s :=
    Event.atAccount_begin_of .aPort rfl rfl rfl rfl rfl
  exact (hbegin.updateAccount (f := fun a => { a with emergencyActive := true }) fun _ => rfl).log _

/-- An acceptance of emergency credit that is taken (R17). -/
theorem State.acceptEmergency_taken (s : State) (hmay : s.mayBegin .acceptEmergency .account true = true) :
    let u := s.leaveArrivals.takeRequest .a
    ∃ t records, s.takes .acceptEmergency none (u.acceptEvent.commit .account) = t ∧
      t.nv.account = { s.nv.account with emergencyActive := true } ∧
      t.nv.journal = s.nv.journal.appendAll s.clock .aPort
        (.emergencyStart s.nv.account.credit s.nv.account.emergencyLimit :: records) ∧
      .answer .a .ok [] ∈ t.newestFollow ∧ s.accountFollows t records ∧ s.beganWrite t .account ∧
      t.withStoreOf s = u.leaveLine .acceptEmergency ∧
      { t.nv.withSupplyOf s.nv with account := s.nv.account } = s.nv := by
  intro u
  let e := u.acceptBegun
  obtain ⟨hends, rs, hrs, hfollows, -⟩ := s.acceptBegun_atAccount.accountResults
  let e' := (e.accountResults s.nv).andThen (.answer .a .ok [])
  have hin : (e.settle s.nv.account).Within e' := hends.within.trans (Event.within_andThen _ _)
  have hwrites : e'.state.writes = s.writes := hin.writes
  have hsettled : (e.settle s.nv.account).nv.account = { s.nv.account with emergencyActive := true } := by
    change ({ s.nv.account with emergencyActive := true } : Account).settled _ _ = _
    simp only [Account.settled, if_true]
  refine ⟨_, rs, Event.takes_commit (e := e') hwrites hmay fun _ => rfl, hin.account.trans hsettled, ?_, ?_, ?_, ?_, ?_,
    ?_⟩
  · have : e'.records = .emergencyStart s.nv.account.credit s.nv.account.emergencyLimit :: rs := hrs
    rw [← this]
    exact hin.image_journal
  · rw [Event.mem_commit_follow _ _ _ (by decide)]
    simp [e']
  · exact Event.accountFollows_commit (Event.accountFollows_andThen hfollows (by decide)) _ _
  · exact Event.beganWrite_commit hwrites _ _
  · exact congrArg (State.leaveLine · .acceptEmergency) (hin.commit_withStoreOf .account s)
  · have := congrArg (fun n => ({ n with account := s.nv.account } : Nv)) (hin.image_withSupplyOf s.nv)
    exact this

/-- An event whose one write, with an append, may not begin waits. -/
theorem Event.takes_commit_waits {s : State} {e : Event} {c : Instr} {b : Block} (hw : e.state.writes = s.writes)
    (hr : e.records ≠ []) (h : s.mayBegin c b true = false) : s.takes c none (e.commit b) = s.waits c b := by
  have happends : (!e.records.isEmpty) = true := by simpa using hr
  obtain ⟨w, howner, hwrite, hw'⟩ : ∃ w : Write, w.owner = b ∧ w.appends = true ∧
      (e.commit b).writes = s.writes ++ [w] := ⟨_, rfl, happends, by rw [← hw]; rfl⟩
  have := State.takes_of_waits hw' (c := c) (by rw [howner, hwrite, h])
  rwa [howner] at this

/-- An acceptance of emergency credit whose append may not be taken yet waits (R159). -/
theorem State.acceptEmergency_waits {s : State} (hmay : s.mayBegin .acceptEmergency .account true = false) :
    s.takes .acceptEmergency none ((s.leaveArrivals.takeRequest .a).acceptEvent.commit .account)
      = s.waits .acceptEmergency .account := by
  let u := s.leaveArrivals.takeRequest .a
  obtain ⟨hends, rs, hrs, -⟩ := s.acceptBegun_atAccount.accountResults
  have hrecords : u.acceptEvent.records = .emergencyStart s.nv.account.credit s.nv.account.emergencyLimit :: rs := hrs
  have hwrites : u.acceptEvent.state.writes = s.writes := hends.within.writes
  exact Event.takes_commit_waits hwrites (by rw [hrecords]; exact List.cons_ne_nil _ _) hmay

/-- SET_DEBT at a request that its owner may take: the range, and then the write or the refusal for want of room at the
journal's turn (R14). -/
theorem execSetDebt_of_request {s : State} {r : Request} (hr : s.isRunning = true)
    (ha : s.accountRequest .l .setDebt = some r) :
    exec .setDebt s = .next
      (let a := s.nv.account
      let d := field r.payload 0 4
      let p := field r.payload 4 1
      let x := field r.payload 5 4
      if maxMoney < d ∨ 50 < p ∨ 99999 < x then (s.leaveArrivals.answer .l .range []).leaveLine .setDebt
      else s.takesTurn .setDebt .account
        (if s.hasRoom then
          (((Event.begin (s.leaveArrivals.takeRequest .l) .lPort).updateAccount (fun a =>
            { a with debt := d, recoveryPercent := p, dailyRecovery := x })).log
              (.debtSet a.debt a.recoveryPercent a.dailyRecovery d p x)).andThen (.answer .l .ok []) |>.commit .account
        else s.leaveArrivals.answer .l .journalFull [])) := by
  change execSetDebt s = _
  rw [execSetDebt, ifRunning_of_running _ hr, ha]

theorem State.hasRoom_iff (s : State) : s.hasRoom = true ↔ ¬ s.nv.journal.free < 17 := by
  rw [State.hasRoom, decide_eq_true_iff, Nat.not_lt]
  rfl

/-- Settles O9: the acceptance by `State.acceptEmergency_taken`, and SET_DEBT through its refusals in order. -/
theorem emergencyAndDebtRequests : Obligations.EmergencyAndDebtRequests := by
  refine ⟨fun s r hr ha => ?_, fun s r hr ha => ?_⟩
  · have hexec : exec .acceptEmergency s = .next (s.takes .acceptEmergency none
        (if s.emergencyAvailable then (s.leaveArrivals.takeRequest .a).acceptEvent.commit .account
          else s.leaveArrivals.answer .a .notAvailable [])) := by
      change execAcceptEmergency s = _
      rw [execAcceptEmergency, whenRunning_of_running _ _ hr, ha]
    dsimp only
    rw [hexec]
    by_cases havail : s.emergencyAvailable = true
    · rw [if_pos havail, if_pos (s.emergencyAvailable_iff.mp havail)]
      cases hmay : s.mayBegin .acceptEmergency .account true with
      | true =>
        rw [if_neg (by decide : ¬ true = false)]
        obtain ⟨t, rs, ht, h⟩ := s.acceptEmergency_taken hmay
        exact ⟨t, rs, congrArg _ ht, h⟩
      | false =>
        rw [if_pos rfl]
        exact congrArg _ (State.acceptEmergency_waits hmay)
    · rw [if_neg havail, if_neg (mt s.emergencyAvailable_iff.mpr havail)]
      rw [State.takes_of_writes _ (by simp)]
  · refine (execSetDebt_of_request hr ha).trans (congrArg _ (if_congr Iff.rfl rfl ?_))
    cases hmay : s.mayBegin .setDebt .account true with
    | false =>
      rw [if_pos rfl]
      exact State.takesTurn_of_waits _ hmay
    | true =>
      rw [if_neg (by decide : ¬ true = false)]
      by_cases hroom : s.hasRoom = true
      · rw [if_pos hroom, if_neg (s.hasRoom_iff.mp hroom)]
        refine (Event.takesTurn_commit (by rfl) hmay).trans (congrArg (State.leaveLine · .setDebt) ?_)
        exact Event.commitSetting_eq _ _ _ _ s rfl rfl
      · rw [if_neg hroom, if_pos (not_not.mp (mt s.hasRoom_iff.mpr hroom))]
        exact State.takesTurn_of_writes hmay (by simp)

end Sys2Proof.Machine
end

