-- ==== Sys2Proof/Proofs/AccountSettings.lean ====
section
namespace Sys2Proof.Machine

/-! ## Settings of the account (R20, R22) -/

theorem LowCredit.at_eq_atOrBelow (credit threshold : Nat) :
    LowCredit.at credit threshold = .atOrBelow ↔ credit ≤ threshold := by
  unfold LowCredit.at
  split <;> simp_all

/-- The low-credit state evaluated leaves the event as it is but for that state and CREDIT_LOW at a fall (R22). -/
theorem Event.lowCredit_spec (e : Event) :
    ∃ fs, e.lowCredit = { e.judgeLow with follow := fs } ∧
      ∀ f, f ∈ fs ↔ f ∈ e.follow ∨ f = .notice .creditLow ∧ e.nv.account.lowCredit = .above
        ∧ e.nv.account.credit ≤ e.nv.settings.lowCreditThreshold := by
  have hfall : e.judgeLow.nv.account.lowCredit = .atOrBelow
      ↔ e.nv.account.credit ≤ e.nv.settings.lowCreditThreshold := LowCredit.at_eq_atOrBelow _ _
  rw [e.lowCredit_eq]
  split
  · next h => exact ⟨e.follow ++ [.notice .creditLow], rfl, fun f => by
      rw [← hfall, List.mem_append, List.mem_singleton, and_iff_left h]⟩
  · next h => exact ⟨e.follow, rfl, fun f => by rw [← hfall, or_iff_left fun hf => h hf.2]⟩

/-- "Arrears ceiling reached" handed leaves the event as it is but for what follows it (R20). -/
theorem Event.handCeiling_spec (e : Event) (before : Nv) :
    ∃ fs, e.handCeiling before = { e with follow := fs } ∧
      ∀ f, f ∈ fs ↔ f ∈ e.follow ∨ f = .ceilingReached ∧ before.ceilingHolds = false ∧ e.nv.ceilingHolds = true := by
  unfold Event.handCeiling
  split
  · next h => exact ⟨e.follow ++ [.ceilingReached], rfl, fun f => by simp [h]⟩
  · next h => exact ⟨e.follow, rfl, fun f => by simp_all⟩

/-- WRITE_SETTING is permitted exactly while the service window is open (R183). -/
theorem State.stillPermitted_writeSetting (s : State) (p : Port) :
    s.stillPermitted p .writeSetting = false ↔ s.nv.window = none := by
  cases h : s.nv.window <;> simp [State.stillPermitted, RequestCode.permitted, RequestCode.groups, Group.permitted, h]

/-- The event of a change of an account's setting up to the evaluation of its condition (R197, R198). -/
def State.accountSettingBegun (s : State) (p : Port) (n v : Nat) : Event :=
  ((Event.begin (s.leaveArrivals.takeRequest p) p.origin).updateNv (fun nv =>
    { nv with settings := nv.settings.write n v })).log (.settingChanged n (s.nv.settings.read n) v)

/-- The event of a change of an account's setting (R20, R22). -/
def State.accountSettingEvent (s : State) (p : Port) (n v : Nat) : Event :=
  let e := s.accountSettingBegun p n v
  (if n = 2 then e.lowCredit else e.handCeiling s.nv).andThen (.answer p .ok (toBytes 4 v))

/-- ACCOUNT_SETTING_CHANGE at a setting of the account that it may take: the window, and then the write or the refusal
for want of room at the journal's turn (R150, R164, R198). -/
theorem execAccountSettingChange_of_setting {s : State} {p : Port} {n v : Nat} (hr : s.isRunning = true)
    (ht : s.accountTakes (.request p) = true) (hv : s.settingOf p = some (n, v)) (hn : n = 2 ∨ n = 4) :
    exec (.accountSettingChange p) s = .next
      (if s.stillPermitted p .writeSetting = false then
        (s.leaveArrivals.answer p .wrongGroup []).leaveLine (.accountSettingChange p)
      else s.takesTurn (.accountSettingChange p) .account
        (if s.hasRoom then (s.accountSettingEvent p n v).commit .account
        else s.leaveArrivals.answer p .journalFull [])) := by
  have howner : settingOwner n = .account := if_pos hn
  have hsize : settingSize n = some 4 := by rcases hn with rfl | rfl <;> rfl
  change execAccountSettingChange p s = _
  rw [execAccountSettingChange, ifRunning_of_running _ hr, ht, hv]
  dsimp only
  rw [if_pos howner, hsize]
  rfl

/-- What a taken change of a setting leaves (R20, R22, R198). -/
theorem State.accountSettingEvent_image (s : State) (p : Port) {n v : Nat} (hn : n = 2 ∨ n = 4) :
    ∃ fs, s.accountSettingEvent p n v =
        { state :=
            { s.leaveArrivals.takeRequest p with
              nv :=
                { s.nv with
                  settings :=
                    if n = 2 then { s.nv.settings with lowCreditThreshold := v }
                    else { s.nv.settings with arrearsCeiling := v }
                  account :=
                    if n = 2 then
                      { s.nv.account with lowCredit := if s.nv.account.credit ≤ v then .atOrBelow else .above }
                    else s.nv.account } }
          origin := p.origin, low := s.nv.settings.journalLow
          records := [.settingChanged n (s.nv.settings.read n) v], follow := fs } ∧
      ∀ f, f ∈ fs ↔ f = .answer p .ok (toBytes 4 v)
        ∨ f = .ceilingReached ∧ n = 4 ∧ s.nv.ceilingHolds = false ∧ Machine.ceilingHolds v s.nv.account = true
        ∨ f = .notice .creditLow ∧ n = 2 ∧ s.nv.account.lowCredit = .above ∧ s.nv.account.credit ≤ v := by
  unfold State.accountSettingEvent
  rcases hn with rfl | rfl
  · obtain ⟨fs, he, hfs⟩ := (s.accountSettingBegun p 2 v).lowCredit_spec
    refine ⟨fs ++ [.answer p .ok (toBytes 4 v)], ?_, fun f => ?_⟩
    · simp only [if_true, he]
      rfl
    · rw [List.mem_append, hfs]
      simp [State.accountSettingBegun, Settings.write, or_comm]
  · obtain ⟨fs, he, hfs⟩ := (s.accountSettingBegun p 4 v).handCeiling_spec s.nv
    refine ⟨fs ++ [.answer p .ok (toBytes 4 v)], ?_, fun f => ?_⟩
    · simp only [he]
      rfl
    · rw [List.mem_append, hfs]
      simp [State.accountSettingBegun, Settings.write, or_comm, Nv.ceilingHolds]

/-- Settles O11: the refusals in order, and the write by `State.accountSettingEvent_image`. -/
theorem accountSettingIsTaken : Obligations.AccountSettingIsTaken := by
  intro s p n v hr ht hv hn i
  have hexec := execAccountSettingChange_of_setting hr ht hv hn
  by_cases hwin : s.nv.window = none
  · rw [if_pos hwin, hexec, if_pos ((s.stillPermitted_writeSetting p).mpr hwin)]
  · rw [if_neg hwin]
    replace hexec := hexec.trans (congrArg _ (if_neg (mt (s.stillPermitted_writeSetting p).mp hwin)))
    cases hmay : s.mayBegin i .account true with
    | false =>
      rw [if_pos rfl, hexec]
      exact congrArg _ (State.takesTurn_of_waits _ hmay)
    | true =>
      rw [if_neg (by decide : ¬ true = false)]
      by_cases hroom : s.hasRoom = true
      · rw [if_neg (s.hasRoom_iff.mp hroom)]
        obtain ⟨fs, he, hfs⟩ := s.accountSettingEvent_image p (v := v) hn
        rw [if_pos hroom, he] at hexec
        generalize hE : Event.mk _ _ _ _ _ = E at hexec
        have hmem {f : FollowUp} (hf : f ≠ .notice .journalLow ∧ f ≠ .notice .journalFull) :
            f ∈ ((E.commit .account).leaveLine i).newestFollow ↔ f ∈ fs := by
          rw [Event.mem_commit_follow _ _ _ hf, ← hE]
        have hwrites : E.state.writes = s.writes := by rw [← hE]; rfl
        refine ⟨(E.commit .account).leaveLine i, hexec.trans (congrArg _ (Event.takesTurn_commit hwrites hmay)),
          Event.beganWrite_commit hwrites _ _, ?_, ?_, ?_, ?_, ?_⟩
        · rw [← hE]
          rfl
        · rw [hmem (by simp), hfs]
          simp
        · rw [hmem (by simp), hfs]
          simp
        · rw [hmem (by simp), hfs]
          simp
        · rw [← hE]
          rfl
      · rw [if_pos (not_not.mp (mt s.hasRoom_iff.mpr hroom)), hexec, if_neg hroom]
        exact congrArg _ (State.takesTurn_of_writes hmay (by simp))

end Sys2Proof.Machine
end

