-- ==== Sys2Proof/Proofs/AccountCodes.lean ====
section
namespace Sys2Proof.Machine

/-! ## Codes at their owners (R70, R78, R94) -/

/-- An application that the account may take is the code in service, of that kind, which waits at its owner (R3, R70). -/
theorem State.accountApplication_spec {s : State} {kind : Nat} {c : CodeService}
    (h : s.accountApplication kind = some c) :
    s.code.service = some c ∧ c.atOwner = true ∧ c.kind = kind ∧ s.accountTakes .code = true := by
  unfold State.accountApplication at h
  split at h
  · next ht =>
    unfold State.applicationOf at h
    split at h
    · next hs =>
      split at h
      · next hk => cases h; exact ⟨hs, hk.1, hk.2, ht⟩
      · cases h
    · cases h
  · cases h

/-- The event of an application as its write is made: the code taken from its owner's list, its response and the end of
its service before what the application calls for (R94). -/
def Event.served (e : Event) (c : CodeService) (effect : CodeEffect) : Event :=
  { e with
    state := { e.state with code := { e.state.code with service := some { c with atOwner := false } } }
    follow := c.servedFollow effect ++ e.follow }

theorem Event.commitCode_eq (e : Event) (c : CodeService) (effect : CodeEffect) (owner : Block) :
    e.commitCode c effect owner = (e.served c effect).commit owner := rfl

/-- An application whose records have room, and which passes its owner's test, is committed (R78). -/
theorem State.applyCode_taken {s : State} {c : CodeService} {owner : Block} {effect : CodeEffect}
    {apply : Event → Event} (h : (apply (Event.begin s c.port.origin)).records.length < s.nv.journal.free) :
    s.applyCode c owner none effect apply =
      (((apply (Event.begin s c.port.origin)).withCode c effect).served c effect).commit owner := by
  unfold State.applyCode
  have : ((apply (Event.begin s c.port.origin)).withCode c effect).records.length
      = (apply (Event.begin s c.port.origin)).records.length + 1 := rfl
  dsimp only
  rw [if_neg (by omega), Event.commitCode_eq]

/-- An application whose records find no room is refused at ROOM (R78). -/
theorem State.applyCode_noRoom {s : State} {c : CodeService} {owner : Block} {test : Option Status} {effect : CodeEffect}
    {apply : Event → Event} (h : s.nv.journal.free ≤ (apply (Event.begin s c.port.origin)).records.length) :
    s.applyCode c owner test effect apply = s.refuseCode c (c.refusal .room .journalFull) := by
  unfold State.applyCode
  have : ((apply (Event.begin s c.port.origin)).withCode c effect).records.length
      = (apply (Event.begin s c.port.origin)).records.length + 1 := rfl
  dsimp only
  rw [if_pos (by omega)]

/-- An application that has room and fails its owner's test is refused at APPLY (R78). -/
theorem State.applyCode_fails {s : State} {c : CodeService} {owner : Block} {outcome : Status} {effect : CodeEffect}
    {apply : Event → Event} (h : (apply (Event.begin s c.port.origin)).records.length < s.nv.journal.free) :
    s.applyCode c owner (some outcome) effect apply = s.refuseCode c (c.refusal .apply outcome) := by
  unfold State.applyCode
  have : ((apply (Event.begin s c.port.origin)).withCode c effect).records.length
      = (apply (Event.begin s c.port.origin)).records.length + 1 := rfl
  dsimp only
  rw [if_neg (by omega)]

/-- At most one record follows the exhausted condition. -/
theorem State.accountFollows_length {s t : State} {rs : List RecordBody} (h : s.accountFollows t rs) :
    rs.length ≤ 1 := by
  obtain ⟨⟨-, h⟩, -⟩ := h
  split at h
  all_goals rw [h.2]; simp

/-- EMERGENCY_LIMIT at an application that the account may take (R12). -/
theorem execEmergencyLimit_of_application {s : State} {c : CodeService} (hr : s.isRunning = true)
    (h : s.accountApplication 1 = some c) :
    exec .emergencyLimit s = .next (s.takesTurn .emergencyLimit .account
      (s.leaveArrivals.applyCode c .account none (.emergencyLimit s.nv.account.emergencyLimit c.value)
        (fun e => e.applyLimit c.value))) := by
  change execEmergencyLimit s = _
  rw [execEmergencyLimit, ifRunning_of_running _ hr, h]

/-- DEBT_SET at an application that the account may take (R13). -/
theorem execDebtSet_of_application {s : State} {c : CodeService} (hr : s.isRunning = true)
    (h : s.accountApplication 2 = some c) :
    exec .debtSet s = .next (s.takesTurn .debtSet .account
      (s.leaveArrivals.applyCode c .account none
        (.debtSet s.nv.account.debt s.nv.account.recoveryPercent c.value c.sub)
        (fun e => e.updateAccount (fun a => { a with debt := c.value, recoveryPercent := c.sub })))) := by
  change execDebtSet s = _
  rw [execDebtSet, ifRunning_of_running _ hr, h]

/-- What the write of an application leaves of the state, the stored state and the rules of the account, where `e` is the
application before the code unit's part of it (R84, R94). -/
theorem Event.served_alike (e : Event) (c : CodeService) (effect : CodeEffect) :
    ((e.withCode c effect).served c effect).view.Alike e.view := by
  have hf {f : FollowUp} (h : f ∉ c.servedFollow effect) :
      f ∈ ((e.withCode c effect).served c effect).follow ↔ f ∈ e.follow := by
    change f ∈ c.servedFollow effect ++ e.follow ↔ _
    rw [List.mem_append, or_iff_right h]
  have hn (f : FollowUp) (h : (∃ k, f = .notice k) ∨ f = .ceilingReached) : f ∉ c.servedFollow effect := by
    rcases h with ⟨k, rfl⟩ | rfl <;> simp [CodeService.servedFollow]
  exact ⟨⟨⟨rfl, rfl, rfl, rfl, rfl, rfl, hf (hn _ (.inl ⟨_, rfl⟩)), hf (hn _ (.inl ⟨_, rfl⟩))⟩, rfl, rfl,
    hf (hn _ (.inl ⟨_, rfl⟩))⟩, hf (hn _ (.inl ⟨_, rfl⟩)), hf (hn _ (.inr rfl))⟩

theorem Event.served_state (e : Event) (c : CodeService) (effect : CodeEffect) :
    ((e.withCode c effect).served c effect).state =
      { e.state with
        nv := e.nv.withSpent c, code := { e.state.code with service := some { c with atOwner := false } } } := rfl

/-- What the write of an application leaves beside the supply: `e` is the application before the end of its event, `e'`
after it (R84, R94). -/
theorem Event.Within.served_frames {e e' : Event} (h : e.Within e') (c : CodeService) (effect : CodeEffect) (b : Block)
    (s : State) :
    let f := (e'.withCode c effect).served c effect
    f.state.writes = e.state.writes ∧
      (f.commit b).withStoreOf s =
        { e.state.withStoreOf s with code := { e.state.code with service := some { c with atOwner := false } } } ∧
      (f.commit b).nv.account = e.nv.account ∧
      (f.commit b).nv.withSupplyOf s.nv = (e.nv.withSpent c).withSupplyOf s.nv ∧
      (f.commit b).nv.journal =
        e.nv.journal.appendAll e.state.clock e.origin (.codeApplied c.kind c.issue effect :: e'.records) := by
  refine ⟨?_, ?_, ?_, ?_, ?_⟩
  · rw [Event.served_state]
    exact h.writes
  · have := congrArg (fun u : State =>
      ({ u with code := { u.code with service := some { c with atOwner := false } } } : State).withStoreOf s) h.state
    exact this
  · have : (((e'.withCode c effect).served c effect).commit b).nv.account = e'.nv.account := rfl
    rw [this, h.account]
  · have := congrArg (fun n => (n.withSpent c).withSupplyOf s.nv) h.nv
    exact this
  · rw [← h.journal, ← h.clock, ← h.origin]
    rfl

/-- The taking of an EMERGENCY_LIMIT code (R12). -/
theorem State.emergencyLimit_taken (s : State) {c : CodeService} (hr : s.isRunning = true)
    (ha : s.accountApplication 1 = some c) (hroom : 2 ≤ s.nv.journal.free)
    (hmay : s.mayBegin .emergencyLimit .account true = true) :
    ∃ t records, exec .emergencyLimit s = .next t ∧
      t.nv.account = { s.nv.account with emergencyLimit := c.value } ∧
      (let effect := CodeEffect.emergencyLimit s.nv.account.emergencyLimit c.value
      t.nv.journal = s.nv.journal.appendAll s.clock c.port.origin (.codeApplied 1 c.issue effect :: records) ∧
      ∀ f ∈ c.servedFollow effect, f ∈ t.newestFollow) ∧
      s.accountFollows t records ∧ t.nv.spent = spend c.issue s.nv.spent ∧
      t.nv.failures = s.nv.failures.set c.port 0 ∧ t.nv.lockoutSteps = s.nv.lockoutSteps.set c.port 0 ∧
      s.beganWrite t .account ∧
      t.arrivals = s.arrivals.tail ∧ t.code = { s.code with service := some { c with atOwner := false } } ∧
      { t.withStoreOf s with arrivals := s.arrivals, code := s.code } = s.leaveLine .emergencyLimit ∧
      { t.nv.withSupplyOf s.nv with
        account := s.nv.account, spent := s.nv.spent, failures := s.nv.failures
        lockoutSteps := s.nv.lockoutSteps } = s.nv := by
  obtain ⟨-, -, hkind, -⟩ := s.accountApplication_spec ha
  let effect := CodeEffect.emergencyLimit s.nv.account.emergencyLimit c.value
  let e := (Event.begin s.leaveArrivals c.port.origin).updateAccount (fun a => { a with emergencyLimit := c.value })
  have hbegin : (Event.begin s.leaveArrivals c.port.origin).AtAccount s := Event.atAccount_begin_of _ rfl rfl rfl rfl rfl
  have he : e.AtAccount s := hbegin.updateAccount (f := fun a => { a with emergencyLimit := c.value }) fun _ => rfl
  obtain ⟨hends, rs, hrs, hfollows, -⟩ := he.accountResults
  let e' := e.accountResults s.nv
  obtain ⟨hwrites, hstate, haccount, hnv, hjournal⟩ := hends.within.served_frames c effect .account s
  generalize hserved : (e'.withCode c effect).served c effect = served at hwrites hstate haccount hnv hjournal
  have hrecords : e'.records = rs := hrs
  have hlength : e'.records.length < s.nv.journal.free := by
    rw [hrecords]
    exact lt_of_le_of_lt (State.accountFollows_length hfollows) hroom
  have hexec : exec .emergencyLimit s = .next ((served.commit .account).leaveLine .emergencyLimit) := by
    rw [execEmergencyLimit_of_application hr ha, State.applyCode_taken (by exact hlength)]
    rw [← hserved] at hwrites ⊢
    exact congrArg _ (Event.takesTurn_commit hwrites hmay)
  have hsettled : (e.settle s.nv.account).nv.account = { s.nv.account with emergencyLimit := c.value } := by
    change ({ s.nv.account with emergencyLimit := c.value } : Account).settled _ _ = _
    simp only [Account.settled, if_true]
  refine ⟨_, rs, hexec, haccount.trans hsettled, ⟨?_, fun f hf => ?_⟩, ?_, ?_, ?_, ?_, ?_, ?_, ?_, ?_, ?_⟩
  · rw [hkind, hrecords] at hjournal
    exact hjournal
  · have hf' : f ∈ served.follow := by
      rw [← hserved]
      exact List.mem_append_left _ hf
    refine (Event.mem_commit_follow _ _ _ ?_).mpr hf'
    simp only [CodeService.servedFollow, List.mem_cons, List.not_mem_nil, or_false] at hf
    rcases hf with rfl | rfl <;> simp
  · refine Event.accountFollows_commit ?_ _ _
    rw [← hserved, (Event.served_alike e' c effect).accountFollows]
    exact hfollows
  · exact congrArg Nv.spent hnv
  · exact congrArg Nv.failures hnv
  · exact congrArg Nv.lockoutSteps hnv
  · exact Event.beganWrite_commit hwrites _ _
  · exact congrArg State.arrivals hstate
  · exact congrArg State.code hstate
  · have := congrArg (fun t => ({ t with arrivals := s.arrivals, code := s.code } : State).leaveLine .emergencyLimit)
      hstate
    exact this
  · have := congrArg (fun n => ({ n with
      account := s.nv.account, spent := s.nv.spent, failures := s.nv.failures
      lockoutSteps := s.nv.lockoutSteps } : Nv)) hnv
    exact this

/-- Settles O8: the limit's application by its end at the account, the debt's as one write. -/
theorem limitAndDebtCodesReplace : Obligations.LimitAndDebtCodesReplace := by
  refine ⟨fun s c hr ha hroom hmay => ?_, fun s c hr ha hroom hmay => ?_⟩
  · exact s.emergencyLimit_taken hr ha hroom hmay
  · obtain ⟨-, -, hkind, -⟩ := s.accountApplication_spec ha
    rw [execDebtSet_of_application hr ha, State.applyCode_taken (by exact hroom)]
    refine congrArg _ ((Event.takesTurn_commit (by rfl) hmay).trans (congrArg (State.leaveLine · .debtSet) ?_))
    refine (Event.commitSetting_eq _ _ _ _ s rfl rfl).trans ?_
    rw [← hkind]
    rfl

end Sys2Proof.Machine
end

