-- ==== Sys2Proof/Laws/TamperEvent.lean ====
section
namespace Sys2Proof.Machine

/-! ## The TAMPER hold (R104, R145) -/

/-- The rules of the TAMPER hold read the supply and the monitor's condition of the state that an event leaves. -/
theorem State.SameSupply.tamperFollows {s t u : State} (h : t.SameSupply u)
    (hc : t.nv.tamperCondition = u.nv.tamperCondition) (rs : List RecordBody) :
    s.tamperFollows t rs ↔ s.tamperFollows u rs := by
  simp only [State.tamperFollows, hc, h.placed, h.removed, h.supplyKept]

theorem Event.Within.tamperCondition {e e' : Event} (h : e.Within e') :
    e'.nv.tamperCondition = e.nv.tamperCondition := by
  have : e'.nv.tamperCondition = (e'.nv.withSupplyOf e.nv).tamperCondition := rfl
  rw [this, h.nv]

/-- A change of the monitor's condition calls for nothing beside its commands. -/
theorem Event.mem_tamperCondition_follow (e : Event) (before after : Bool) {f : FollowUp}
    (hs : f ≠ .notice .supplyChanged) (ha : f ≠ .notice .armed) :
    f ∈ (e.tamperCondition before after).follow ↔ f ∈ e.follow := by
  unfold Event.tamperCondition
  split
  · split
    · exact Iff.rfl
    · exact e.mem_place_follow hs ha _ _ _ _
  · split
    · exact e.mem_remove_follow hs ha _ _ _ _
    · exact Iff.rfl

/-- The TAMPER hold follows the monitor's condition in an event that has moved nothing (R104, R145). -/
theorem Event.Ready.tamperFollows {s : State} {e : Event} (h : e.Ready s) :
    let e' := e.tamperCondition s.nv.tamperCondition e.nv.tamperCondition
    ∃ rs, e'.records = e.records ++ rs ∧ s.tamperFollows e'.view rs := by
  intro e'
  have hin : e.Within e' := e.within_tamperCondition _ _
  have hholds : e.nv.holds = s.nv.holds := h.kept.1
  have hcond : e' = e.tamperCondition s.nv.tamperCondition e.nv.tamperCondition := rfl
  unfold Event.tamperCondition at hcond
  unfold State.tamperFollows
  rw [Event.view_nv, hin.tamperCondition]
  rw [hholds] at hcond
  have kept (he : e' = e) : ∃ rs, e'.records = e.records ++ rs ∧ s.supplyKept e'.view ∧ rs = [] :=
    ⟨[], by rw [he]; simp, by rw [he]; exact h.kept, rfl⟩
  cases hb : s.nv.tamperCondition <;> cases ha : e.nv.tamperCondition <;> cases hh : s.nv.holds.tamper <;>
    rw [hb, ha, hh] at hcond
  case false.true.false =>
    replace hcond : e' = e.place .tamper .firm false 0 := by simpa using hcond
    rw [hcond]
    exact ⟨_, e.place_records _ _ _ _, h.placed _ _ _ _, rfl⟩
  case true.false.true =>
    replace hcond : e' = e.remove .tamper .tamper none .press := by simpa using hcond
    have hphase : s.nv.holds.phase .tamper = some .firm := by simp [HoldList.phase, hh]
    rw [hcond]
    refine ⟨_, e.remove_records (by rw [hholds]; exact hphase) _ _ _, h.removed hphase _ _ _, ?_⟩
    exact congrArg (fun r => [r]) (Nv.removalRecord_congr hholds _ _ _ _ _)
  case true.false.false =>
    have hphase : e.nv.holds.phase .tamper = none := by simp [hholds, HoldList.phase, hh]
    exact kept (by simpa [e.remove_of_absent hphase] using hcond)
  all_goals exact kept (by simpa using hcond)

/-- The end of an event at the monitor (R143, R145): the TAMPER hold follows, and TAMPER is raised for a notified
detection or a placing. -/
theorem Event.Ready.tamperResults {s : State} {e : Event} (h : e.Ready s) (before : Nv) (detected : Bool)
    (hb : before.tamperCondition = s.nv.tamperCondition) (hf : .notice .tamper ∉ e.follow) :
    let e' := e.tamperResults before detected
    e.Within e' ∧ (∃ rs, e'.records = e.records ++ rs ∧ s.tamperFollows e'.view rs) ∧
      (.notice .tamper ∈ e'.follow ↔
        detected = true ∨ s.nv.tamperCondition = false ∧ e.nv.tamperCondition = true) := by
  intro e'
  let c := e.tamperCondition s.nv.tamperCondition e.nv.tamperCondition
  have he' : e' = if detected = true ∨ s.nv.tamperCondition = false ∧ e.nv.tamperCondition = true then
      c.notify .tamper else c := by
    simp only [e', Event.tamperResults, hb]
    rfl
  obtain ⟨rs, hrs, hfollows⟩ := h.tamperFollows
  have hc : .notice .tamper ∉ c.follow := by
    rw [Event.mem_tamperCondition_follow _ _ _ (by decide) (by decide)]
    exact hf
  refine ⟨e.within_tamperResults before detected, ⟨rs, ?_, ?_⟩, ?_⟩ <;> rw [he']
  · split <;> exact hrs
  · split
    · exact ((c.sameSupply_notify (by decide) (by decide)).tamperFollows rfl rs).mpr hfollows
    · exact hfollows
  · split
    · next hd => simp [hd]
    · next hd => simp [hd, hc]

/-- A removal that follows the monitor's condition is one record. -/
theorem State.tamperFollows_length {s t : State} {rs : List RecordBody} (h : s.tamperFollows t rs)
    (before : s.nv.tamperCondition = true) (after : t.nv.tamperCondition = false) (held : s.nv.holds.tamper = true) :
    rs.length = 1 := by
  rw [State.tamperFollows, before, after, held] at h
  rw [h.2]
  rfl

/-! ### A clear (R146) -/

/-- A kind that a clear of `ks` brings from LATCHED to QUIET (R146). -/
def Nv.clears (n : Nv) (ks : List TamperKind) (k : TamperKind) : Bool :=
  ks.contains k && (n.tampers.get k).state == .latched

/-- One kind cleared: one record if it is LATCHED, the kinds' states, and nothing else (R146). -/
theorem Event.clearKind_spec {s : State} {e : Event} (h : e.Ready s) (path : ClearPath) (k : TamperKind) :
    let e' := e.clearKind path k
    e'.Ready s ∧ e'.follow = e.follow ∧ (∀ j, e'.nv.effectiveClass j = e.nv.effectiveClass j) ∧
      e'.records.length = e.records.length + (if (e.nv.tampers.get k).state = .latched then 1 else 0) ∧
      ∀ j, (e'.nv.tampers.get j).state =
        if j = k ∧ (e.nv.tampers.get k).state = .latched then .quiet else (e.nv.tampers.get j).state := by
  intro e'
  by_cases hk : (e.nv.tampers.get k).state = .latched
  · have he' : e' = (e.setTamper k { e.nv.tampers.get k with state := .quiet }).log (.tamperCleared k path) := if_pos hk
    rw [he']
    refine ⟨(h.updateNv rfl rfl).log _, rfl, fun _ => rfl, by simp [hk], fun j => ?_⟩
    by_cases hj : j = k
    · simp [hj, hk]
    · simp [hj]
  · have he' : e' = e := if_neg hk
    simp [he', hk, h]

/-- The kinds of a clear, one after another: one record for each that is LATCHED, which becomes QUIET (R146). -/
theorem Event.clearKinds_spec {s : State} (path : ClearPath) {ks : List TamperKind} (hks : ks.Nodup) :
    ∀ {e : Event}, e.Ready s →
      let e' := ks.foldl (Event.clearKind path) e
      e'.Ready s ∧ e'.follow = e.follow ∧ (∀ j, e'.nv.effectiveClass j = e.nv.effectiveClass j) ∧
        e'.records.length = e.records.length + (ks.filter (fun k => (e.nv.tampers.get k).state == .latched)).length ∧
        ∀ j, (e'.nv.tampers.get j).state = if e.nv.clears ks j then .quiet else (e.nv.tampers.get j).state := by
  induction ks with
  | nil => exact fun h => ⟨h, rfl, fun _ => rfl, rfl, fun _ => rfl⟩
  | cons k ks ih =>
    intro e h
    obtain ⟨hnotin, hrest⟩ := List.nodup_cons.mp hks
    obtain ⟨h₁, hfollow, hclass, hlength, hstate⟩ := e.clearKind_spec h path k
    obtain ⟨h₂, hfollow', hclass', hlength', hstate'⟩ := ih hrest h₁
    have hsame {j : TamperKind} (hj : j ≠ k) :
        ((e.clearKind path k).nv.tampers.get j).state = (e.nv.tampers.get j).state := by simp [hstate, hj]
    refine ⟨h₂, hfollow'.trans hfollow, fun j => (hclass' j).trans (hclass j), ?_, fun j => ?_⟩
    · have hfilter : ks.filter (fun j => ((e.clearKind path k).nv.tampers.get j).state == .latched) =
          ks.filter (fun j => (e.nv.tampers.get j).state == .latched) :=
        List.filter_congr fun j hj => by rw [hsame (by rintro rfl; exact hnotin hj)]
      rw [List.foldl_cons, hlength', hfilter, hlength, List.filter_cons]
      by_cases hk : (e.nv.tampers.get k).state = .latched
      · simp only [hk, if_true, beq_self_eq_true, List.length_cons]
        omega
      · simp [hk]
    · rw [List.foldl_cons, hstate']
      by_cases hj : j = k
      · subst hj
        simp [Nv.clears, hnotin, hstate]
      · simp [Nv.clears, hsame hj, hj]

/-- The kinds that a clear names are all different. -/
theorem clearKinds_nodup (n : Nat) : (clearKinds n).Nodup := by
  unfold clearKinds
  split <;> decide

/-- The kinds that a clear names, in kind order. -/
theorem filter_contains_clearKinds (n : Nat) : TamperKind.all.filter ((clearKinds n).contains ·) = clearKinds n := by
  unfold clearKinds
  split <;> decide

/-- A clear (R146): one record for each kind that is LATCHED, and then the TAMPER hold by the kinds that stay. -/
theorem Event.clearAll_spec {s : State} {e : Event} (h : e.Ready s) (hnv : e.nv = s.nv) (hrecords : e.records = [])
    (hfollow : .notice .tamper ∉ e.follow) (path : ClearPath) (n : Nat) :
    let e' := e.clearAll path (clearKinds n)
    e'.nv.tamperCondition = TamperKind.all.any (fun k => s.nv.effectiveClass k == .enforce &&
        (s.nv.tampers.get k).state != .quiet && !s.nv.clears (clearKinds n) k) ∧
      ∃ rs, s.tamperFollows e'.view rs ∧
        e'.records.length = (TamperKind.all.filter (s.nv.clears (clearKinds n))).length + rs.length := by
  intro e'
  obtain ⟨hready, hsame, hclass, hlength, hstate⟩ := Event.clearKinds_spec path (clearKinds_nodup n) h
  rw [← hsame] at hfollow
  obtain ⟨hin, ⟨rs, hrs, hfollows⟩, -⟩ := hready.tamperResults e.nv false (by rw [hnv]) hfollow
  refine ⟨?_, rs, hfollows, ?_⟩
  · refine hin.tamperCondition.trans ?_
    unfold Nv.tamperCondition
    refine congrArg (List.any TamperKind.all) (funext fun k => ?_)
    rw [hclass, hstate, hnv]
    cases s.nv.clears (clearKinds n) k <;> simp
  · have hcount : TamperKind.all.filter (s.nv.clears (clearKinds n)) =
        (clearKinds n).filter (fun k => (s.nv.tampers.get k).state == .latched) := by
      rw [← filter_contains_clearKinds n, List.filter_filter, filter_contains_clearKinds n]
      exact List.filter_congr fun k _ => Bool.and_comm _ _
    rw [hcount]
    change (Event.tamperResults _ e.nv false).records.length = _
    rw [hrs, List.length_append, hlength, hrecords, hnv, List.length_nil, Nat.zero_add]

end Sys2Proof.Machine
end

