-- ==== Sys2Proof/Proofs/RefusedCodes.lean ====
section
namespace Sys2Proof.Machine

/-! ## Refused codes (R79, R88) -/

/-- A response put in a slot does not look at the code unit. -/
theorem State.answer_code (s : State) (x : CodeUnit) (p : Port) (status : Status) (payload : List Byte) :
    ({ s with code := x } : State).answer p status payload = { s.answer p status payload with code := x } := by
  have hports : ({ s with code := x } : State).ports = s.ports := rfl
  unfold State.answer State.answerByte
  rw [hports]
  dsimp only
  split
  · split
    · rfl
    · cases p <;> rfl
  · rfl

/-- What a refused code leaves of the stored state (R79, R88). -/
def Nv.refused (n : Nv) (c : CodeService) (r : CodeResult) : Nv :=
  (if r.stage.resets then n.resetFailures c.port else n).keepRefusal c r.stage r.outcome

theorem Nv.keepRefusal_eq (n : Nv) (c : CodeService) (stage : CodeStage) (outcome : Status) :
    n.keepRefusal c stage outcome =
      { n with
        firstRefusal :=
          some (n.firstRefusal.getD
            { digits := c.digits, port := c.port, stage := stage, outcome := outcome, time := c.taken }) } := by
  unfold Nv.keepRefusal
  split
  · next f hf => rw [hf, Option.getD_some, ← hf]
  · next hf => rw [hf, Option.getD_none]

theorem Nv.refused_eq (n : Nv) (c : CodeService) (r : CodeResult) :
    n.refused c r =
      { n with
        failures := if r.stage.resets then n.failures.set c.port 0 else n.failures
        lockoutSteps := if r.stage.resets then n.lockoutSteps.set c.port 0 else n.lockoutSteps
        firstRefusal :=
          some (n.firstRefusal.getD
            { digits := c.digits, port := c.port, stage := r.stage, outcome := r.outcome, time := c.taken }) } := by
  rw [Nv.refused, Nv.keepRefusal_eq]
  cases r.stage.resets <;> rfl

/-- A refusal changes the stored state when it fills the first refusal record or resets a count or a step. -/
theorem Nv.refused_ne_iff (n : Nv) (c : CodeService) (r : CodeResult) :
    n.refused c r ≠ n ↔
      n.firstRefusal = none ∨ (n.refused c r).failures ≠ n.failures ∨ (n.refused c r).lockoutSteps ≠ n.lockoutSteps := by
  constructor
  · intro h
    by_contra hall
    obtain ⟨hf, hfail, hstep⟩ := not_or.mp hall |>.imp_right not_or.mp
    obtain ⟨f, hf⟩ := Option.ne_none_iff_exists'.mp hf
    rw [Nv.refused_eq] at h hfail hstep
    rw [not_not] at hfail hstep
    dsimp only at hfail hstep
    rw [hfail, hstep, hf, Option.getD_some, ← hf] at h
    exact h rfl
  · rintro h he
    rcases h with h | h | h
    · have := congrArg Nv.firstRefusal he
      rw [Nv.refused_eq, h] at this
      cases this
    · exact h (congrArg Nv.failures he)
    · exact h (congrArg Nv.lockoutSteps he)

theorem journalNotices_same (low x : Nat) : journalNotices low x x = [] := by
  unfold journalNotices
  rw [if_neg (by omega), if_neg (by omega)]
  rfl

/-- A refused code is answered at once, or makes one write of the code unit with no record, followed by its response and
the end of its service (R79). -/
theorem State.refuseCode_cases (s : State) (c : CodeService) (r : CodeResult) :
    ((r.stage = .check ∨ s.nv.refused c r ≠ s.nv) ∧
      s.refuseCode c r =
        { s with
          code := { s.code with service := some { c with atOwner := false } }, nv := s.nv.refused c r
          writes := s.writes ++
            [{ owner := .code, image := s.nv.refused c r, appends := false, setsClock := none
               follow := [.answer c.port r.outcome r.bytes, .codeServed] }] }) ∨
    (s.nv.refused c r = s.nv ∧ r.stage ≠ .check ∧
      s.refuseCode c r =
        { s.answer c.port r.outcome r.bytes with code := { s.code with service := none } }) := by
  let e := Event.begin s c.port.origin
  let e' : Event :=
    { e with
      state :=
        { s with nv := s.nv.refused c r, code := { s.code with service := some { c with atOwner := false } } } }
  have hrefuse : s.refuseCode c r =
      if r.stage = .check ∨ s.nv.firstRefusal = none ∨ (s.nv.refused c r).failures ≠ s.nv.failures
          ∨ (s.nv.refused c r).lockoutSteps ≠ s.nv.lockoutSteps then
        ((e'.andThen (.answer c.port r.outcome r.bytes)).andThen .codeServed).commit .code
      else (e'.state.answer c.port r.outcome r.bytes).endService := by
    unfold State.refuseCode Event.refuseCode e' Nv.refused
    cases r.stage.resets <;> rfl
  rw [hrefuse]
  split
  · next h =>
    refine .inl ⟨h.imp_right (Nv.refused_ne_iff _ _ _).mpr, ?_⟩
    simp only [Event.commit, Event.commitSetting, Event.image, Event.journal, Event.andThen, Event.nv, e', e, Event.begin,
      Journal.appendAll, journalNotices_same]
    rfl
  · next h =>
    obtain ⟨hcheck, hne⟩ := not_or.mp h
    have hsame : s.nv.refused c r = s.nv := by
      by_contra hne'
      exact hne ((Nv.refused_ne_iff _ _ _).mp hne')
    refine .inr ⟨hsame, hcheck, ?_⟩
    have he' : e'.state = { s with code := { s.code with service := some { c with atOwner := false } } } := by
      simp only [e', hsame]
    rw [he', State.answer_code]
    rfl

/-- A refusal's write carries no append: it is taken where the code unit can take it. -/
theorem State.takesTurn_refuseCode {s u : State} {i : Instr} {b : Block} (c : CodeService) (r : CodeResult)
    (hw : u.writes = s.writes) (hmay : s.mayBegin i b true = true) (hcode : s.blockBusy .code i = false) :
    s.takesTurn i b (u.refuseCode c r) = (u.refuseCode c r).leaveLine i := by
  rcases u.refuseCode_cases c r with ⟨-, h⟩ | ⟨-, -, h⟩ <;> rw [h]
  · exact State.takesTurn_of_mayBegin hmay (by rw [← hw]) (by simp [State.mayBegin, hcode])
  · exact State.takesTurn_of_writes hmay (by simpa using hw)

/-- What a refused code leaves of the stored state. -/
theorem State.refuseCode_nv (s : State) (c : CodeService) (r : CodeResult) :
    (s.refuseCode c r).nv = s.nv.refused c r := by
  rcases s.refuseCode_cases c r with ⟨-, h⟩ | ⟨hsame, -, h⟩ <;> rw [h]
  obtain ⟨_, _, ha⟩ := s.answerByte_frame c.port r.outcome.byte r.bytes
  have hnv : (s.answer c.port r.outcome r.bytes).nv = s.nv := (congrArg State.nv ha).trans rfl
  rw [hsame]
  exact hnv

theorem State.applicationOf_spec {s : State} {kind : Nat} {c : CodeService} (h : s.applicationOf kind = some c) :
    s.code.service = some c ∧ c.atOwner = true ∧ c.kind = kind := by
  unfold State.applicationOf at h
  split at h
  · next hs =>
    split at h
    · next hk => cases h; exact ⟨hs, hk⟩
    · cases h
  · cases h

theorem State.tamperApplication_spec {s : State} {kind : Nat} {c : CodeService}
    (h : s.tamperApplication kind = some c) :
    s.applicationOf kind = some c ∧ s.tamperTakes .code = true := by
  unfold State.tamperApplication at h
  split at h
  · next ht => exact ⟨h, ht⟩
  · cases h

/-! ### The owners' tests for room (R78) -/

/-- The end of an application at the account writes a record where the CREDIT hold is placed or removed. -/
theorem State.accountFollows_length_of_moves {s t : State} {rs : List RecordBody} (h : s.accountFollows t rs)
    (hx : t.nv.account.exhausted ≠ s.nv.account.exhausted)
    (hmoves : t.nv.account.exhausted = true ↔ s.nv.holds.credit = none) : rs.length = 1 := by
  obtain ⟨⟨-, h⟩, -⟩ := h
  cases hs : s.nv.account.exhausted <;> cases ht : t.nv.account.exhausted <;> cases hc : s.nv.holds.credit <;>
    rw [hs, ht, hc] at h <;> simp_all

/-- The records of an application's end at the account, for a change of the account that leaves the low-credit state. -/
theorem State.accountApplication_records (s : State) (o : Origin) {f : Account → Account}
    (hf : ∀ a, (f a).lowCredit = a.lowCredit) :
    let e := ((Event.begin s.leaveArrivals o).updateAccount f).accountResults s.nv
    e.records.length ≤ 1 ∧
      ((f s.nv.account).exhausted ≠ s.nv.account.exhausted →
        ((f s.nv.account).exhausted = true ↔ s.nv.holds.credit = none) → e.records.length = 1) := by
  intro e
  have hbegin : (Event.begin s.leaveArrivals o).AtAccount s := Event.atAccount_begin_of _ rfl rfl rfl rfl rfl
  obtain ⟨hends, rs, hrs, hfollows, -⟩ := (hbegin.updateAccount hf).accountResults
  have hrecords : e.records = rs := hrs
  have hx : e.view.nv.account.exhausted = (f s.nv.account).exhausted :=
    (congrArg Account.exhausted hends.within.account).trans rfl
  rw [hrecords]
  refine ⟨State.accountFollows_length hfollows, fun hne hmoves => ?_⟩
  rw [← hx] at hne hmoves
  exact State.accountFollows_length_of_moves hfollows hne hmoves

/-- CREDIT at an application that the account may take (R9, R10). -/
theorem execCredit_of_application {s : State} {c : CodeService} (hr : s.isRunning = true)
    (h : s.accountApplication 0 = some c) :
    exec .credit s = .next (s.takesTurn .credit .account
      (s.leaveArrivals.applyCode c .account (if s.nv.account.overflows c.value then some .overflow else none)
        (s.nv.account.creditEffect c.value) (fun e => e.applyCredit c.value))) := by
  change execCredit s = _
  rw [execCredit, ifRunning_of_running _ hr, h]

theorem execBandPrice_of_application {s : State} {c : CodeService} (hr : s.isRunning = true)
    (h : s.applicationOf 3 = some c) :
    exec .bandPrice s = .next (s.takesTurn .bandPrice .clockTariff
      (s.applyCode c .clockTariff none (.bandPrice c.sub (s.nv.activeTariff.prices.getD c.sub 0) c.value)
        (fun e => e.setPrice c.sub c.value))) := by
  change execBandPrice s = _
  rw [execBandPrice, ifRunning_of_running _ hr, h]

theorem execService_of_application {s : State} {c : CodeService} (hr : s.isRunning = true)
    (h : s.tamperApplication 4 = some c) :
    exec .service s = .next (s.takesTurn .service .tamper
      (s.leaveTamper.applyCode c .tamper none (.service c.closing) (fun e => e.openWindow c.closing (5 * c.sub)))) := by
  change execService s = _
  rw [execService, ifRunning_of_running _ hr, h]

theorem execTamperClear_of_application {s : State} {c : CodeService} (hr : s.isRunning = true)
    (h : s.tamperApplication 5 = some c) :
    exec .tamperClear s = .next (s.takesTurn .tamperClear .tamper
      (s.leaveTamper.applyCode c .tamper none (.tamperClear (s.nv.clearResults (clearKinds c.sub)))
        (fun e => e.clearAll .code (clearKinds c.sub)))) := by
  change execTamperClear s = _
  rw [execTamperClear, ifRunning_of_running _ hr, h]

theorem execReconnect_of_application {s : State} {c : CodeService} (hr : s.isRunning = true)
    (h : s.applicationOf 8 = some c) :
    exec .reconnect s = .next (s.takesTurn .reconnect .supply
      (s.applyCode c .supply none (.reconnect s.nv.holds.remote.isSome) Event.reconnect)) := by
  change execReconnect s = _
  rw [execReconnect, ifRunning_of_running _ hr, h]

/-- An application whose commit writes more records than the journal has places is refused at ROOM (R78, R164). -/
theorem State.applyCode_refused {s u : State} {i : Instr} {c : CodeService} {owner : Block} {test : Option Status}
    {effect : CodeEffect} {apply : Event → Event} {needs : Nat}
    (hexec : exec i s = .next (s.takesTurn i owner (u.applyCode c owner test effect apply)))
    (hw : u.writes = s.writes) (hnv : u.nv = s.nv) (hmay : s.mayBegin i owner true = true)
    (hcode : s.blockBusy .code i = false) (hfree : s.nv.journal.free < needs)
    (hneeds : needs ≤ (apply (Event.begin u c.port.origin)).records.length + 1) :
    exec i s = .next ((u.refuseCode c (c.refusal .room .journalFull)).leaveLine i) := by
  have hroom : u.nv.journal.free ≤ (apply (Event.begin u c.port.origin)).records.length := by
    rw [hnv]
    omega
  rw [hexec, State.applyCode_noRoom hroom, State.takesTurn_refuseCode _ _ hw hmay hcode]

/-- An opened window writes SERVICE_START and the removal of a TAMPER hold that its condition ends (R149). -/
theorem State.openWindow_records (s : State) (o : Origin) (closing minutes : Nat) :
    let opened : Nv := { s.nv with window := some { closing := closing, minutes := minutes } }
    let e := (Event.begin s.leaveTamper o).openWindow closing minutes
    1 ≤ e.records.length ∧
      (s.nv.tamperCondition = true → opened.tamperCondition = false → s.nv.holds.tamper = true →
        e.records.length = 2) := by
  intro opened e
  let d := ((Event.begin s.leaveTamper o).updateNv (fun n =>
    { n with window := some { closing := closing, minutes := minutes } })).log
      (.serviceStart closing minutes s.nv.window.isSome)
  have hbegin : (Event.begin s.leaveTamper o).Ready s := Event.ready_begin_of o rfl rfl rfl rfl rfl
  have hd : d.Ready s :=
    (hbegin.updateNv (f := fun n => { n with window := some { closing := closing, minutes := minutes } }) rfl rfl).log _
  obtain ⟨hin, ⟨rs, hrs, hfollows⟩, -⟩ := hd.tamperResults s.nv false rfl (by simp [d])
  have hrecords : e.records.length = 1 + rs.length := by
    have : e.records = d.records ++ rs := hrs
    rw [this, List.length_append]
    rfl
  rw [hrecords]
  refine ⟨by omega, fun before after held => ?_⟩
  rw [State.tamperFollows_length hfollows before (hin.tamperCondition.trans after) held]

/-- A reconnection writes the removal of a REMOTE hold that the list holds (R103). -/
theorem State.reconnect_records (s : State) (o : Origin) (h : s.nv.holds.remote ≠ none) :
    (Event.begin s o).reconnect.records.length = 1 := by
  obtain ⟨r, hr⟩ := Option.ne_none_iff_exists'.mp h
  have hphase : ((Event.begin s o).updateNv (fun n => { n with lapseMarker := false })).nv.holds.phase .remote =
      some r.phase := by
    simp [HoldList.phase, hr]
  rw [Event.reconnect, Event.remove_records _ hphase]
  rfl

/-- Settles O7: the overflow and each owner's test for room by the records of its application, and the refusal by
`State.refuseCode_cases`. -/
theorem refusedCodeChangesOnlyItsOwn : Obligations.RefusedCodeChangesOnlyItsOwn := by
  refine ⟨fun s c hr ha hroom hmay hcode hover => ?_, fun i s u c needs hr hmay hcode hfree h => ?_, fun s c r => ?_⟩
  · have hoverflows : s.nv.account.overflows c.value = true := decide_eq_true (by exact hover)
    obtain ⟨hlength, -⟩ := s.accountApplication_records c.port.origin (f := fun a => a.applyCredit c.value) fun _ => rfl
    refine ⟨_, ?_, rfl, ?_⟩
    · rw [execCredit_of_application hr ha, hoverflows, if_pos rfl,
        State.applyCode_fails (by exact lt_of_le_of_lt hlength hroom)]
      exact congrArg _ (State.takesTurn_refuseCode c _ rfl hmay hcode)
    · rw [State.leaveLine_nv, State.refuseCode_nv, Nv.refused_eq]
      rfl
  · rcases h with ⟨rfl, ha, rfl, hn⟩ | ⟨rfl, ha, rfl, hn⟩ | ⟨rfl, ha, rfl, hn⟩ | ⟨rfl, ha, rfl, hn⟩ | ⟨rfl, ha, rfl, hn⟩ |
      ⟨rfl, ha, rfl, hn⟩ | ⟨rfl, ha, rfl, hn⟩
    · obtain ⟨-, -, hkind, -⟩ := s.accountApplication_spec ha
      rw [hkind] at hmay
      refine State.applyCode_refused (execCredit_of_application hr ha) rfl rfl hmay hcode hfree ?_
      obtain ⟨-, hlength⟩ :=
        s.accountApplication_records c.port.origin (f := fun a => a.applyCredit c.value) fun _ => rfl
      have hrecords : ((Event.begin s.leaveArrivals c.port.origin).applyCredit c.value).records.length =
        (((Event.begin s.leaveArrivals c.port.origin).updateAccount (fun a => a.applyCredit c.value)).accountResults
          s.nv).records.length := rfl
      rw [hn, hrecords]
      split
      · next h =>
        obtain ⟨⟨before, after⟩, held⟩ := h
        rw [hlength (by simp [before, after]) (by simp [after, held])]
      · omega
    · obtain ⟨-, -, hkind, -⟩ := s.accountApplication_spec ha
      rw [hkind] at hmay
      refine State.applyCode_refused (execEmergencyLimit_of_application hr ha) rfl rfl hmay hcode hfree ?_
      obtain ⟨-, hlength⟩ :=
        s.accountApplication_records c.port.origin (f := fun a => { a with emergencyLimit := c.value }) fun _ => rfl
      have hrecords : ((Event.begin s.leaveArrivals c.port.origin).applyLimit c.value).records.length =
        (((Event.begin s.leaveArrivals c.port.origin).updateAccount
          (fun a => { a with emergencyLimit := c.value })).accountResults s.nv).records.length := rfl
      rw [hn, hrecords]
      split
      · next h => rw [hlength h.1 h.2]
      · omega
    · obtain ⟨-, -, hkind, -⟩ := s.accountApplication_spec ha
      rw [hkind] at hmay
      exact State.applyCode_refused (execDebtSet_of_application hr ha) rfl rfl hmay hcode hfree (by omega)
    · obtain ⟨-, -, hkind⟩ := u.applicationOf_spec ha
      rw [hkind] at hmay
      exact State.applyCode_refused (execBandPrice_of_application hr ha) rfl rfl hmay hcode hfree (by omega)
    · obtain ⟨-, -, hkind⟩ := s.applicationOf_spec (s.tamperApplication_spec ha).1
      rw [hkind] at hmay
      refine State.applyCode_refused (execService_of_application hr ha) rfl rfl hmay hcode hfree ?_
      obtain ⟨hone, htwo⟩ := s.openWindow_records c.port.origin c.closing (5 * c.sub)
      rw [hn]
      split
      · next h => rw [htwo h.1.1 h.1.2 h.2]
      · omega
    · obtain ⟨-, -, hkind⟩ := s.applicationOf_spec (s.tamperApplication_spec ha).1
      rw [hkind] at hmay
      refine State.applyCode_refused (execTamperClear_of_application hr ha) rfl rfl hmay hcode hfree ?_
      obtain ⟨hstays, rs, hfollows, hlength⟩ :=
        Event.clearAll_spec (Event.ready_begin_of (s := s) (u := s.leaveTamper) c.port.origin rfl rfl rfl rfl rfl)
          rfl rfl List.not_mem_nil .code c.sub
      replace hlength : _ = (TamperKind.all.filter (fun k =>
        (clearKinds c.sub).contains k && (s.nv.tampers.get k).state == .latched)).length + rs.length := hlength
      rw [hlength, hn]
      split
      · next h =>
        rw [State.tamperFollows_length hfollows h.1 (hstays.trans h.2.1) h.2.2]
        omega
      · omega
    · obtain ⟨-, -, hkind⟩ := u.applicationOf_spec ha
      rw [hkind] at hmay
      refine State.applyCode_refused (execReconnect_of_application hr ha) rfl rfl hmay hcode hfree ?_
      rw [hn]
      split
      · omega
      · next h => rw [u.reconnect_records _ h]
  · refine ⟨?_, fun hne => ?_, fun hsame hcheck => ?_⟩
    · rw [State.refuseCode_nv, Nv.refused_eq]
      cases s.nv.firstRefusal <;> rfl
    · rw [State.refuseCode_nv] at hne ⊢
      rcases s.refuseCode_cases c r with ⟨-, h⟩ | ⟨hsame, -, -⟩
      · rw [h]
      · exact absurd hsame hne
    · rw [State.refuseCode_nv] at hsame
      rcases s.refuseCode_cases c r with ⟨hwrites, -⟩ | ⟨-, -, h⟩
      · exact absurd hwrites (not_or.mpr ⟨hcheck, fun h => h hsame⟩)
      · exact h

end Sys2Proof.Machine
end

