-- ==== Sys2Proof/Laws/PlainEvent.lean ====
section
namespace Sys2Proof.Machine

/-! ## Events of the supply controller that may change nothing

A hand-off, a deadline or a level may find nothing to do at the hold list: the event then makes no write
(`Event.commitSupply`). -/

/-- The event `e'` is `e` with the hold list and the arm deadline changed alone, unless it has a record. -/
def Event.Plain (e e' : Event) : Prop :=
  e'.records = [] → e.records = [] ∧
    e'.state = { e.state with
      nv := { e.state.nv with holds := e'.nv.holds, armDeadline := e'.nv.armDeadline } }

theorem Event.Plain.refl (e : Event) : e.Plain e := fun h => ⟨h, rfl⟩

theorem Event.Plain.trans {a b c : Event} (h : a.Plain b) (k : b.Plain c) : a.Plain c := by
  intro hc
  obtain ⟨hb, ks⟩ := k hc
  obtain ⟨ha, hs⟩ := h hb
  refine ⟨ha, ks.trans ?_⟩
  rw [hs]

theorem Event.plain_of_records {e e' : Event} (h : e'.records ≠ []) : e.Plain e' := fun h' => absurd h' h

theorem Event.plain_makeFirm (e : Event) (k : HoldKind) (left : PhaseName) (cause : FirmCause) :
    e.Plain (e.makeFirm k left cause) :=
  Event.plain_of_records (by simp [e.makeFirm_records])

theorem Event.plain_remove (e : Event) (k : HoldKind) (cause : RemovalCause) (named : Option Policy) (policy : Policy) :
    e.Plain (e.remove k cause named policy) := by
  cases hk : e.nv.holds.phase k with
  | none =>
    rw [e.remove_of_absent hk]
    exact .refl e
  | some had => exact Event.plain_of_records (by simp [e.remove_records hk])

theorem Event.plain_leaveDeferred (e : Event) (cause : FirmCause) : e.Plain (e.leaveDeferred cause) := by
  unfold Event.leaveDeferred
  split
  · exact fun h => ⟨h, rfl⟩
  · exact e.plain_makeFirm _ _ _

theorem Event.plain_windowEdge (e : Event) (edge : WindowEdge) : e.Plain (e.windowEdge edge) := by
  unfold Event.windowEdge
  split
  · split
    · exact .refl e
    · exact fun h => ⟨h, rfl⟩
  · exact e.plain_leaveDeferred _
  · exact .refl e

theorem Event.plain_ceilingReached (e : Event) : e.Plain e.ceilingReached := by
  unfold Event.ceilingReached
  split
  · exact e.plain_leaveDeferred _
  · exact .refl e

theorem Event.plain_graceReached (e : Event) (clock : Nat) (k : HoldKind) : e.Plain (e.graceReached clock k) := by
  unfold Event.graceReached
  split
  · split
    · exact e.plain_makeFirm _ _ _
    · exact .refl e
  · exact .refl e

theorem Event.plain_graceEnds (e : Event) (cause : FirmCause) (k : HoldKind) : e.Plain (e.graceEnds cause k) := by
  unfold Event.graceEnds
  split
  · exact e.plain_makeFirm _ _ _
  · exact .refl e

theorem Event.plain_restoreReached (e : Event) (clock : Nat) : e.Plain (e.restoreReached clock) := by
  unfold Event.restoreReached
  split
  · split
    · exact e.plain_remove _ _ _ _
    · exact .refl e
  · exact .refl e

theorem Event.plain_armReached (e : Event) (clock : Nat) : e.Plain (e.armReached clock) := by
  unfold Event.armReached
  split
  · split
    · exact Event.plain_of_records (by simp [Event.place_records])
    · exact .refl e
  · exact .refl e

theorem Event.plain_limitDeadlines (e : Event) (clock : Nat) : e.Plain (e.limitDeadlines clock) :=
  fun h => ⟨h, rfl⟩

/-- An event that found nothing to do leaves the state as it was; any other makes its write. -/
theorem Event.Plain.commitSupply {s : State} {o : Origin} {e : Event} (h : (Event.begin s o).Plain e) :
    e.commitSupply s.nv =
      if e.records = [] ∧ e.nv.holds = s.nv.holds ∧ e.nv.armDeadline = s.nv.armDeadline then s
      else e.commit .supply := by
  unfold Event.commitSupply
  by_cases hn : e.records = [] ∧ e.nv.holds = s.nv.holds ∧ e.nv.armDeadline = s.nv.armDeadline
  · obtain ⟨hrecords, hholds, harm⟩ := hn
    obtain ⟨-, hstate⟩ := h hrecords
    rw [if_pos ⟨by simp [hrecords], hholds, harm⟩, if_pos ⟨hrecords, hholds, harm⟩, hstate, hholds, harm]
    rfl
  · rw [if_neg hn, if_neg (by simpa using hn)]

end Sys2Proof.Machine
end

