-- ==== Sys2Proof/Laws/StoreAgreement.lean ====
section
namespace Sys2Proof.Machine

/-! ## What the blocks hold is what the newest write holds

Every event that changes the stored state ends in one write of it, so the agreement is kept by what leaves the store
alone and restored by each write. -/

theorem State.storeAgrees_iff (s : State) :
    s.storeAgrees = true ↔ s.nv = (s.writes.getLast?.map (·.image)).getD s.stored := by
  simp [State.storeAgrees]

@[simp] theorem Event.commitSetting_storeAgrees (e : Event) (b : Block) (c : Option Nat) (m : Option RetentionMark) :
    (e.commitSetting b c m).storeAgrees = true := by
  simp [State.storeAgrees, Event.commitSetting]

@[simp] theorem Event.commit_storeAgrees (e : Event) (b : Block) : (e.commit b).storeAgrees = true :=
  e.commitSetting_storeAgrees b none none

@[simp] theorem Event.commitCode_storeAgrees (e : Event) (c : CodeService) (effect : CodeEffect) (b : Block) :
    (e.commitCode c effect b).storeAgrees = true :=
  Event.commit_storeAgrees _ _

@[simp] theorem State.release_storeAgrees (s : State) (p : Port) (seq : Nat) : (s.release p seq).storeAgrees = true := by
  simp [State.storeAgrees, State.release]

section
variable (s : State)

@[simp] theorem State.answerByte_storeAgrees (p : Port) (status : Byte) (payload : List Byte) :
    (s.answerByte p status payload).storeAgrees = s.storeAgrees := by
  obtain ⟨_, _, h⟩ := s.answerByte_frame p status payload
  rw [h]
  rfl

@[simp] theorem State.answer_storeAgrees (p : Port) (status : Status) (payload : List Byte) :
    (s.answer p status payload).storeAgrees = s.storeAgrees :=
  s.answerByte_storeAgrees p _ payload

@[simp] theorem State.respond_storeAgrees (p : Port) (f : Frame) : (s.respond p f).storeAgrees = s.storeAgrees := by
  obtain ⟨_, _, h⟩ := s.respond_frame p f
  rw [h]
  rfl

@[simp] theorem State.raise_storeAgrees (k : NoticeKind) : (s.raise k).storeAgrees = s.storeAgrees := by
  obtain ⟨_, h⟩ := s.raise_frame k
  rw [h]
  rfl

@[simp] theorem State.addQuanta_storeAgrees (n : Nat) : (s.addQuanta n).storeAgrees = s.storeAgrees := by
  obtain ⟨_, _, h⟩ := s.addQuanta_frame n
  rw [h]
  rfl

@[simp] theorem State.queueDeadlines_storeAgrees : s.queueDeadlines.storeAgrees = s.storeAgrees := by
  obtain ⟨_, h⟩ := s.queueDeadlines_frame
  rw [h]
  rfl

end

section
variable (s : State)

@[simp] theorem State.countChoice_storeAgrees : s.countChoice.storeAgrees = s.storeAgrees := rfl
@[simp] theorem State.leaveLine_storeAgrees (c : Instr) : (s.leaveLine c).storeAgrees = s.storeAgrees := rfl
@[simp] theorem State.leaveArrivals_storeAgrees : s.leaveArrivals.storeAgrees = s.storeAgrees := rfl
@[simp] theorem State.leaveTamper_storeAgrees : s.leaveTamper.storeAgrees = s.storeAgrees := rfl
@[simp] theorem State.leaveQueue_storeAgrees : s.leaveQueue.storeAgrees = s.storeAgrees := rfl
@[simp] theorem State.leaveJournal_storeAgrees : s.leaveJournal.storeAgrees = s.storeAgrees := rfl
@[simp] theorem State.endService_storeAgrees : s.endService.storeAgrees = s.storeAgrees := rfl
@[simp] theorem State.arrive_storeAgrees (e : AccountEvent) : (s.arrive e).storeAgrees = s.storeAgrees := rfl
@[simp] theorem State.arriveTamper_storeAgrees (e : TamperEvent) : (s.arriveTamper e).storeAgrees = s.storeAgrees := rfl
@[simp] theorem State.queueCode_storeAgrees (i : CodeItem) : (s.queueCode i).storeAgrees = s.storeAgrees := rfl
@[simp] theorem State.serve_storeAgrees (c : CodeService) : (s.serve c).storeAgrees = s.storeAgrees := rfl
@[simp] theorem State.takeRequest_storeAgrees (p : Port) : (s.takeRequest p).storeAgrees = s.storeAgrees := rfl
@[simp] theorem State.handSetting_storeAgrees (p : Port) (n v : Nat) :
    (s.handSetting p n v).storeAgrees = s.storeAgrees := rfl
@[simp] theorem State.updatePort_storeAgrees (p : Port) (f : PortUnit → PortUnit) :
    (s.updatePort p f).storeAgrees = s.storeAgrees := rfl
@[simp] theorem State.updatePulse_storeAgrees (f : PulseUnit → PulseUnit) :
    (s.updatePulse f).storeAgrees = s.storeAgrees := rfl
@[simp] theorem State.setLevel_storeAgrees (k : TamperKind) (active : Bool) :
    (s.setLevel k active).storeAgrees = s.storeAgrees := rfl
@[simp] theorem State.setLoadhi_storeAgrees (b : Bool) : (s.setLoadhi b).storeAgrees = s.storeAgrees := rfl
@[simp] theorem State.setLoadx_storeAgrees (b : Bool) : (s.setLoadx b).storeAgrees = s.storeAgrees := rfl
@[simp] theorem State.endPulse_storeAgrees : s.endPulse.storeAgrees = s.storeAgrees := rfl
@[simp] theorem State.staleLapse_storeAgrees : s.staleLapse.storeAgrees = s.storeAgrees := rfl
@[simp] theorem State.silentTransaction_storeAgrees (n : Nat) :
    (s.silentTransaction n).storeAgrees = s.storeAgrees := rfl

end

section
variable {s t : State}

theorem storeAgrees_ifRunning {f : State → State} (hs : s.storeAgrees = true) (hf : (f s).storeAgrees = true)
    (h : ifRunning s f = .next t) : t.storeAgrees = true := by
  unfold ifRunning at h
  split at h <;> cases h <;> assumption

theorem State.storeAgrees_waits (hs : s.storeAgrees = true) (c : Instr) (b : Block) :
    (s.waits c b).storeAgrees = true := by
  rcases s.waits_cases c b with ⟨h, -⟩ | ⟨h, -⟩ <;> rw [h]
  · exact hs
  · rw [State.joinLine_eq]
    exact hs

theorem State.storeAgrees_takes (hs : s.storeAgrees = true) (ht : t.storeAgrees = true) (c : Instr)
    (turn : Option Block) : (s.takes c turn t).storeAgrees = true := by
  rcases s.takes_spec c turn t with ⟨h, -⟩ | ⟨x, -, -, h⟩ <;> rw [h]
  · exact ht
  · exact State.storeAgrees_waits hs c x.1

theorem storeAgrees_whenRunning {c : Instr} {f : State → State} (hs : s.storeAgrees = true)
    (hf : (f s).storeAgrees = true) (h : whenRunning c s f = .next t) : t.storeAgrees = true :=
  storeAgrees_ifRunning hs (State.storeAgrees_takes hs hf c none) h

end

end Sys2Proof.Machine
end

