-- ==== Sys2Proof/Laws/StoreAgreementBlocks.lean ====
section
namespace Sys2Proof.Machine

/-! ### The blocks' operations -/

theorem storeAgrees_ite {a b : State} {p : Prop} [Decidable p] (ha : a.storeAgrees = true) (hb : b.storeAgrees = true) :
    (if p then a else b).storeAgrees = true := by
  split <;> assumption

section
variable {s : State} (hs : s.storeAgrees = true)
include hs

theorem State.storeAgrees_refuseCode (c : CodeService) (r : CodeResult) : (s.refuseCode c r).storeAgrees = true := by
  rcases s.refuseCode_cases c r with ⟨-, h⟩ | ⟨-, -, h⟩ <;> rw [h]
  · simp [State.storeAgrees]
  · exact (s.answer_storeAgrees _ _ _).trans hs

theorem State.storeAgrees_applyCode (c : CodeService) (b : Block) (test : Option Status) (effect : CodeEffect)
    (apply : Event → Event) : (s.applyCode c b test effect apply).storeAgrees = true := by
  unfold State.applyCode
  dsimp only
  split
  · exact State.storeAgrees_refuseCode hs _ _
  · cases test with
    | some outcome => exact State.storeAgrees_refuseCode hs _ _
    | none => exact Event.commitCode_storeAgrees _ _ _ _

theorem State.storeAgrees_applyHalf (c : CodeService) (h : PendingHalf) : (s.applyHalf c h).storeAgrees = true := by
  have change (first second : PendingHalf) : (s.changeKey c first second).storeAgrees = true := by
    unfold State.changeKey
    dsimp only
    split
    · exact State.storeAgrees_refuseCode hs _ _
    · split
      · exact State.storeAgrees_refuseCode hs _ _
      · exact Event.commitCode_storeAgrees _ _ _ _
  have held : (s.holdHalf c h).storeAgrees = true := State.storeAgrees_applyCode hs _ _ _ _ _
  unfold State.applyHalf
  split
  · exact held
  · split
    · exact change _ _
    · exact change _ _
    · exact held

end

/-- A refusal at CHECK always makes its write. -/
theorem Event.refuseCode_check (e : Event) (c : CodeService) {r : CodeResult} (h : r.stage = .check) :
    (e.refuseCode c r).storeAgrees = true := by
  unfold Event.refuseCode
  dsimp only
  rw [if_pos (.inl h)]
  exact Event.commit_storeAgrees _ _

theorem State.refuseAtCheck_storeAgrees (s : State) (c : CodeService) : (s.refuseAtCheck c).storeAgrees = true := by
  unfold State.refuseAtCheck
  dsimp only
  split <;> exact Event.refuseCode_check _ _ rfl

section
variable {s : State} (hs : s.storeAgrees = true)
include hs

theorem State.storeAgrees_goOn (c : CodeService) : (s.goOn c).storeAgrees = true := by
  rcases s.goOn_cases c with ⟨b, h⟩ | ⟨-, h⟩ | ⟨-, h⟩ <;> rw [h]
  · exact State.storeAgrees_waits hs _ _
  · exact State.storeAgrees_applyHalf hs _ _
  · exact s.refuseAtCheck_storeAgrees c

theorem State.storeAgrees_handCode (c : CodeService) : (s.handCode c).storeAgrees = true := by
  unfold State.handCode
  dsimp only
  split <;> exact hs

theorem State.storeAgrees_serveChecked (c : CodeService) : (s.serveChecked c).storeAgrees = true := by
  have refused (c : CodeService) (r : CodeResult) := State.storeAgrees_refuseCode hs c r
  have goes (c : CodeService) : ((s.serve c).goOn c).storeAgrees = true :=
    State.storeAgrees_goOn (s := s.serve c) hs c
  unfold State.serveChecked
  exact storeAgrees_ite (goes _) (storeAgrees_ite (refused _ _) (storeAgrees_ite (refused _ _)
    (storeAgrees_ite (refused _ _) (storeAgrees_ite (refused _ _) (storeAgrees_ite (refused _ _)
      (storeAgrees_ite (goes _) (State.storeAgrees_handCode hs _)))))))

theorem State.storeAgrees_serveCode (p : Port) (digits : List Byte) : (s.serveCode p digits).storeAgrees = true := by
  unfold State.serveCode
  refine storeAgrees_ite (State.storeAgrees_refuseCode hs _ _) ?_
  dsimp only
  split
  · exact State.storeAgrees_refuseCode hs _ _
  · exact State.storeAgrees_serveChecked hs _

theorem State.storeAgrees_limitCode (clock : Nat) : (s.limitCode clock).storeAgrees = true :=
  storeAgrees_ite hs (Event.commit_storeAgrees _ _)

theorem Event.Plain.storeAgrees_commitSupply {o : Origin} {e : Event} (h : (Event.begin s o).Plain e) :
    (e.commitSupply s.nv).storeAgrees = true := by
  rw [h.commitSupply]
  exact storeAgrees_ite hs (Event.commit_storeAgrees _ _)

theorem State.storeAgrees_openFromWait : s.openFromWait.storeAgrees = true :=
  storeAgrees_ite (Event.commit_storeAgrees _ _) hs

theorem State.storeAgrees_takeTamper (c : Instr) (e : TamperEvent) {f : State → State}
    (hf : (f s.leaveTamper).storeAgrees = true) : (s.takeTamper c e f).storeAgrees = true :=
  storeAgrees_ite (State.storeAgrees_takes hs hf c none) hs

theorem State.storeAgrees_passLevel (k : TamperKind) (active : Bool) : (s.passLevel k active).storeAgrees = true :=
  storeAgrees_ite hs hs

theorem State.storeAgrees_passExpiry : s.passExpiry.storeAgrees = true := storeAgrees_ite hs hs

theorem State.storeAgrees_detectActive (k : TamperKind) : (s.detectActive k).storeAgrees = true :=
  storeAgrees_ite hs (Event.commit_storeAgrees _ _)

theorem State.storeAgrees_latchInactive (k : TamperKind) : (s.latchInactive k).storeAgrees = true :=
  storeAgrees_ite (Event.commit_storeAgrees _ _) hs

theorem State.storeAgrees_judgeReading (d : Drive) (sense : Sense) : (s.judgeReading d sense).storeAgrees = true := by
  unfold State.judgeReading
  exact storeAgrees_ite (Event.commit_storeAgrees _ _) (storeAgrees_ite hs (Event.commit_storeAgrees _ _))

end

/-- Two states agree in the store, in what the blocks hold of it, in the writes on their way and in the retention
domain. -/
structure State.SameStore (s t : State) : Prop where
  nv : t.nv = s.nv
  stored : t.stored = s.stored
  writes : t.writes = s.writes
  ret : t.ret = s.ret

theorem State.SameStore.refl (s : State) : s.SameStore s := ⟨rfl, rfl, rfl, rfl⟩

theorem State.SameStore.trans {s t u : State} (h : s.SameStore t) (k : t.SameStore u) : s.SameStore u :=
  ⟨k.nv.trans h.nv, k.stored.trans h.stored, k.writes.trans h.writes, k.ret.trans h.ret⟩

theorem State.SameStore.storeAgrees {s t : State} (h : s.SameStore t) : t.storeAgrees = s.storeAgrees := by
  simp only [State.storeAgrees, h.nv, h.stored, h.writes]

section
variable (s : State)

theorem State.reevaluateWindow_sameStore : s.SameStore s.reevaluateWindow := by
  unfold State.reevaluateWindow
  dsimp only
  split <;> exact ⟨rfl, rfl, rfl, rfl⟩

theorem State.handOwed_sameStore (clock : Nat) (byMidnight : Bool) : s.SameStore (s.handOwed clock byMidnight) := by
  unfold State.handOwed
  dsimp only
  split
  · exact ⟨rfl, rfl, rfl, rfl⟩
  · split
    · exact ⟨rfl, rfl, rfl, rfl⟩
    · split <;> exact ⟨rfl, rfl, rfl, rfl⟩

theorem State.handTamperClockSet_sameStore : s.SameStore s.handTamperClockSet := by
  unfold State.handTamperClockSet
  split <;> exact ⟨rfl, rfl, rfl, rfl⟩

theorem State.queueDeadlines_sameStore : s.SameStore s.queueDeadlines := by
  obtain ⟨_, h⟩ := s.queueDeadlines_frame
  rw [h]
  exact ⟨rfl, rfl, rfl, rfl⟩

theorem State.handClockSet_sameStore : s.SameStore s.handClockSet := by
  unfold State.handClockSet
  split <;> exact ⟨rfl, rfl, rfl, rfl⟩

theorem State.clockMoved_sameStore (old new : Nat) (wasValid : Bool) : s.SameStore (s.clockMoved old new wasValid) := by
  let u : State := { s.reevaluateWindow with
    pulse := s.reevaluateWindow.pulse.clockSet old new
    supply := { s.reevaluateWindow.supply with clockSetHanded := true } }
  have hu : s.SameStore u := by
    obtain ⟨h₁, h₂, h₃, h₄⟩ := s.reevaluateWindow_sameStore
    exact ⟨h₁, h₂, h₃, h₄⟩
  have hv : s.SameStore u.handTamperClockSet.queueDeadlines.handClockSet :=
    ((hu.trans u.handTamperClockSet_sameStore).trans (State.queueDeadlines_sameStore _)).trans
      (State.handClockSet_sameStore _)
  change s.SameStore (if wasValid then State.handOwed _ _ false else _)
  split
  · exact hv.trans (State.handOwed_sameStore _ _ _)
  · exact hv

/-- What follows a stored write leaves the store, the writes on their way and the retention domain alone. -/
theorem State.perform_sameStore (f : FollowUp) : s.SameStore (s.perform f) := by
  cases f with
  | answer p status payload =>
    obtain ⟨_, _, h⟩ := s.answerByte_frame p status.byte payload
    change s.SameStore (s.answerByte p status.byte payload)
    rw [h]
    exact ⟨rfl, rfl, rfl, rfl⟩
  | notice k =>
    obtain ⟨_, h⟩ := s.raise_frame k
    change s.SameStore (s.raise k)
    rw [h]
    exact ⟨rfl, rfl, rfl, rfl⟩
  | quantumTaken =>
    change s.SameStore (State.offerQuantum _)
    unfold State.offerQuantum
    split <;> exact ⟨rfl, rfl, rfl, rfl⟩
  | dayCloseTaken =>
    change s.SameStore s.dayCloseStored
    unfold State.dayCloseStored
    dsimp only
    split <;> exact ⟨rfl, rfl, rfl, rfl⟩
  | ceilingReached | codeServed => exact ⟨rfl, rfl, rfl, rfl⟩
  | windowReevaluated => exact s.reevaluateWindow_sameStore
  | clockMoved old new wasValid => exact s.clockMoved_sameStore old new wasValid

theorem State.performAll_sameStore (fs : List FollowUp) : s.SameStore (fs.foldl State.perform s) := by
  induction fs generalizing s with
  | nil => exact .refl s
  | cons f rest ih => exact (s.perform_sameStore f).trans (ih _)

theorem State.reevaluateWindow_storeAgrees : s.reevaluateWindow.storeAgrees = s.storeAgrees :=
  s.reevaluateWindow_sameStore.storeAgrees

theorem State.handOwed_storeAgrees (clock : Nat) (byMidnight : Bool) :
    (s.handOwed clock byMidnight).storeAgrees = s.storeAgrees :=
  (s.handOwed_sameStore clock byMidnight).storeAgrees

theorem State.countOpenPulse_storeAgrees : s.countOpenPulse.storeAgrees = s.storeAgrees := by
  unfold State.countOpenPulse
  dsimp only
  split
  · split <;> rfl
  · rfl

theorem State.endMinute_storeAgrees : s.endMinute.storeAgrees = s.storeAgrees := by
  have judged : s.judgeMinute.storeAgrees = s.storeAgrees := by
    obtain ⟨_, _, h⟩ := s.addQuanta_frame s.fallbackQuanta
    unfold State.judgeMinute
    dsimp only
    rw [h]
    split <;> rfl
  unfold State.endMinute
  rw [State.updatePulse_storeAgrees]
  split
  · exact judged
  · rfl

theorem State.judgeRequest_storeAgrees (p : Port) (code : Byte) (payload : List Byte) :
    (s.judgeRequest p code payload).storeAgrees = s.storeAgrees := by
  have joins (u : State) (c : RequestCode) : (u.joinQueue p c).storeAgrees = u.storeAgrees := by
    unfold State.joinQueue
    split <;> rfl
  unfold State.judgeRequest
  split
  · exact s.respond_storeAgrees _ _
  · unfold State.takeIn
    split
    · rfl
    · exact joins _ _
  · rfl

theorem State.refuseFrame_storeAgrees (status : Status) (code : Byte) :
    (s.refuseFrame status code).storeAgrees = s.storeAgrees := by
  unfold State.refuseFrame
  split <;> rfl

theorem State.receive_storeAgrees (b : Byte) : (s.receive b).storeAgrees = s.storeAgrees := by
  have judged (u : State) (bytes : List Byte) : (u.judgeLFrame bytes).storeAgrees = u.storeAgrees := by
    unfold State.judgeLFrame
    dsimp only
    split
    · exact u.refuseFrame_storeAgrees _ _
    · split
      · exact u.judgeRequest_storeAgrees _ _ _
      · split
        · rfl
        · exact u.refuseFrame_storeAgrees _ _
  unfold State.receive
  dsimp only
  split
  · exact judged _ _
  · rfl

theorem State.receiveAll_storeAgrees (bytes : List Byte) :
    (bytes.foldl State.receive s).storeAgrees = s.storeAgrees := by
  induction bytes generalizing s with
  | nil => rfl
  | cons b rest ih => exact (ih _).trans (s.receive_storeAgrees b)

theorem State.frameSent_storeAgrees : s.frameSent.storeAgrees = s.storeAgrees := by
  unfold State.frameSent
  split <;> rfl

theorem State.judgeAFrame_storeAgrees (begun : PortPhase) (bytes : List Byte) :
    (s.judgeAFrame begun bytes).storeAgrees = s.storeAgrees := by
  unfold State.judgeAFrame
  split
  · split
    · split
      · exact s.judgeRequest_storeAgrees _ _ _
      · exact s.respond_storeAgrees _ _
    · split <;> rfl
  · rfl

theorem State.clearPort_storeAgrees (p : Port) : (s.clearPort p).storeAgrees = s.storeAgrees := by
  cases p <;> rfl

end

end Sys2Proof.Machine
end

