-- ==== Sys2Proof/Laws/StoreAgreementCommands.lean ====
section
namespace Sys2Proof.Machine

/-! ### The commands -/

section
variable {s t : State} (hs : s.storeAgrees = true)
include hs

theorem storeAgrees_execSubmitCode {p : Port} (h : execSubmitCode p s = .next t) : t.storeAgrees = true := by
  refine storeAgrees_ifRunning hs ?_ h
  dsimp only
  split
  · exact State.storeAgrees_goOn hs _
  · split
    · exact State.storeAgrees_serveCode (s := ((s.leaveLine (.submitCode p)).leaveQueue.takeRequest p)) hs _ _
    · exact hs

theorem storeAgrees_execClearFirstRefusal {p : Port} (h : execClearFirstRefusal p s = .next t) :
    t.storeAgrees = true := by
  refine storeAgrees_whenRunning hs ?_ h
  dsimp only
  split
  · split
    · simp [hs]
    · exact Event.commit_storeAgrees _ _
  · exact hs

theorem storeAgrees_execPendingHalfLapse (h : execPendingHalfLapse s = .next t) : t.storeAgrees = true := by
  refine storeAgrees_whenRunning hs ?_ h
  split
  · split
    · exact Event.commit_storeAgrees _ _
    · exact hs
  · exact storeAgrees_ite hs hs

theorem storeAgrees_execReleaseJournal {p : Port} (h : execReleaseJournal p s = .next t) : t.storeAgrees = true := by
  refine storeAgrees_ifRunning hs ?_ h
  dsimp only
  split
  · refine storeAgrees_ite (by simp [hs]) ?_
    split <;> simp [hs]
  · exact hs

theorem storeAgrees_execSetDebt (h : execSetDebt s = .next t) : t.storeAgrees = true := by
  refine storeAgrees_ifRunning hs ?_ h
  dsimp only
  split
  · exact storeAgrees_ite (by simp [hs])
      (State.storeAgrees_takes hs (storeAgrees_ite (Event.commit_storeAgrees _ _) (by simp [hs])) _ _)
  · exact hs

theorem storeAgrees_execAccountSettingChange {p : Port} (h : execAccountSettingChange p s = .next t) :
    t.storeAgrees = true := by
  refine storeAgrees_ifRunning hs ?_ h
  dsimp only
  split
  · exact storeAgrees_ite (storeAgrees_ite (by simp [hs])
      (State.storeAgrees_takes hs (storeAgrees_ite (Event.commit_storeAgrees _ _) (by simp [hs])) _ _)) hs
  · exact hs

theorem storeAgrees_execTamperSettingChange {p : Port} (h : execTamperSettingChange p s = .next t) :
    t.storeAgrees = true := by
  refine storeAgrees_ifRunning hs ?_ h
  dsimp only
  split
  · exact storeAgrees_ite (storeAgrees_ite (by simp [hs])
      (State.storeAgrees_takes hs (storeAgrees_ite (Event.commit_storeAgrees _ _) (by simp [hs])) _ _)) hs
  · exact hs

theorem storeAgrees_execWriteSetting {p : Port} (h : execWriteSetting p s = .next t) : t.storeAgrees = true := by
  refine storeAgrees_ifRunning hs ?_ h
  split
  · refine storeAgrees_ite (by simp [hs]) ?_
    split
    · simp [hs]
    · split
      · exact State.storeAgrees_takes hs (storeAgrees_ite (Event.commit_storeAgrees _ _) (by simp [hs])) _ _
      · exact hs
      · exact hs
  · exact hs

theorem storeAgrees_execSetClock (h : execSetClock s = .next t) : t.storeAgrees = true := by
  refine storeAgrees_ifRunning hs ?_ h
  dsimp only
  split
  · exact storeAgrees_ite (by simp [hs])
      (State.storeAgrees_takes hs (storeAgrees_ite (Event.commitSetting_storeAgrees _ _ _ _) (by simp [hs])) _ _)
  · exact hs

theorem storeAgrees_execStageTariff (h : execStageTariff s = .next t) : t.storeAgrees = true := by
  refine storeAgrees_ifRunning hs ?_ h
  split
  · split
    · simp [hs]
    · exact State.storeAgrees_takes hs (storeAgrees_ite (Event.commit_storeAgrees _ _) (by simp [hs])) _ _
  · exact hs

theorem storeAgrees_execCancelTariff (h : execCancelTariff s = .next t) : t.storeAgrees = true := by
  refine storeAgrees_ifRunning hs ?_ h
  dsimp only
  split
  · exact storeAgrees_ite (by simp [hs])
      (State.storeAgrees_takes hs (storeAgrees_ite (Event.commit_storeAgrees _ _) (by simp [hs])) _ _)
  · exact hs

theorem storeAgrees_execRemoteOpen (h : execRemoteOpen s = .next t) : t.storeAgrees = true := by
  refine storeAgrees_ifRunning hs ?_ h
  split
  · exact storeAgrees_ite (by simp [hs])
      (State.storeAgrees_takes hs (storeAgrees_ite (Event.commit_storeAgrees _ _) (by simp [hs])) _ _)
  · exact hs

theorem storeAgrees_execRemoteConnect (h : execRemoteConnect s = .next t) : t.storeAgrees = true := by
  refine storeAgrees_ifRunning hs ?_ h
  dsimp only
  split
  · split
    · simp [hs]
    · exact storeAgrees_ite (by simp [hs])
        (State.storeAgrees_takes hs (storeAgrees_ite (Event.commit_storeAgrees _ _) (by simp [hs])) _ _)
  · exact hs

theorem storeAgrees_execClearTrip {p : Port} (h : execClearTrip p s = .next t) : t.storeAgrees = true := by
  refine storeAgrees_whenRunning hs ?_ h
  split
  · exact storeAgrees_ite (by simp [hs]) (storeAgrees_ite (by simp [hs]) (storeAgrees_ite (by simp [hs])
      (Event.commit_storeAgrees _ _)))
  · exact hs

theorem storeAgrees_execContactorRetry {p : Port} (h : execContactorRetry p s = .next t) : t.storeAgrees = true := by
  refine storeAgrees_whenRunning hs ?_ h
  split
  · refine storeAgrees_ite (by simp [hs]) ?_
    split
    · simp [hs]
    · exact Event.commit_storeAgrees _ _
  · exact hs

theorem storeAgrees_execClearTamper {p : Port} (h : execClearTamper p s = .next t) : t.storeAgrees = true := by
  refine storeAgrees_whenRunning hs ?_ h
  dsimp only
  split
  · exact storeAgrees_ite (by simp [hs]) (storeAgrees_ite (by simp [hs])
      (storeAgrees_ite (Event.commit_storeAgrees _ _) (by simp [hs])))
  · exact hs

theorem storeAgrees_execCloseService {p : Port} (h : execCloseService p s = .next t) : t.storeAgrees = true := by
  refine storeAgrees_whenRunning hs ?_ h
  dsimp only
  split
  · exact storeAgrees_ite (by simp [hs]) (Event.commit_storeAgrees _ _)
  · exact hs

theorem storeAgrees_execTamperClockSet (h : execTamperClockSet s = .next t) : t.storeAgrees = true := by
  refine storeAgrees_ifRunning hs ?_ h
  refine State.storeAgrees_takeTamper hs _ _ ?_
  dsimp only
  split
  · exact hs
  · exact storeAgrees_ite (Event.commit_storeAgrees _ _) (storeAgrees_ite hs (Event.commit_storeAgrees _ _))

theorem storeAgrees_execPress (h : execPress s = .next t) : t.storeAgrees = true := by
  refine storeAgrees_whenRunning hs ?_ h
  split
  · split <;> simp [hs]
  · exact hs

theorem storeAgrees_execButtonPress (h : execButtonPress s = .next t) : t.storeAgrees = true := by
  refine storeAgrees_whenRunning hs ?_ h
  exact storeAgrees_ite hs (storeAgrees_ite (Event.commit_storeAgrees _ _) hs)

theorem storeAgrees_execAcceptEmergency (h : execAcceptEmergency s = .next t) : t.storeAgrees = true := by
  refine storeAgrees_whenRunning hs ?_ h
  split
  · exact storeAgrees_ite (Event.commit_storeAgrees _ _) (by simp [hs])
  · exact hs

end

end Sys2Proof.Machine
end

