-- ==== Sys2Proof/Laws/StoreAgreementPower.lean ====
section
namespace Sys2Proof.Machine

/-! ### Power -/

/-- A step of start-up keeps the agreement. -/
theorem State.storeAgrees_startStep {s : State} (hs : s.storeAgrees = true) (q : StartSequence) (step : StartStep) :
    (s.startStep q step).storeAgrees = true := by
  have supply {u : State} (hu : u.storeAgrees = true) {f : Event → Event}
      (hf : (Event.begin u .device).Plain (f (Event.begin u .device))) : (u.supplyStep f).storeAgrees = true :=
    Event.Plain.storeAgrees_commitSupply hu hf
  cases step with
  | outageRecord => exact Event.commitSetting_storeAgrees _ _ _ _
  | windowClose =>
    change s.closeAtStart.storeAgrees = true
    unfold State.closeAtStart
    split
    · exact Event.commit_storeAgrees _ _
    · exact hs
  | coverStep => exact storeAgrees_ite (Event.commitSetting_storeAgrees _ _ _ _) hs
  | owedDays =>
    change (s.closeOwed q.clock).storeAgrees = true
    unfold State.closeOwed
    dsimp only
    split
    · exact Event.commit_storeAgrees _ _
    · exact (s.handOwed_storeAgrees _ _).trans hs
  | graceDeadlines => exact supply hs ((Event.plain_graceReached _ _ _).trans (Event.plain_graceReached _ _ _))
  | armDeadline => exact supply hs (Event.plain_armReached _ _)
  | restoreTime => exact supply hs (Event.plain_restoreReached _ _)
  | halfLapse =>
    change (s.lapseAtStart q.clock).storeAgrees = true
    unfold State.lapseAtStart
    split
    · exact storeAgrees_ite (Event.commit_storeAgrees _ _) hs
    · exact hs
  | lockoutA | lockoutL =>
    refine (?_ : ∀ p, (s.expireAtStart q.clock p).storeAgrees = true) _
    intro p
    unfold State.expireAtStart
    split
    · exact storeAgrees_ite (Event.commit_storeAgrees _ _) hs
    · exact hs
  | activation =>
    change (s.activateAtStart q.clock).storeAgrees = true
    unfold State.activateAtStart
    split
    · exact Event.commit_storeAgrees _ _
    · exact hs
  | codeLimits => exact State.storeAgrees_limitCode hs _
  | supplyLimits => exact supply hs (Event.plain_limitDeadlines _ _)
  | graceLevels =>
    refine supply hs ?_
    unfold Event.graceAtStart
    split
    · exact .refl _
    · exact (Event.plain_graceEnds _ _ _).trans (Event.plain_graceEnds _ _ _)
  | windowEdge =>
    exact supply (u := { s with
      clockUnit := { s.clockUnit with windowInForce := s.nv.activeTariff.friendlyAt q.clock } }) hs
      (Event.plain_windowEdge _ _)
  | ceiling =>
    exact storeAgrees_ite (supply (u := { s with supply := { s.supply with ceilingHanded := false } }) hs
      (Event.plain_ceilingReached _)) hs
  | breakWait => exact storeAgrees_ite hs (State.storeAgrees_openFromWait hs)
  | contactorCheck =>
    change (s.contactorCheck q.sense).storeAgrees = true
    unfold State.contactorCheck
    split
    · exact Event.commit_storeAgrees _ _
    · exact hs

theorem State.storeAgrees_runStartUp (q : StartSequence) (steps : List StartStep) {s : State}
    (hs : s.storeAgrees = true) : (s.runStartUp q steps).storeAgrees = true := by
  induction steps generalizing s with
  | nil => exact (State.queueDeadlines_storeAgrees _).trans hs
  | cons step rest ih =>
    have ht := State.storeAgrees_startStep hs q step
    rw [State.runStartUp_cons]
    exact storeAgrees_ite (ih ht) ht

/-- A stopped part holds what its store holds. -/
theorem State.stopped_storeAgrees (s : State) (power : Power) : (s.stopped power).storeAgrees = true := by
  simp [State.storeAgrees, State.stopped, State.delivered]

theorem State.beginLastWrite_storeAgrees (s : State) : s.beginLastWrite.storeAgrees = true := by
  simp [State.storeAgrees, State.beginLastWrite]

/-- The oldest write's place in the store changes nothing of what the newest one holds. -/
theorem State.storeAgrees_store {s : State} (hs : s.storeAgrees = true) {w : Write} {rest : List Write}
    (h : s.writes = w :: rest) : ({ s with writes := rest }.store w).storeAgrees = true := by
  rw [State.storeAgrees_iff, h, List.getLast?_cons] at hs
  rw [State.storeAgrees_iff]
  refine hs.trans ?_
  cases hr : rest.getLast? <;> simp [State.store, hr]

theorem State.storeAgrees_storeOldest {s : State} (hs : s.storeAgrees = true) : s.storeOldest.storeAgrees = true := by
  unfold State.storeOldest
  split
  · exact hs
  · next w rest h => exact (State.performAll_sameStore _ _).storeAgrees.trans (State.storeAgrees_store hs h)

theorem State.storeAgrees_performWarned (fs : List FollowUp) {s : State} (hs : s.storeAgrees = true) :
    (fs.foldl State.performWarned s).storeAgrees = true := by
  induction fs generalizing s with
  | nil => exact hs
  | cons f rest ih =>
    refine ih ?_
    unfold State.performWarned
    split
    · exact (s.raise_storeAgrees _).trans hs
    · exact hs

theorem storeAgrees_execWriteStored {s t : State} (hs : s.storeAgrees = true) (h : execWriteStored s = .next t) :
    t.storeAgrees = true := by
  cases h
  split
  · exact State.storeAgrees_storeOldest hs
  · next q _ =>
    have ht := State.storeAgrees_storeOldest hs
    exact storeAgrees_ite hs (storeAgrees_ite (State.storeAgrees_runStartUp q q.steps ht) ht)
  · unfold State.storeWarned
    split
    · exact hs
    · next w rest hw =>
      exact storeAgrees_ite (State.beginLastWrite_storeAgrees _)
        (State.storeAgrees_performWarned _ (State.storeAgrees_store hs hw))
  · unfold State.storeLast
    split
    · exact hs
    · exact State.stopped_storeAgrees _ _
  all_goals exact hs

theorem State.storeAgrees_warn {s : State} (hs : s.storeAgrees = true) : s.warn.storeAgrees = true :=
  storeAgrees_ite (State.beginLastWrite_storeAgrees _) hs

theorem State.storeAgrees_fall {s : State} (hs : s.storeAgrees = true) : s.fall.storeAgrees = true := by
  unfold State.fall
  cases s.power with
  | running | starting _ | warned | lastWrite => exact State.stopped_storeAgrees _ _
  | retain | reset | brownOut => exact hs

theorem storeAgrees_execPowerFailWarning {s t : State} (hs : s.storeAgrees = true) {heldUp : Bool}
    (h : execPowerFailWarning heldUp s = .next t) : t.storeAgrees = true := by
  have ht : (if heldUp then s.warn else s.warn.fall).storeAgrees = true :=
    storeAgrees_ite (State.storeAgrees_warn hs) (State.storeAgrees_fall (State.storeAgrees_warn hs))
  cases h
  split
  · exact ht
  · exact ht
  · exact hs

theorem storeAgrees_execStartUp {s t : State} (hs : s.storeAgrees = true) {loadhi loadx : Bool} {sense : Sense}
    (h : execStartUp loadhi loadx sense s = .next t) : t.storeAgrees = true := by
  cases h
  refine storeAgrees_ite hs (State.storeAgrees_runStartUp _ _ ?_)
  simp [State.storeAgrees, State.beginStartUp, State.delivered]

theorem storeAgrees_execClockAdvance {s t : State} (hs : s.storeAgrees = true) (h : execClockAdvance s = .next t) :
    t.storeAgrees = true := by
  cases h
  split
  · exact storeAgrees_ite hs ((State.queueDeadlines_storeAgrees _).trans hs)
  · exact storeAgrees_ite hs hs
  · exact hs
  · exact hs
  all_goals exact storeAgrees_ite hs hs

end Sys2Proof.Machine
end

