-- ==== Sys2Proof/Laws/StoreAgreementExec.lean ====
section
namespace Sys2Proof.Machine

theorem State.storeAgrees_takeLoadhiFall {s : State} (hs : s.storeAgrees = true) :
    s.takeLoadhiFall.storeAgrees = true :=
  Event.Plain.storeAgrees_commitSupply (s := { s with supply := { s.supply with loadhiFell := false } }) hs
    ((Event.plain_graceEnds _ _ _).trans (Event.plain_graceEnds _ _ _))

/-- What the blocks hold is what the newest write holds: each command keeps it. -/
theorem storeAgrees_exec (c : Instr) {s t : State} (hs : s.storeAgrees = true) (h : exec c s = .next t) :
    t.storeAgrees = true := by
  unfold exec at h
  cases c with
  | lPortFrame bytes =>
    refine storeAgrees_ifRunning hs ?_ h
    exact (s.receiveAll_storeAgrees bytes).trans hs
  | lPortByteReceived b =>
    refine storeAgrees_ifRunning hs ?_ h
    exact (s.receive_storeAgrees b).trans hs
  | lPortFrameSent =>
    refine storeAgrees_ifRunning hs ?_ h
    exact s.frameSent_storeAgrees.trans hs
  | lPortBreak =>
    refine storeAgrees_ifRunning hs ?_ h
    exact (s.clearPort_storeAgrees .l).trans hs
  | lPortGap | thermInactive | buttonRelease => exact storeAgrees_ifRunning hs hs h
  | portClear p =>
    refine storeAgrees_ifRunning hs ?_ h
    exact storeAgrees_ite ((s.clearPort_storeAgrees p).trans hs) hs
  | pulseLineResting d p | voltageWatchExpiry sense | hourEnd =>
    refine storeAgrees_ifRunning hs ?_ h
    exact storeAgrees_ite hs hs
  | aPortRequestTransaction begun bytes =>
    cases h
    unfold State.transact
    split
    · exact storeAgrees_ite ((State.judgeAFrame_storeAgrees _ _ _).trans hs) hs
    all_goals exact hs
  | aPortReadTransaction begun clocked =>
    cases h
    unfold State.transact
    split
    · exact storeAgrees_ite (storeAgrees_ite hs hs) hs
    all_goals exact hs
  | status p | readNotices p | snapshot p | readTamper p | readJournal p | readFirstRefusal p =>
    refine storeAgrees_ifRunning hs ?_ h
    split <;> simp [hs]
  | readTariff p =>
    refine storeAgrees_ifRunning hs ?_ h
    split
    · split <;> simp [hs]
    · exact hs
  | readSetting p =>
    refine storeAgrees_ifRunning hs ?_ h
    split
    · dsimp only
      split <;> simp [hs]
    · exact hs
  | releaseJournal p => exact storeAgrees_execReleaseJournal hs h
  | submitCode p => exact storeAgrees_execSubmitCode hs h
  | clearFirstRefusal p => exact storeAgrees_execClearFirstRefusal hs h
  | credit | emergencyLimit | debtSet =>
    refine storeAgrees_ifRunning hs ?_ h
    split
    · exact State.storeAgrees_takes hs (State.storeAgrees_applyCode (s := s.leaveArrivals) hs _ _ _ _ _) _ _
    · exact hs
  | service | tamperClear =>
    refine storeAgrees_ifRunning hs ?_ h
    split
    · exact State.storeAgrees_takes hs (State.storeAgrees_applyCode (s := s.leaveTamper) hs _ _ _ _ _) _ _
    · exact hs
  | bandPrice | reconnect =>
    refine storeAgrees_ifRunning hs ?_ h
    split
    · exact State.storeAgrees_takes hs (State.storeAgrees_applyCode hs _ _ _ _ _) _ _
    · exact hs
  | lockoutExpiry p | energyQuantum =>
    refine storeAgrees_whenRunning hs ?_ h
    exact storeAgrees_ite (Event.commit_storeAgrees _ _) hs
  | pendingHalfLapse => exact storeAgrees_execPendingHalfLapse hs h
  | codeUnitClockSet =>
    refine storeAgrees_whenRunning hs ?_ h
    exact storeAgrees_ite (State.storeAgrees_limitCode (s := s.leaveQueue) hs _) hs
  | press => exact storeAgrees_execPress hs h
  | acceptEmergency => exact storeAgrees_execAcceptEmergency hs h
  | setClock => exact storeAgrees_execSetClock hs h
  | remoteOpen => exact storeAgrees_execRemoteOpen hs h
  | remoteConnect => exact storeAgrees_execRemoteConnect hs h
  | stageTariff => exact storeAgrees_execStageTariff hs h
  | cancelTariff => exact storeAgrees_execCancelTariff hs h
  | setDebt => exact storeAgrees_execSetDebt hs h
  | clearTamper p => exact storeAgrees_execClearTamper hs h
  | clearTrip p => exact storeAgrees_execClearTrip hs h
  | contactorRetry p => exact storeAgrees_execContactorRetry hs h
  | writeSetting p => exact storeAgrees_execWriteSetting hs h
  | accountSettingChange p => exact storeAgrees_execAccountSettingChange hs h
  | tamperSettingChange p => exact storeAgrees_execTamperSettingChange hs h
  | closeService p => exact storeAgrees_execCloseService hs h
  | writeStored => exact storeAgrees_execWriteStored hs h
  | clockAdvance => exact storeAgrees_execClockAdvance hs h
  | tamperClockSet => exact storeAgrees_execTamperClockSet hs h
  | buttonPress => exact storeAgrees_execButtonPress hs h
  | powerFailWarning heldUp => exact storeAgrees_execPowerFailWarning hs h
  | startUp loadhi loadx sense => exact storeAgrees_execStartUp hs h
  | minuteEnd windowFirst =>
    refine storeAgrees_ifRunning hs ?_ h
    refine storeAgrees_ite (storeAgrees_ite ?_ ?_) hs
    · exact (State.endMinute_storeAgrees _).trans ((State.reevaluateWindow_storeAgrees _).trans hs)
    · exact (State.reevaluateWindow_storeAgrees _).trans ((State.endMinute_storeAgrees _).trans hs)
  | midnight =>
    refine storeAgrees_ifRunning hs ?_ h
    exact storeAgrees_ite ((State.handOwed_storeAgrees _ _ _).trans hs) hs
  | tariffActivation | dayClose =>
    refine storeAgrees_whenRunning hs ?_ h
    split
    · exact Event.commit_storeAgrees _ _
    · exact hs
  | friendlyWindowEdge =>
    refine storeAgrees_whenRunning hs ?_ h
    split
    · exact hs
    · next edge rest _ =>
      exact Event.Plain.storeAgrees_commitSupply (s := { s with supply := { s.supply with edges := rest } }) hs
        (Event.plain_windowEdge _ _)
  | arrearsCeilingReached =>
    refine storeAgrees_whenRunning hs ?_ h
    refine storeAgrees_ite ?_ hs
    exact Event.Plain.storeAgrees_commitSupply (s := { s with supply := { s.supply with ceilingHanded := false } }) hs
      (Event.plain_ceilingReached _)
  | demandOverLimit =>
    refine storeAgrees_whenRunning hs ?_ h
    refine storeAgrees_ite ?_ hs
    dsimp only
    split
    · exact hs
    · exact Event.commit_storeAgrees _ _
  | importPulse p =>
    refine storeAgrees_ifRunning hs ?_ h
    refine storeAgrees_ite ?_ hs
    exact (State.addQuanta_storeAgrees _ _).trans ((State.countOpenPulse_storeAgrees _).trans hs)
  | exportPulse p =>
    refine storeAgrees_ifRunning hs ?_ h
    refine storeAgrees_ite ?_ hs
    dsimp only
    split
    · exact (State.addQuanta_storeAgrees _ _).trans hs
    · exact hs
  | pulsesWhileOpen =>
    refine storeAgrees_whenRunning hs ?_ h
    exact storeAgrees_ite (storeAgrees_ite (Event.commit_storeAgrees _ _) hs) hs
  | graceDeadline k =>
    refine storeAgrees_whenRunning hs ?_ h
    exact Event.Plain.storeAgrees_commitSupply hs (Event.plain_graceReached _ _ _)
  | restoreTime =>
    refine storeAgrees_whenRunning hs ?_ h
    exact Event.Plain.storeAgrees_commitSupply hs (Event.plain_restoreReached _ _)
  | armDeadline =>
    refine storeAgrees_whenRunning hs ?_ h
    exact Event.Plain.storeAgrees_commitSupply hs (Event.plain_armReached _ _)
  | supplyClockSet =>
    refine storeAgrees_whenRunning hs ?_ h
    refine storeAgrees_ite ?_ hs
    exact Event.Plain.storeAgrees_commitSupply (s := { s with supply := { s.supply with clockSetHanded := false } }) hs
      (((((Event.plain_graceReached _ _ _).trans (Event.plain_graceReached _ _ _)).trans
        (Event.plain_armReached _ _)).trans (Event.plain_restoreReached _ _)).trans (Event.plain_limitDeadlines _ _))
  | serviceWindowExpiry =>
    refine storeAgrees_ifRunning hs ?_ h
    refine State.storeAgrees_takeTamper (State.storeAgrees_passExpiry hs) _ _ ?_
    exact storeAgrees_ite (Event.commit_storeAgrees _ _) (State.storeAgrees_passExpiry hs)
  | tamperInputActive k =>
    refine storeAgrees_ifRunning hs ?_ h
    have hp := State.storeAgrees_passLevel hs k true
    exact State.storeAgrees_takeTamper hp _ _
      (State.storeAgrees_detectActive (s := (s.passLevel k true).leaveTamper) hp k)
  | tamperInputInactive k =>
    refine storeAgrees_ifRunning hs ?_ h
    have hp := State.storeAgrees_passLevel hs k false
    exact State.storeAgrees_takeTamper hp _ _
      (State.storeAgrees_latchInactive (s := (s.passLevel k false).leaveTamper) hp k)
  | loadhiChange asserted =>
    cases h
    unfold State.levelChange
    split
    · exact storeAgrees_ite (State.storeAgrees_takes (s := s.setLoadhi asserted) hs
        (State.storeAgrees_takeLoadhiFall (s := s.setLoadhi asserted) hs) _ _) hs
    · exact hs
    · exact hs
  | loadxChange asserted =>
    cases h
    unfold State.levelChange
    split
    · exact storeAgrees_ite (State.storeAgrees_takes (s := s.setLoadx asserted) hs
        (State.storeAgrees_openFromWait (s := { s.setLoadx asserted with
          supply := { (s.setLoadx asserted).supply with loadxFell := false } }) hs) _ _) hs
    · exact hs
    · exact hs
  | thermActive =>
    refine storeAgrees_whenRunning hs ?_ h
    exact storeAgrees_ite hs (storeAgrees_ite hs (Event.commit_storeAgrees _ _))
  | drivePulseEnd =>
    cases h
    split <;> exact hs
  | driveSettleEnd sense =>
    refine storeAgrees_whenRunning hs ?_ h
    split
    · exact storeAgrees_ite (State.storeAgrees_judgeReading hs _ _) hs
    · exact hs
  | outageCoverWatch coverOpen | retentionDomainLoss =>
    cases h
    exact storeAgrees_ite hs hs
  | externalReset =>
    cases h
    exact storeAgrees_ite (State.stopped_storeAgrees s.cutShort .reset) hs
  | brownOut =>
    cases h
    exact State.storeAgrees_fall hs

end Sys2Proof.Machine
end

