-- ==== Sys2Proof/Laws/StoredWrite.lean ====
section
namespace Sys2Proof.Machine

/-! ## Raises (R186, R187) -/

/-- A raise leaves in a notice set the kinds that it held, and the kind raised. -/
theorem raiseInto_kinds (k : NoticeKind) (time : Nat) (l : List Notice) (x : NoticeKind) :
    x ∈ (raiseInto k time l).map (·.kind) ↔ x = k ∨ x ∈ l.map (·.kind) := by
  induction l with
  | nil => simp [raiseInto]
  | cons n rest ih =>
    unfold raiseInto
    split
    · next h => simp [h]
    · simp only [List.map_cons, List.mem_cons, ih]
      tauto

/-- What a raise leaves of a port. -/
theorem State.raise_port (s : State) (k : NoticeKind) (p : Port) :
    (s.raise k).ports.get p =
      if noticeMasked (s.stored.settings.masks.get p) k then s.ports.get p
      else { s.ports.get p with notices := raiseInto k s.clock (s.ports.get p).notices } := by
  have other (u : State) (q : Port) (h : q ≠ p) : (u.raiseAt k q).ports.get p = u.ports.get p := by
    unfold State.raiseAt
    split
    · rfl
    · exact PerPort.get_set_ne _ _ (Ne.symm h)
  have own (u : State) : (u.raiseAt k p).ports.get p =
      if noticeMasked (u.stored.settings.masks.get p) k then u.ports.get p
      else { u.ports.get p with notices := raiseInto k u.clock (u.ports.get p).notices } := by
    unfold State.raiseAt
    split
    · rfl
    · exact PerPort.get_set _ _ _
  unfold State.raise
  cases p with
  | a => rw [other _ .l (by decide), own]
  | l =>
    have hstored : (s.raiseAt k .a).stored = s.stored ∧ (s.raiseAt k .a).clock = s.clock := by
      unfold State.raiseAt
      split <;> exact ⟨rfl, rfl⟩
    rw [own, other _ .a (by decide), hstored.1, hstored.2]

/-- A notice kind stands in the notice set of a port. -/
def State.noticed (s : State) (p : Port) (k : NoticeKind) : Prop := k ∈ (s.ports.get p).notices.map (·.kind)

theorem State.noticed_of_ports {s t : State} (h : t.ports = s.ports) (p : Port) (k : NoticeKind) :
    t.noticed p k ↔ s.noticed p k := by
  simp only [State.noticed, h]

/-- A raise adds its kind to the set of a port that does not mask it. -/
theorem State.raise_noticed (s : State) (k : NoticeKind) (p : Port) (x : NoticeKind) :
    (s.raise k).noticed p x ↔
      s.noticed p x ∨ x = k ∧ noticeMasked (s.stored.settings.masks.get p) k = false := by
  unfold State.noticed
  rw [s.raise_port]
  cases noticeMasked (s.stored.settings.masks.get p) k with
  | true => simp
  | false =>
    simp only [Bool.false_eq_true, if_false, raiseInto_kinds, and_true]
    tauto

/-! ## What follows a stored write (R2, R176) -/

/-- A change of a port that leaves its notices changes no notice set. -/
theorem State.updatePort_noticed (s : State) (q : Port) {f : PortUnit → PortUnit} (hf : ∀ u, (f u).notices = u.notices)
    (p : Port) (x : NoticeKind) : (s.updatePort q f).noticed p x ↔ s.noticed p x := by
  unfold State.noticed State.updatePort
  by_cases hq : p = q
  · subst hq
    rw [PerPort.get_set, hf]
  · rw [PerPort.get_set_ne _ _ hq]

theorem State.answer_noticed (s : State) (q : Port) (status : Status) (payload : List Byte) (p : Port) (x : NoticeKind) :
    (s.answer q status payload).noticed p x ↔ s.noticed p x := by
  rcases s.answerByte_cases q status.byte payload with ⟨h, -⟩ | ⟨_, -, -, -, h⟩ | ⟨r, -, -, -, h⟩
  · rw [State.answer, h]
  · rw [State.answer, h]
    exact s.updatePort_noticed q (f := fun u => { u with state := .idle, request := none, discard := false })
      (fun _ => rfl) p x
  · rw [State.answer, h]
    refine Iff.trans ?_ (s.updatePort_noticed q (f := fun u => { u with
      state := .ready, request := none
      response := some { code := r.code.byte, status := status.byte, payload := payload } }) (fun _ => rfl) p x)
    cases q <;> exact Iff.rfl

/-- The edge that a re-evaluation of the window state hands to the supply controller (R45). -/
def State.windowEdges (s : State) : List WindowEdge :=
  let now := s.nv.activeTariff.friendlyAt s.clock
  if now = s.clockUnit.windowInForce then [] else [if now then .start else .stop]

theorem State.reevaluateWindow_eq (s : State) :
    s.reevaluateWindow =
      { s with
        clockUnit := { s.clockUnit with windowInForce := s.nv.activeTariff.friendlyAt s.clock }
        supply := { s.supply with edges := s.supply.edges ++ s.windowEdges } } := by
  unfold State.reevaluateWindow State.windowEdges
  dsimp only
  split
  · next h => simp only [h, List.append_nil]
  · rfl

/-- The owed days handed (R46, R47): a new event or an extension of the waiting one, or days kept until the one being
taken is stored. -/
theorem State.handOwed_eq (s : State) (clock : Nat) (byMidnight : Bool) :
    s.handOwed clock byMidnight =
      (let hands := s.ret.valid = true ∧ s.owedDays clock ≠ 0
      let more : Option DayCloseEvent → DayCloseEvent := fun d => extendDays d (s.owedDays clock) clock byMidnight
      let taking := s.clockUnit.dayCloseTaking = true
      { s with
        clockUnit :=
          { s.clockUnit with
            dayClose := if hands ∧ ¬ taking then some (more s.clockUnit.dayClose) else s.clockUnit.dayClose
            laterDayClose := if hands ∧ taking then some (more s.clockUnit.laterDayClose) else s.clockUnit.laterDayClose }
        arrivals :=
          s.arrivals ++ (if hands ∧ ¬ taking ∧ s.clockUnit.dayClose = none then [.dayClose] else []) }) := by
  unfold State.handOwed
  dsimp only
  by_cases hands : s.ret.valid = true ∧ s.owedDays clock ≠ 0
  · have hskip : ¬ (s.ret.valid = false ∨ s.owedDays clock = 0) := by simpa using hands
    rw [if_neg hskip]
    cases ht : s.clockUnit.dayCloseTaking with
    | true => simp [hands, ClockUnit.extensible, ht]
    | false => cases hd : s.clockUnit.dayClose <;> simp [hands, State.arrive, ClockUnit.extensible, ht, hd]
  · have hskip : s.ret.valid = false ∨ s.owedDays clock = 0 := by
      by_contra h
      exact hands (by simpa using h)
    simp [if_pos hskip, hands]

/-! ### The code unit's queue -/

section
variable {s : State} {i : CodeItem}

theorem State.queueExpiry_mem (h : i ∈ s.code.queue) (p : Port) : i ∈ (s.queueExpiry p).code.queue := by
  rcases s.queueExpiry_cases p with ⟨_, -, -, -, hq⟩ | hq <;> rw [hq]
  · exact List.mem_append_left _ h
  · exact h

/-- A lockout whose deadline the clock has reached has its expiry in the queue (R86). -/
theorem State.queueExpiry_reached {p : Port} {l : Lockout} (hl : s.nv.lockouts.get p = some l)
    (h : l.deadline ≤ s.clock) : .lockoutExpiry p ∈ (s.queueExpiry p).code.queue := by
  unfold State.queueExpiry
  rw [hl]
  dsimp only
  split
  · exact List.mem_append_right _ (List.mem_singleton_self _)
  · next hn =>
    have : s.code.queue.contains (.lockoutExpiry p) = true := by simpa [h] using hn
    simpa using this

theorem State.queueLapse_mem (h : i ∈ s.code.queue) (hi : i ≠ .halfLapse false) : i ∈ s.queueLapse.code.queue := by
  unfold State.queueLapse
  split
  · split
    · refine List.mem_append_left _ (List.mem_filter.mpr ⟨h, ?_⟩)
      simpa using hi
    · exact h
  · exact h

/-- A pending half whose deadline the clock has reached has its lapse in the queue (R93). -/
theorem State.queueLapse_reached {h : PendingHalf} (hh : s.nv.pendingHalf = some h) (hd : h.deadline ≤ s.clock) :
    .halfLapse true ∈ s.queueLapse.code.queue := by
  unfold State.queueLapse
  rw [hh]
  dsimp only
  split
  · exact List.mem_append_right _ (List.mem_singleton_self _)
  · next hn =>
    have : s.code.queue.contains (.halfLapse true) = true := by simpa [hd] using hn
    simpa using this

theorem State.queueDeadlines_mem (h : i ∈ s.code.queue) (hi : i ≠ .halfLapse false) :
    i ∈ s.queueDeadlines.code.queue :=
  State.queueExpiry_mem (State.queueExpiry_mem (State.queueLapse_mem h hi) .a) .l

theorem State.queueDeadlines_half {h : PendingHalf} (hh : s.nv.pendingHalf = some h) (hd : h.deadline ≤ s.clock) :
    .halfLapse true ∈ s.queueDeadlines.code.queue :=
  State.queueExpiry_mem (State.queueExpiry_mem (State.queueLapse_reached hh hd) .a) .l

theorem State.queueDeadlines_lockout {p : Port} {l : Lockout} (hl : s.nv.lockouts.get p = some l)
    (h : l.deadline ≤ s.clock) : .lockoutExpiry p ∈ s.queueDeadlines.code.queue := by
  have lapse : s.queueLapse.nv = s.nv ∧ s.queueLapse.clock = s.clock := by
    unfold State.queueLapse
    split
    · split <;> exact ⟨rfl, rfl⟩
    · exact ⟨rfl, rfl⟩
  have expiry (u : State) : (u.queueExpiry .a).nv = u.nv ∧ (u.queueExpiry .a).clock = u.clock := by
    rcases u.queueExpiry_cases .a with ⟨_, -, -, -, hq⟩ | hq <;> rw [hq] <;> exact ⟨rfl, rfl⟩
  cases p with
  | a => exact State.queueExpiry_mem (State.queueExpiry_reached (by rw [lapse.1, hl]) (by rwa [lapse.2])) .l
  | l =>
    exact State.queueExpiry_reached (by rw [(expiry _).1, lapse.1, hl]) (by rwa [(expiry _).2, lapse.2])

end

/-! ### A stored SET_CLOCK (R32, R33) -/

theorem State.handTamperClockSet_eq (s : State) :
    s.handTamperClockSet =
      { s with
        tamper := { s.tamper with
          arrivals := s.tamper.arrivals ++ (if .clockSet ∈ s.tamper.arrivals then [] else [.clockSet]) } } := by
  unfold State.handTamperClockSet
  by_cases h : .clockSet ∈ s.tamper.arrivals <;> simp [h, State.arriveTamper]

/-- What a stored set does at the blocks: the queue of the code unit takes up the clock-set event and the deadlines that
the new clock has reached. -/
theorem State.clockMoved_eq (s : State) (old new : Nat) (wasValid : Bool) :
    ∃ queue : List CodeItem, .clockSet ∈ queue ∧ (∀ i ∈ s.code.queue, i ≠ .halfLapse false → i ∈ queue) ∧
      (∀ h, s.nv.pendingHalf = some h → h.deadline ≤ s.clock → .halfLapse true ∈ queue) ∧
      (∀ p l, s.nv.lockouts.get p = some l → l.deadline ≤ s.clock → .lockoutExpiry p ∈ queue) ∧
      s.clockMoved old new wasValid =
        (let t : State :=
          { s with
            clockUnit := { s.clockUnit with windowInForce := s.nv.activeTariff.friendlyAt s.clock }
            pulse := s.pulse.clockSet old new
            supply := { s.supply with edges := s.supply.edges ++ s.windowEdges, clockSetHanded := true }
            tamper := { s.tamper with
              arrivals := s.tamper.arrivals ++ (if .clockSet ∈ s.tamper.arrivals then [] else [.clockSet]) }
            code := { s.code with queue := queue } }
        if wasValid then t.handOwed s.clock false else t) := by
  let u : State :=
    { s with
      clockUnit := { s.clockUnit with windowInForce := s.nv.activeTariff.friendlyAt s.clock }
      pulse := s.pulse.clockSet old new
      supply := { s.supply with edges := s.supply.edges ++ s.windowEdges, clockSetHanded := true }
      tamper := { s.tamper with
        arrivals := s.tamper.arrivals ++ (if .clockSet ∈ s.tamper.arrivals then [] else [.clockSet]) } }
  have hmoved : s.clockMoved old new wasValid =
      if wasValid then u.queueDeadlines.handClockSet.handOwed u.queueDeadlines.handClockSet.clock false
      else u.queueDeadlines.handClockSet := by
    unfold State.clockMoved
    rw [s.reevaluateWindow_eq]
    dsimp only
    rw [State.handTamperClockSet_eq]
  obtain ⟨q, hq⟩ := u.queueDeadlines_frame
  have hmem {i : CodeItem} (h : i ∈ u.queueDeadlines.code.queue) : i ∈ q := by rwa [hq] at h
  have hcode (t : State) : t.handClockSet =
      { t with code := { t.code with queue :=
        if .clockSet ∈ t.code.queue then t.code.queue else t.code.queue ++ [.clockSet] } } := by
    unfold State.handClockSet
    by_cases h : .clockSet ∈ t.code.queue <;> simp [h, State.queueCode]
  refine ⟨if .clockSet ∈ q then q else q ++ [.clockSet], ?_, fun i hi hne => ?_, fun h hh hd => ?_, fun p l hl hd => ?_,
    ?_⟩
  · split
    · assumption
    · simp
  · have : i ∈ q := hmem (State.queueDeadlines_mem (s := u) hi hne)
    split <;> simp [this]
  · have : .halfLapse true ∈ q := hmem (State.queueDeadlines_half (s := u) hh hd)
    split <;> simp [this]
  · have : .lockoutExpiry p ∈ q := hmem (State.queueDeadlines_lockout (s := u) hl hd)
    split <;> simp [this]
  · rw [hmoved, hcode, hq]
    rfl

theorem extendDays_bySet (d : Option DayCloseEvent) (k clock : Nat) :
    extendDays d k clock false =
      (match d with
      | none => { days := min 31 k, last := clock / 86400 - 1, passedOver := 0 }
      | some e => { days := min 31 (e.days + k), last := clock / 86400 - 1, passedOver := e.passedOver }) := by
  cases d <;> simp [extendDays, maxDays, daysOf, dayNumber, numberOrAbsent]

end Sys2Proof.Machine
end

