-- ==== Sys2Proof/Proofs/StoredWrites.lean ====
section
namespace Sys2Proof.Machine

/-- What a stored SET_CLOCK leaves, by the parts it touches (R32, R33). -/
theorem State.clockMoved_parts (s : State) (old new : Nat) (wasValid : Bool) :
    ∃ queue : List CodeItem, .clockSet ∈ queue ∧ (∀ i ∈ s.code.queue, i ≠ .halfLapse false → i ∈ queue) ∧
      (∀ h, s.nv.pendingHalf = some h → h.deadline ≤ s.clock → .halfLapse true ∈ queue) ∧
      (∀ p l, s.nv.lockouts.get p = some l → l.deadline ≤ s.clock → .lockoutExpiry p ∈ queue) ∧
      s.clockMoved old new wasValid =
        (let hands := wasValid = true ∧ s.ret.valid = true ∧ s.owedDays s.clock ≠ 0
        let more : Option DayCloseEvent → DayCloseEvent := fun d => extendDays d (s.owedDays s.clock) s.clock false
        let taking := s.clockUnit.dayCloseTaking = true
        { s with
          clockUnit :=
            { s.clockUnit with
              windowInForce := s.nv.activeTariff.friendlyAt s.clock
              dayClose := if hands ∧ ¬ taking then some (more s.clockUnit.dayClose) else s.clockUnit.dayClose
              laterDayClose :=
                if hands ∧ taking then some (more s.clockUnit.laterDayClose) else s.clockUnit.laterDayClose }
          arrivals := s.arrivals ++ (if hands ∧ ¬ taking ∧ s.clockUnit.dayClose = none then [.dayClose] else [])
          pulse := s.pulse.clockSet old new
          supply := { s.supply with edges := s.supply.edges ++ s.windowEdges, clockSetHanded := true }
          tamper := { s.tamper with
            arrivals := s.tamper.arrivals ++ (if .clockSet ∈ s.tamper.arrivals then [] else [.clockSet]) }
          code := { s.code with queue := queue } }) := by
  obtain ⟨queue, h₁, h₂, h₃, h₄, h⟩ := s.clockMoved_eq old new wasValid
  refine ⟨queue, h₁, h₂, h₃, h₄, h.trans ?_⟩
  cases wasValid with
  | false => simp
  | true =>
    rw [if_pos rfl, State.handOwed_eq]
    simp only [true_and]
    rfl

/-- The days owed at the clock (R46), counted from the later of the last charged day and what is handed. -/
theorem State.owedDays_eq (s : State) (clock : Nat) :
    s.owedDays clock =
      (let handed : Option DayCloseEvent → Nat := fun d => match d with | some e => e.last | none => 0
      clock / 86400 -
        (max s.nv.lastChargedDay (max (handed s.clockUnit.dayClose) (handed s.clockUnit.laterDayClose)) + 1)) := by
  have hlast (d : Option DayCloseEvent) : lastOf d = match d with | some e => e.last | none => 0 := by
    cases d <;> rfl
  simp only [State.owedDays, State.closedThrough, dayNumber, hlast]

/-! ### The notices of a stored write -/

/-- What follows a stored write removes no notice. -/
theorem State.perform_noticed {s : State} {p : Port} {k : NoticeKind} (h : s.noticed p k) (f : FollowUp) :
    (s.perform f).noticed p k := by
  have kept {t : State} (ht : t.ports = s.ports) : t.noticed p k := (State.noticed_of_ports ht p k).mpr h
  cases f with
  | answer q status payload => exact (s.answer_noticed q status payload p k).mpr h
  | notice x => exact (s.raise_noticed x p k).mpr (.inl h)
  | quantumTaken =>
    refine kept ?_
    change (State.offerQuantum _).ports = _
    unfold State.offerQuantum
    split <;> rfl
  | dayCloseTaken =>
    refine kept ?_
    change s.dayCloseStored.ports = _
    unfold State.dayCloseStored
    dsimp only
    split <;> rfl
  | ceilingReached | codeServed => exact kept rfl
  | windowReevaluated => exact kept ((congrArg State.ports s.reevaluateWindow_eq).trans rfl)
  | clockMoved old new wasValid =>
    obtain ⟨_, -, -, -, -, hm⟩ := s.clockMoved_parts old new wasValid
    exact kept ((congrArg State.ports hm).trans rfl)

/-- Each notice that follows a stored write stands on the ports that do not mask it in the store (R186). -/
theorem State.performAll_noticed (fs : List FollowUp) {s : State} {p : Port} {k : NoticeKind}
    (h : s.noticed p k ∨
      .notice k ∈ fs ∧ noticeMasked (s.stored.settings.masks.get p) k = false) :
    (fs.foldl State.perform s).noticed p k := by
  induction fs generalizing s with
  | nil => simpa using h
  | cons f rest ih =>
    refine ih ?_
    rw [(s.perform_sameStore f).stored]
    rcases h with h | ⟨hk, hmask⟩
    · exact .inl (State.perform_noticed h f)
    · rcases List.mem_cons.mp hk with rfl | hk
      · exact .inl ((s.raise_noticed k p k).mpr (.inr ⟨rfl, hmask⟩))
      · exact .inr ⟨hk, hmask⟩

/-- WRITE_STORED while the part runs (R2). -/
theorem execWriteStored_of_running {s : State} (hr : s.isRunning = true) :
    exec .writeStored s = .next s.storeOldest := by
  have hp : s.power = .running := eq_of_beq hr
  change execWriteStored s = _
  rw [execWriteStored, hp]

/-- The retention domain as a stored write leaves it (R33, R155, R203). -/
theorem Retention.after_eq (r : Retention) (w : Write) :
    r.after w =
      { r with
        clock := w.setsClock.getD r.clock, valid := w.setsClock.isSome || r.valid
        latch := r.latch && w.clears != some .latch
        resetMark := r.resetMark && w.clears != some .reset } := by
  unfold Retention.after Retention.setTo
  cases w.setsClock <;> simp

/-- The oldest write stored: what the store holds after it, and the notices that it raises (R2, R186). -/
theorem State.storeOldest_spec {s : State} {w : Write} {rest : List Write} (hw : s.writes = w :: rest) :
    s.storeOldest = w.follow.foldl State.perform { s with writes := rest, stored := w.image, ret := s.ret.after w } ∧
      s.storeOldest.stored = w.image ∧ s.storeOldest.nv = s.nv ∧ s.storeOldest.writes = rest ∧
      s.storeOldest.ret = s.ret.after w ∧
      ∀ k p, .notice k ∈ w.follow → noticeMasked (w.image.settings.masks.get p) k = false →
        s.storeOldest.noticed p k := by
  have hstore : s.storeOldest =
      w.follow.foldl State.perform { s with writes := rest, stored := w.image, ret := s.ret.after w } := by
    rw [State.storeOldest, hw]
    rfl
  generalize hu : ({ s with writes := rest, stored := w.image, ret := s.ret.after w } : State) = u at hstore
  obtain ⟨hnv, hstored, hwrites, hret⟩ := u.performAll_sameStore w.follow
  rw [← hstore] at hnv hstored hwrites hret
  rw [← hu] at hnv hstored hwrites hret
  refine ⟨hstore, hstored, hnv, hwrites, hret, fun k p hk hmask => ?_⟩
  rw [hstore]
  exact State.performAll_noticed _ (.inr ⟨hk, by rw [← hu]; exact hmask⟩)

/-- An answer fills the response slot of a port in WORKING, or is thrown away under the discard mark (R176). -/
theorem State.answer_eq (s : State) (p : Port) (status : Status) (payload : List Byte) :
    s.answer p status payload =
      (match (s.ports.get p).state, (s.ports.get p).request with
      | .working, some r =>
        if (s.ports.get p).discard = true then
          s.updatePort p (fun u => { u with state := .idle, request := none, discard := false })
        else
          (let filled := s.updatePort p (fun u =>
            { u with
              state := .ready, request := none
              response := some { code := r.code.byte, status := status.byte, payload := payload } })
          if p = .l ∧ s.lPort.sending = none then { filled with lPort := { s.lPort with sending := some .response } }
          else filled)
      | _, _ => s) := by
  have respond (f : Frame) : s.respond p f =
      (let filled := s.updatePort p (fun u => { u with state := .ready, request := none, response := some f })
      if p = .l ∧ s.lPort.sending = none then { filled with lPort := { s.lPort with sending := some .response } }
      else filled) := by
    cases p with
    | a => rfl
    | l =>
      cases hl : s.lPort.sending <;> simp [State.respond, LPortUnit.take, hl]
      rfl
  unfold State.answer State.answerByte
  simp only [respond] <;> rfl

/-- Settles O56: the stored write by `State.storeOldest_spec`, the agreement by `storeAgrees_exec`, and each follow-up by
what it does to the blocks. -/
theorem storedWriteIsFollowed : Obligations.StoredWriteIsFollowed := by
  refine ⟨⟨fun s w rest hr hw => ?_, fun s hr hw => ?_, fun s t hs h => ?_⟩, fun s => ⟨fun p status payload => ?_,
    fun k => rfl, ?_, ?_, rfl, rfl, ?_, fun old new wasValid => ?_⟩⟩
  · obtain ⟨hstore, hstored, hnv, hwrites, hret, hnotices⟩ := State.storeOldest_spec hw
    refine ⟨s.storeOldest, execWriteStored_of_running hr, ?_, hstored, hnv, hwrites, ?_, fun k p hk hmask => ?_⟩
    · rw [hstore, Retention.after_eq]
    · rw [State.clock, hret, Retention.after_eq]
      cases w.setsClock <;> rfl
    · obtain ⟨n, hn, hkind⟩ := List.mem_map.mp (hnotices k p hk hmask)
      exact ⟨n, hn, hkind⟩
  · rw [execWriteStored_of_running hr, State.storeOldest, hw]
  · unfold step at h
    split at h
    · cases h
      exact hs
    · next c rest _ => exact storeAgrees_exec c (s := { s with pending := rest }) hs h
  · exact s.answer_eq p status payload
  · change State.offerQuantum _ = _
    unfold State.offerQuantum
    by_cases hw : 0 < s.pulse.waiting <;> simp [hw, State.arrive]
  · change s.dayCloseStored = _
    unfold State.dayCloseStored
    cases s.clockUnit.laterDayClose <;> simp [State.arrive]
  · exact s.reevaluateWindow_eq
  · obtain ⟨queue, h₁, h₂, h₃, h₄, h⟩ := s.clockMoved_parts old new wasValid
    intro t minute hour handed closed owed more hands taking
    have ht : t = s.clockMoved old new wasValid := rfl
    rw [h] at ht
    have howed : s.owedDays s.clock = owed := s.owedDays_eq s.clock
    have hmore : (fun d => extendDays d (s.owedDays s.clock) s.clock false) = more := by
      rw [howed]
      exact funext fun d => extendDays_bySet d _ _
    rw [hmore, howed] at ht
    clear_value t
    subst ht
    exact ⟨rfl, rfl, rfl, rfl, rfl, h₁, h₂, h₃, h₄, rfl⟩

end Sys2Proof.Machine
end

