-- ==== Sys2Proof/Laws/Stopped.lean ====
section
namespace Sys2Proof.Machine

/-! ## A part that does not run (R201, R202) -/

/-- A command has no effect unless the part runs; the others are those that read the power themselves. -/
theorem exec_of_stopped_cases (c : Instr) :
    (∀ s : State, s.isRunning = false → exec c s = .next s) ∨
      c = .writeStored ∨ c = .clockAdvance ∨ c = .drivePulseEnd ∨ (∃ b, c = .loadhiChange b) ∨
      (∃ b, c = .loadxChange b) ∨ (∃ b x, c = .aPortRequestTransaction b x) ∨
      (∃ b n, c = .aPortReadTransaction b n) ∨ (∃ b, c = .outageCoverWatch b) ∨ (∃ b, c = .powerFailWarning b) ∨
      c = .externalReset ∨ c = .brownOut ∨ c = .retentionDomainLoss ∨ ∃ h x v, c = .startUp h x v := by
  cases c with
  | writeStored | clockAdvance | drivePulseEnd | loadhiChange _ | loadxChange _ | aPortRequestTransaction _ _
  | aPortReadTransaction _ _ | outageCoverWatch _ | powerFailWarning _ | externalReset | brownOut | retentionDomainLoss
  | startUp _ _ _ => exact .inr (by simp)
  | clearFirstRefusal _ | lockoutExpiry _ | pendingHalfLapse | codeUnitClockSet | press | acceptEmergency
  | clearTamper _ | clearTrip _ | contactorRetry _ | closeService _ | tariffActivation | dayClose | energyQuantum
  | friendlyWindowEdge | arrearsCeilingReached | demandOverLimit | supplyClockSet | pulsesWhileOpen | graceDeadline _
  | restoreTime | armDeadline | thermActive | buttonPress | driveSettleEnd _ =>
    refine .inl fun s h => ?_
    unfold exec
    exact whenRunning_of_stopped _ _ h
  | _ =>
    refine .inl fun s h => ?_
    unfold exec
    exact ifRunning_of_stopped _ h

/-! ## The warning (R201) -/

/-- The state that a taken warning leaves before any of the writes that had begun is stored (R95, R135, R172, R201). -/
def State.abandoned (s : State) : State :=
  { s with
    power := .warned
    driver := { s.driver with drive := none, voltageInput := false }
    code := { queue := [], service := none }
    journalWaiting := []
    arrivals := s.arrivals.filter (fun e => e != .code)
    tamper := { s.tamper with arrivals := s.tamper.arrivals.filter (fun e => e != .code) } }

theorem State.warn_eq (s : State) :
    s.warn = if s.writes = [] then s.abandoned.beginLastWrite else s.abandoned := by
  unfold State.warn
  cases h : s.writes <;> simp [State.abandoned, h]

theorem execPowerFailWarning_of_active {s : State} (h : s.isRunning = true ∨ ∃ q, s.power = .starting q)
    (heldUp : Bool) : exec (.powerFailWarning heldUp) s = .next (if heldUp then s.warn else s.warn.fall) := by
  change execPowerFailWarning heldUp s = _
  unfold execPowerFailWarning
  rcases h with h | ⟨q, h⟩
  · rw [show s.power = .running from eq_of_beq h]
  · rw [h]

/-- What follows a write stored after a taken warning touches notice sets alone (R172, R190, R201). -/
theorem State.performWarned_spec (s : State) (f : FollowUp) :
    ∃ ps : PerPort PortUnit, s.performWarned f = { s with ports := ps } ∧
      ∀ p, { ps.get p with notices := (s.ports.get p).notices } = s.ports.get p ∧
        ∀ x, s.noticed p x ∨ f = .notice x ∧ noticeMasked (s.stored.settings.masks.get p) x = false →
          (s.performWarned f).noticed p x := by
  cases f with
  | notice k =>
    obtain ⟨ps, h⟩ := s.raise_frame k
    refine ⟨ps, h, fun p => ⟨?_, fun x hx => ?_⟩⟩
    · have hp : ps.get p = (s.raise k).ports.get p := by rw [h]
      rw [hp, s.raise_port]
      split <;> rfl
    · refine (s.raise_noticed k p x).mpr (hx.imp_right ?_)
      rintro ⟨hf, hm⟩
      cases hf
      exact ⟨rfl, hm⟩
  | _ => exact ⟨s.ports, rfl, fun p => ⟨rfl, fun x hx => hx.resolve_right (by rintro ⟨h, -⟩; cases h)⟩⟩

theorem State.performAllWarned_spec (fs : List FollowUp) (s : State) :
    ∃ ps : PerPort PortUnit, fs.foldl State.performWarned s = { s with ports := ps } ∧
      ∀ p, { ps.get p with notices := (s.ports.get p).notices } = s.ports.get p ∧
        ∀ x, s.noticed p x ∨ .notice x ∈ fs ∧ noticeMasked (s.stored.settings.masks.get p) x = false →
          (fs.foldl State.performWarned s).noticed p x := by
  induction fs generalizing s with
  | nil => exact ⟨s.ports, rfl, fun p => ⟨rfl, fun x hx => by simpa using hx⟩⟩
  | cons f rest ih =>
    obtain ⟨ps, h, hp⟩ := s.performWarned_spec f
    obtain ⟨ps', h', hp'⟩ := ih (s.performWarned f)
    refine ⟨ps', ?_, fun p => ⟨?_, fun x hx => (hp' p).2 x ?_⟩⟩
    · rw [List.foldl_cons, h', h]
    · have hrest := (hp' p).1
      rw [h] at hrest
      rw [← (hp p).1]
      simp only at hrest
      rw [← hrest]
    · have hstored : (s.performWarned f).stored = s.stored := by rw [h]
      rw [hstored]
      rcases hx with hx | ⟨hx, hm⟩
      · exact .inl ((hp p).2 x (.inl hx))
      · rcases List.mem_cons.mp hx with rfl | hx
        · exact .inl ((hp p).2 x (.inr ⟨rfl, hm⟩))
        · exact .inr ⟨hx, hm⟩

/-! ## Stops (R2, R154, R203) -/

/-- A stored write leaves the domain intact or lost, as it was. -/
theorem Retention.foldl_after_intact (ws : List Write) (r : Retention) :
    (ws.foldl (fun r w => r.after w) r).intact = r.intact := by
  induction ws generalizing r with
  | nil => rfl
  | cons w rest ih =>
    rw [List.foldl_cons, ih, Retention.after_eq]

/-- The state of a part whose blocks are gone, with what the store and the retention domain hold. -/
def State.gone (s : State) (power : Power) (stored : Nv) (ret : Retention) (choices : Nat) : State :=
  { State.delivered with
    pending := s.pending, power := power, stored := stored, nv := stored, choices := choices
    ret := { ret with coverOpen := s.tamper.levels.mainCover } }

/-- A stop leaves the first of the writes on their way, whole, and none of the rest (R2, R203). -/
theorem State.cutShort_stopped (s : State) (power : Power) :
    ∃ survive lost choices, s.writes = survive ++ lost ∧
      s.cutShort.stopped power =
        s.gone power ((survive.getLast?.map (·.image)).getD s.stored) (survive.foldl (fun r w => r.after w) s.ret)
          choices := by
  obtain ⟨survive, lost, choices, hw, h⟩ := State.survivors_spec s.writes s
  refine ⟨survive, lost, choices, hw, ?_⟩
  rw [State.cutShort, h]
  rfl

end Sys2Proof.Machine
end

