-- ==== Sys2Proof/Proofs/Stops.lean ====
section
namespace Sys2Proof.Machine

/-- A command that finds the part after a taken warning has no effect, but for those that R190, R201 and R203 name. -/
theorem exec_warned {c : Instr} {s : State} (h : s.power = .warned ∨ s.power = .lastWrite) (h₁ : c ≠ .writeStored)
    (h₂ : c ≠ .clockAdvance) (h₃ : c ≠ .externalReset) (h₄ : c ≠ .brownOut)
    (h₅ : ∀ b x, c ≠ .aPortRequestTransaction b x) (h₆ : ∀ b n, c ≠ .aPortReadTransaction b n) :
    exec c s = .next s := by
  have hr : s.isRunning = false := by rcases h with h | h <;> simp [State.isRunning, h]
  have hs : s.isSupplied = true := by rcases h with h | h <;> simp [State.isSupplied, h]
  rcases exec_of_stopped_cases c with hc | hc | hc | rfl | ⟨b, rfl⟩ | ⟨b, rfl⟩ | ⟨b, x, hc⟩ | ⟨b, n, hc⟩ | ⟨b, rfl⟩ |
    ⟨b, rfl⟩ | hc | hc | rfl | ⟨hi, x, v, rfl⟩
  · exact hc s hr
  · exact absurd hc h₁
  · exact absurd hc h₂
  · change execDrivePulseEnd s = _
    rcases h with h | h <;> rw [execDrivePulseEnd, h]
  · change execLoadhiChange b s = _
    rcases h with h | h <;> rw [execLoadhiChange, State.levelChange, h]
  · change execLoadxChange b s = _
    rcases h with h | h <;> rw [execLoadxChange, State.levelChange, h]
  · exact absurd hc (h₅ b x)
  · exact absurd hc (h₆ b n)
  · change execOutageCoverWatch b s = _
    simp [execOutageCoverWatch, hs]
  · change execPowerFailWarning b s = _
    rcases h with h | h <;> rw [execPowerFailWarning, h]
  · exact absurd hc h₃
  · exact absurd hc h₄
  · change execRetentionDomainLoss s = _
    rw [execRetentionDomainLoss, if_pos hs]
  · change execStartUp hi x v s = _
    rw [execStartUp, if_pos hs]

/-- A part without supply is in RETAIN, in reset or in a brown-out (R202). -/
theorem State.power_of_unsupplied {s : State} (h : s.isSupplied = false) :
    s.power = .retain ∨ s.power = .reset ∨ s.power = .brownOut := by
  cases hp : s.power <;> simp_all [State.isSupplied]

/-- Without supply a command has no effect, but for those that R202 and R203 name. -/
theorem exec_unsupplied {c : Instr} {s : State} (h : s.isSupplied = false) (h₁ : c ≠ .externalReset)
    (h₂ : c ≠ .retentionDomainLoss) (h₃ : c ≠ .clockAdvance) (h₄ : ∀ b, c ≠ .outageCoverWatch b)
    (h₅ : ∀ h x v, c ≠ .startUp h x v) : exec c s = .next s := by
  have hp := s.power_of_unsupplied h
  have hr : s.isRunning = false := by rcases hp with hp | hp | hp <;> simp [State.isRunning, hp]
  rcases exec_of_stopped_cases c with hc | rfl | hc | rfl | ⟨b, rfl⟩ | ⟨b, rfl⟩ | ⟨b, x, rfl⟩ | ⟨b, n, rfl⟩ | ⟨b, hc⟩ |
    ⟨b, rfl⟩ | hc | rfl | hc | ⟨hi, x, v, hc⟩
  · exact hc s hr
  · change execWriteStored s = _
    rcases hp with hp | hp | hp <;> rw [execWriteStored, hp]
  · exact absurd hc h₃
  · change execDrivePulseEnd s = _
    rcases hp with hp | hp | hp <;> rw [execDrivePulseEnd, hp]
  · change execLoadhiChange b s = _
    rcases hp with hp | hp | hp <;> rw [execLoadhiChange, State.levelChange, hp]
  · change execLoadxChange b s = _
    rcases hp with hp | hp | hp <;> rw [execLoadxChange, State.levelChange, hp]
  · change execAPortRequestTransaction b x s = _
    rcases hp with hp | hp | hp <;> rw [execAPortRequestTransaction, State.transact, hp]
  · change execAPortReadTransaction b n s = _
    rcases hp with hp | hp | hp <;> rw [execAPortReadTransaction, State.transact, hp]
  · exact absurd hc (h₄ b)
  · change execPowerFailWarning b s = _
    rcases hp with hp | hp | hp <;> rw [execPowerFailWarning, hp]
  · exact absurd hc h₁
  · change execBrownOut s = _
    rcases hp with hp | hp | hp <;> rw [execBrownOut, State.fall, hp]
  · exact absurd hc h₂
  · exact absurd hc (h₅ hi x v)

/-- A write stored after a taken warning: with none left, the last write is begun (R201). -/
theorem execWriteStored_of_warned {s : State} {w : Write} {rest : List Write} (hp : s.power = .warned)
    (hw : s.writes = w :: rest) :
    exec .writeStored s = .next
      (let u := w.follow.foldl State.performWarned
        { s with writes := rest, stored := w.image, ret := s.ret.after w }
      if rest = [] then u.beginLastWrite else u) := by
  have hexec : exec .writeStored s = .next s.storeWarned := by
    change execWriteStored s = _
    rw [execWriteStored, hp]
  rw [hexec, State.storeWarned, hw]
  cases rest <;> rfl

/-- The last write stored: the part is in RETAIN (R201). -/
theorem execWriteStored_of_lastWrite {s : State} {w : Write} {rest : List Write} (hp : s.power = .lastWrite)
    (hw : s.writes = w :: rest) :
    exec .writeStored s = .next (s.gone .retain w.image (s.ret.after w) s.choices) := by
  have hexec : exec .writeStored s = .next s.storeLast := by
    change execWriteStored s = _
    rw [execWriteStored, hp]
  rw [hexec, State.storeLast, hw]
  rfl

/-- An external reset of a supplied part (R203). -/
theorem execExternalReset_of_supplied {s : State} (h : s.isSupplied = true) :
    exec .externalReset s = .next (s.cutShort.stopped .reset).markReset := by
  change execExternalReset s = _
  rw [execExternalReset, if_pos h]

/-- A fall of VDD of a supplied part: a brown-out, or after a taken warning the passage to RETAIN (R201, R203). -/
theorem execBrownOut_of_supplied {s : State} (h : s.isSupplied = true) :
    exec .brownOut s =
      .next (s.cutShort.stopped (if s.power = .warned ∨ s.power = .lastWrite then .retain else .brownOut)) := by
  change execBrownOut s = _
  unfold execBrownOut State.fall
  cases hp : s.power <;> simp_all [State.isSupplied]

/-- Settles O57: the warning by `State.warn_eq`, the writes after it by `State.performAllWarned_spec`, the stops by
`State.cutShort_stopped`. -/
theorem stopsKeepTheStoreAndTheDomain : Obligations.StopsKeepTheStoreAndTheDomain := by
  refine ⟨?_, fun s p => ?_, fun c s h h₁ h₂ h₃ h₄ h₅ h₆ => exec_warned h h₁ h₂ h₃ h₄ h₅ h₆, fun s h => ⟨?_, ?_, ?_,
    fun c h₁ h₂ h₃ h₄ h₅ => exec_unsupplied h h₁ h₂ h₃ h₄ h₅⟩⟩
  · intro last put gone
    have hput : (fun (r : Retention) (w : Write) => r.after w) = put :=
      funext fun r => funext fun w => r.after_eq w
    refine ⟨fun s h => ?_, fun s w rest hp hw => ?_, fun s w rest hp hw => ?_, fun c s power hs h => ?_⟩
    · intro u
      have hwarn : s.warn = if s.writes = [] then last u else u := s.warn_eq
      rw [← hwarn]
      exact ⟨execPowerFailWarning_of_active h true, execPowerFailWarning_of_active h false⟩
    · obtain ⟨ps, hps, hports⟩ := State.performAllWarned_spec w.follow
        { s with writes := rest, stored := w.image, ret := s.ret.after w }
      refine ⟨_, execWriteStored_of_warned hp hw, ?_⟩
      rw [hps] at hports ⊢
      refine ⟨rfl, rfl, s.ret.after_eq w, rfl, fun p => ⟨(hports p).1, fun n hn => ?_, fun k hk hm => ?_⟩⟩
      · exact (hports p).2 n.kind (.inl (List.mem_map_of_mem hn))
      · exact (hports p).2 k (.inr ⟨hk, hm⟩)
    · rw [execWriteStored_of_lastWrite hp hw, s.ret.after_eq]
      rfl
    · obtain ⟨survive, lost, choices, hw, hstop⟩ := s.cutShort_stopped power
      refine ⟨survive, lost, choices, hw, ?_⟩
      have hintact := Retention.foldl_after_intact survive s.ret
      rw [hput] at hstop hintact
      rcases h with ⟨rfl, rfl⟩ | ⟨rfl, rfl⟩
      · rw [execExternalReset_of_supplied hs, hstop, ← hintact]
        rfl
      · rw [execBrownOut_of_supplied hs, hstop]
        refine congrArg _ ?_
        have hmark : (Instr.brownOut == Instr.externalReset) = false := rfl
        simp only [hmark, Bool.false_and, Bool.or_false]
        rfl
  · simp [State.attention]
  · change execExternalReset s = _
    rw [execExternalReset, if_neg (by simp [h])]
    rfl
  · change execRetentionDomainLoss s = _
    rw [execRetentionDomainLoss, if_neg (by simp [h])]
    rfl
  · intro isOpen
    change execOutageCoverWatch isOpen s = _
    simp [execOutageCoverWatch, h]

end Sys2Proof.Machine
end

