-- ==== Sys2Proof/Laws/StartUpPower.lean ====
section
namespace Sys2Proof.Machine

/-! ## An event while start-up runs

The events of start-up do what their commands do while the part runs: no operation of an event reads the power. -/

/-- The event in a part at a power state. -/
def Event.inPower (e : Event) (p : Power) : Event := { e with state := { e.state with power := p } }

section
variable (e : Event) (p : Power)

@[simp] theorem Event.inPower_nv : (e.inPower p).nv = e.nv := rfl
@[simp] theorem Event.inPower_supply : (e.inPower p).state.supply = e.state.supply := rfl
@[simp] theorem Event.inPower_clock : (e.inPower p).state.clock = e.state.clock := rfl
@[simp] theorem Event.inPower_log (r : RecordBody) : (e.inPower p).log r = (e.log r).inPower p := rfl
@[simp] theorem Event.inPower_andThen (f : FollowUp) : (e.inPower p).andThen f = (e.andThen f).inPower p := rfl
@[simp] theorem Event.inPower_notify (k : NoticeKind) : (e.inPower p).notify k = (e.notify k).inPower p := rfl
@[simp] theorem Event.inPower_updateNv (f : Nv → Nv) : (e.inPower p).updateNv f = (e.updateNv f).inPower p := rfl
@[simp] theorem Event.inPower_dropArmDeadline : (e.inPower p).dropArmDeadline = e.dropArmDeadline.inPower p := rfl
theorem Event.begin_inPower (s : State) (o : Origin) :
    Event.begin { s with power := p } o = (Event.begin s o).inPower p := rfl

@[simp] theorem Event.inPower_enter (c : Contactor) : (e.inPower p).enter c = (e.enter c).inPower p := by
  cases c <;> rfl

@[simp] theorem Event.inPower_beginDrive (d : Position) (c : DriveCause) (o : Origin) :
    (e.inPower p).beginDrive d c o = (e.beginDrive d c o).inPower p := by
  cases d <;> rfl

theorem Event.inPower_ite {a b : Event} (c : Prop) [Decidable c] :
    (if c then a.inPower p else b.inPower p) = (if c then a else b).inPower p := by
  split <;> rfl

@[simp] theorem Event.inPower_commandForFirm (k : HoldKind) :
    (e.inPower p).commandForFirm k = (e.commandForFirm k).inPower p := by
  simp only [Event.commandForFirm, Event.inPower_nv, Event.inPower_supply, Event.giveWait, Event.giveOpen,
    Event.inPower_enter, Event.inPower_beginDrive]
  cases e.nv.contactor <;> simp only [Event.inPower_ite]

@[simp] theorem Event.inPower_commandForEmptied (policy : Policy) :
    (e.inPower p).commandForEmptied policy = (e.commandForEmptied policy).inPower p := by
  simp only [Event.commandForEmptied, Event.armBy, Event.inPower_nv, Event.giveResume, Event.giveClose, Event.giveArm,
    Event.inPower_clock, Event.inPower_enter, Event.inPower_dropArmDeadline, Event.inPower_updateNv,
    Event.inPower_beginDrive]
  cases e.nv.contactor <;> cases policy <;> rfl

@[simp] theorem Event.inPower_place (k : HoldKind) (phase : HoldPhase) (byRequest : Bool) (restore : Nat) :
    (e.inPower p).place k phase byRequest restore = (e.place k phase byRequest restore).inPower p := by
  simp only [Event.place, Event.giveDisarm, Event.inPower_nv, Event.inPower_updateNv, Event.inPower_log,
    Event.inPower_dropArmDeadline, Event.inPower_enter, Event.inPower_commandForFirm, Event.inPower_ite]

@[simp] theorem Event.inPower_makeFirm (k : HoldKind) (left : PhaseName) (cause : FirmCause) :
    (e.inPower p).makeFirm k left cause = (e.makeFirm k left cause).inPower p := by
  simp only [Event.makeFirm, Event.inPower_updateNv, Event.inPower_log, Event.inPower_commandForFirm]

@[simp] theorem Event.inPower_remove (k : HoldKind) (cause : RemovalCause) (named : Option Policy) (policy : Policy) :
    (e.inPower p).remove k cause named policy = (e.remove k cause named policy).inPower p := by
  simp only [Event.remove, Event.giveResume, Event.inPower_nv, Event.inPower_updateNv, Event.inPower_log,
    Event.inPower_enter, Event.inPower_commandForEmptied, Event.inPower_ite]
  cases e.nv.holds.phase k <;> rfl

theorem Event.inPower_leaveDeferred (cause : FirmCause) :
    (e.inPower p).leaveDeferred cause = (e.leaveDeferred cause).inPower p := by
  have hwait : (e.inPower p).state.mayWait = e.state.mayWait := rfl
  simp only [Event.leaveDeferred, hwait, Event.inPower_nv, Event.inPower_clock, Event.inPower_updateNv,
    Event.inPower_makeFirm, Event.inPower_ite]

theorem Event.inPower_windowEdge (edge : WindowEdge) :
    (e.inPower p).windowEdge edge = (e.windowEdge edge).inPower p := by
  simp only [Event.windowEdge, Event.inPower_nv, Event.inPower_updateNv, Event.inPower_leaveDeferred]
  split
  · exact e.inPower_ite p _
  · rfl
  · rfl

theorem Event.inPower_ceilingReached : (e.inPower p).ceilingReached = e.ceilingReached.inPower p := by
  simp only [Event.ceilingReached, Event.inPower_nv, Event.inPower_leaveDeferred]
  split <;> rfl

theorem Event.inPower_restoreReached (clock : Nat) :
    (e.inPower p).restoreReached clock = (e.restoreReached clock).inPower p := by
  simp only [Event.restoreReached, Event.inPower_nv, Event.inPower_remove, Event.inPower_ite]
  split <;> rfl

theorem Event.inPower_armReached (clock : Nat) : (e.inPower p).armReached clock = (e.armReached clock).inPower p := by
  simp only [Event.armReached, Event.giveDisarm, Event.inPower_nv, Event.inPower_log, Event.inPower_dropArmDeadline,
    Event.inPower_enter, Event.inPower_updateNv, Event.inPower_place, Event.inPower_ite]
  split <;> rfl

theorem Event.inPower_accountResults (before : Nv) :
    (e.inPower p).accountResults before = (e.accountResults before).inPower p := by
  have evaluated (e : Event) : (e.inPower p).lowCredit = e.lowCredit.inPower p := by
    have judged : (e.inPower p).judgeLow = e.judgeLow.inPower p := rfl
    rw [Event.lowCredit_eq, Event.lowCredit_eq, judged, Event.inPower_notify]
    exact Event.inPower_ite p _
  have low (e : Event) : (e.inPower p).lowCreditIfChanged before.account =
      (e.lowCreditIfChanged before.account).inPower p := by
    unfold Event.lowCreditIfChanged
    rw [evaluated]
    exact Event.inPower_ite p _
  have phase (e : Event) : (e.inPower p).creditPhase = e.creditPhase := rfl
  have credit (e : Event) (b a : Bool) : (e.inPower p).creditCondition b a = (e.creditCondition b a).inPower p := by
    simp only [Event.creditCondition, phase, Event.inPower_nv, Event.inPower_place, Event.inPower_notify,
      Event.inPower_remove, Event.inPower_ite]
  have ceiling (e : Event) : (e.inPower p).handCeiling before = (e.handCeiling before).inPower p := by
    unfold Event.handCeiling
    rw [Event.inPower_andThen]
    exact Event.inPower_ite p _
  simp only [Event.accountResults, low, credit, ceiling, Event.inPower_nv]

/-- The write of an event, and what it leaves beside the power. -/
theorem Event.inPower_commit (b : Block) : (e.inPower p).commit b = { e.commit b with power := p } := rfl

theorem Event.inPower_commitSupply (before : Nv) :
    (e.inPower p).commitSupply before = { e.commitSupply before with power := p } := by
  unfold Event.commitSupply
  by_cases h : e.records.isEmpty ∧ e.nv.holds = before.holds ∧ e.nv.armDeadline = before.armDeadline
  · rw [if_pos h, if_pos (by exact h)]
    rfl
  · rw [if_neg h, if_neg (by exact h)]
    rfl

end

end Sys2Proof.Machine
end

