-- ==== Sys2Proof/Laws/StartUpCommands.lean ====
section
namespace Sys2Proof.Machine

/-! ## A part with nothing on its way -/

section
variable {s : State} (hw : s.writes = []) (hj : s.journalWaiting = [])
include hj

theorem State.leaveLine_of_idle (c : Instr) : s.leaveLine c = s := by
  unfold State.leaveLine
  rw [hj, List.filter_nil, ← hj]

include hw

/-- With no write on its way and no event at the journal, any write may begin. -/
theorem State.mayBegin_of_idle (c : Instr) (b : Block) (appends : Bool) : s.mayBegin c b appends = true := by
  simp [State.mayBegin, State.blockBusy, State.writing, State.journalTakes, State.journalBusy, hw, hj]

/-- With no write on its way and no event at the journal, any event is taken. -/
theorem State.takes_of_idle (c : Instr) (turn : Option Block) (t : State) : s.takes c turn t = t.leaveLine c := by
  rcases s.takes_spec c turn t with ⟨h, -⟩ | ⟨x, -, hx, -⟩
  · exact h
  · rw [State.mayBegin_of_idle hw hj] at hx
    cases hx

end

/-! ## The frame of an event -/

theorem Event.frame_updateNv (e : Event) (f : Nv → Nv) : (e.updateNv f).state.withStoreOf e.state = e.state := rfl

theorem Event.frame_armReached (e : Event) (clock : Nat) :
    (e.armReached clock).state.withStoreOf e.state = e.state := by
  have lapse (d : Event) : ((d.updateNv (fun n => { n with lapseMarker := true })).place .remote .firm false
      0).state.withStoreOf d.state = d.state :=
    State.withStoreOf_trans (d.frame_updateNv _) (Event.within_place _ _ _ _ _).state
  have disarm (d : Event) : d.Within (if d.nv.contactor = .armed then d.giveDisarm else d) :=
    Event.within_ite _ _ _ _ d.within_giveDisarm (.refl d)
  unfold Event.armReached
  split
  · next a _ =>
    split
    · have dropped : e.Within (e.log (.armLapsed a.deadline a.minutes)).dropArmDeadline :=
        (e.within_log _).trans (Event.within_dropArmDeadline _)
      exact State.withStoreOf_trans (State.withStoreOf_trans dropped.state (disarm _).state) (lapse _)
    · rfl
  · rfl

theorem Event.frame_accountResults (e : Event) (before : Nv) :
    (e.accountResults before).state.withStoreOf e.state = e.state := by
  have low : (e.lowCreditIfChanged before.account).state.withStoreOf e.state = e.state := by
    unfold Event.lowCreditIfChanged
    rw [e.lowCredit_eq]
    split
    · rfl
    · split <;> rfl
  exact State.withStoreOf_trans (State.withStoreOf_trans low (Event.within_creditCondition _ _ _).state)
    (Event.within_handCeiling _ _).state

/-- An event of the supply controller in the sequence leaves all but the store, the writes and the driver. -/
theorem State.supplyStep_frame {s : State} {f : Event → Event}
    (hf : (f (Event.begin s .device)).state.withStoreOf s = s) : (s.supplyStep f).withStoreOf s = s := by
  unfold State.supplyStep Event.commitSupply
  split
  · exact hf
  · exact hf

/-- An event of the supply controller in the sequence is the one that the running part takes. -/
theorem State.supplyStep_inPower (s : State) (p : Power) {f : Event → Event}
    (hf : ∀ e p, f (Event.inPower e p) = (f e).inPower p) :
    ({ s with power := p } : State).supplyStep f = { s.supplyStep f with power := p } := by
  unfold State.supplyStep
  rw [Event.begin_inPower, hf, Event.inPower_commitSupply]

/-! ## The steps that are what their commands do while the part runs -/

/-- A command of the running part that takes an event of the supply controller does what the step does. -/
theorem State.takes_supplyStep {s u : State} (hj : s.journalWaiting = []) (hw : u.writes = [])
    (huj : u.journalWaiting = []) (c : Instr) {f : Event → Event}
    (hp : ∀ e p, f (Event.inPower e p) = (f e).inPower p)
    (hf : (f (Event.begin s .device)).state.withStoreOf s = s) :
    u.takes c none (({ s with power := .running } : State).supplyStep f) = { s.supplyStep f with power := .running } := by
  have hline : (s.supplyStep f).journalWaiting = [] :=
    (congrArg State.journalWaiting (State.supplyStep_frame hf)).trans hj
  rw [State.takes_of_idle hw huj, State.supplyStep_inPower s _ hp]
  exact State.leaveLine_of_idle (s := { s.supplyStep f with power := .running }) hline c

theorem State.supplyStep_power {s : State} {f : Event → Event}
    (hf : (f (Event.begin s .device)).state.withStoreOf s = s) : (s.supplyStep f).power = s.power := by
  have := congrArg State.power (State.supplyStep_frame hf)
  exact this

/-- A step that finds nothing to do changes nothing. -/
theorem State.supplyStep_same {s : State} {f : Event → Event} (hf : f (Event.begin s .device) = Event.begin s .device) :
    s.supplyStep f = s := by
  unfold State.supplyStep Event.commitSupply
  rw [hf]
  exact if_pos ⟨rfl, rfl, rfl⟩

/-- The step that leaves `t` takes a deadline that has passed as its command does while the part runs. -/
def State.TakesDeadline (s t : State) (clock : Nat) (command : Instr) (deadline : Option Nat) : Prop :=
  match deadline with
  | none => t = s
  | some d =>
    if clock < d then t = s
    else d ≤ s.clock → exec command { s with power := .running } = .next { t with power := .running } ∧
      t.power = s.power

/-- A step of a deadline does what its command does, once the clock as it stands has reached the deadline as well. -/
theorem State.deadlineStep {s : State} (hw : s.writes = []) (hj : s.journalWaiting = []) {f : Nat → Event → Event}
    {command : Instr} {deadline : Option Nat} (clock : Nat)
    (hexec : exec command { s with power := .running } =
      .next (({ s with power := .running } : State).takes command none
        (({ s with power := .running } : State).supplyStep (f s.clock))))
    (hp : ∀ n e p, f n (Event.inPower e p) = (f n e).inPower p)
    (hf : ∀ n, (f n (Event.begin s .device)).state.withStoreOf s = s)
    (habsent : ∀ n, (∀ d, deadline = some d → n < d) → f n (Event.begin s .device) = Event.begin s .device)
    (hreached : ∀ n m d, deadline = some d → d ≤ n → d ≤ m →
      f n (Event.begin s .device) = f m (Event.begin s .device)) :
    s.TakesDeadline (s.supplyStep (f clock)) clock command deadline := by
  cases deadline with
  | none => exact State.supplyStep_same (habsent clock (by simp))
  | some d =>
    by_cases hclock : clock < d
    · exact (if_pos hclock).mpr (State.supplyStep_same (habsent clock (by simpa using hclock)))
    · refine (if_neg hclock).mpr fun hs => ⟨?_, State.supplyStep_power (hf clock)⟩
      have ht : s.supplyStep (f clock) = s.supplyStep (f s.clock) := by
        unfold State.supplyStep
        rw [hreached clock s.clock d rfl (not_lt.mp hclock) hs]
      rw [hexec, ht]
      exact congrArg _ (State.takes_supplyStep (s := s) (u := { s with power := .running }) hj hw hj command
        (hp s.clock) (hf s.clock))

theorem State.armDeadlineStep {s : State} (hw : s.writes = []) (hj : s.journalWaiting = []) (clock : Nat) :
    s.TakesDeadline (s.supplyStep (fun e => e.armReached clock)) clock .armDeadline
      (s.nv.armDeadline.map (·.deadline)) := by
  refine State.deadlineStep hw hj (f := fun n e => e.armReached n) clock ?_ (fun n e p => e.inPower_armReached p n)
    (fun n => Event.frame_armReached _ n) (fun n h => ?_) (fun n m d h hn hm => ?_)
  · change execArmDeadline _ = _
    rw [execArmDeadline, whenRunning_of_running _ _ rfl]
    rfl
  · unfold Event.armReached
    rw [Event.begin_nv]
    cases ha : s.nv.armDeadline with
    | none => rfl
    | some a => exact if_neg (not_le.mpr (h a.deadline (by rw [ha]; rfl)))
  · obtain ⟨a, ha, rfl⟩ := Option.map_eq_some_iff.mp h
    unfold Event.armReached
    rw [Event.begin_nv, ha]
    dsimp only
    rw [if_pos hn, if_pos hm]

theorem State.restoreTimeStep {s : State} (hw : s.writes = []) (hj : s.journalWaiting = []) (clock : Nat) :
    s.TakesDeadline (s.supplyStep (fun e => e.restoreReached clock)) clock .restoreTime
      s.nv.holds.load := by
  refine State.deadlineStep hw hj (f := fun n e => e.restoreReached n) clock ?_
    (fun n e p => e.inPower_restoreReached p n) (fun n => (Event.within_restoreReached _ n).state) (fun n h => ?_)
    (fun n m d h hn hm => ?_)
  · change execRestoreTime _ = _
    rw [execRestoreTime, whenRunning_of_running _ _ rfl]
    rfl
  · unfold Event.restoreReached
    rw [Event.begin_nv]
    cases hl : s.nv.holds.load with
    | none => rfl
    | some d => exact if_neg (not_le.mpr (h d hl))
  · unfold Event.restoreReached
    rw [Event.begin_nv, h]
    dsimp only
    rw [if_pos hn, if_pos hm]

/-- Step 13, the window edge, is the edge's command (R45, R110). -/
theorem State.windowAtStart_spec {s : State} (hw : s.writes = []) (hj : s.journalWaiting = [])
    (he : s.supply.edges = []) (clock : Nat) :
    let now := s.nv.activeTariff.friendlyAt clock
    let t := s.windowAtStart clock
    t.power = s.power ∧
      exec .friendlyWindowEdge
        { s with
          power := .running
          clockUnit := { s.clockUnit with windowInForce := now }
          supply := { s.supply with edges := [if now then .start else .stop] } } =
        .next { t with power := .running } := by
  intro now t
  let v : State := { s with clockUnit := { s.clockUnit with windowInForce := now } }
  let f : Event → Event := fun e => e.windowEdge (if now then .start else .stop)
  have hf : (f (Event.begin v .device)).state.withStoreOf v = v := (Event.within_windowEdge _ _).state
  have ht : t = v.supplyStep f := rfl
  refine ⟨by rw [ht]; exact State.supplyStep_power hf, ?_⟩
  have hv : { s.supply with edges := [] } = s.supply := by rw [← he]
  change execFriendlyWindowEdge _ = _
  rw [execFriendlyWindowEdge, whenRunning_of_running _ _ rfl]
  dsimp only
  rw [hv, ht]
  exact congrArg _ (State.takes_supplyStep (s := v)
    (u := { v with power := .running, supply := { s.supply with edges := [if now then .start else .stop] } })
    hj hw hj .friendlyWindowEdge (fun e p => e.inPower_windowEdge p _) hf)

/-- Step 13, "arrears ceiling reached", is the hand-off's command (R20, R111). -/
theorem State.ceilingAtStart_spec {s : State} (hw : s.writes = []) (hj : s.journalWaiting = [])
    (hc : s.supply.ceilingHanded = false) :
    let t := s.ceilingAtStart
    t.power = s.power ∧
      exec .arrearsCeilingReached
        { s with power := .running, supply := { s.supply with ceilingHanded := s.nv.ceilingHolds } } =
        .next { t with power := .running } := by
  intro t
  have hs : { s.supply with ceilingHanded := false } = s.supply := by rw [← hc]
  have ht : t = if s.nv.ceilingHolds then s.supplyStep Event.ceilingReached else s := by
    unfold t State.ceilingAtStart
    rw [hs]
  have hf : (Event.ceilingReached (Event.begin s .device)).state.withStoreOf s = s :=
    (Event.within_ceilingReached _).state
  change _ ∧ execArrearsCeilingReached _ = _
  rw [execArrearsCeilingReached, whenRunning_of_running _ _ rfl, ht]
  cases hh : s.nv.ceilingHolds with
  | true =>
    refine ⟨State.supplyStep_power hf, congrArg _ ?_⟩
    simp only [if_true]
    rw [hs]
    exact State.takes_supplyStep (s := s)
      (u := { s with power := .running, supply := { s.supply with ceilingHanded := true } })
      hj hw hj .arrearsCeilingReached (fun e p => e.inPower_ceilingReached p) hf
  | false =>
    refine ⟨rfl, congrArg _ ?_⟩
    simp only [Bool.false_eq_true, if_false]
    rw [State.takes_of_idle (by exact hw) (by exact hj), hs]
    exact State.leaveLine_of_idle (s := { s with power := .running }) hj _

end Sys2Proof.Machine
end

