-- ==== Sys2Proof/Laws/StartUpWrites.lean ====
section
namespace Sys2Proof.Machine

/-! ## The steps of start-up that are one write (R205) -/

/-- With the volatile state afresh, no day is handed: the days owed count from the last charged day (R46). -/
theorem State.owedDays_fresh {s : State}
    (hc : s.clockUnit = { ClockUnit.fresh with windowInForce := s.clockUnit.windowInForce }) (clock : Nat) :
    s.owedDays clock = clock / 86400 - (s.nv.lastChargedDay + 1) := by
  rw [State.owedDays_eq, hc]
  simp [ClockUnit.fresh]

theorem startCause_eq (warned intact mark : Bool) :
    startCause warned intact mark =
      (if warned = true then .outage else if intact = true ∧ mark = true then .externalReset else .brownOut) := by
  simp [startCause]

/-- Step 1 writes the OUTAGE record, and its write clears the reset mark (R203, R205). -/
theorem State.recordOutage_eq {s : State}
    (hc : s.clockUnit = { ClockUnit.fresh with windowInForce := s.clockUnit.windowInForce }) (q : StartSequence) :
    let owed := if s.ret.valid then q.clock / 86400 - (s.nv.lastChargedDay + 1) else 0
    let cause : StartCause :=
      if s.nv.warnedMark then .outage
      else if q.intact = true ∧ s.ret.resetMark = true then .externalReset else .brownOut
    s.recordOutage q =
      s.withWrite { s.nv with warnedMark := false } .store .device
        [.outage cause q.intact
          (if s.nv.warnedMark = true ∧ q.intact = true then some (s.clock - s.nv.storedClock) else none) (owed - 31)]
        [] none (some .reset) := by
  intro owed cause
  have hcause : startCause s.nv.warnedMark q.intact s.ret.resetMark = cause := startCause_eq _ _ _
  have houtage : cause = .outage ↔ s.nv.warnedMark = true := by
    unfold cause
    cases s.nv.warnedMark <;> simp
    split <;> simp
  have hpassed : s.startPassedOver q.clock = owed - 31 := by
    unfold State.startPassedOver owed
    rw [State.owedDays_fresh hc]
    split <;> rfl
  have hduration : (if cause = .outage ∧ q.intact then some (s.clock - s.nv.storedClock) else none) =
      (if s.nv.warnedMark = true ∧ q.intact = true then some (s.clock - s.nv.storedClock) else none) := by
    simp only [houtage]
  refine (Event.commitSetting_eq _ _ _ _ s rfl rfl).trans ?_
  dsimp only
  rw [hcause, hpassed, hduration]
  rfl

/-- Step 8 (R93). -/
theorem State.lapseAtStart_eq (s : State) (clock : Nat) :
    s.lapseAtStart clock =
      (match s.nv.pendingHalf with
      | some h =>
        if h.deadline ≤ clock then
          s.withWrite { s.nv with pendingHalf := none } .code .device [.keyHalfLapsed h.kind h.issue] [] none
        else s
      | none => s) := by
  unfold State.lapseAtStart
  cases s.nv.pendingHalf with
  | none => rfl
  | some h =>
    dsimp only
    split
    · exact Event.commitSetting_eq _ _ _ _ s rfl rfl
    · rfl

/-- Step 9 (R86). -/
theorem State.expireAtStart_eq (s : State) (clock : Nat) (p : Port) :
    s.expireAtStart clock p =
      (match s.nv.lockouts.get p with
      | some l =>
        if l.deadline ≤ clock then
          s.withWrite { s.nv with lockouts := s.nv.lockouts.set p none } .code .device [.lockoutEnded p] [] none
        else s
      | none => s) := by
  unfold State.expireAtStart
  cases s.nv.lockouts.get p with
  | none => rfl
  | some l =>
    dsimp only
    split
    · exact Event.commitSetting_eq _ _ _ _ s rfl rfl
    · rfl

/-- Step 10 (R39). -/
theorem State.activateAtStart_eq (s : State) (clock : Nat) :
    s.activateAtStart clock =
      (match s.nv.pendingTariff with
      | some t =>
        if s.ret.valid = true ∧ t.time ≤ clock then
          s.withWrite { s.nv with activeTariff := t, pendingTariff := none } .clockTariff .device
            [.tariffActivated t.time] [.notice .tariffChanged] none
        else s
      | none => s) := by
  unfold State.activateAtStart Nv.dueTariff
  cases s.nv.pendingTariff with
  | none => cases s.ret.valid <;> rfl
  | some t =>
    by_cases ht : t.time ≤ clock
    · cases hv : s.ret.valid with
      | false => simp
      | true =>
        simp only [ht, if_true, and_self]
        exact Event.commitSetting_eq _ _ _ _ s rfl rfl
    · cases s.ret.valid <;> simp [ht]

/-- A deadline that lies further ahead than its duration is limited to it (R87, R112). -/
theorem limitDeadline_eq (clock duration deadline : Nat) :
    limitDeadline clock duration deadline = min deadline (clock + duration) := by
  unfold limitDeadline
  split <;> omega

/-- Step 11, the code unit's deadlines (R87). -/
theorem State.limitCode_eq (s : State) (clock : Nat) :
    let limited : Option Lockout → Option Lockout := fun l =>
      l.map (fun x => { x with deadline := min x.deadline (clock + 60 * x.minutes) })
    let n : Nv :=
      { s.nv with
        lockouts := ⟨limited s.nv.lockouts.a, limited s.nv.lockouts.l⟩
        pendingHalf := s.nv.pendingHalf.map (fun h => { h with deadline := min h.deadline (clock + 1800) }) }
    s.limitCode clock = if n = s.nv then s else s.withWrite n .code .device [] [] none := by
  intro limited n
  have hn : s.nv.limitCodeDeadlines clock = n := by
    simp only [Nv.limitCodeDeadlines, limitDeadline_eq, n, limited]
  unfold State.limitCode
  rw [hn]
  by_cases hsame : n.lockouts = s.nv.lockouts ∧ n.pendingHalf = s.nv.pendingHalf
  · have : n = s.nv := by
      change { s.nv with lockouts := n.lockouts, pendingHalf := n.pendingHalf } = s.nv
      rw [hsame.1, hsame.2]
    exact (if_pos hsame).trans (if_pos this).symm
  · have : n ≠ s.nv := fun h => hsame ⟨congrArg Nv.lockouts h, congrArg Nv.pendingHalf h⟩
    exact ((if_neg hsame).trans (Event.commitSetting_eq _ _ _ _ s rfl rfl)).trans (if_neg this).symm

/-- The hold list with its deadlines limited (R112). -/
theorem HoldList.limited_eq (h : HoldList) (clock grace restore : Nat) {limit : HoldPhase → HoldPhase}
    (hl : ∀ p, limit p = match p with
      | .grace d => .grace (min d (clock + grace))
      | p => p) :
    h.limited clock grace restore =
      { h with
        credit := h.credit.map limit
        remote := h.remote.map (fun r => { r with phase := limit r.phase })
        load := h.load.map (fun d => min d (clock + restore)) } := by
  have hphase : limit = fun p => match p with
      | .grace d => .grace (limitDeadline clock grace d)
      | p => p := by
    funext p
    rw [hl]
    cases p <;> simp [limitDeadline_eq]
  have hload : (fun d => min d (clock + restore)) = limitDeadline clock restore :=
    funext fun d => (limitDeadline_eq clock restore d).symm
  rw [hload, hphase]
  rfl

/-- Step 11, the supply controller's deadlines (R112). -/
theorem State.limitSupply_eq (s : State) (clock : Nat) :
    let limit : HoldPhase → HoldPhase := fun p =>
      match p with
      | .grace d => .grace (min d (clock + s.nv.settings.graceTime))
      | p => p
    let n : Nv :=
      { s.nv with
        holds :=
          { s.nv.holds with
            credit := s.nv.holds.credit.map limit
            remote := s.nv.holds.remote.map (fun r => { r with phase := limit r.phase })
            load := s.nv.holds.load.map (fun d => min d (clock + 60 * s.nv.settings.loadRestoreDelay)) }
        armDeadline :=
          s.nv.armDeadline.map (fun a => { a with deadline := min a.deadline (clock + 60 * a.minutes) }) }
    s.supplyStep (fun e => e.limitDeadlines clock) = if n = s.nv then s else s.withWrite n .supply .device [] [] none := by
  intro limit n
  let e := (Event.begin s .device).limitDeadlines clock
  have hn : e.nv = n := by
    have hholds : s.nv.holds.limited clock s.nv.settings.graceTime (60 * s.nv.settings.loadRestoreDelay) = n.holds :=
      s.nv.holds.limited_eq clock _ _ fun _ => rfl
    have harm : s.nv.armDeadline.map
        (fun a => { a with deadline := limitDeadline clock (60 * a.minutes) a.deadline }) = n.armDeadline := by
      simp only [limitDeadline_eq, n]
    change { s.nv with
      holds := s.nv.holds.limited clock s.nv.settings.graceTime (60 * s.nv.settings.loadRestoreDelay)
      armDeadline := s.nv.armDeadline.map
        (fun a => { a with deadline := limitDeadline clock (60 * a.minutes) a.deadline }) } = n
    rw [hholds, harm]
  refine (Event.Plain.commitSupply (Event.plain_limitDeadlines _ clock)).trans ?_
  by_cases hsame : n.holds = s.nv.holds ∧ n.armDeadline = s.nv.armDeadline
  · have : n = s.nv := by
      change { s.nv with holds := n.holds, armDeadline := n.armDeadline } = s.nv
      rw [hsame.1, hsame.2]
    rw [← hn] at hsame
    exact (if_pos ⟨rfl, hsame⟩).trans (if_pos this).symm
  · have : n ≠ s.nv := fun h => hsame ⟨congrArg Nv.holds h, congrArg Nv.armDeadline h⟩
    rw [← hn] at hsame
    refine ((if_neg fun h => hsame h.2).trans ?_).trans (if_neg this).symm
    rw [← hn]
    exact Event.commitSetting_eq _ _ _ _ s rfl rfl

end Sys2Proof.Machine
end

