-- ==== Sys2Proof/Laws/StartUpTamper.lean ====
section
namespace Sys2Proof.Machine

/-! ## The steps of start-up at the monitor (R151, R155) -/

/-- All that an event's write leaves beside the stored state, the writes and the driver is as the event began. -/
theorem Event.Within.commitSetting_withStoreOf {e e' : Event} (h : e.Within e') (b : Block) (c : Option Nat)
    (m : Option RetentionMark) (s : State) : (e'.commitSetting b c m).withStoreOf s = e.state.withStoreOf s :=
  h.commit_withStoreOf b s

/-- An event writes once, and its write holds what it leaves. -/
theorem Event.beganWrite_commitSetting {s : State} {e : Event} (hw : e.state.writes = s.writes) (b : Block)
    (c : Option Nat) (m : Option RetentionMark) : s.beganWrite (e.commitSetting b c m) b :=
  ⟨_, by rw [← hw]; rfl, rfl, rfl⟩

/-- What the TAMPER hold's rules read of an event, they read of its write. -/
theorem Event.tamperFollows_commitSetting {s : State} {e : Event} {rs : List RecordBody} (h : s.tamperFollows e.view rs)
    (b : Block) (c : Option Nat) (m : Option RetentionMark) : s.tamperFollows (e.commitSetting b c m) rs :=
  ((e.alike_commitSetting b c m).toSameSupply.tamperFollows rfl rs).mpr h

/-- Step 2: an open window closes with START_UP (R151). -/
theorem State.closeAtStart_spec (s : State) :
    let t := s.closeAtStart
    if s.nv.window = none then t = s
    else
      ∃ records, s.beganWrite t .tamper ∧ s.tamperFollows t records ∧
        (let opened := s.nv.tamperCondition = false ∧ t.nv.tamperCondition = true
        t.nv.journal =
          s.nv.journal.appendAll s.clock .device
            (records ++
              [.serviceEnd .startUp s.nv.tampers.terminalCover.state s.tamper.levels.terminalCover opened]) ∧
        (.notice .tamper ∈ t.newestFollow ↔ opened)) ∧
        t.nv.window = none ∧ t.withStoreOf s = s ∧ { t.nv.withSupplyOf s.nv with window := s.nv.window } = s.nv := by
  intro t
  cases hwindow : s.nv.window with
  | none =>
    have ht : t = s := by
      unfold t State.closeAtStart
      rw [hwindow]
    exact (if_pos rfl).mpr ht
  | some w =>
    refine (if_neg (by simp)).mpr ?_
    let d := (Event.begin s .device).updateNv (fun n => { n with window := none })
    let r := d.tamperResults s.nv false
    let opened := s.nv.tamperCondition = false ∧ d.nv.tamperCondition = true
    let closing : RecordBody :=
      .serviceEnd .startUp (s.nv.tampers.get .terminalCover).state (r.state.tamper.levels.get .terminalCover) opened
    have ht : t = (r.log closing).commit .tamper := by
      unfold t State.closeAtStart
      rw [hwindow]
      rfl
    have hready : d.Ready s := (Event.ready_begin s .device).updateNv (f := fun n => { n with window := none }) rfl rfl
    obtain ⟨hin, ⟨rs, hrs, hfollows⟩, hnotice⟩ :=
      hready.tamperResults s.nv false rfl (List.not_mem_nil (a := FollowUp.notice .tamper))
    replace hrs : r.records = rs := hrs
    have hend : d.Within (r.log closing) := hin.trans (Event.within_log r closing)
    have hlevels : r.state.tamper = s.tamper := by
      have := congrArg State.tamper hin.state
      exact this
    have hcondition : t.nv.tamperCondition = d.nv.tamperCondition := by
      rw [ht]
      exact hin.tamperCondition
    refine ⟨rs, ?_, ?_, ⟨?_, ?_⟩, ?_, ?_, ?_⟩
    · rw [ht]
      exact Event.beganWrite_commitSetting hend.writes .tamper none none
    · rw [ht]
      exact Event.tamperFollows_commitSetting (e := r.log closing) hfollows .tamper none none
    · have hjournal : t.nv.journal = s.nv.journal.appendAll s.clock .device (rs ++ [closing]) := by
        rw [ht, ← hrs]
        exact hend.image_journal
      rw [hjournal, hcondition]
      simp only [closing, hlevels]
      rfl
    · rw [hcondition, ht, Event.commit, Event.mem_commitSetting_follow _ _ _ _ (by decide)]
      refine hnotice.trans ?_
      simp
    · rw [ht]
      exact congrArg Nv.window (hend.image_withSupplyOf s.nv)
    · rw [ht]
      exact hend.commit_withStoreOf .tamper s
    · have := congrArg (fun n : Nv => { n with window := s.nv.window }) (hend.image_withSupplyOf s.nv)
      rw [ht, ← hwindow]
      exact this

theorem TamperClass.notifies_iff (c : TamperClass) : c.notifies = true ↔ c ≠ .record := by
  cases c <;> simp [TamperClass.notifies]

/-- Step 3: the outage step for MAIN_COVER, whose write clears the latch (R155). -/
theorem State.outageStep_spec {s : State} (hw : s.writes = []) (intact : Bool) :
    let t := s.outageStep intact
    if intact = false ∨ s.ret.latch = false then t = s
    else
      ∃ records, s.beganWrite t .tamper ∧ t.writes.map (·.clears) = [some .latch] ∧ s.tamperFollows t records ∧
        (let entered : TamperState := if s.ret.coverOpen then .active else .latched
        let count := min 65535 (s.nv.tampers.mainCover.count + 1)
        let cls := s.nv.settings.classes.mainCover
        t.nv.tampers.mainCover = { state := entered, count := count, detected := some s.clock } ∧
        t.nv.journal =
          s.nv.journal.appendAll s.clock .device (.tamperDetected .mainCover count cls (some entered) :: records) ∧
        (.notice .tamper ∈ t.newestFollow ↔
          cls ≠ .record ∨ s.nv.tamperCondition = false ∧ t.nv.tamperCondition = true)) ∧
        t.withStoreOf s =
          { s with
            tamper := { s.tamper with levels := { s.tamper.levels with mainCover := s.ret.coverOpen } } } ∧
        { t.nv.withSupplyOf s.nv with
          tampers := { t.nv.tampers with mainCover := s.nv.tampers.mainCover } } = s.nv := by
  intro t
  by_cases hskip : intact = false ∨ s.ret.latch = false
  · have ht : t = s := if_neg (by rcases hskip with h | h <;> simp [h])
    exact (if_pos hskip).mpr ht
  · refine (if_neg hskip).mpr ?_
    let entered : TamperState := if s.ret.coverOpen then .active else .latched
    let count := min 65535 (s.nv.tampers.mainCover.count + 1)
    let cls := s.nv.settings.classes.mainCover
    let u := s.setLevel .mainCover s.ret.coverOpen
    let d := ((Event.begin u .device).setTamper .mainCover
      { state := entered, count := count, detected := some s.clock }).log
        (.tamperDetected .mainCover count cls (some entered))
    let r := d.tamperResults s.nv cls.notifies
    have ht : t = r.commitClearing .tamper .latch := if_pos (by simpa using hskip)
    have hbegin : (Event.begin u .device).Ready s := Event.ready_begin_of .device rfl rfl rfl rfl rfl
    have hready : d.Ready s := Event.Ready.log (hbegin.updateNv (f := fun n =>
      { n with tampers := n.tampers.set .mainCover { state := entered, count := count, detected := some s.clock } })
      rfl rfl) _
    obtain ⟨hin, ⟨rs, hrs, hfollows⟩, hnotice⟩ :=
      hready.tamperResults s.nv cls.notifies rfl (List.not_mem_nil (a := FollowUp.notice .tamper))
    have hcondition : t.nv.tamperCondition = d.nv.tamperCondition := by
      rw [ht]
      exact hin.tamperCondition
    have hkept := hin.image_withSupplyOf s.nv
    refine ⟨rs, ?_, ?_, ?_, ⟨?_, ?_, ?_⟩, ?_, ?_⟩
    · rw [ht]
      exact Event.beganWrite_commitSetting hin.writes .tamper none (some .latch)
    · have hwrites : r.state.writes = [] := hin.writes.trans hw
      rw [ht, Event.commitClearing, Event.commitSetting]
      dsimp only
      rw [hwrites]
      rfl
    · rw [ht]
      exact Event.tamperFollows_commitSetting (e := r) hfollows .tamper none (some .latch)
    · have := congrArg (fun n : Nv => n.tampers.mainCover) hkept
      rw [ht]
      exact this
    · rw [ht]
      refine hin.image_journal.trans ?_
      rw [hrs]
      rfl
    · rw [hcondition, ht, Event.commitClearing, Event.mem_commitSetting_follow _ _ _ _ (by decide)]
      exact hnotice.trans (or_congr_left cls.notifies_iff)
    · rw [ht]
      exact hin.commitSetting_withStoreOf .tamper none (some .latch) s
    · have := congrArg
        (fun n : Nv => { n with tampers := { n.tampers with mainCover := s.nv.tampers.mainCover } }) hkept
      rw [ht]
      exact this

end Sys2Proof.Machine
end

