-- ==== Sys2Proof/Laws/StartUpDays.lean ====
section
namespace Sys2Proof.Machine

/-! ## Step 4: the owed days (R46) -/

theorem State.dayCloseEvent_inPower (s : State) (p : Power) (d : DayCloseEvent) :
    ({ s with power := p } : State).dayCloseEvent d = (s.dayCloseEvent d).inPower p := by
  unfold State.dayCloseEvent
  simp only [Event.begin_inPower, Event.inPower_updateNv, Event.inPower_log, Event.inPower_accountResults,
    Event.inPower_notify, Event.inPower_ite, Event.inPower_andThen]
  rfl

theorem State.dayCloseEvent_frame (s : State) (d : DayCloseEvent) : (s.dayCloseEvent d).state.withStoreOf s = s := by
  let e := ((Event.begin s .device).updateNv (fun n =>
    { n with
      account := (s.nv.account.closeDays s.nv.activeTariff.standingCharge d.days).1
      lastChargedDay := d.last, storedClock := s.clock })).log
    (.standing d.days d.last (d.days * s.nv.activeTariff.standingCharge)
      (s.nv.account.closeDays s.nv.activeTariff.standingCharge d.days).2 d.passedOver)
  have hframe : (e.accountResults s.nv).state.withStoreOf s = s :=
    State.withStoreOf_trans (a := s) (b := e.state) rfl (e.frame_accountResults s.nv)
  unfold State.dayCloseEvent
  dsimp only
  split <;> exact hframe

/-- Step 4: the owed days are taken as one day close, as DAY_CLOSE takes them while the part runs (R16, R46). -/
theorem State.closeOwed_spec {s : State} (hw : s.writes = []) (hj : s.journalWaiting = []) (ha : s.arrivals = [])
    (hc : s.clockUnit = { ClockUnit.fresh with windowInForce := s.clockUnit.windowInForce }) (clock : Nat) :
    let owed := if s.ret.valid then clock / 86400 - (s.nv.lastChargedDay + 1) else 0
    let t := s.closeOwed clock
    if owed = 0 then t = s
    else
      exec .dayClose
          { s with
            power := .running
            arrivals := [.dayClose]
            clockUnit :=
              { s.clockUnit with
                dayClose := some { days := min 31 owed, last := clock / 86400 - 1, passedOver := 0 } } } =
          .next { t with power := .running } ∧
        t.power = s.power := by
  intro owed t
  have howed : owed = if s.ret.valid = true then s.owedDays clock else 0 := by rw [State.owedDays_fresh hc]
  have hnone : s.clockUnit.dayClose = none := by rw [hc]; rfl
  have hidle : s.clockUnit.dayCloseTaking = false := by rw [hc]; rfl
  by_cases hskip : s.ret.valid = false ∨ s.owedDays clock = 0
  · have hzero : owed = 0 := by
      rw [howed]
      rcases hskip with h | h <;> simp [h]
    have ht : t = s := by
      unfold t State.closeOwed State.handOwed
      dsimp only
      rw [if_pos hskip, hnone]
    exact (if_pos hzero).mpr ht
  · obtain ⟨hvalid, hdays⟩ := not_or.mp hskip
    have hk : owed = s.owedDays clock := howed.trans (if_pos (by simpa using hvalid))
    let d : DayCloseEvent := { days := min 31 owed, last := clock / 86400 - 1, passedOver := 0 }
    let x : State :=
      { s with clockUnit := { s.clockUnit with dayClose := some d, dayCloseTaking := true } }
    have ht : t = (x.dayCloseEvent d).commit .account := by
      have hhand : s.handOwed clock false =
          { s with arrivals := [.dayClose], clockUnit := { s.clockUnit with dayClose := some d } } := by
        have hextend : extendDays s.clockUnit.extensible (s.owedDays clock) clock false = d := by
          rw [extendDays_bySet, ClockUnit.extensible, hidle, hnone, ← hk]
          rfl
        unfold State.handOwed
        dsimp only
        rw [if_neg hskip, hextend, hidle, hnone, State.arrive, ha]
        rfl
      unfold t State.closeOwed
      dsimp only
      rw [hhand]
      dsimp only
      rw [State.leaveArrivals, List.tail_cons, ← ha]
    refine (if_neg (by rwa [hk])).mpr ⟨?_, ?_⟩
    · let v : State :=
        { s with
          power := .running, arrivals := [.dayClose], clockUnit := { s.clockUnit with dayClose := some d } }
      have htakes : v.accountTakes .dayClose = true := by
        simp [State.accountTakes, State.accountBusy, v, hw, State.writing]
      change execDayClose v = _
      rw [execDayClose, whenRunning_of_running _ _ rfl, htakes]
      have hline : ((x.dayCloseEvent d).commit .account).journalWaiting = [] := by
        have := congrArg State.journalWaiting (x.dayCloseEvent_frame d)
        exact this.trans hj
      refine congrArg _ ((State.takes_of_idle (s := v) hw hj .dayClose none _).trans ?_)
      have htake : { v.leaveArrivals with clockUnit := { v.clockUnit with dayCloseTaking := true } } =
          ({ x with power := .running } : State) := by
        simp only [v, x, State.leaveArrivals, List.tail_cons, ← ha]
      refine (congrArg (fun y : State => ((y.dayCloseEvent d).commit .account).leaveLine .dayClose) htake).trans ?_
      rw [State.dayCloseEvent_inPower, Event.inPower_commit, ht]
      exact State.leaveLine_of_idle (s := { (x.dayCloseEvent d).commit .account with power := .running }) hline _
    · have := congrArg State.power (x.dayCloseEvent_frame d)
      rw [ht]
      exact this

end Sys2Proof.Machine
end

