-- ==== Sys2Proof/Laws/StartUpGrace.lean ====
section
namespace Sys2Proof.Machine

/-! ## Steps 5 and 12: the holds in GRACE (R109, R122) -/

/-- The credit and then the remote hold made FIRM, each where `ends` says so. -/
def Event.firmWhere (e : Event) (ends : HoldKind → Bool) (cause : FirmCause) : Event :=
  let e := if ends .credit then e.makeFirm .credit .grace cause else e
  if ends .remote then e.makeFirm .remote .grace cause else e

/-- The hold is in GRACE, with a deadline that `p` holds of. -/
def HoldList.inGrace (h : HoldList) (p : Nat → Bool) (k : HoldKind) : Bool :=
  match h.phase k with
  | some (.grace d) => p d
  | _ => false

theorem HoldList.inGrace_of_phase {h l : HoldList} {k : HoldKind} (hk : h.phase k = l.phase k) (p : Nat → Bool) :
    h.inGrace p k = l.inGrace p k := by
  unfold HoldList.inGrace
  rw [hk]

theorem HoldList.inGrace_const (h : HoldList) (b : Bool) (k : HoldKind) :
    h.inGrace (fun _ => b) k = (b && h.inGrace (fun _ => true) k) := by
  unfold HoldList.inGrace
  cases h.phase k with
  | none => cases b <;> rfl
  | some p => cases p <;> cases b <;> rfl

/-- A passed grace deadline makes the hold FIRM. -/
theorem Event.graceReached_eq (e : Event) (clock : Nat) (k : HoldKind) :
    e.graceReached clock k =
      if e.nv.holds.inGrace (fun d => d ≤ clock) k = true then e.makeFirm k .grace .graceDeadline else e := by
  unfold Event.graceReached HoldList.graceDeadline HoldList.inGrace
  cases e.nv.holds.phase k with
  | none => rfl
  | some p => cases p <;> simp

theorem Event.graceEnds_eq (e : Event) (cause : FirmCause) (k : HoldKind) :
    e.graceEnds cause k = if e.nv.holds.inGrace (fun _ => true) k = true then e.makeFirm k .grace cause else e := by
  unfold Event.graceEnds HoldList.graceDeadline HoldList.inGrace
  cases e.nv.holds.phase k with
  | none => rfl
  | some p => cases p <;> rfl

theorem Event.makeFirm_holds (e : Event) (k : HoldKind) (left : PhaseName) (cause : FirmCause) :
    (e.makeFirm k left cause).nv.holds = e.nv.holds.rephase k .firm := by
  obtain ⟨c, d, hn⟩ := (e.firm k left cause).commandForFirm_nv k
  rw [e.makeFirm_eq, hn]
  rfl

/-- The credit hold's passage leaves the remote hold's phase. -/
theorem Event.makeFirm_credit_phase (e : Event) (left : PhaseName) (cause : FirmCause) :
    (e.makeFirm .credit left cause).nv.holds.phase .remote = e.nv.holds.phase .remote := by
  rw [e.makeFirm_holds]
  rfl

theorem Contactor.afterFirm_ne_closed (c : Contactor) (loadx : Bool) : c.afterFirm loadx ≠ .closed := by
  cases c <;> cases loadx <;> simp [Contactor.afterFirm]

/-- A further hold made FIRM calls for no further command. -/
theorem Event.firmed_again {s : State} {e : Event} {h : HoldList} (hf : s.firmed e.view h) {k : HoldKind}
    (hk : k ≠ .trip) (left : PhaseName) (cause : FirmCause) :
    s.firmed (e.makeFirm k left cause).view (h.rephase k .firm) := by
  obtain ⟨hholds, hpolicy, harm, hcom⟩ := hf
  have hcontactor : (e.firm k left cause).nv.contactor ≠ .closed := by
    rw [show (e.firm k left cause).nv.contactor = s.nv.contactor.afterFirm s.supply.loadx from hcom.1]
    exact Contactor.afterFirm_ne_closed _ _
  have hsame : e.makeFirm k left cause = e.firm k left cause := by
    rw [e.makeFirm_eq, Event.commandForFirm]
    cases hc : (e.firm k left cause).nv.contactor <;> simp_all
  rw [hsame]
  exact ⟨congrArg (fun l : HoldList => l.rephase k .firm) hholds, hpolicy, harm, hcom⟩

/-- The holds that a step makes FIRM, with a record for each and one command. -/
theorem Event.firmWhere_spec (s : State) {ends : HoldKind → Bool} (cause : FirmCause)
    (h : (ends .credit || ends .remote) = true) :
    let e := (Event.begin s .device).firmWhere ends cause
    let move : HoldKind → HoldList → HoldList := fun k h => if ends k then h.rephase k .firm else h
    let record : HoldKind → List RecordBody := fun k => if ends k then [.holdFirm k .grace cause] else []
    s.firmed e.view (move .remote (move .credit s.nv.holds)) ∧ e.records = record .credit ++ record .remote := by
  have hready := Event.ready_begin s .device
  unfold Event.firmWhere
  cases hc : ends .credit <;> cases hr : ends .remote <;> simp only [hc, hr, Bool.false_eq_true, if_true, if_false]
  case false.false => simp [hc, hr] at h
  case false.true =>
    exact ⟨hready.firmed (by decide) _ _, Event.makeFirm_records _ _ _ _⟩
  case true.false =>
    exact ⟨hready.firmed (by decide) _ _, Event.makeFirm_records _ _ _ _⟩
  case true.true =>
    refine ⟨Event.firmed_again (hready.firmed (by decide) _ _) (by decide) _ _, ?_⟩
    rw [Event.makeFirm_records, Event.makeFirm_records]
    rfl

theorem Event.within_firmWhere (e : Event) (ends : HoldKind → Bool) (cause : FirmCause) :
    e.Within (e.firmWhere ends cause) :=
  Event.Within.trans (Event.within_ite _ _ _ _ (e.within_makeFirm _ _ _) (.refl e))
    (Event.within_ite _ _ _ _ (Event.within_makeFirm _ _ _ _) (.refl _))

/-- A step that makes holds FIRM, or changes nothing. -/
theorem State.firmStep_spec (s : State) {f : Event → Event} {ends : HoldKind → Bool} {cause : FirmCause}
    (hf : f (Event.begin s .device) = (Event.begin s .device).firmWhere ends cause) :
    let t := s.supplyStep f
    let move : HoldKind → HoldList → HoldList := fun k h => if ends k then h.rephase k .firm else h
    let record : HoldKind → List RecordBody := fun k => if ends k then [.holdFirm k .grace cause] else []
    if ends .credit || ends .remote then
      s.firmed t (move .remote (move .credit s.nv.holds)) ∧ s.beganWrite t .supply ∧
        t.nv.journal = s.nv.journal.appendAll s.clock .device (record .credit ++ record .remote) ∧
        t.withStoreOf s = s ∧ t.nv.withSupplyOf s.nv = s.nv
    else t = s := by
  intro t move record
  let e := (Event.begin s .device).firmWhere ends cause
  by_cases h : (ends .credit || ends .remote) = true
  · obtain ⟨hfirmed, hrecords⟩ := Event.firmWhere_spec s cause h
    have hin := (Event.begin s .device).within_firmWhere ends cause
    have hne : e.records ≠ [] := by
      rw [hrecords]
      cases hc : ends .credit <;> simp_all
    have ht : t = e.commit .supply := by
      unfold t State.supplyStep
      rw [hf]
      exact if_neg fun hn => hne (by simpa using hn.1)
    rw [if_pos h, ht]
    refine ⟨((e.alike_commitSetting .supply none none).toSameSupply.firmed _).mpr hfirmed,
      Event.beganWrite_commitSetting hin.writes .supply none none, ?_, hin.commit_withStoreOf .supply s,
      hin.image_withSupplyOf s.nv⟩
    rw [← hrecords]
    exact hin.image_journal
  · rw [if_neg h]
    refine State.supplyStep_same ?_
    rw [hf, Event.firmWhere]
    simp_all

/-- Step 5 makes the holds FIRM whose grace deadline has passed. -/
theorem Event.graceReached_firmWhere (e : Event) (clock : Nat) :
    (e.graceReached clock .credit).graceReached clock .remote =
      e.firmWhere (e.nv.holds.inGrace fun d => d ≤ clock) .graceDeadline := by
  have hremote : (e.graceReached clock .credit).nv.holds.phase .remote = e.nv.holds.phase .remote := by
    rw [e.graceReached_eq]
    split
    · exact e.makeFirm_credit_phase _ _
    · rfl
  rw [Event.graceReached_eq, HoldList.inGrace_of_phase hremote, e.graceReached_eq]
  rfl

/-- Step 12 makes the holds FIRM that are still in GRACE with LOADHI deasserted (R122). -/
theorem Event.graceAtStart_firmWhere (e : Event) :
    e.graceAtStart = e.firmWhere (e.nv.holds.inGrace fun _ => !e.state.supply.loadhi) .startUp := by
  have hremote : (e.graceEnds .startUp .credit).nv.holds.phase .remote = e.nv.holds.phase .remote := by
    rw [e.graceEnds_eq]
    split
    · exact e.makeFirm_credit_phase _ _
    · rfl
  unfold Event.graceAtStart
  rw [Event.graceEnds_eq, HoldList.inGrace_of_phase hremote, e.graceEnds_eq]
  unfold Event.firmWhere
  rw [HoldList.inGrace_const _ (!e.state.supply.loadhi) .credit,
    HoldList.inGrace_const _ (!e.state.supply.loadhi) .remote]
  cases e.state.supply.loadhi <;> simp

end Sys2Proof.Machine
end

