-- ==== Sys2Proof/Laws/StartUpContactor.lean ====
section
namespace Sys2Proof.Machine

/-! ## Steps 14 and 15: the contactor (R115, R136) -/

/-- An event without a record writes what it holds. -/
theorem Event.image_of_noRecords (e : Event) (h : e.records = []) : e.image = e.nv := by
  unfold Event.image Event.journal
  rw [h]
  rfl

/-- Step 14 opens the contactor in BREAK_WAIT, with LOADX deasserted (R115). -/
theorem State.breakWaitAtStart_spec (s : State) :
    let t := s.breakWaitAtStart
    if s.nv.contactor = .breakWait ∧ s.supply.loadx = false then
      s.commanded t .opening .device ∧ s.beganWrite t .supply ∧
        t.nv = { s.nv with contactor := .opening, driveTarget := .opened } ∧ t.withStoreOf s = s
    else t = s := by
  intro t
  by_cases h : s.nv.contactor = .breakWait ∧ s.supply.loadx = false
  · rw [if_pos h]
    obtain ⟨hcontactor, hloadx⟩ := h
    let e := (Event.begin s .device).giveOpen
    have ht : t = e.commit .supply := by
      unfold t State.breakWaitAtStart State.openFromWait
      rw [hloadx, hcontactor]
      rfl
    have hcommands : (Event.begin s .device).Commands e := Event.commands_beginDrive _ _ _ _
    have hin := hcommands.within
    obtain ⟨-, -, -, hkept⟩ := (Event.ready_begin s .device).kept
    have hcom : s.commanded e.view .opening .device :=
      Event.commanded_beginDrive hkept rfl .opened .device (by simp [hcontactor, Position.driving])
    rw [ht]
    refine ⟨((e.alike_commitSetting .supply none none).toSameSupply.commanded _ _).mpr hcom,
      Event.beganWrite_commitSetting hin.writes .supply none none, ?_, hin.commit_withStoreOf .supply s⟩
    have himage : e.image = e.nv := e.image_of_noRecords hcommands.records
    exact himage.trans (Event.beginDrive_nv _ _ _ _)
  · refine (if_neg h).mpr ?_
    unfold t State.breakWaitAtStart State.openFromWait
    by_cases hc : s.nv.contactor = .breakWait
    · rw [if_pos (by simpa [hc] using h)]
    · rw [if_neg hc, ite_self]

/-- The lines of the phases in use all show voltage, or none does, by what they show (R127, R136). -/
theorem Sense.agrees_closed (x : Sense) (p : Phases) : x.agrees p .closed = !(x.shown p).contains false := by
  cases x
  rename_i a b c
  cases p <;> cases a <;> cases b <;> cases c <;> rfl

theorem Sense.agrees_opened (x : Sense) (p : Phases) : x.agrees p .opened = !(x.shown p).contains true := by
  cases x
  rename_i a b c
  cases p <;> cases a <;> cases b <;> cases c <;> rfl

/-- The drive that the contactor check begins (R136). -/
theorem Nv.checkDrive_eq (n : Nv) (drive : Option Drive) (x : Sense) :
    n.checkDrive drive.isSome x =
      (match n.contactor with
      | .opening | .closing => if drive = none then some n.driveTarget else none
      | .closed => if (x.shown n.settings.phases).contains false then some .closed else none
      | .breakWait => if (x.shown n.settings.phases).contains false then some .opened else none
      | .opened | .armed => if (x.shown n.settings.phases).contains true then some .opened else none
      | .welded | .stuckOpen => none) := by
  unfold Nv.checkDrive
  cases n.contactor <;> simp only [Sense.agrees_closed, Sense.agrees_opened]
  case opening => cases drive <;> rfl
  case closing => cases drive <;> rfl
  case closed => cases (x.shown n.settings.phases).contains false <;> rfl
  case breakWait => cases (x.shown n.settings.phases).contains false <;> rfl
  case opened => cases (x.shown n.settings.phases).contains true <;> rfl
  case armed => cases (x.shown n.settings.phases).contains true <;> rfl

/-- Step 15 begins the drive of the contactor check, with START_UP for its cause (R136). -/
theorem State.contactorCheck_spec (s : State) (x : Sense) :
    let t := s.contactorCheck x
    match s.nv.checkDrive s.driver.drive.isSome x with
    | none => t = s
    | some d =>
      s.beganWrite t .driver ∧ t.newestFollow = [] ∧
        t.nv =
          { s.nv with
            contactor := match d with | .opened => .opening | .closed => .closing
            driveTarget := d, armDeadline := none } ∧
        t.driver = { s.driver with drive := some (newDrive s.nv d .startUp .device), voltageInput := false } ∧
        t.withStoreOf s = s := by
  intro t
  cases hd : s.nv.checkDrive s.driver.drive.isSome x with
  | none =>
    change State.contactorCheck s x = s
    unfold State.contactorCheck
    rw [hd]
  | some d =>
    let e := (Event.begin s .device).dropArmDeadline.beginDrive d .startUp .device
    have ht : t = e.commit .driver := by
      unfold t State.contactorCheck
      rw [hd]
    have hin : (Event.begin s .device).Within e :=
      (Event.within_dropArmDeadline _).trans (Event.within_beginDrive _ _ _ _)
    have hrecords : e.records = [] := (Event.commands_beginDrive _ _ _ _).records
    have himage : e.image = e.nv := e.image_of_noRecords hrecords
    change s.beganWrite t .driver ∧ _
    rw [ht]
    refine ⟨Event.beganWrite_commitSetting hin.writes .driver none none, ?_, ?_, ?_, hin.commit_withStoreOf .driver s⟩
    · have hjournal : e.journal = e.nv.journal := congrArg Nv.journal himage
      rw [Event.commit, e.commitSetting_newestFollow, hjournal, journalNotices_same, List.map_nil, List.append_nil]
      exact Event.beginDrive_follow _ _ _ _
    · refine (himage.trans (Event.beginDrive_nv _ _ _ _)).trans ?_
      cases d <;> rfl
    · exact Event.beginDrive_driver _ _ _ _

end Sys2Proof.Machine
end

