-- ==== Sys2Proof/Proofs/StartUpSteps.lean ====
section
namespace Sys2Proof.Machine

/-- Settles O59: each step by the lemma that says what it takes. -/
theorem startUpStepsAreTaken : Obligations.StartUpStepsAreTaken := by
  intro s q _ hw hj ha hc he hceiling runs today owed
  refine ⟨State.recordOutage_eq hc q, s.closeAtStart_spec, State.outageStep_spec hw q.intact,
    State.closeOwed_spec hw hj ha hc q.clock, ⟨?_, ?_⟩, ⟨State.armDeadlineStep hw hj q.clock,
      State.restoreTimeStep hw hj q.clock⟩, s.lapseAtStart_eq q.clock, ⟨s.expireAtStart_eq q.clock .a,
      s.expireAtStart_eq q.clock .l⟩, s.activateAtStart_eq q.clock, s.limitCode_eq q.clock, s.limitSupply_eq q.clock,
    State.windowAtStart_spec hw hj he q.clock, State.ceilingAtStart_spec hw hj hceiling, s.breakWaitAtStart_spec, ?_⟩
  · exact s.firmStep_spec (f := fun e => (e.graceReached q.clock .credit).graceReached q.clock .remote)
      ((Event.begin s .device).graceReached_firmWhere q.clock)
  · exact s.firmStep_spec (f := Event.graceAtStart) (Event.begin s .device).graceAtStart_firmWhere
  · have hcheck := s.contactorCheck_spec q.sense
    rw [s.nv.checkDrive_eq] at hcheck
    exact hcheck

end Sys2Proof.Machine
end

