-- ==== Sys2Proof/Proofs/Bands.lean ====
section
namespace Sys2Proof.Machine

/-! ## The band in force (R35, R36) -/

/-- Minutes that rise strictly from each to the next rise strictly throughout. -/
theorem pairwise_of_strictlyAscending {l : List Nat} (h : strictlyAscending l = true) : l.Pairwise (· < ·) := by
  refine List.IsChain.pairwise ?_
  induction l with
  | nil => exact .nil
  | cons x l ih =>
    cases l with
    | nil => exact .singleton x
    | cons y rest =>
      simp only [strictlyAscending, Bool.and_eq_true, decide_eq_true_eq] at h
      exact .cons_cons h.1 (ih h.2)

/-- Of two points of a rising schedule, the one at the end is the later. -/
theorem minute_le_of_getLast? {ps : List SwitchPoint} (h : (ps.map (·.minute)).Pairwise (· < ·)) {p q : SwitchPoint}
    (hp : p ∈ ps) (hq : ps.getLast? = some q) : p = q ∨ p.minute < q.minute := by
  obtain ⟨front, rfl⟩ := List.getLast?_eq_some_iff.mp hq
  rw [List.map_append, List.pairwise_append] at h
  rcases List.mem_append.mp hp with hp | hp
  · exact .inr (h.2.2 _ (List.mem_map_of_mem hp) _ (by simp))
  · exact .inl (by simpa using hp)

/-- The point at the end of a rising schedule is the one that no other is later than. -/
theorem getLast?_of_latest {ps : List SwitchPoint} (h : (ps.map (·.minute)).Pairwise (· < ·)) {p : SwitchPoint}
    (hp : p ∈ ps) (hlatest : ∀ q ∈ ps, q.minute ≤ p.minute) : ps.getLast? = some p := by
  have hq := List.getLast?_eq_some_getLast (List.ne_nil_of_mem hp)
  generalize ps.getLast _ = q at hq
  rcases minute_le_of_getLast? h hp hq with rfl | hlt
  · exact hq
  · exact absurd (hlatest q (List.mem_of_getLast? hq)) (not_le.mpr hlt)

/-- Settles O14: the point in force is the end of those at or before the minute, or of all. -/
theorem bandIsOfTheLastPoint : Obligations.BandIsOfTheLastPoint := by
  refine ⟨fun t clock => ⟨rfl, rfl⟩, fun s => rfl, fun ps m hps => ?_⟩
  have hrise := pairwise_of_strictlyAscending hps
  have hreached : ((ps.filter (fun p => p.minute ≤ m)).map (·.minute)).Pairwise (· < ·) :=
    hrise.sublist (List.filter_sublist.map _)
  refine ⟨?_, fun p hp hpm hlast => ?_, fun p hp hlate => ?_⟩
  · rintro rfl
    rfl
  · have hin : p ∈ ps.filter (fun p => p.minute ≤ m) := List.mem_filter.mpr ⟨hp, by simpa using hpm⟩
    have hend := getLast?_of_latest hreached hin fun q hq => by
      obtain ⟨hq, hqm⟩ := List.mem_filter.mp hq
      exact hlast q hq (by simpa using hqm)
    rw [scheduleBand, hend]
  · have hnone : ps.filter (fun p => p.minute ≤ m) = [] :=
      List.filter_eq_nil_iff.mpr fun q hq => by simpa using (hlate q hq).1
    have hend := getLast?_of_latest hrise hp fun q hq => (hlate q hq).2
    rw [scheduleBand, hnone, hend]
    rfl

end Sys2Proof.Machine
end

