-- ==== Sys2Proof/Proofs/ClockAdvance.lean ====
section
namespace Sys2Proof.Machine

/-! ## Deadlines that join the code unit's queue (R86, R93) -/

/-- The lapse of the pending half joins the queue in place of one whose half is gone, or nothing changes (R93). -/
theorem State.queueLapse_cases (s : State) :
    (∃ h, s.nv.pendingHalf = some h ∧ h.deadline ≤ s.clock ∧ .halfLapse true ∉ s.code.queue ∧
      s.queueLapse =
        { s with
          code :=
            { s.code with
              queue := s.code.queue.filter (fun i => i != CodeItem.halfLapse false) ++ [.halfLapse true] } }) ∨
      s.queueLapse = s := by
  unfold State.queueLapse
  split
  · next h hh =>
    split
    · next hd => exact .inl ⟨h, hh, hd.1, by simpa using hd.2, rfl⟩
    · exact .inr rfl
  · exact .inr rfl

/-- The item of the code unit's queue that a reached deadline gives rise to (R86, R93). -/
def State.reachedItem (s : State) (x : CodeItem) : Prop :=
  (x = .halfLapse true ∧ ∃ h, s.nv.pendingHalf = some h ∧ h.deadline ≤ s.clock) ∨
    ∃ p l, x = .lockoutExpiry p ∧ s.nv.lockouts.get p = some l ∧ l.deadline ≤ s.clock

/-- `t` is `s` with items of reached deadlines at the end of the code unit's queue, each once, behind what waited there:
a lapse that joins leaves no lapse whose half is gone. -/
def State.JoinsReached (s t : State) (kept joined : List CodeItem) : Prop :=
  t = { s with code := { s.code with queue := kept ++ joined } } ∧ joined.Nodup ∧
    (kept = s.code.queue ∨
      .halfLapse true ∈ joined ∧ kept = s.code.queue.filter (fun x => x != CodeItem.halfLapse false)) ∧
    ∀ x ∈ joined, x ∉ s.code.queue ∧ s.reachedItem x

theorem State.joinsReached_queueLapse (s : State) : ∃ kept joined, s.JoinsReached s.queueLapse kept joined := by
  rcases s.queueLapse_cases with ⟨h, hh, hd, hnew, hq⟩ | hq
  · refine ⟨_, _, hq, List.nodup_singleton _, .inr ⟨List.mem_singleton_self _, rfl⟩, fun x hx => ?_⟩
    rw [List.mem_singleton.mp hx]
    exact ⟨hnew, .inl ⟨rfl, h, hh, hd⟩⟩
  · exact ⟨s.code.queue, [], by rw [hq, List.append_nil], List.nodup_nil, .inl rfl, by simp⟩

theorem State.JoinsReached.queueExpiry {s t : State} {kept joined : List CodeItem} (h : s.JoinsReached t kept joined)
    (p : Port) : ∃ joined, s.JoinsReached (t.queueExpiry p) kept joined := by
  rcases t.queueExpiry_cases p with ⟨l, hl, hd, hnew, hq⟩ | hq
  · obtain ⟨rfl, hnodup, hkept, hreached⟩ := h
    have hnew : .lockoutExpiry p ∉ kept ++ joined := by simpa using hnew
    obtain ⟨hnotKept, hnotJoined⟩ := not_or.mp (mt List.mem_append.mpr hnew)
    refine ⟨joined ++ [.lockoutExpiry p], ?_, hnodup.append (List.nodup_singleton _) (by simpa using hnotJoined),
      hkept.imp_right (And.imp_left (List.mem_append_left _)), fun x hx => ?_⟩
    · rw [hq, ← List.append_assoc]
      rfl
    · rcases List.mem_append.mp hx with hx | hx
      · exact hreached x hx
      · rw [List.mem_singleton.mp hx]
        refine ⟨fun hold => hnotKept ?_, .inr ⟨p, l, rfl, hl, hd⟩⟩
        rcases hkept with rfl | ⟨-, rfl⟩
        · exact hold
        · exact List.mem_filter.mpr ⟨hold, by simp⟩
  · exact ⟨joined, by rw [hq]; exact h⟩

/-- The deadlines that the clock has reached join the queue behind what waits there, each once (R86, R93). -/
theorem State.joinsReached_queueDeadlines (s : State) :
    ∃ kept joined, s.JoinsReached s.queueDeadlines kept joined := by
  obtain ⟨kept, _, h⟩ := s.joinsReached_queueLapse
  obtain ⟨_, h⟩ := h.queueExpiry .a
  exact ⟨kept, h.queueExpiry .l⟩

/-! ## The clock's advance (R27, R28) -/

/-- The clock one second later, with the boundaries that it advances onto marked. -/
def State.later (s : State) : State :=
  { s with ret := s.ret.tick, clockUnit := s.clockUnit.mark s.ret.tick.clock s.ret.tick.valid }

theorem execClockAdvance_of_unsupplied {s : State} (h : s.isSupplied = false) :
    exec .clockAdvance s = .next (if s.ret.intact then { s with ret := s.ret.tick } else s) := by
  change execClockAdvance s = _
  rcases State.power_of_unsupplied h with hp | hp | hp <;> rw [execClockAdvance, hp]

theorem execClockAdvance_of_warned {s : State} (h : s.power = .warned ∨ s.power = .lastWrite) :
    exec .clockAdvance s = .next { s with ret := s.ret.tick } := by
  change execClockAdvance s = _
  rcases h with hp | hp <;> rw [execClockAdvance, hp]

theorem execClockAdvance_of_starting {s : State} {q : StartSequence} (h : s.power = .starting q) :
    exec .clockAdvance s = .next (if s.clock = 4294967295 then s else s.later) := by
  change execClockAdvance s = _
  rw [execClockAdvance, h]
  rfl

theorem execClockAdvance_of_running {s : State} (h : s.power = .running) :
    exec .clockAdvance s = .next (if s.clock = 4294967295 then s else s.later.queueDeadlines) := by
  change execClockAdvance s = _
  rw [execClockAdvance, h]
  rfl

/-- Settles O13: the advance by the state of the power, and the deadlines by `State.joinsReached_queueDeadlines`. -/
theorem clockAdvancesByOne : Obligations.ClockAdvancesByOne := by
  intro s
  obtain ⟨p, hp⟩ : ∃ p, s.power = p := ⟨_, rfl⟩
  cases p with
  | retain | reset | brownOut =>
    have hoff : s.isSupplied = false := by rw [State.isSupplied, hp]
    exact ⟨_, execClockAdvance_of_unsupplied hoff, by rw [if_pos hoff]; rfl⟩
  | warned | lastWrite =>
    have hon : s.isSupplied ≠ false := by simp [State.isSupplied, hp]
    exact ⟨_, execClockAdvance_of_warned (by simp [hp]), by rw [if_neg hon, if_pos (by simp [hp])]; rfl⟩
  | starting q =>
    have hon : s.isSupplied ≠ false := by simp [State.isSupplied, hp]
    have hwait : s.isRunning = false := by rw [State.isRunning, hp]; rfl
    refine ⟨_, execClockAdvance_of_starting hp, ?_⟩
    rw [if_neg hon, if_neg (by simp [hp])]
    by_cases hmax : s.clock = 4294967295
    · rw [if_pos hmax, if_pos hmax]
    · rw [if_neg hmax, if_neg hmax, if_pos hwait]
      rfl
  | running =>
    have hon : s.isSupplied ≠ false := by simp [State.isSupplied, hp]
    have hrun : s.isRunning ≠ false := by simp [State.isRunning, hp]
    refine ⟨_, execClockAdvance_of_running hp, ?_⟩
    rw [if_neg hon, if_neg (by simp [hp])]
    by_cases hmax : s.clock = 4294967295
    · rw [if_pos hmax, if_pos hmax]
    · rw [if_neg hmax, if_neg hmax, if_neg hrun]
      obtain ⟨kept, joined, hq, hnodup, hkept, hreached⟩ := s.later.joinsReached_queueDeadlines
      have hclock : s.later.queueDeadlines.clock = s.later.clock := by rw [hq]; rfl
      have half := fun h hh hd => s.later.queueDeadlines_half (h := h) hh (hclock ▸ hd)
      have lockout := fun p l hl hd => s.later.queueDeadlines_lockout (p := p) (l := l) hl (hclock ▸ hd)
      refine ⟨by rw [hq]; rfl, by rw [hq]; rfl, half, lockout, ⟨kept, joined, by rw [hq], hnodup, hkept, ?_⟩,
        by rw [hq]; rfl, by rw [hq]; rfl⟩
      rw [hclock]
      exact hreached

end Sys2Proof.Machine
end

