-- ==== Sys2Proof/Proofs/Midnight.lean ====
section
namespace Sys2Proof.Machine

/-! ## MIDNIGHT (R46, R47) -/

theorem extendDays_byMidnight (d : Option DayCloseEvent) (k clock : Nat) :
    extendDays d k clock true =
      (match d with
      | none => { days := min 31 k, last := clock / 86400 - 1, passedOver := k - 31 }
      | some e =>
        { days := min 31 (e.days + k), last := clock / 86400 - 1, passedOver := e.passedOver + (e.days + k - 31) }) := by
  cases d <;> simp [extendDays, maxDays, daysOf, dayNumber, numberOrAbsent]

theorem execMidnight_of_writing {s : State} (hr : s.isRunning = true) (hw : s.writing .clockTariff = true) :
    exec .midnight s = .next s := by
  change execMidnight s = _
  rw [execMidnight, ifRunning_of_running _ hr, if_neg (by simp [hw])]

theorem execMidnight_of_idle {s : State} (hr : s.isRunning = true) (hm : s.clockUnit.midnightMark = true)
    (hw : s.writing .clockTariff ≠ true) :
    exec .midnight s =
      .next ({ s with clockUnit := { s.clockUnit with midnightMark := false } }.handOwed s.clock true) := by
  change execMidnight s = _
  rw [execMidnight, ifRunning_of_running _ hr, if_pos (by simp [hm, hw])]

/-- Settles O19: a waiting midnight changes nothing; one that is taken hands the owed days as `State.handOwed_eq`
says, by whether days are owed and whether an event is being taken. -/
theorem midnightHandsTheOwedDays : Obligations.MidnightHandsTheOwedDays := by
  intro s hr hm
  by_cases hw : s.writing .clockTariff = true
  · rw [if_pos hw]
    exact execMidnight_of_writing hr hw
  rw [if_neg hw]
  refine ⟨_, execMidnight_of_idle hr hm hw, ?_⟩
  let u : State := { s with clockUnit := { s.clockUnit with midnightMark := false } }
  change (u.handOwed s.clock true).clockUnit.midnightMark = false ∧ _
  rw [show u.handOwed s.clock true = _ from u.handOwed_eq s.clock true]
  refine ⟨rfl, by rw [← hm], ?_⟩
  intro today handed closed owed
  have howed : u.owedDays s.clock = owed := u.owedDays_eq s.clock
  have hmore (d : Option DayCloseEvent) := extendDays_byMidnight d owed s.clock
  rw [howed]
  by_cases hskip : s.ret.valid = false ∨ owed = 0
  · have hands : ¬ (u.ret.valid = true ∧ owed ≠ 0) := by
      rintro ⟨hv, ho⟩
      exact hskip.elim (fun h => absurd (h.symm.trans hv) (by decide)) ho
    rw [if_pos hskip]
    simp only [hands, false_and, if_false, List.append_nil, and_self, u]
  · have hands : u.ret.valid = true ∧ owed ≠ 0 := by simpa using hskip
    rw [if_neg hskip]
    by_cases ht : s.clockUnit.dayCloseTaking = true
    · have htaking : u.clockUnit.dayCloseTaking = true := ht
      rw [if_pos ht]
      simp only [htaking, hands, not_true_eq_false, and_false, false_and, and_self, ne_eq, not_false_eq_true, if_false,
        if_true, List.append_nil, hmore]
      exact ⟨rfl, rfl, rfl⟩
    · have htaking : u.clockUnit.dayCloseTaking = false := by simpa using ht
      rw [if_neg ht]
      simp only [htaking, hands, Bool.false_eq_true, not_false_eq_true, and_true, and_false, true_and, ne_eq, if_false,
        if_true, hmore]
      exact ⟨rfl, rfl, rfl⟩

end Sys2Proof.Machine
end

