-- ==== Sys2Proof/Proofs/MinuteEnd.lean ====
section
namespace Sys2Proof.Machine

/-! ## Quanta that join those that wait (R51) -/

/-- Energy quanta join those that wait, up to 65,535, and one is offered to the account if none is outstanding there. -/
theorem State.addQuanta_eq (s : State) (n : Nat) :
    s.addQuanta n =
      (let total := min 65535 (s.pulse.waiting + n)
      let offers := 0 < total ∧ s.pulse.outstanding = false
      { s with
        pulse :=
          { s.pulse with
            waiting := if offers then total - 1 else total
            outstanding := if offers then true else s.pulse.outstanding }
        arrivals := s.arrivals ++ (if offers then [.quantum] else []) }) := by
  unfold State.addQuanta State.offerQuantum
  by_cases offers : 0 < min 65535 (s.pulse.waiting + n) ∧ s.pulse.outstanding = false
  · simp only [if_pos offers, State.arrive]
  · simp only [if_neg offers, List.append_nil]

/-! ## The end of a measurement minute (R56, R57, R59) -/

/-- The demand of the minute as it stands, the fallback quanta in it (R57, R59). -/
def State.minuteDemand (s : State) : Nat := 60 * (s.pulse.minuteImports + s.pulse.minuteExports + s.fallbackQuanta)

theorem State.endMinute_of_short {s : State} (h : s.pulse.minuteFull = false) :
    s.endMinute = { s with pulse := { s.pulse with minuteImports := 0, minuteExports := 0, minuteFull := true } } := by
  rw [State.endMinute, h]
  rfl

theorem State.endMinute_of_full {s : State} (h : s.pulse.minuteFull = true) :
    s.endMinute =
      (let total := min 65535 (s.pulse.waiting + s.fallbackQuanta)
      let offers := 0 < total ∧ s.pulse.outstanding = false
      { s with
        pulse :=
          { s.pulse with
            minuteImports := 0, minuteExports := 0, minuteFull := true, lastDemand := s.minuteDemand
            waiting := if offers then total - 1 else total
            outstanding := if offers then true else s.pulse.outstanding }
        arrivals := s.arrivals ++ (if offers then [.quantum] else [])
        supply :=
          { s.supply with demandHanded := s.supply.demandHanded || s.demandOver s.minuteDemand } }) := by
  rw [State.endMinute, h, if_pos rfl]
  unfold State.judgeMinute
  dsimp only
  rw [State.addQuanta_eq]
  change State.updatePulse (if s.demandOver s.minuteDemand = true then _ else _) _ = _
  split
  · next hover => rw [hover, Bool.or_true]; rfl
  · next hover => rw [Bool.eq_false_iff.mpr hover, Bool.or_false]; rfl

/-- The end of a minute leaves all but the pulse input unit, the arrivals and the demand hand-off. -/
theorem State.endMinute_frame (s : State) :
    ∃ u l d, s.endMinute = { s with pulse := u, arrivals := l, supply := { s.supply with demandHanded := d } } := by
  cases hfull : s.pulse.minuteFull with
  | false => exact ⟨_, s.arrivals, s.supply.demandHanded, State.endMinute_of_short hfull⟩
  | true => exact ⟨_, _, _, State.endMinute_of_full hfull⟩

/-- The state with the clock unit and the waiting edges replaced. -/
def State.withWindow (s : State) (unit : ClockUnit) (edges : List WindowEdge) : State :=
  { s with clockUnit := unit, supply := { s.supply with edges := edges } }

/-- The end of a minute reads of the clock unit the window state alone, and leaves it and the edges as they are. -/
theorem State.endMinute_withWindow (s : State) {unit : ClockUnit}
    (h : unit.windowInForce = s.clockUnit.windowInForce) (edges : List WindowEdge) :
    (s.withWindow unit edges).endMinute = s.endMinute.withWindow unit edges := by
  have hover (demand : Nat) : (s.withWindow unit edges).demandOver demand = s.demandOver demand := by
    simp only [State.demandOver, State.demandModeApplies, State.withWindow, h]
    rfl
  cases hfull : s.pulse.minuteFull with
  | false =>
    have hu : (s.withWindow unit edges).pulse.minuteFull = false := hfull
    rw [State.endMinute_of_short hu, State.endMinute_of_short hfull]
    rfl
  | true =>
    have hu : (s.withWindow unit edges).pulse.minuteFull = true := hfull
    rw [State.endMinute_of_full hu, State.endMinute_of_full hfull, hover]
    rfl

theorem State.demandOver_iff (s : State) (demand : Nat) :
    s.demandOver demand = true ↔
      s.nv.settings.demandLimit ≠ 0 ∧
        (s.nv.settings.demandMode = .always ∨ s.nv.account.emergencyActive = true ∨
          s.clockUnit.windowInForce = true) ∧
        s.nv.settings.demandLimit < demand := by
  unfold State.demandOver State.demandModeApplies
  cases s.nv.settings.demandMode <;> simp [and_assoc]

theorem State.fallbackQuanta_eq (s : State) :
    s.fallbackQuanta =
      (if s.nv.tampers.magnetic.state = .active then
        s.nv.settings.fallback * (match s.nv.settings.phases with | .one => 1 | .three => 3) - s.pulse.minuteImports
      else 0) := by
  unfold State.fallbackQuanta
  cases s.nv.settings.phases <;> rfl

/-! ## MINUTE_END (R28, R44, R45, R56) -/

/-- The state with the window state in force that the demand mode reads at the end of a minute (R60). -/
def State.judgedUnder (s : State) (windowFirst : Bool) : State :=
  { s with
    clockUnit :=
      { s.clockUnit with
        windowInForce :=
          if windowFirst then s.nv.activeTariff.friendlyAt s.clock else s.clockUnit.windowInForce } }

/-- The two blocks' parts do not meet but in the window state that the demand mode reads. -/
theorem execMinuteEnd_of_mark {s : State} (windowFirst : Bool) (hr : s.isRunning = true)
    (hm : s.clockUnit.minuteMark = true) :
    exec (.minuteEnd windowFirst) s =
      .next
        ((s.judgedUnder windowFirst).endMinute.withWindow
          { s.clockUnit with minuteMark := false, windowInForce := s.nv.activeTariff.friendlyAt s.clock }
          (s.supply.edges ++ s.windowEdges)) := by
  change execMinuteEnd windowFirst s = _
  rw [execMinuteEnd, ifRunning_of_running _ hr, if_pos hm]
  let unmarked : ClockUnit := { s.clockUnit with minuteMark := false }
  let u := s.withWindow unmarked s.supply.edges
  change Host.Outcome.next (if windowFirst then u.reevaluateWindow.endMinute else u.endMinute.reevaluateWindow) = _
  congr 1
  cases windowFirst with
  | true =>
    let judged : ClockUnit := { unmarked with windowInForce := s.nv.activeTariff.friendlyAt s.clock }
    have hu : u.reevaluateWindow = (s.judgedUnder true).withWindow judged (s.supply.edges ++ s.windowEdges) :=
      u.reevaluateWindow_eq
    have hw : judged.windowInForce = (s.judgedUnder true).clockUnit.windowInForce := rfl
    rw [if_pos rfl, hu, State.endMinute_withWindow _ hw]
  | false =>
    have hw : unmarked.windowInForce = s.clockUnit.windowInForce := rfl
    have hu : u.endMinute = s.endMinute.withWindow unmarked s.supply.edges := s.endMinute_withWindow hw _
    obtain ⟨_, _, _, hend⟩ := s.endMinute_frame
    rw [if_neg (by decide), hu, State.reevaluateWindow_eq, show s.judgedUnder false = s from rfl, hend]
    rfl

/-- What `windowFirst` names is the window state that the judgement of the demand reads (R60). -/
theorem State.judgedUnder_demandOver (s : State) (windowFirst : Bool) (demand : Nat) :
    (s.judgedUnder windowFirst).demandOver demand = true ↔
      s.nv.settings.demandLimit ≠ 0 ∧
        (s.nv.settings.demandMode = .always ∨ s.nv.account.emergencyActive = true ∨
          (if windowFirst then s.nv.activeTariff.friendlyAt s.clock else s.clockUnit.windowInForce) = true) ∧
        s.nv.settings.demandLimit < demand :=
  (s.judgedUnder windowFirst).demandOver_iff demand

/-- Settles O18: `execMinuteEnd_of_mark`, by whether the minute was full. -/
theorem minuteEndIsJudged : Obligations.MinuteEndIsJudged := by
  refine ⟨fun windowFirst s hr hm => ⟨_, execMinuteEnd_of_mark windowFirst hr hm, ⟨rfl, rfl⟩, ?_⟩,
    fun windowFirst s hr hm hfull => ⟨_, execMinuteEnd_of_mark windowFirst hr hm, ?_⟩⟩
  · obtain ⟨full, hfull⟩ : ∃ b, s.pulse.minuteFull = b := ⟨_, rfl⟩
    cases full with
    | false =>
      have hu : (s.judgedUnder windowFirst).pulse.minuteFull = false := hfull
      rw [State.endMinute_of_short hu]
      exact ⟨rfl, rfl, rfl, fun _ => ⟨rfl, rfl, rfl⟩, rfl⟩
    | true =>
      have hu : (s.judgedUnder windowFirst).pulse.minuteFull = true := hfull
      rw [State.endMinute_of_full hu]
      exact ⟨rfl, rfl, rfl, fun h => absurd (h.symm.trans hfull) (by decide), rfl⟩
  · have hu : (s.judgedUnder windowFirst).pulse.minuteFull = true := hfull
    have hfallback : (s.judgedUnder windowFirst).fallbackQuanta = _ := s.fallbackQuanta_eq
    rw [State.endMinute_of_full hu, State.minuteDemand, hfallback]
    refine ⟨⟨rfl, rfl, ?_⟩, rfl, rfl⟩
    exact (Bool.or_eq_true _ _).to_iff.trans (or_congr_right (s.judgedUnder_demandOver windowFirst _))

end Sys2Proof.Machine
end

