-- ==== Sys2Proof/Proofs/TariffForm.lean ====
section
namespace Sys2Proof.Machine

/-! ## Numbers and slots read back (R191) -/

theorem ofBytes_toBytes {n x : Nat} (h : x < 256 ^ n) : ofBytes (toBytes n x) = x := by
  induction n generalizing x with
  | zero =>
    have hx : x = 0 := by simpa using h
    exact hx.symm
  | succ n ih =>
    rw [toBytes, ofBytes, ih (Nat.div_lt_of_lt_mul (by rwa [pow_succ'] at h)), BitVec.toNat_ofNat]
    exact Nat.mod_add_div x 256

/-- A number written behind `offset` bytes is read back at that offset. -/
theorem field_toBytes {payload pre post : List Byte} {offset n x : Nat} (hpayload : payload = pre ++ (toBytes n x ++ post))
    (hoffset : pre.length = offset) (hx : x < 256 ^ n) : field payload offset n = x := by
  rw [field, hpayload, List.drop_left' hoffset, List.take_left' (length_toBytes n x), ofBytes_toBytes hx]

/-- Numbers written behind `offset` bytes are read back from slots at that offset. -/
theorem slots_toBytes {payload pre post : List Byte} {offset width n : Nat} {xs : List Nat}
    (hpayload : payload = pre ++ ((xs.map (toBytes width)).flatten ++ post)) (hoffset : pre.length = offset)
    (hn : xs.length = n) (hxs : ∀ x ∈ xs, x < 256 ^ width) : slots payload offset width n = xs := by
  subst hn
  induction xs generalizing pre offset with
  | nil => rfl
  | cons x xs ih =>
    have hhead : payload = pre ++ (toBytes width x ++ ((xs.map (toBytes width)).flatten ++ post)) := by
      rw [hpayload, List.map_cons, List.flatten_cons, List.append_assoc]
    have hrest := ih (pre := pre ++ toBytes width x) (offset := offset + width)
      (by rw [hhead, List.append_assoc]) (by rw [List.length_append, hoffset, length_toBytes])
      fun y hy => hxs y (List.mem_cons_of_mem x hy)
    rw [List.length_cons, slots, field_toBytes hhead hoffset (hxs x List.mem_cons_self), hrest]

theorem length_flatten_toBytes (width : Nat) (xs : List Nat) :
    ((xs.map (toBytes width)).flatten).length = xs.length * width := by
  induction xs with
  | nil => simp
  | cons x xs ih => simp [ih, Nat.succ_mul, Nat.add_comm]

/-! ## Lists padded with unused slots (R37) -/

@[simp] theorem length_padSlots (unused n : Nat) (xs : List Nat) : (padSlots unused n xs).length = n := by
  induction n generalizing xs with
  | zero => rfl
  | succ n ih => cases xs <;> simp [padSlots, ih]

theorem mem_padSlots {unused n x : Nat} {xs : List Nat} (h : x ∈ padSlots unused n xs) : x = unused ∨ x ∈ xs := by
  induction n generalizing xs with
  | zero => simp [padSlots] at h
  | succ n ih =>
    cases xs with
    | nil =>
      rcases List.mem_cons.mp h with rfl | h
      · exact .inl rfl
      · exact ih h
    | cons y ys =>
      rcases List.mem_cons.mp h with rfl | h
      · exact .inr List.mem_cons_self
      · exact (ih h).imp_right (List.mem_cons_of_mem y)

theorem padSlots_of_full {unused n : Nat} {xs : List Nat} (h : xs.length = n) : padSlots unused n xs = xs := by
  subst h
  induction xs with
  | nil => rfl
  | cons x xs ih => rw [List.length_cons, padSlots, ih]

/-- The slots in use of a padded list are the list, when no number of it looks unused. -/
theorem usedSlots_padSlots {unused n : Nat} {xs : List Nat} (hlen : xs.length ≤ n) (hused : unused ∉ xs) :
    usedSlots unused (padSlots unused n xs) = some xs := by
  induction n generalizing xs with
  | zero => rw [List.length_eq_zero_iff.mp (Nat.le_zero.mp hlen)]; rfl
  | succ n ih =>
    cases xs with
    | nil =>
      have hall : (padSlots unused n []).all (· == unused) = true :=
        List.all_eq_true.mpr fun x hx => by simpa using mem_padSlots hx
      rw [padSlots, usedSlots, if_pos rfl, if_pos hall]
    | cons x xs =>
      obtain ⟨hx, hxs⟩ := not_or.mp (mt List.mem_cons.mpr hused)
      rw [padSlots, usedSlots, if_neg (Ne.symm hx), ih (Nat.le_of_succ_le_succ hlen) hxs, Option.map_some]

/-! ## Switch points and windows in their slots (R37) -/

/-- What a slot holds of a switch point. -/
def SwitchPoint.slot (p : SwitchPoint) : Nat := p.band * 2048 + p.minute

/-- What a slot holds of a window. -/
def DayWindow.slot (w : DayWindow) : Nat := w.start * 2048 + w.stop

theorem pointOfSlot_slot {p : SwitchPoint} (h : p.minute ≤ 1439) : pointOfSlot p.slot = p := by
  have hm : p.slot % 2048 = p.minute := by unfold SwitchPoint.slot; omega
  have hb : p.slot / 2048 = p.band := by unfold SwitchPoint.slot; omega
  rw [pointOfSlot, hm, hb]

theorem windowOfSlot_slot {w : DayWindow} (h : w.stop ≤ 1439) : windowOfSlot w.slot = w := by
  have hs : w.slot % 2048 = w.stop := by unfold DayWindow.slot; omega
  have hb : w.slot / 2048 = w.start := by unfold DayWindow.slot; omega
  rw [windowOfSlot, hs, hb]

/-- A list written to `n` slots at an offset, the unused ones last, is read back from the slots in use there. -/
theorem usedSlots_slots {α : Type} {slot : α → Nat} {xs : List α} {payload pre post : List Byte}
    {offset width n unused : Nat}
    (hpayload : payload = pre ++ (((padSlots unused n (xs.map slot)).map (toBytes width)).flatten ++ post))
    (hoffset : pre.length = offset) (hlen : xs.length ≤ n) (hunused : unused < 256 ^ width)
    (hslot : ∀ x ∈ xs, slot x < unused) :
    usedSlots unused (slots payload offset width n) = some (xs.map slot) := by
  have hsmall (y : Nat) (hy : y ∈ xs.map slot) : y < unused := by
    obtain ⟨x, hx, rfl⟩ := List.mem_map.mp hy
    exact hslot x hx
  rw [slots_toBytes hpayload hoffset (length_padSlots _ _ _), usedSlots_padSlots (by rwa [List.length_map])]
  · exact fun hmem => Nat.lt_irrefl _ (hsmall unused hmem)
  · intro y hy
    rcases mem_padSlots hy with rfl | hy
    · exact hunused
    · exact (hsmall y hy).trans hunused

theorem map_ofSlot_slot {α : Type} {slot : α → Nat} {ofSlot : Nat → α} {xs : List α}
    (h : ∀ x ∈ xs, ofSlot (slot x) = x) : (xs.map slot).map ofSlot = xs := by
  rw [List.map_map]
  exact (List.map_congr_left h).trans (List.map_id xs)

/-! ## The form (R34, R37) -/

/-- What the ranges of R34 say of a schedule's switch points. -/
theorem of_scheduleValid {ps : List SwitchPoint} (h : scheduleValid ps = true) :
    ps.length ≤ 6 ∧ ∀ p ∈ ps, p.minute ≤ 1439 ∧ p.slot < unusedPoint := by
  simp only [scheduleValid, Bool.and_eq_true, decide_eq_true_eq, List.all_eq_true] at h
  obtain ⟨⟨hlen, hall⟩, -⟩ := h
  refine ⟨hlen, fun p hp => ⟨(hall p hp).2, ?_⟩⟩
  obtain ⟨hband, hminute⟩ := hall p hp
  unfold SwitchPoint.slot unusedPoint
  omega

/-- What the ranges of R34 say of a list of windows. -/
theorem of_windowsValid {ws : List DayWindow} (h : windowsValid ws = true) :
    ws.length ≤ 2 ∧ ∀ w ∈ ws, w.stop ≤ 1439 ∧ w.slot < unusedWindow := by
  simp only [windowsValid, Bool.and_eq_true, decide_eq_true_eq, List.all_eq_true] at h
  obtain ⟨hlen, hall⟩ := h
  refine ⟨hlen, fun w hw => ⟨(hall w hw).2, ?_⟩⟩
  obtain ⟨hstart, hstop⟩ := hall w hw
  unfold DayWindow.slot unusedWindow
  omega

/-- What the flags byte of the form holds: the rest days in its low bits, the whole-day mark in its highest (R37). -/
theorem flags_read (r : BitVec 7) (b : Bool) :
    r.toNat + 128 * yesNo b < 256 ∧ BitVec.ofNat 7 (r.toNat + 128 * yesNo b) = r ∧
      decide (128 ≤ r.toNat + 128 * yesNo b) = b := by
  have hr := r.isLt
  refine ⟨?_, BitVec.eq_of_toNat_eq ?_, ?_⟩
  · cases b <;> (simp [yesNo]; omega)
  · rw [BitVec.toNat_ofNat]
    omega
  · cases b with
    | false => simpa [yesNo] using hr
    | true => simp [yesNo]

/-- The parts of the form, in their order (R37). -/
def TariffSet.formParts (t : TariffSet) : List (List Byte) :=
  [toBytes 4 t.time,
    ((padSlots 0 4 t.prices).map (toBytes 3)).flatten,
    toBytes 1 (t.restDays.toNat + 128 * yesNo t.wholeDayFriendly),
    toBytes 3 t.standingCharge,
    ((padSlots unusedPoint 6 (t.workdaySchedule.map SwitchPoint.slot)).map (toBytes 2)).flatten,
    ((padSlots unusedPoint 6 (t.restDaySchedule.map SwitchPoint.slot)).map (toBytes 2)).flatten,
    ((padSlots unusedWindow 2 (t.workdayWindows.map DayWindow.slot)).map (toBytes 3)).flatten,
    ((padSlots unusedWindow 2 (t.restDayWindows.map DayWindow.slot)).map (toBytes 3)).flatten]

theorem encodeTariff_eq_flatten (t : TariffSet) : encodeTariff t = t.formParts.flatten := by
  simp only [encodeTariff, TariffSet.formParts, List.flatten_cons, List.flatten_nil, List.append_nil, List.append_assoc]
  rfl

/-- The bytes of a part of the form, and where they stand. -/
theorem flatten_of_getElem? {parts : List (List Byte)} {k : Nat} {part : List Byte} (h : parts[k]? = some part) :
    parts.flatten = (parts.take k).flatten ++ (part ++ (parts.drop (k + 1)).flatten) := by
  obtain ⟨hk, rfl⟩ := List.getElem?_eq_some_iff.mp h
  rw [← List.flatten_cons, List.getElem_cons_drop, ← List.flatten_append, List.take_append_drop]

theorem TariffSet.map_length_formParts (t : TariffSet) :
    (t.formParts.map List.length) = [4, 12, 1, 3, 12, 12, 6, 6] := by
  simp [TariffSet.formParts, length_flatten_toBytes, -List.length_flatten]

theorem TariffSet.length_take_formParts (t : TariffSet) (k : Nat) :
    (t.formParts.take k).flatten.length = ([4, 12, 1, 3, 12, 12, 6, 6].take k).sum := by
  rw [List.length_flatten, List.map_take, t.map_length_formParts]

theorem length_encodeTariff (t : TariffSet) : (encodeTariff t).length = 56 := by
  rw [encodeTariff_eq_flatten, List.length_flatten, t.map_length_formParts]
  rfl

/-- STAGE_TARIFF reads from the form of a set within the ranges of R34 that set. -/
theorem decodeTariff_encodeTariff {t : TariffSet} (h : t.valid = true) : decodeTariff (encodeTariff t) = some t := by
  have hvalid := h
  simp only [TariffSet.valid, Bool.and_eq_true, decide_eq_true_eq, List.all_eq_true, beq_iff_eq] at h
  obtain ⟨⟨⟨⟨⟨⟨⟨htime, hprices⟩, hprice⟩, hcharge⟩, hwork⟩, hrest⟩, hworkWindows⟩, hrestWindows⟩ := h
  obtain ⟨hworkLen, hworkSlot⟩ := of_scheduleValid hwork
  obtain ⟨hrestLen, hrestSlot⟩ := of_scheduleValid hrest
  obtain ⟨hworkWindowsLen, hworkWindowsSlot⟩ := of_windowsValid hworkWindows
  obtain ⟨hrestWindowsLen, hrestWindowsSlot⟩ := of_windowsValid hrestWindows
  obtain ⟨hflags, hrestDays, hwholeDay⟩ := flags_read t.restDays t.wholeDayFriendly
  have part {k : Nat} {part : List Byte} (hk : t.formParts[k]? = some part) :=
    (encodeTariff_eq_flatten t).trans (flatten_of_getElem? hk)
  have time : field (encodeTariff t) 0 4 = t.time :=
    field_toBytes (part (k := 0) rfl) (t.length_take_formParts 0) (by unfold maxClock at htime; omega)
  have prices : slots (encodeTariff t) 4 3 4 = t.prices := by
    have hpad := padSlots_of_full (unused := 0) hprices
    have hsmall : ∀ x ∈ padSlots 0 4 t.prices, x < 256 ^ 3 := by
      rw [hpad]
      exact fun x hx => (hprice x hx).trans_lt (by decide)
    exact (slots_toBytes (part (k := 1) rfl) (t.length_take_formParts 1) (length_padSlots _ _ _) hsmall).trans hpad
  have flags : field (encodeTariff t) 16 1 = t.restDays.toNat + 128 * yesNo t.wholeDayFriendly :=
    field_toBytes (part (k := 2) rfl) (t.length_take_formParts 2) hflags
  have charge : field (encodeTariff t) 17 3 = t.standingCharge :=
    field_toBytes (part (k := 3) rfl) (t.length_take_formParts 3) (by omega)
  have work : usedSlots unusedPoint (slots (encodeTariff t) 20 2 6) = some (t.workdaySchedule.map SwitchPoint.slot) :=
    usedSlots_slots (part (k := 4) rfl) (t.length_take_formParts 4) hworkLen (by decide) fun p hp => (hworkSlot p hp).2
  have rest : usedSlots unusedPoint (slots (encodeTariff t) 32 2 6) = some (t.restDaySchedule.map SwitchPoint.slot) :=
    usedSlots_slots (part (k := 5) rfl) (t.length_take_formParts 5) hrestLen (by decide) fun p hp => (hrestSlot p hp).2
  have workWindows :
      usedSlots unusedWindow (slots (encodeTariff t) 44 3 2) = some (t.workdayWindows.map DayWindow.slot) :=
    usedSlots_slots (part (k := 6) rfl) (t.length_take_formParts 6) hworkWindowsLen (by decide) fun w hw =>
      (hworkWindowsSlot w hw).2
  have restWindows :
      usedSlots unusedWindow (slots (encodeTariff t) 50 3 2) = some (t.restDayWindows.map DayWindow.slot) :=
    usedSlots_slots (part (k := 7) rfl) (t.length_take_formParts 7) hrestWindowsLen (by decide) fun w hw =>
      (hrestWindowsSlot w hw).2
  have points {ps : List SwitchPoint} (hps : ∀ p ∈ ps, p.minute ≤ 1439 ∧ p.slot < unusedPoint) :=
    map_ofSlot_slot (slot := SwitchPoint.slot) fun p hp => pointOfSlot_slot (hps p hp).1
  have windows {ws : List DayWindow} (hws : ∀ w ∈ ws, w.stop ≤ 1439 ∧ w.slot < unusedWindow) :=
    map_ofSlot_slot (slot := DayWindow.slot) fun w hw => windowOfSlot_slot (hws w hw).1
  simp only [decodeTariff, work, rest, workWindows, restWindows, time, prices, flags, charge, hrestDays, hwholeDay,
    points hworkSlot, points hrestSlot, windows hworkWindowsSlot, windows hrestWindowsSlot, bind, Option.bind_some]
  exact if_pos hvalid

/-! ## READ_TARIFF (R41) -/

theorem execReadTariff_of_request {s : State} {p : Port} {r : Request} (hr : s.isRunning = true)
    (hreq : s.requestOf p .readTariff = some r) :
    exec (.readTariff p) s =
      .next
        (if field r.payload 0 1 = 0 then s.answer p .ok (encodeTariff s.nv.activeTariff)
        else if field r.payload 0 1 = 1 then
          s.answer p .ok (match s.nv.pendingTariff with | some t => encodeTariff t | none => [])
        else s.answer p .range []) := by
  change execReadTariff p s = _
  rw [execReadTariff, ifRunning_of_running _ hr, hreq]
  dsimp only
  generalize field r.payload 0 1 = which
  match which with
  | 0 => rfl
  | 1 => rfl
  | _ + 2 => rfl

/-- Settles O15: the form by its parts, and READ_TARIFF's answer by the number it names. -/
theorem tariffFormRoundTrips : Obligations.TariffFormRoundTrips :=
  ⟨fun t h => ⟨length_encodeTariff t, decodeTariff_encodeTariff h⟩,
    fun _ _ _ hr hreq => execReadTariff_of_request hr hreq⟩

end Sys2Proof.Machine
end

