-- ==== Sys2Proof/Proofs/TariffRequests.lean ====
section
namespace Sys2Proof.Machine

/-! ## Requests of the clock and tariff unit that are tested for room (R22, R159) -/

/-- An event tested for room whose write, with a clock value or without, may begin is taken at the journal's turn. -/
theorem Event.takesTurn_commitSetting {s : State} {e : Event} {c : Instr} {b : Block} (clock : Option Nat)
    (hw : e.state.writes = s.writes) (h : s.mayBegin c b true = true) :
    s.takesTurn c b (e.commitSetting b clock) = (e.commitSetting b clock).leaveLine c :=
  State.takesTurn_of_mayBegin h (by rw [← hw]; rfl) (State.mayBegin_weaken h fun _ => rfl)

/-- A request tested for room waits for its turn; at its turn it makes its write, or is refused for want of room. -/
theorem State.takesTurn_of_room {s t : State} {e : Event} {c : Instr} {b : Block} {p : Port} {clock : Option Nat}
    (hw : e.state.writes = s.writes) (ht : e.commitSetting b clock = t) :
    s.takesTurn c b (if s.hasRoom then e.commitSetting b clock else s.answer p .journalFull []) =
      if s.mayBegin c b true = false then s.waits c b
      else (if s.nv.journal.free < 17 then s.answer p .journalFull [] else t).leaveLine c := by
  by_cases hmay : s.mayBegin c b true = true
  · rw [if_neg (mt (hmay.symm.trans ·) (by decide))]
    by_cases hroom : s.hasRoom = true
    · rw [if_pos hroom, if_neg (s.hasRoom_iff.mp hroom), Event.takesTurn_commitSetting clock hw hmay, ht]
    · rw [if_neg hroom, if_pos (not_not.mp (mt s.hasRoom_iff.mpr hroom))]
      exact State.takesTurn_of_writes hmay (s.answer_writes p .journalFull [])
  · have hwait : s.mayBegin c b true = false := by simpa using hmay
    rw [if_pos hwait]
    exact State.takesTurn_of_waits _ hwait

/-! ## SET_CLOCK (R31 to R33, R39) -/

theorem execSetClock_of_request {s : State} {r : Request} (hr : s.isRunning = true)
    (hreq : s.requestOf .l .setClock = some r) :
    exec .setClock s =
      .next
        (let new := field r.payload 0 4
        if s.stepPasses new = false then (s.answer .l .clockStep []).leaveLine .setClock
        else s.takesTurn .setClock .clockTariff
          (if s.hasRoom then ((s.takeRequest .l).setClockEvent new).commitSetting .clockTariff (some new)
          else s.answer .l .journalFull [])) := by
  change execSetClock s = _
  rw [execSetClock, ifRunning_of_running _ hr, hreq]

/-- A set fails the step test when its step is above 900 s with the window closed and the clock valid (R31). -/
theorem State.stepPasses_eq_false_iff (s : State) (new : Nat) :
    s.stepPasses new = false ↔
      (900 < new - s.clock ∨ 900 < s.clock - new) ∧ s.nv.window = none ∧ s.ret.valid = true := by
  have hstep : clockStep new s.clock ≤ 900 ↔ ¬ (900 < new - s.clock ∨ 900 < s.clock - new) := by
    unfold clockStep
    omega
  simp only [State.stepPasses, Bool.or_eq_false_iff, decide_eq_false_iff_not, hstep, not_not, Bool.not_eq_false',
    Option.isSome_eq_false_iff, Option.isNone_iff_eq_none, and_assoc]

/-- The write of a taken SET_CLOCK, by whether the set reaches a pending tariff set (R32, R33, R39). -/
theorem State.setClockEvent_commit (s : State) (new : Nat) :
    ((s.takeRequest .l).setClockEvent new).commitSetting .clockTariff (some new) =
      (let passed := if s.ret.valid then s.passedOverBy new else 0
      let base : Nv :=
        { s.nv with
          storedClock := new
          lastChargedDay := if s.ret.valid then s.nv.lastChargedDay else new / 86400 - 1 }
      match s.nv.dueTariff new with
      | none =>
        (s.takeRequest .l).withWrite base .clockTariff .lPort [.clockSet s.clock new passed]
          [.answer .l .ok [], .notice .clockChanged, .clockMoved s.clock new s.ret.valid] (some new)
      | some due =>
        (s.takeRequest .l).withWrite { base with activeTariff := due, pendingTariff := none } .clockTariff .lPort
          [.clockSet s.clock new passed, .tariffActivated due.time]
          [.answer .l .ok [], .notice .clockChanged, .notice .tariffChanged,
            .clockMoved s.clock new s.ret.valid] (some new)) := by
  have hdue : (s.takeRequest .l).nv.dueTariff new = s.nv.dueTariff new := rfl
  unfold State.setClockEvent
  rw [hdue]
  cases s.nv.dueTariff new with
  | none => exact Event.commitSetting_eq _ _ _ _ s rfl rfl
  | some due => exact Event.commitSetting_eq _ _ _ _ s rfl rfl

/-- Settles O16: the refusals in order, and the write by `State.setClockEvent_commit`. -/
theorem setClockIsTaken : Obligations.SetClockIsTaken := by
  intro s r hr hreq
  rw [execSetClock_of_request hr hreq]
  refine congrArg _ (if_congr (s.stepPasses_eq_false_iff _) rfl ?_)
  refine (State.takesTurn_of_room ?_ (s.setClockEvent_commit _)).trans ?_
  · unfold State.setClockEvent
    cases (s.takeRequest .l).nv.dueTariff (field r.payload 0 4) <;> rfl
  · cases s.nv.dueTariff (field r.payload 0 4) <;> rfl

/-! ## STAGE_TARIFF, TARIFF_ACTIVATION and CANCEL_TARIFF (R37 to R40) -/

theorem execStageTariff_of_range {s : State} {r : Request} (hr : s.isRunning = true)
    (hreq : s.requestOf .l .stageTariff = some r) (hd : decodeTariff r.payload = none) :
    exec .stageTariff s = .next ((s.answer .l .range []).leaveLine .stageTariff) := by
  change execStageTariff s = _
  simp only [execStageTariff, ifRunning_of_running _ hr, hreq, hd]

theorem execStageTariff_of_set {s : State} {r : Request} {t : TariffSet} (hr : s.isRunning = true)
    (hreq : s.requestOf .l .stageTariff = some r) (hd : decodeTariff r.payload = some t) :
    exec .stageTariff s =
      .next
        (s.takesTurn .stageTariff .clockTariff
          (if s.hasRoom then ((s.takeRequest .l).stageEvent t).commit .clockTariff
          else s.answer .l .journalFull [])) := by
  change execStageTariff s = _
  simp only [execStageTariff, ifRunning_of_running _ hr, hreq, hd]

/-- The write of a taken STAGE_TARIFF, by whether the time of its set is reached (R38, R39). -/
theorem State.stageEvent_commit (s : State) (t : TariffSet) :
    ((s.takeRequest .l).stageEvent t).commit .clockTariff =
      if s.ret.valid = true ∧ t.time ≤ s.clock then
        (s.takeRequest .l).withWrite { s.nv with activeTariff := t, pendingTariff := none } .clockTariff .lPort
          [.tariffStaged t.time s.nv.pendingTariff.isSome, .tariffActivated t.time]
          [.answer .l .ok [], .notice .tariffChanged, .windowReevaluated] none
      else
        (s.takeRequest .l).withWrite { s.nv with pendingTariff := some t } .clockTariff .lPort
          [.tariffStaged t.time s.nv.pendingTariff.isSome] [.answer .l .ok []] none := by
  unfold State.stageEvent
  by_cases h : s.ret.valid = true ∧ t.time ≤ s.clock
  · have hu : (s.takeRequest .l).ret.valid = true ∧ t.time ≤ (s.takeRequest .l).clock := h
    rw [if_pos h, if_pos hu]
    exact Event.commitSetting_eq _ _ _ _ s rfl rfl
  · have hu : ¬ ((s.takeRequest .l).ret.valid = true ∧ t.time ≤ (s.takeRequest .l).clock) := h
    rw [if_neg h, if_neg hu]
    exact Event.commitSetting_eq _ _ _ _ s rfl rfl

theorem execTariffActivation_of_due {s : State} {t : TariffSet} (hr : s.isRunning = true) (hv : s.ret.valid = true)
    (hp : s.nv.pendingTariff = some t) (hd : t.time ≤ s.clock) :
    exec .tariffActivation s =
      .next (s.takes .tariffActivation none
        (((((Event.begin s .device).activate t).notify .tariffChanged).andThen .windowReevaluated).commit
          .clockTariff)) := by
  have hdue : s.nv.dueTariff s.clock = some t := by rw [Nv.dueTariff, hp]; exact if_pos hd
  change execTariffActivation s = _
  rw [execTariffActivation, whenRunning_of_running _ _ hr, hv, hdue]

theorem execCancelTariff_of_request {s : State} {r : Request} (hr : s.isRunning = true)
    (hreq : s.requestOf .l .cancelTariff = some r) :
    exec .cancelTariff s =
      .next
        (if s.nv.pendingTariff = none then (s.answer .l .ok []).leaveLine .cancelTariff
        else s.takesTurn .cancelTariff .clockTariff
          (if s.hasRoom then
            ((((Event.begin (s.takeRequest .l) .lPort).updateNv (fun n => { n with pendingTariff := none })).log
              .tariffCancelled).andThen (.answer .l .ok [])).commit .clockTariff
          else s.answer .l .journalFull [])) := by
  change execCancelTariff s = _
  rw [execCancelTariff, ifRunning_of_running _ hr, hreq]

/-- Settles O17: each request and application by its write, and the activation by its turn. -/
theorem tariffSetsAreStagedAndActivated : Obligations.TariffSetsAreStagedAndActivated := by
  refine ⟨fun s r hr hreq => ?_, ⟨fun s t hr hv hp hd => ?_, fun s r hr hreq => ?_⟩, fun s c hr ha hfree hmay => ?_⟩
  · cases hd : decodeTariff r.payload with
    | none => exact execStageTariff_of_range hr hreq hd
    | some t =>
      rw [execStageTariff_of_set hr hreq hd]
      refine congrArg _ (State.takesTurn_of_room ?_ (s.stageEvent_commit t))
      unfold State.stageEvent
      dsimp only
      split <;> rfl
  · rw [execTariffActivation_of_due hr hv hp hd]
    refine congrArg _ ?_
    cases hmay : s.mayBegin .tariffActivation .clockTariff true with
    | false => exact Event.takes_commit_waits rfl (List.cons_ne_nil _ _) hmay
    | true =>
      refine (Event.takes_commit (by rfl) hmay fun _ => rfl).trans (congrArg (State.leaveLine · .tariffActivation) ?_)
      exact Event.commitSetting_eq _ _ _ _ s rfl rfl
  · rw [execCancelTariff_of_request hr hreq]
    refine congrArg _ (if_congr Iff.rfl rfl (State.takesTurn_of_room rfl ?_))
    exact Event.commitSetting_eq _ _ _ _ s rfl rfl
  · obtain ⟨-, -, hkind⟩ := s.applicationOf_spec ha
    rw [execBandPrice_of_application hr ha, State.applyCode_taken (by exact hfree)]
    refine congrArg _ ((Event.takesTurn_commit (by rfl) hmay).trans (congrArg (State.leaveLine · .bandPrice) ?_))
    refine (Event.commitSetting_eq _ _ _ _ s rfl rfl).trans ?_
    rw [Event.served_state, ← hkind]
    rfl

end Sys2Proof.Machine
end

