-- ==== Sys2Proof/Laws/RangeLaw.lean ====
section
namespace Sys2Proof.Machine

/-! ## What the ranges of the pulse counts and of the clock values read of a state (R27, R51, R205)

Most of what a command does leaves this view as it is, or begins one write of a state that has the view of the state it
began in. -/

/-- The pulse input unit, the clock, the stored clock as the blocks and as the store hold it, the writes on their way
and the power. -/
structure RangeView where
  pulse : PulseUnit
  clock : Nat
  held : Nat
  stored : Nat
  writes : List Write
  power : Power

/-- A state's view. -/
def State.rangeView (s : State) : RangeView where
  pulse := s.pulse
  clock := s.clock
  held := s.nv.storedClock
  stored := s.stored.storedClock
  writes := s.writes
  power := s.power

/-- The law on the clock values, read of a view. -/
structure RangeView.ClockLaw (v : RangeView) : Prop where
  clock : v.clock ≤ maxClock
  held : v.held ≤ maxClock
  stored : v.stored ≤ maxClock
  images : ∀ w ∈ v.writes, w.image.storedClock ≤ maxClock
  sets : ∀ w ∈ v.writes, ∀ t, w.setsClock = some t → t ≤ maxClock
  starting : ∀ q, v.power = .starting q → q.clock ≤ v.clock ∧ ∀ w ∈ v.writes, w.setsClock = none

theorem State.clockLaw_iff (s : State) : s.clockLaw = true ↔ s.rangeView.ClockLaw := by
  have hsets : (s.writes.all (fun w => match w.setsClock with | some t => decide (t ≤ maxClock) | none => true)) = true ↔
      ∀ w ∈ s.writes, ∀ t, w.setsClock = some t → t ≤ maxClock := by
    rw [List.all_eq_true]
    refine forall₂_congr fun w _ => ?_
    cases w.setsClock <;> simp
  have hstarting :
      (match s.power with
        | .starting q => decide (q.clock ≤ s.clock) && s.writes.all (fun w => w.setsClock.isNone)
        | _ => true) = true ↔
      ∀ q, s.power = .starting q → q.clock ≤ s.clock ∧ ∀ w ∈ s.writes, w.setsClock = none := by
    cases s.power <;> simp
  have himages : (s.writes.all (fun w => decide (w.image.storedClock ≤ maxClock))) = true ↔
      ∀ w ∈ s.writes, w.image.storedClock ≤ maxClock := by
    simp only [List.all_eq_true, decide_eq_true_eq]
  constructor
  · intro h
    simp only [State.clockLaw, State.everyImage, Bool.and_eq_true, decide_eq_true_eq] at h
    obtain ⟨⟨⟨hclock, ⟨hheld, hstored⟩, h₀⟩, h₁⟩, h₂⟩ := h
    exact ⟨hclock, hheld, hstored, himages.mp h₀, hsets.mp h₁, hstarting.mp h₂⟩
  · intro ⟨hclock, hheld, hstored, h₀, h₁, h₂⟩
    simp only [State.clockLaw, State.everyImage, Bool.and_eq_true, decide_eq_true_eq]
    exact ⟨⟨⟨hclock, ⟨hheld, hstored⟩, himages.mpr h₀⟩, hsets.mpr h₁⟩, hstarting.mpr h₂⟩

/-! ## What an event of a block keeps -/

/-- From `s` to `t` the pulse counts stay in their ranges, the clock values keep their law, and the power is as it
was. -/
structure State.Keeps (s t : State) : Prop where
  pulse : s.pulse.inRange = true → t.pulse.inRange = true
  clock : s.rangeView.ClockLaw → t.rangeView.ClockLaw
  power : t.power = s.power

section
variable {s t u : State}

theorem State.Keeps.refl (s : State) : s.Keeps s := ⟨id, id, rfl⟩

theorem State.Keeps.trans (h : s.Keeps t) (k : t.Keeps u) : s.Keeps u :=
  ⟨k.pulse ∘ h.pulse, k.clock ∘ h.clock, k.power.trans h.power⟩

/-- What leaves the view as it is keeps the ranges. -/
theorem State.keeps_of_view (h : t.rangeView = s.rangeView) : s.Keeps t where
  pulse := by rw [show t.pulse = s.pulse from congrArg RangeView.pulse h]; exact id
  clock := by rw [h]; exact id
  power := congrArg RangeView.power h

/-- What changes of the view the pulse counts alone keeps the ranges if they stay in theirs. -/
theorem State.keeps_of_pulse (h : t.rangeView = { s.rangeView with pulse := t.pulse })
    (hp : s.pulse.inRange = true → t.pulse.inRange = true) : s.Keeps t where
  pulse := hp
  clock := fun ⟨h₁, h₂, h₃, h₄, h₅, h₆⟩ => by rw [h]; exact ⟨h₁, h₂, h₃, h₄, h₅, h₆⟩
  power := congrArg RangeView.power h

theorem State.keeps_ite {p : Prop} [Decidable p] (ht : p → s.Keeps t) (hu : ¬ p → s.Keeps u) :
    s.Keeps (if p then t else u) := by
  split
  · next h => exact ht h
  · next h => exact hu h

/-- A state that takes the clock for its stored clock keeps the ranges. -/
theorem State.keeps_of_held (h : t.rangeView = { s.rangeView with held := s.clock }) : s.Keeps t where
  pulse := by rw [show t.pulse = s.pulse from congrArg RangeView.pulse h]; exact id
  clock := fun ⟨h₁, _, h₃, h₄, h₅, h₆⟩ => by rw [h]; exact ⟨h₁, h₁, h₃, h₄, h₅, h₆⟩
  power := congrArg RangeView.power h

/-! ### Writes -/

/-- A write that puts no clock value in force, of a state whose stored clock is the one held, keeps the ranges. -/
theorem State.keeps_of_write {w : Write} (h : t.rangeView = { s.rangeView with writes := s.writes ++ [w] })
    (himage : w.image.storedClock = s.nv.storedClock) (hsets : w.setsClock = none) : s.Keeps t where
  pulse := by rw [show t.pulse = s.pulse from congrArg RangeView.pulse h]; exact id
  clock := by
    intro ⟨hclock, hheld, hstored, himages, hset, hstarting⟩
    have hmem {x : Write} (hx : x ∈ s.writes ++ [w]) : x ∈ s.writes ∨ x = w := by simpa using hx
    rw [h]
    refine ⟨hclock, hheld, hstored, fun x hx => ?_, fun x hx v hv => ?_, fun q hq => ⟨(hstarting q hq).1, fun x hx => ?_⟩⟩
    · rcases hmem hx with hx | rfl
      · exact himages x hx
      · exact himage.trans_le hheld
    · rcases hmem hx with hx | rfl
      · exact hset x hx v hv
      · exact absurd (hsets.symm.trans hv) (by simp)
    · rcases hmem hx with hx | rfl
      · exact (hstarting q hq).2 x hx
      · exact hsets
  power := congrArg RangeView.power h

theorem Event.keeps_commitMark (e : Event) (b : Block) (m : Option RetentionMark) :
    e.state.Keeps (e.commitSetting b none m) :=
  State.keeps_of_write rfl rfl rfl

theorem Event.keeps_commit (e : Event) (b : Block) : e.state.Keeps (e.commit b) := e.keeps_commitMark b none

/-- An event that has left the view as it is makes a write that keeps the ranges. -/
theorem Event.keeps_commit_of {e : Event} {b : Block} (h : e.state.rangeView = s.rangeView) : s.Keeps (e.commit b) :=
  (State.keeps_of_view h).trans (e.keeps_commit b)

theorem Event.keeps_commitClearing_of {e : Event} {b : Block} {m : RetentionMark}
    (h : e.state.rangeView = s.rangeView) : s.Keeps (e.commitClearing b m) :=
  (State.keeps_of_view h).trans (e.keeps_commitMark b (some m))

theorem Event.keeps_commitSupply_of {e : Event} {before : Nv} (h : e.state.rangeView = s.rangeView) :
    s.Keeps (e.commitSupply before) :=
  State.keeps_ite (fun _ => State.keeps_of_view h) fun _ => Event.keeps_commit_of h

/-- The write of a SET_CLOCK, made while the part runs, keeps the ranges (R32). -/
theorem Event.keeps_commitSetting_of {e : Event} {new : Nat} {b : Block}
    (h : e.state.rangeView = { s.rangeView with held := new })
    (hr : s.isRunning = true) (hnew : new ≤ maxClock) : s.Keeps (e.commitSetting b (some new)) where
  pulse := by rw [show (e.commitSetting b (some new)).pulse = s.pulse from congrArg RangeView.pulse h]; exact id
  clock := by
    intro ⟨hclock, hheld, hstored, himages, hset, hstarting⟩
    have hwrites : e.state.writes = s.writes := congrArg RangeView.writes h
    have hpower : e.state.power = s.power := congrArg RangeView.power h
    have hrunning : s.power = .running := by simpa [State.isRunning] using hr
    have himage : e.image.storedClock = new := congrArg RangeView.held h
    obtain ⟨w, hw, hsets, hw'⟩ : ∃ w : Write, (e.commitSetting b (some new)).rangeView.writes = s.writes ++ [w] ∧
        w.setsClock = some new ∧ w.image.storedClock = new := ⟨_, by rw [← hwrites]; rfl, rfl, himage⟩
    have hmem {x : Write} (hx : x ∈ (e.commitSetting b (some new)).rangeView.writes) : x ∈ s.writes ∨ x = w := by
      simpa [hw] using hx
    refine ⟨(congrArg RangeView.clock h).trans_le hclock, himage.trans_le hnew,
      (congrArg RangeView.stored h).trans_le hstored, fun x hx => ?_, fun x hx v hv => ?_,
      fun q hq => absurd (hrunning.symm.trans (hpower.symm.trans hq)) (by simp)⟩
    · rcases hmem hx with hx | rfl
      · exact himages x hx
      · exact hw'.trans_le hnew
    · rcases hmem hx with hx | rfl
      · exact hset x hx v hv
      · exact (Option.some.inj (hsets.symm.trans hv)).symm.trans_le hnew
  power := congrArg RangeView.power h

/-! ### Events that wait -/

theorem State.keeps_waits (s : State) (c : Instr) (b : Block) : s.Keeps (s.waits c b) := by
  rcases s.waits_cases c b with ⟨h, -⟩ | ⟨h, -⟩ <;> rw [h]
  · exact .refl s
  · rw [State.joinLine_eq]
    exact State.keeps_of_view rfl

theorem State.Keeps.takes {c : Instr} {turn : Option Block} (h : s.Keeps t) : s.Keeps (s.takes c turn t) := by
  rcases s.takes_spec c turn t with ⟨ht, -⟩ | ⟨x, -, -, ht⟩ <;> rw [ht]
  · exact h.trans (State.keeps_of_view rfl)
  · exact s.keeps_waits c x.1

theorem keeps_ifRunning {f : State → State} (hf : s.isRunning = true → s.Keeps (f s)) (h : ifRunning s f = .next t) :
    s.Keeps t := by
  unfold ifRunning at h
  cases h
  exact State.keeps_ite hf fun _ => .refl s

theorem keeps_whenRunning {c : Instr} {f : State → State} (hf : s.Keeps (f s)) (h : whenRunning c s f = .next t) :
    s.Keeps t :=
  keeps_ifRunning (fun _ => hf.takes) h

end

end Sys2Proof.Machine
end

