-- ==== Sys2Proof/Laws/RangeViews.lean ====
section
namespace Sys2Proof.Machine

/-! ### What the shared operations leave of the view -/

section
variable (s : State)

@[simp] theorem State.answerByte_rangeView (p : Port) (status : Byte) (payload : List Byte) :
    (s.answerByte p status payload).rangeView = s.rangeView := by
  obtain ⟨_, _, h⟩ := s.answerByte_frame p status payload
  rw [h]
  rfl

@[simp] theorem State.answer_rangeView (p : Port) (status : Status) (payload : List Byte) :
    (s.answer p status payload).rangeView = s.rangeView :=
  s.answerByte_rangeView p _ payload

@[simp] theorem State.respond_rangeView (p : Port) (f : Frame) : (s.respond p f).rangeView = s.rangeView := by
  obtain ⟨_, _, h⟩ := s.respond_frame p f
  rw [h]
  rfl

@[simp] theorem State.raise_rangeView (k : NoticeKind) : (s.raise k).rangeView = s.rangeView := by
  obtain ⟨_, h⟩ := s.raise_frame k
  rw [h]
  rfl

@[simp] theorem State.queueDeadlines_rangeView : s.queueDeadlines.rangeView = s.rangeView := by
  obtain ⟨_, h⟩ := s.queueDeadlines_frame
  rw [h]
  rfl

@[simp] theorem State.reevaluateWindow_rangeView : s.reevaluateWindow.rangeView = s.rangeView := by
  rw [State.reevaluateWindow_eq]
  rfl

@[simp] theorem State.handOwed_rangeView (clock : Nat) (byMidnight : Bool) :
    (s.handOwed clock byMidnight).rangeView = s.rangeView := by
  rw [State.handOwed_eq]
  rfl

@[simp] theorem State.handTamperClockSet_rangeView : s.handTamperClockSet.rangeView = s.rangeView := by
  unfold State.handTamperClockSet
  split <;> rfl

@[simp] theorem State.handClockSet_rangeView : s.handClockSet.rangeView = s.rangeView := by
  unfold State.handClockSet
  split <;> rfl

@[simp] theorem State.countChoice_rangeView : s.countChoice.rangeView = s.rangeView := rfl
@[simp] theorem State.leaveLine_rangeView (c : Instr) : (s.leaveLine c).rangeView = s.rangeView := rfl
@[simp] theorem State.leaveArrivals_rangeView : s.leaveArrivals.rangeView = s.rangeView := rfl
@[simp] theorem State.leaveTamper_rangeView : s.leaveTamper.rangeView = s.rangeView := rfl
@[simp] theorem State.leaveQueue_rangeView : s.leaveQueue.rangeView = s.rangeView := rfl
@[simp] theorem State.leaveJournal_rangeView : s.leaveJournal.rangeView = s.rangeView := rfl
@[simp] theorem State.endService_rangeView : s.endService.rangeView = s.rangeView := rfl
@[simp] theorem State.arrive_rangeView (e : AccountEvent) : (s.arrive e).rangeView = s.rangeView := rfl
@[simp] theorem State.arriveTamper_rangeView (e : TamperEvent) : (s.arriveTamper e).rangeView = s.rangeView := rfl
@[simp] theorem State.queueCode_rangeView (i : CodeItem) : (s.queueCode i).rangeView = s.rangeView := rfl
@[simp] theorem State.serve_rangeView (c : CodeService) : (s.serve c).rangeView = s.rangeView := rfl
@[simp] theorem State.takeRequest_rangeView (p : Port) : (s.takeRequest p).rangeView = s.rangeView := rfl
@[simp] theorem State.handSetting_rangeView (p : Port) (n v : Nat) : (s.handSetting p n v).rangeView = s.rangeView := rfl
@[simp] theorem State.updatePort_rangeView (p : Port) (f : PortUnit → PortUnit) :
    (s.updatePort p f).rangeView = s.rangeView := rfl
@[simp] theorem State.staleLapse_rangeView : s.staleLapse.rangeView = s.rangeView := rfl

@[simp] theorem State.passLevel_rangeView (k : TamperKind) (active : Bool) :
    (s.passLevel k active).rangeView = s.rangeView := by
  unfold State.passLevel
  split <;> rfl

@[simp] theorem State.passExpiry_rangeView : s.passExpiry.rangeView = s.rangeView := by
  unfold State.passExpiry
  split <;> rfl

@[simp] theorem State.refuseFrame_rangeView (status : Status) (code : Byte) :
    (s.refuseFrame status code).rangeView = s.rangeView := by
  unfold State.refuseFrame
  split <;> rfl

@[simp] theorem State.joinQueue_rangeView (p : Port) (c : RequestCode) : (s.joinQueue p c).rangeView = s.rangeView := by
  unfold State.joinQueue
  split <;> rfl

@[simp] theorem State.takeIn_rangeView (p : Port) (c : RequestCode) (payload : List Byte) :
    (s.takeIn p c payload).rangeView = s.rangeView := by
  unfold State.takeIn
  split
  · rfl
  · exact State.joinQueue_rangeView _ _ _

@[simp] theorem State.judgeRequest_rangeView (p : Port) (code : Byte) (payload : List Byte) :
    (s.judgeRequest p code payload).rangeView = s.rangeView := by
  unfold State.judgeRequest
  split
  · exact s.respond_rangeView _ _
  · exact s.takeIn_rangeView _ _ _
  · rfl

@[simp] theorem State.judgeLFrame_rangeView (bytes : List Byte) : (s.judgeLFrame bytes).rangeView = s.rangeView := by
  unfold State.judgeLFrame
  dsimp only
  split
  · exact s.refuseFrame_rangeView _ _
  · split
    · exact s.judgeRequest_rangeView _ _ _
    · split
      · rfl
      · exact s.refuseFrame_rangeView _ _

@[simp] theorem State.receive_rangeView (b : Byte) : (s.receive b).rangeView = s.rangeView := by
  unfold State.receive
  dsimp only
  split
  · exact State.judgeLFrame_rangeView _ _
  · rfl

theorem State.receiveAll_rangeView (bytes : List Byte) : (bytes.foldl State.receive s).rangeView = s.rangeView := by
  induction bytes generalizing s with
  | nil => rfl
  | cons b rest ih => exact (ih _).trans (s.receive_rangeView b)

theorem State.frameSent_rangeView : s.frameSent.rangeView = s.rangeView := by
  unfold State.frameSent
  split <;> rfl

theorem State.judgeAFrame_rangeView (begun : PortPhase) (bytes : List Byte) :
    (s.judgeAFrame begun bytes).rangeView = s.rangeView := by
  unfold State.judgeAFrame
  split
  · split
    · split
      · exact s.judgeRequest_rangeView _ _ _
      · exact s.respond_rangeView _ _
    · split <;> rfl
  · rfl

theorem State.clearPort_rangeView (p : Port) : (s.clearPort p).rangeView = s.rangeView := by
  cases p <;> rfl

end

/-! ### What an event leaves of the view -/

theorem Event.Within.rangeView {e e' : Event} (h : e.Within e') : e'.state.rangeView = e.state.rangeView := by
  have pulse := congrArg State.pulse h.state
  have clock := congrArg State.clock h.state
  have held := congrArg Nv.storedClock h.nv
  have stored := congrArg (fun s => s.stored.storedClock) h.state
  have power := congrArg State.power h.state
  simp only [State.rangeView, RangeView.mk.injEq]
  exact ⟨pulse, clock, held, stored, h.writes, power⟩

section
variable (e : Event)

theorem Event.lowCredit_rangeView : e.lowCredit.state.rangeView = e.state.rangeView := by
  unfold Event.lowCredit
  dsimp only
  split <;> split <;> rfl

theorem Event.accountResults_rangeView (before : Nv) : (e.accountResults before).state.rangeView = e.state.rangeView := by
  have low : (e.lowCreditIfChanged before.account).state.rangeView = e.state.rangeView := by
    unfold Event.lowCreditIfChanged
    split
    · rfl
    · exact e.lowCredit_rangeView
  exact ((Event.within_creditCondition _ _ _).trans (Event.within_handCeiling _ _)).rangeView.trans low

theorem Event.applyCredit_rangeView (v : Nat) : (e.applyCredit v).state.rangeView = e.state.rangeView :=
  Event.accountResults_rangeView _ _

theorem Event.applyLimit_rangeView (v : Nat) : (e.applyLimit v).state.rangeView = e.state.rangeView :=
  Event.accountResults_rangeView _ _

theorem Event.tamperResults_rangeView (before : Nv) (detected : Bool) :
    (e.tamperResults before detected).state.rangeView = e.state.rangeView :=
  (e.within_tamperResults before detected).rangeView

theorem Event.detect_rangeView (k : TamperKind) (entered : TamperState) (outage : Bool) :
    (e.detect k entered outage).state.rangeView = e.state.rangeView :=
  Event.tamperResults_rangeView _ _ _

theorem Event.clearAll_rangeView (path : ClearPath) (ks : List TamperKind) :
    (e.clearAll path ks).state.rangeView = e.state.rangeView := by
  have one (d : Event) (k : TamperKind) : (d.clearKind path k).state.rangeView = d.state.rangeView := by
    unfold Event.clearKind
    dsimp only
    split <;> rfl
  have all (d : Event) : (ks.foldl (Event.clearKind path) d).state.rangeView = d.state.rangeView := by
    induction ks generalizing d with
    | nil => rfl
    | cons k rest ih => exact (ih _).trans (one d k)
  exact (Event.tamperResults_rangeView _ _ _).trans (all e)

theorem Event.openWindow_rangeView (closing minutes : Nat) :
    (e.openWindow closing minutes).state.rangeView = e.state.rangeView :=
  Event.tamperResults_rangeView _ _ _

theorem Event.closeWindow_rangeView (cause : CloseCause) : (e.closeWindow cause).state.rangeView = e.state.rangeView :=
  Event.tamperResults_rangeView _ _ _

theorem Event.reconnect_rangeView : e.reconnect.state.rangeView = e.state.rangeView :=
  (Event.within_remove _ _ _ _ _).rangeView

theorem Event.armReached_rangeView (clock : Nat) : (e.armReached clock).state.rangeView = e.state.rangeView := by
  have disarm (d : Event) : d.Within (if d.nv.contactor = .armed then d.giveDisarm else d) :=
    Event.within_ite _ _ _ _ d.within_giveDisarm (.refl d)
  unfold Event.armReached
  split
  · split
    · exact (Event.within_place _ _ _ _ _).rangeView.trans (disarm _).rangeView
    · rfl
  · rfl

end

/-! ### Codes -/

theorem Nv.keepRefusal_storedClock (n : Nv) (c : CodeService) (stage : CodeStage) (outcome : Status) :
    (n.keepRefusal c stage outcome).storedClock = n.storedClock := by
  unfold Nv.keepRefusal
  split <;> rfl

section
variable {s t : State}

theorem Event.keeps_refuseCode_of {e : Event} (h : e.state.rangeView = s.rangeView) (c : CodeService) (r : CodeResult) :
    s.Keeps (e.refuseCode c r) := by
  let reset := if r.stage.resets then e.updateNv (fun n => n.resetFailures c.port) else e
  let kept := reset.updateNv (fun n => n.keepRefusal c r.stage r.outcome)
  let u : State := { kept.state with code := { kept.state.code with service := some { c with atOwner := false } } }
  have hreset : reset.state.rangeView = e.state.rangeView := by
    unfold reset
    split <;> rfl
  have hheld : u.nv.storedClock = reset.state.nv.storedClock := Nv.keepRefusal_storedClock _ _ _ _
  have hu : u.rangeView = s.rangeView := by
    refine Eq.trans ?_ (hreset.trans h)
    change { reset.state.rangeView with held := u.nv.storedClock } = reset.state.rangeView
    rw [hheld]
    rfl
  unfold Event.refuseCode
  refine State.keeps_ite (fun _ => Event.keeps_commit_of ?_) fun _ => State.keeps_of_view ?_
  · exact hu
  · exact (u.answer_rangeView _ _ _).trans hu

theorem State.keeps_refuseCode (h : t.rangeView = s.rangeView) (c : CodeService) (r : CodeResult) :
    s.Keeps (t.refuseCode c r) :=
  Event.keeps_refuseCode_of (e := Event.begin t c.port.origin) h c r

/-- An application that leaves the view as it is keeps the ranges, refused or not. -/
theorem State.keeps_applyCode (h : t.rangeView = s.rangeView) (c : CodeService) (b : Block) (test : Option Status)
    (effect : CodeEffect) {apply : Event → Event} (happly : ∀ e, (apply e).state.rangeView = e.state.rangeView) :
    s.Keeps (t.applyCode c b test effect apply) := by
  refine State.keeps_ite (fun _ => State.keeps_refuseCode h _ _) fun _ => ?_
  cases test with
  | some outcome => exact State.keeps_refuseCode h _ _
  | none =>
    refine Event.keeps_commit_of ?_
    exact (happly (Event.begin t c.port.origin)).trans h

theorem State.keeps_refuseAtCheck (s : State) (c : CodeService) : s.Keeps (s.refuseAtCheck c) := by
  unfold State.refuseAtCheck
  dsimp only
  split <;> exact Event.keeps_refuseCode_of (by rfl) _ _

theorem State.keeps_applyHalf (s : State) (c : CodeService) (h : PendingHalf) : s.Keeps (s.applyHalf c h) := by
  have held : s.Keeps (s.holdHalf c h) := State.keeps_applyCode (by rfl) _ _ _ _ fun _ => rfl
  have change (first second : PendingHalf) : s.Keeps (s.changeKey c first second) :=
    State.keeps_ite (fun _ => State.keeps_refuseCode (by rfl) _ _) fun _ =>
      State.keeps_ite (fun _ => State.keeps_refuseCode (by rfl) _ _) fun _ => Event.keeps_commit_of (by rfl)
  unfold State.applyHalf
  split
  · exact held
  · split
    · exact change _ _
    · exact change _ _
    · exact held

theorem State.keeps_goOn (s : State) (c : CodeService) : s.Keeps (s.goOn c) :=
  State.keeps_ite (fun _ => (s.keeps_applyHalf _ _).takes) fun _ => (s.keeps_refuseAtCheck _).takes

theorem State.keeps_handCode (s : State) (c : CodeService) : s.Keeps (s.handCode c) := by
  unfold State.handCode
  dsimp only
  split <;> exact State.keeps_of_view (by rfl)

theorem State.keeps_serveChecked (s : State) (c : CodeService) : s.Keeps (s.serveChecked c) := by
  have refused (c : CodeService) (r : CodeResult) : s.Keeps (s.refuseCode c r) := State.keeps_refuseCode (by rfl) c r
  have goes (c : CodeService) : s.Keeps ((s.serve c).goOn c) := (State.keeps_of_view (by rfl)).trans (State.keeps_goOn _ _)
  unfold State.serveChecked
  refine State.keeps_ite (fun _ => goes _) fun _ => ?_
  refine State.keeps_ite (fun _ => refused _ _) fun _ => ?_
  refine State.keeps_ite (fun _ => refused _ _) fun _ => ?_
  refine State.keeps_ite (fun _ => refused _ _) fun _ => ?_
  refine State.keeps_ite (fun _ => refused _ _) fun _ => ?_
  refine State.keeps_ite (fun _ => refused _ _) fun _ => ?_
  exact State.keeps_ite (fun _ => goes _) fun _ => s.keeps_handCode _

theorem State.keeps_serveCode (s : State) (p : Port) (digits : List Byte) : s.Keeps (s.serveCode p digits) := by
  unfold State.serveCode
  refine State.keeps_ite (fun _ => State.keeps_refuseCode (by rfl) _ _) fun _ => ?_
  dsimp only
  split
  · exact State.keeps_refuseCode (by rfl) _ _
  · exact s.keeps_serveChecked _

theorem State.keeps_limitCode (s : State) (clock : Nat) : s.Keeps (s.limitCode clock) :=
  State.keeps_ite (fun _ => .refl s) fun _ => Event.keeps_commit_of (by rfl)

end

end Sys2Proof.Machine
end

