-- ==== Sys2Proof/Laws/RangePulses.lean ====
section
namespace Sys2Proof.Machine

/-! ### The pulse counts (R51, R54, R56, R62) -/

theorem PulseUnit.inRange_iff (u : PulseUnit) :
    u.inRange = true ↔ u.waiting ≤ 65535 ∧ u.hourExports ≤ 255 ∧ u.minuteImports ≤ 65535 ∧ u.minuteExports ≤ 65535 ∧
      u.openPulses ≤ 11 := by
  simp only [PulseUnit.inRange, Bool.and_eq_true, decide_eq_true_eq, and_assoc]
  rfl

section
variable {s : State}

/-- A change of the pulse input unit alone keeps the ranges if its counts stay in theirs. -/
theorem State.keeps_updatePulse {f : PulseUnit → PulseUnit} (hf : ∀ u, u.inRange = true → (f u).inRange = true) :
    s.Keeps (s.updatePulse f) :=
  State.keeps_of_pulse (by rfl) (hf s.pulse)

theorem State.keeps_addQuanta (s : State) (n : Nat) : s.Keeps (s.addQuanta n) := by
  rw [State.addQuanta_eq]
  refine State.keeps_of_pulse (by rfl) fun h => ?_
  rw [PulseUnit.inRange_iff] at h ⊢
  obtain ⟨-, hrest⟩ := h
  refine ⟨?_, hrest⟩
  dsimp only
  split <;> omega

theorem State.keeps_offerQuantum (s : State) : s.Keeps s.offerQuantum := by
  rcases s.offerQuantum_cases with ⟨-, -, h⟩ | ⟨-, h⟩ <;> rw [h]
  · refine State.keeps_of_pulse (by rfl) fun h => ?_
    rw [PulseUnit.inRange_iff] at h ⊢
    obtain ⟨hwaiting, hrest⟩ := h
    exact ⟨(Nat.sub_le _ _).trans hwaiting, hrest⟩
  · exact .refl s

theorem State.keeps_countOpenPulse (s : State) : s.Keeps s.countOpenPulse := by
  unfold State.countOpenPulse
  refine State.keeps_ite (fun hcount => ?_) fun _ => .refl s
  have hcounted : s.Keeps (s.updatePulse (fun u => { u with openPulses := s.pulse.openPulses + 1 })) := by
    refine State.keeps_of_pulse (by rfl) fun h => ?_
    rw [PulseUnit.inRange_iff] at h ⊢
    obtain ⟨hwaiting, hhour, himports, hexports, -⟩ := h
    exact ⟨hwaiting, hhour, himports, hexports, hcount.2⟩
  exact State.keeps_ite (fun _ => hcounted.trans (State.keeps_of_view (by rfl))) fun _ => hcounted

theorem State.keeps_endMinute (s : State) : s.Keeps s.endMinute := by
  have judged : s.Keeps s.judgeMinute := by
    have demand (u : State) (n : Nat) : u.Keeps (u.updatePulse (fun p => { p with lastDemand := n })) :=
      State.keeps_updatePulse fun p hp => hp
    unfold State.judgeMinute
    exact State.keeps_ite (fun _ => ((s.keeps_addQuanta _).trans (demand _ _)).trans (State.keeps_of_view (by rfl)))
      fun _ => (s.keeps_addQuanta _).trans (demand _ _)
  have counted : s.Keeps (if s.pulse.minuteFull then s.judgeMinute else s) :=
    State.keeps_ite (fun _ => judged) fun _ => .refl s
  refine counted.trans (State.keeps_updatePulse fun u hu => ?_)
  rw [PulseUnit.inRange_iff] at hu ⊢
  obtain ⟨hwaiting, hhour, -, -, hopen⟩ := hu
  exact ⟨hwaiting, hhour, Nat.zero_le _, Nat.zero_le _, hopen⟩

end

theorem PulseUnit.inRange_clockSet {u : PulseUnit} (h : u.inRange = true) (old new : Nat) :
    (u.clockSet old new).inRange = true := by
  rw [PulseUnit.inRange_iff] at h ⊢
  obtain ⟨hwaiting, hhour, himports, hexports, hopen⟩ := h
  refine ⟨hwaiting, ?_, ?_, ?_, hopen⟩
  all_goals
    unfold PulseUnit.clockSet
    dsimp only
    split <;> omega

theorem PulseUnit.inRange_settingChanged {u : PulseUnit} (h : u.inRange = true) (old new : Settings) (n : Nat) :
    (u.settingChanged old new n).inRange = true := by
  unfold PulseUnit.settingChanged
  split
  · exact h
  · split <;> exact h

theorem PulseUnit.inRange_setLine {u : PulseUnit} (h : u.inRange = true) (d : PulseDirection) (p : Phase) (x : LineState) :
    (u.setLine d p x).inRange = true := by
  cases d <;> exact h

/-- An export pulse counted in the detection hour (R53, R54). -/
theorem PulseUnit.inRange_exported {u : PulseUnit} (h : u.inRange = true) (p : Phase) (threshold : Nat) :
    ({ u.setLine .exp p .asserted with hourExports := min 255 (u.hourExports + 1) }.judgeReverse threshold).inRange =
      true := by
  rw [PulseUnit.inRange_iff] at h ⊢
  obtain ⟨hwaiting, -, hrest⟩ := h
  exact ⟨hwaiting, Nat.min_le_left _ _, hrest⟩

theorem PulseUnit.inRange_imported {u : PulseUnit} (h : u.inRange = true) (p : Phase) :
    { u.setLine .imp p .asserted with minuteImports := countTo65535 u.minuteImports }.inRange = true := by
  rw [PulseUnit.inRange_iff] at h ⊢
  obtain ⟨hwaiting, hhour, -, hrest⟩ := h
  exact ⟨hwaiting, hhour, Nat.min_le_left _ _, hrest⟩

/-! ### What follows a stored write -/

section
variable (s : State)

theorem State.keeps_clockMoved (old new : Nat) (wasValid : Bool) : s.Keeps (s.clockMoved old new wasValid) := by
  have moved : s.Keeps { s.reevaluateWindow with
      pulse := s.reevaluateWindow.pulse.clockSet old new
      supply := { s.reevaluateWindow.supply with clockSetHanded := true } } := by
    refine (State.keeps_of_view s.reevaluateWindow_rangeView).trans (State.keeps_of_pulse (by rfl) fun h => ?_)
    exact PulseUnit.inRange_clockSet h old new
  refine moved.trans (State.keeps_of_view ?_)
  unfold State.clockMoved
  dsimp only
  split <;> simp

theorem State.keeps_perform (f : FollowUp) : s.Keeps (s.perform f) := by
  cases f with
  | answer p status payload => exact State.keeps_of_view (s.answer_rangeView _ _ _)
  | notice k => exact State.keeps_of_view (s.raise_rangeView k)
  | quantumTaken =>
    have taken : s.Keeps { s with pulse := { s.pulse with outstanding := false } } :=
      State.keeps_of_pulse (by rfl) fun h => h
    exact taken.trans (State.keeps_offerQuantum _)
  | dayCloseTaken =>
    refine State.keeps_of_view ?_
    change s.dayCloseStored.rangeView = _
    unfold State.dayCloseStored
    dsimp only
    split <;> rfl
  | ceilingReached | codeServed => exact State.keeps_of_view (by rfl)
  | windowReevaluated => exact State.keeps_of_view s.reevaluateWindow_rangeView
  | clockMoved old new wasValid => exact s.keeps_clockMoved old new wasValid

theorem State.keeps_performAll (fs : List FollowUp) : s.Keeps (fs.foldl State.perform s) := by
  induction fs generalizing s with
  | nil => exact .refl s
  | cons f rest ih => exact (s.keeps_perform f).trans (ih _)

end

end Sys2Proof.Machine
end

