-- ==== Sys2Proof/Laws/RangeCommands.lean ====
section
namespace Sys2Proof.Machine

/-! ### The commands of the blocks -/

section
variable {s t : State}

theorem State.keeps_answer (s : State) (p : Port) (status : Status) (payload : List Byte) :
    s.Keeps (s.answer p status payload) :=
  State.keeps_of_view (s.answer_rangeView _ _ _)

theorem keeps_execSubmitCode {p : Port} (h : execSubmitCode p s = .next t) : s.Keeps t := by
  refine keeps_ifRunning (fun _ => ?_) h
  dsimp only
  split
  · exact s.keeps_goOn _
  · split
    · exact (State.keeps_of_view (by rfl)).trans (State.keeps_serveCode _ _ _)
    · exact State.keeps_of_view (by rfl)

theorem keeps_execClearFirstRefusal {p : Port} (h : execClearFirstRefusal p s = .next t) : s.Keeps t := by
  refine keeps_whenRunning ?_ h
  dsimp only
  split
  · split
    · exact State.keeps_of_view (by simp)
    · exact Event.keeps_commit_of (by rfl)
  · exact .refl s

theorem keeps_execPendingHalfLapse (h : execPendingHalfLapse s = .next t) : s.Keeps t := by
  refine keeps_whenRunning ?_ h
  split
  · split
    · exact Event.keeps_commit_of (by rfl)
    · exact State.keeps_of_view (by rfl)
  · exact State.keeps_ite (fun _ => State.keeps_of_view (by rfl)) fun _ => .refl s

theorem State.keeps_release (s : State) (p : Port) (seq : Nat) : s.Keeps (s.release p seq) :=
  State.keeps_of_write (by rfl) (by rfl) (by rfl)

theorem keeps_execReleaseJournal {p : Port} (h : execReleaseJournal p s = .next t) : s.Keeps t := by
  refine keeps_ifRunning (fun _ => ?_) h
  dsimp only
  split
  · refine State.keeps_ite (fun _ => State.keeps_of_view (by simp)) fun _ => ?_
    split
    · exact State.keeps_of_view (by simp)
    · exact (State.keeps_of_view (by rfl)).trans (State.keeps_release _ _ _)
    · exact State.keeps_of_view (by simp)
    · exact State.keeps_of_view (by simp)
  · exact .refl s

theorem keeps_execSetDebt (h : execSetDebt s = .next t) : s.Keeps t := by
  refine keeps_ifRunning (fun _ => ?_) h
  dsimp only
  split
  · refine State.keeps_ite (fun _ => State.keeps_of_view (by simp)) fun _ => State.Keeps.takes ?_
    exact State.keeps_ite (fun _ => Event.keeps_commit_of (by rfl)) fun _ => State.keeps_of_view (by simp)
  · exact State.keeps_of_view (by rfl)

theorem keeps_execAccountSettingChange {p : Port} (h : execAccountSettingChange p s = .next t) : s.Keeps t := by
  refine keeps_ifRunning (fun _ => ?_) h
  dsimp only
  split
  · refine State.keeps_ite (fun _ => ?_) fun _ => .refl s
    refine State.keeps_ite (fun _ => State.keeps_of_view (by simp)) fun _ => State.Keeps.takes ?_
    refine State.keeps_ite (fun _ => Event.keeps_commit_of ?_) fun _ => State.keeps_of_view (by simp)
    rw [Event.andThen_state]
    split
    · exact (Event.lowCredit_rangeView _).trans rfl
    · exact (Event.within_handCeiling _ _).rangeView.trans rfl
  · exact .refl s

theorem keeps_execTamperSettingChange {p : Port} (h : execTamperSettingChange p s = .next t) : s.Keeps t := by
  refine keeps_ifRunning (fun _ => ?_) h
  dsimp only
  split
  · refine State.keeps_ite (fun _ => ?_) fun _ => .refl s
    refine State.keeps_ite (fun _ => State.keeps_of_view (by simp)) fun _ => State.Keeps.takes ?_
    refine State.keeps_ite (fun _ => Event.keeps_commit_of ?_) fun _ => State.keeps_of_view (by simp)
    exact (Event.tamperResults_rangeView _ _ _).trans rfl
  · exact .refl s

theorem State.keeps_writeOwnSetting (s : State) (p : Port) (n v : Nat) : s.Keeps (s.writeOwnSetting p n v) := by
  let nv := { s.nv with settings := s.nv.settings.write n v }
  let u : State := { s.takeRequest p with nv := nv, pulse := s.pulse.settingChanged s.nv.settings nv.settings n }
  have hu : s.Keeps u := State.keeps_of_pulse (by rfl) fun h => PulseUnit.inRange_settingChanged h _ _ _
  exact hu.trans (Event.keeps_commit_of (by rfl))

theorem keeps_execWriteSetting {p : Port} (h : execWriteSetting p s = .next t) : s.Keeps t := by
  refine keeps_ifRunning (fun _ => ?_) h
  split
  · refine State.keeps_ite (fun _ => State.keeps_of_view (by simp)) fun _ => ?_
    split
    · exact State.keeps_of_view (by simp)
    · split
      · refine State.Keeps.takes ?_
        exact State.keeps_ite (fun _ => s.keeps_writeOwnSetting _ _ _) fun _ => s.keeps_answer _ _ _
      · exact State.keeps_of_view (by rfl)
      · exact State.keeps_of_view (by rfl)
  · exact State.keeps_of_view (by rfl)

/-! #### SET_CLOCK (R31, R32) -/

theorem ofBytes_lt (bs : List Byte) : ofBytes bs < 256 ^ bs.length := by
  induction bs with
  | nil => exact Nat.one_pos
  | cons b bs ih =>
    have hb : b.toNat < 256 := b.isLt
    rw [ofBytes, List.length_cons, pow_succ]
    omega

/-- A clock value of four bytes is a clock value. -/
theorem field_le_maxClock (payload : List Byte) (offset : Nat) : field payload offset 4 ≤ maxClock := by
  have hlen : ((payload.drop offset).take 4).length ≤ 4 := List.length_take_le _ _
  have hlt : field payload offset 4 < 256 ^ 4 :=
    (ofBytes_lt _).trans_le (Nat.pow_le_pow_right (by decide) hlen)
  exact Nat.le_of_lt_succ hlt

theorem State.setClockEvent_rangeView (s : State) (new : Nat) :
    (s.setClockEvent new).state.rangeView = { s.rangeView with held := new } := by
  unfold State.setClockEvent
  cases s.nv.dueTariff new <;> rfl

theorem keeps_execSetClock (h : execSetClock s = .next t) : s.Keeps t := by
  refine keeps_ifRunning (fun hr => ?_) h
  dsimp only
  split
  · refine State.keeps_ite (fun _ => State.keeps_of_view (by simp)) fun _ => State.Keeps.takes ?_
    refine State.keeps_ite (fun _ => ?_) fun _ => s.keeps_answer _ _ _
    exact Event.keeps_commitSetting_of (State.setClockEvent_rangeView _ _) hr (field_le_maxClock _ _)
  · exact State.keeps_of_view (by rfl)

theorem keeps_execStageTariff (h : execStageTariff s = .next t) : s.Keeps t := by
  have staged (u : State) (x : TariffSet) : (u.stageEvent x).state.rangeView = u.rangeView := by
    unfold State.stageEvent
    dsimp only
    split <;> rfl
  refine keeps_ifRunning (fun _ => ?_) h
  split
  · split
    · exact State.keeps_of_view (by simp)
    · refine State.Keeps.takes ?_
      exact State.keeps_ite (fun _ => Event.keeps_commit_of (staged (s.takeRequest .l) _)) fun _ => s.keeps_answer _ _ _
  · exact State.keeps_of_view (by rfl)

theorem keeps_execCancelTariff (h : execCancelTariff s = .next t) : s.Keeps t := by
  refine keeps_ifRunning (fun _ => ?_) h
  dsimp only
  split
  · refine State.keeps_ite (fun _ => State.keeps_of_view (by simp)) fun _ => State.Keeps.takes ?_
    exact State.keeps_ite (fun _ => Event.keeps_commit_of (by rfl)) fun _ => s.keeps_answer _ _ _
  · exact State.keeps_of_view (by rfl)

theorem keeps_execRemoteOpen (h : execRemoteOpen s = .next t) : s.Keeps t := by
  refine keeps_ifRunning (fun _ => ?_) h
  split
  · refine State.keeps_ite (fun _ => State.keeps_of_view (by simp)) fun _ => State.Keeps.takes ?_
    refine State.keeps_ite (fun _ => Event.keeps_commit_of ?_) fun _ => s.keeps_answer _ _ _
    exact (Event.within_place _ _ _ _ _).rangeView.trans rfl
  · exact State.keeps_of_view (by rfl)

theorem keeps_execRemoteConnect (h : execRemoteConnect s = .next t) : s.Keeps t := by
  refine keeps_ifRunning (fun _ => ?_) h
  dsimp only
  split
  · split
    · exact State.keeps_of_view (by simp)
    · refine State.keeps_ite (fun _ => State.keeps_of_view (by simp)) fun _ => State.Keeps.takes ?_
      refine State.keeps_ite (fun _ => Event.keeps_commit_of ?_) fun _ => s.keeps_answer _ _ _
      exact (Event.within_remove _ _ _ _ _).rangeView.trans rfl
  · exact State.keeps_of_view (by rfl)

theorem keeps_execClearTrip {p : Port} (h : execClearTrip p s = .next t) : s.Keeps t := by
  refine keeps_whenRunning ?_ h
  split
  · refine State.keeps_ite (fun _ => s.keeps_answer _ _ _) fun _ => ?_
    refine State.keeps_ite (fun _ => s.keeps_answer _ _ _) fun _ => ?_
    refine State.keeps_ite (fun _ => s.keeps_answer _ _ _) fun _ => Event.keeps_commit_of ?_
    exact (Event.within_remove _ _ _ _ _).rangeView.trans rfl
  · exact .refl s

theorem keeps_execContactorRetry {p : Port} (h : execContactorRetry p s = .next t) : s.Keeps t := by
  refine keeps_whenRunning ?_ h
  split
  · refine State.keeps_ite (fun _ => s.keeps_answer _ _ _) fun _ => ?_
    split
    · exact s.keeps_answer _ _ _
    · exact Event.keeps_commit_of ((Event.within_beginDrive _ _ _ _).rangeView.trans rfl)
  · exact .refl s

theorem keeps_execClearTamper {p : Port} (h : execClearTamper p s = .next t) : s.Keeps t := by
  refine keeps_whenRunning ?_ h
  dsimp only
  split
  · refine State.keeps_ite (fun _ => State.keeps_of_view (by simp)) fun _ => ?_
    refine State.keeps_ite (fun _ => State.keeps_of_view (by simp)) fun _ => ?_
    refine State.keeps_ite (fun _ => Event.keeps_commit_of ?_) fun _ => State.keeps_of_view (by simp)
    exact (Event.clearAll_rangeView _ _ _).trans rfl
  · exact .refl s

theorem keeps_execCloseService {p : Port} (h : execCloseService p s = .next t) : s.Keeps t := by
  refine keeps_whenRunning ?_ h
  dsimp only
  split
  · refine State.keeps_ite (fun _ => State.keeps_of_view (by simp)) fun _ => Event.keeps_commit_of ?_
    exact (Event.closeWindow_rangeView _ .closeService).trans rfl
  · exact .refl s

theorem State.keeps_takeTamper {u : State} (hu : u.rangeView = s.rangeView) {f : State → State}
    {c : Instr} {e : TamperEvent} (hf : ∀ v : State, v.Keeps (f v)) : s.Keeps (u.takeTamper c e f) := by
  have htaken : u.Keeps (f u.leaveTamper) := (State.keeps_of_view (by rfl)).trans (hf u.leaveTamper)
  exact (State.keeps_of_view hu).trans (State.keeps_ite (fun _ => htaken.takes) fun _ => .refl u)

theorem keeps_execTamperClockSet (h : execTamperClockSet s = .next t) : s.Keeps t := by
  refine keeps_ifRunning (fun _ => ?_) h
  refine State.keeps_takeTamper (by rfl) fun v => ?_
  dsimp only
  split
  · exact .refl v
  · refine State.keeps_ite (fun _ => Event.keeps_commit_of (Event.closeWindow_rangeView _ _)) fun _ => ?_
    exact State.keeps_ite (fun _ => .refl v) fun _ => Event.keeps_commit_of (by rfl)

theorem keeps_execServiceWindowExpiry (h : execServiceWindowExpiry s = .next t) : s.Keeps t := by
  refine keeps_ifRunning (fun _ => State.keeps_takeTamper s.passExpiry_rangeView (fun v => ?_)) h
  exact State.keeps_ite (fun _ => Event.keeps_commit_of (Event.closeWindow_rangeView _ _)) fun _ => .refl v

theorem keeps_execTamperInputActive {k : TamperKind} (h : execTamperInputActive k s = .next t) : s.Keeps t := by
  refine keeps_ifRunning (fun _ => State.keeps_takeTamper (s.passLevel_rangeView k true) (fun v => ?_)) h
  exact State.keeps_ite (fun _ => .refl v) fun _ => Event.keeps_commit_of (Event.detect_rangeView _ _ _ _)

theorem keeps_execTamperInputInactive {k : TamperKind} (h : execTamperInputInactive k s = .next t) : s.Keeps t := by
  refine keeps_ifRunning (fun _ => State.keeps_takeTamper (s.passLevel_rangeView k false) (fun v => ?_)) h
  exact State.keeps_ite (fun _ => Event.keeps_commit_of (by rfl)) fun _ => .refl v

theorem keeps_execPress (h : execPress s = .next t) : s.Keeps t := by
  refine keeps_whenRunning ?_ h
  split
  · split
    · exact Event.keeps_commit_of ((Event.within_press _ _).rangeView.trans rfl)
    · exact Event.keeps_commit_of ((Event.within_press _ _).rangeView.trans rfl)
    · exact State.keeps_of_view (by simp)
    · exact State.keeps_of_view (by simp)
  · exact .refl s

theorem keeps_execButtonPress (h : execButtonPress s = .next t) : s.Keeps t := by
  refine keeps_whenRunning ?_ h
  refine State.keeps_ite (fun _ => .refl s) fun _ => ?_
  refine State.keeps_ite (fun _ => Event.keeps_commit_of ?_) fun _ => State.keeps_of_view (by rfl)
  exact (Event.within_press _ _).rangeView.trans rfl

theorem keeps_execAcceptEmergency (h : execAcceptEmergency s = .next t) : s.Keeps t := by
  refine keeps_whenRunning ?_ h
  split
  · refine State.keeps_ite (fun _ => Event.keeps_commit_of ?_) fun _ => State.keeps_of_view (by simp)
    exact (Event.accountResults_rangeView _ _).trans rfl
  · exact .refl s

theorem State.keeps_verified (s : State) (d : Drive) : s.Keeps (s.verified d) := by
  have completed (e : Event) (d : Position) : e.state.Keeps (e.completed d).state := by
    cases d with
    | closed =>
      refine State.keeps_of_view ?_
      unfold Event.completed
      dsimp only
      split
      · exact (e.within_beginDrive _ _ _).rangeView
      · exact (e.within_enter _).rangeView
    | opened =>
      have restarted : e.state.Keeps e.restartOpenPulses.state := by
        change e.state.Keeps (e.state.updatePulse (fun u => { u with openPulses := 0 }))
        refine State.keeps_updatePulse fun u hu => ?_
        rw [PulseUnit.inRange_iff] at hu ⊢
        obtain ⟨hwaiting, hhour, himports, hexports, -⟩ := hu
        exact ⟨hwaiting, hhour, himports, hexports, Nat.zero_le _⟩
      refine restarted.trans (State.keeps_of_view ?_)
      unfold Event.completed
      dsimp only
      split
      · exact ((Event.within_enter _ _).trans (Event.within_armBy _ _)).rangeView
      · exact (Event.within_enter _ _).rangeView
  have ended : s.Keeps (((Event.begin s d.origin).log d.completionRecord).endDrive.completed d.direction).state :=
    (State.keeps_of_view (by rfl)).trans (completed _ _)
  unfold State.verified
  dsimp only
  split
  · exact (ended.trans (State.keeps_of_view (by rfl))).trans (Event.keeps_commit _ _)
  · exact ended.trans (Event.keeps_commit _ _)

theorem State.keeps_judgeReading (s : State) (d : Drive) (sense : Sense) : s.Keeps (s.judgeReading d sense) := by
  unfold State.judgeReading
  refine State.keeps_ite (fun _ => s.keeps_verified d) fun _ => ?_
  refine State.keeps_ite (fun _ => State.keeps_of_view (by rfl)) fun _ => Event.keeps_commit_of ?_
  exact (Event.within_enter _ _).rangeView.trans rfl

theorem State.dayCloseEvent_rangeView (s : State) (d : DayCloseEvent) :
    (s.dayCloseEvent d).state.rangeView = { s.rangeView with held := s.clock } := by
  have settled : (((((Event.begin s .device).updateNv (fun n =>
      { n with
        account := (s.nv.account.closeDays s.nv.activeTariff.standingCharge d.days).1
        lastChargedDay := d.last, storedClock := s.clock })).log
      (.standing d.days d.last (d.days * s.nv.activeTariff.standingCharge)
        (s.nv.account.closeDays s.nv.activeTariff.standingCharge d.days).2 d.passedOver))).accountResults
      s.nv).state.rangeView = { s.rangeView with held := s.clock } :=
    (Event.accountResults_rangeView _ _).trans rfl
  unfold State.dayCloseEvent
  dsimp only
  rw [Event.andThen_state]
  split <;> exact settled

theorem State.keeps_takeDayClose {u : State} (h : u.rangeView = s.rangeView) (d : DayCloseEvent) :
    s.Keeps ((u.dayCloseEvent d).commit .account) :=
  ((State.keeps_of_view h).trans (State.keeps_of_held (u.dayCloseEvent_rangeView d))).trans (Event.keeps_commit _ _)

theorem State.keeps_openFromWait (s : State) : s.Keeps s.openFromWait :=
  State.keeps_ite (fun _ => Event.keeps_commit_of (Event.within_beginDrive _ _ _ _).rangeView) fun _ => .refl s

end

end Sys2Proof.Machine
end

