-- ==== Sys2Proof/Laws/RangePower.lean ====
section
namespace Sys2Proof.Machine

/-! ### Start-up (R205) -/

section
variable {s t : State}

/-- An event of the sequence that leaves the view as it is keeps the ranges. -/
theorem State.keeps_supplyStep {u : State} {f : Event → Event} (h : u.rangeView = s.rangeView)
    (hf : (f (Event.begin u .device)).state.rangeView = u.rangeView) : s.Keeps (u.supplyStep f) :=
  (State.keeps_of_view h).trans (Event.keeps_commitSupply_of hf)

theorem State.keeps_closeOwed (s : State) (clock : Nat) : s.Keeps (s.closeOwed clock) := by
  unfold State.closeOwed
  dsimp only
  split
  · exact State.keeps_takeDayClose ((by rfl : _ = (s.handOwed clock false).rangeView).trans (s.handOwed_rangeView _ _)) _
  · exact State.keeps_of_view (s.handOwed_rangeView _ _)

theorem State.keeps_startStep (s : State) (q : StartSequence) (step : StartStep) : s.Keeps (s.startStep q step) := by
  cases step with
  | outageRecord => exact Event.keeps_commitClearing_of (by rfl)
  | windowClose =>
    change s.Keeps s.closeAtStart
    unfold State.closeAtStart
    split
    · exact Event.keeps_commit_of (Event.closeWindow_rangeView _ .startUp)
    · exact .refl s
  | coverStep =>
    refine State.keeps_ite (fun _ => ?_) fun _ => .refl s
    exact Event.keeps_commitClearing_of ((Event.detect_rangeView _ _ _ _).trans rfl)
  | owedDays => exact s.keeps_closeOwed q.clock
  | graceDeadlines =>
    rw [State.startStep]
    refine State.keeps_supplyStep (by rfl) ?_
    exact ((Event.within_graceReached _ _ _).trans (Event.within_graceReached _ _ _)).rangeView
  | armDeadline =>
    rw [State.startStep]
    refine State.keeps_supplyStep (by rfl) ?_
    exact Event.armReached_rangeView _ _
  | restoreTime =>
    rw [State.startStep]
    refine State.keeps_supplyStep (by rfl) ?_
    exact (Event.within_restoreReached _ _).rangeView
  | halfLapse =>
    change s.Keeps (s.lapseAtStart q.clock)
    unfold State.lapseAtStart
    split
    · exact State.keeps_ite (fun _ => Event.keeps_commit_of (by rfl)) fun _ => .refl s
    · exact .refl s
  | lockoutA | lockoutL =>
    refine (?_ : ∀ p, s.Keeps (s.expireAtStart q.clock p)) _
    intro p
    unfold State.expireAtStart
    split
    · exact State.keeps_ite (fun _ => Event.keeps_commit_of (by rfl)) fun _ => .refl s
    · exact .refl s
  | activation =>
    change s.Keeps (s.activateAtStart q.clock)
    unfold State.activateAtStart
    split
    · exact Event.keeps_commit_of (by rfl)
    · exact .refl s
  | codeLimits => exact s.keeps_limitCode _
  | supplyLimits =>
    rw [State.startStep]
    refine State.keeps_supplyStep (by rfl) ?_
    exact (Event.within_limitDeadlines _ _).rangeView
  | graceLevels =>
    refine State.keeps_supplyStep (by rfl) ?_
    unfold Event.graceAtStart
    split
    · rfl
    · exact ((Event.within_graceEnds _ _ _).trans (Event.within_graceEnds _ _ _)).rangeView
  | windowEdge =>
    rw [State.startStep, State.windowAtStart]
    refine State.keeps_supplyStep (by rfl) ?_
    exact (Event.within_windowEdge _ _).rangeView
  | ceiling =>
    exact State.keeps_ite (fun _ => State.keeps_supplyStep (by rfl) (Event.within_ceilingReached _).rangeView) fun _ =>
      State.keeps_of_view (by rfl)
  | breakWait => exact State.keeps_ite (fun _ => .refl s) fun _ => s.keeps_openFromWait
  | contactorCheck =>
    change s.Keeps (s.contactorCheck q.sense)
    unfold State.contactorCheck
    split
    · exact Event.keeps_commit_of ((Event.within_beginDrive _ _ _ _).rangeView.trans rfl)
    · exact .refl s

/-! ### Steps that pass the power from one state to another -/

/-- From `s` to `t` the pulse counts stay in their ranges and the clock values keep their law. -/
structure State.KeepsRanges (s t : State) : Prop where
  pulse : s.pulse.inRange = true → t.pulse.inRange = true
  clock : s.rangeView.ClockLaw → t.rangeView.ClockLaw

theorem State.Keeps.ranges (h : s.Keeps t) : s.KeepsRanges t := ⟨h.pulse, h.clock⟩

theorem State.KeepsRanges.trans {u : State} (h : s.KeepsRanges t) (k : t.KeepsRanges u) : s.KeepsRanges u :=
  ⟨k.pulse ∘ h.pulse, k.clock ∘ h.clock⟩

theorem State.keepsRanges_ite {p : Prop} [Decidable p] {u : State} (ht : p → s.KeepsRanges t)
    (hu : ¬ p → s.KeepsRanges u) : s.KeepsRanges (if p then t else u) := by
  split
  · next h => exact ht h
  · next h => exact hu h

/-- A part that leaves start-up, or is not in it, keeps the ranges if nothing else changes. -/
theorem State.keepsRanges_of_power {power : Power} (h : t.rangeView = { s.rangeView with power := power })
    (hp : ∀ q, power ≠ .starting q) : s.KeepsRanges t where
  pulse := by rw [show t.pulse = s.pulse from congrArg RangeView.pulse h]; exact id
  clock := fun ⟨h₁, h₂, h₃, h₄, h₅, _⟩ => by rw [h]; exact ⟨h₁, h₂, h₃, h₄, h₅, fun q hq => absurd hq (hp q)⟩

/-- The sequence with fewer steps left keeps the ranges. -/
theorem State.keepsRanges_of_starting {p q : StartSequence} (hp : s.power = .starting p) (hq : q.clock = p.clock)
    (h : t.rangeView = { s.rangeView with power := .starting q }) : s.KeepsRanges t where
  pulse := by rw [show t.pulse = s.pulse from congrArg RangeView.pulse h]; exact id
  clock := by
    intro ⟨h₁, h₂, h₃, h₄, h₅, h₆⟩
    rw [h]
    refine ⟨h₁, h₂, h₃, h₄, h₅, fun r hr => ?_⟩
    obtain rfl : q = r := Power.starting.inj hr
    rw [hq]
    exact h₆ p hp

theorem State.keepsRanges_runStartUp {p q : StartSequence} (hq : q.clock = p.clock) (steps : List StartStep) {s : State}
    (hp : s.power = .starting p) : s.KeepsRanges (s.runStartUp q steps) := by
  induction steps generalizing s with
  | nil => exact State.keepsRanges_of_power (s := s) (State.queueDeadlines_rangeView _) (by simp)
  | cons step rest ih =>
    have ht := s.keeps_startStep q step
    have hpower : (s.startStep q step).power = .starting p := ht.power.trans hp
    rw [State.runStartUp_cons]
    refine ht.ranges.trans (State.keepsRanges_ite (fun _ => ih hpower) fun _ => ?_)
    exact State.keepsRanges_of_starting (q := { q with steps := rest }) hpower hq (by rfl)

/-! ### Writes stored -/

theorem Retention.after_clock (r : Retention) (w : Write) : (r.after w).clock = w.setsClock.getD r.clock := by
  cases h : w.setsClock <;> simp [Retention.after, Retention.setTo, h]

/-- A write taken up by the store, and left on its way or not, keeps the ranges. -/
theorem State.keeps_store {w : Write} (hw : w ∈ s.writes)
    (ht : t.rangeView =
      { s.rangeView with clock := (s.ret.after w).clock, stored := w.image.storedClock, writes := t.writes })
    (hmem : ∀ x ∈ t.writes, x ∈ s.writes) : s.Keeps t where
  pulse := by rw [show t.pulse = s.pulse from congrArg RangeView.pulse ht]; exact id
  clock := by
    intro ⟨hclock, hheld, hstored, himages, hset, hstarting⟩
    rw [ht, Retention.after_clock]
    refine ⟨?_, hheld, himages w hw, fun x hx => himages x (hmem x hx), fun x hx => hset x (hmem x hx), fun q hq => ?_⟩
    · cases hsets : w.setsClock with
      | none => exact hclock
      | some v => exact hset w hw v hsets
    · obtain ⟨hle, hnone⟩ := hstarting q hq
      rw [hnone w hw]
      exact ⟨hle, fun x hx => hnone x (hmem x hx)⟩
  power := congrArg RangeView.power ht

theorem State.keeps_storeOldest (s : State) : s.Keeps s.storeOldest := by
  unfold State.storeOldest
  split
  · exact .refl s
  · next w rest hw =>
    have stored : s.Keeps ({ s with writes := rest }.store w) :=
      State.keeps_store (w := w) (by rw [hw]; exact List.mem_cons_self) (by rfl) fun x hx => by
        rw [hw]
        exact List.mem_cons_of_mem w hx
    exact stored.trans (State.keeps_performAll _ _)

theorem State.keeps_performWarned (fs : List FollowUp) (s : State) : s.Keeps (fs.foldl State.performWarned s) := by
  induction fs generalizing s with
  | nil => exact .refl s
  | cons f rest ih =>
    refine State.Keeps.trans ?_ (ih _)
    unfold State.performWarned
    split
    · exact State.keeps_of_view (s.raise_rangeView _)
    · exact .refl s

/-! ### Stops -/

/-- The last write holds the clock as its stored clock (R30, R201). -/
theorem State.keepsRanges_beginLastWrite (s : State) : s.KeepsRanges s.beginLastWrite where
  pulse := id
  clock := by
    intro ⟨h₁, _, h₃, _, _, _⟩
    have hmem (x : Write) (hx : x ∈ s.beginLastWrite.rangeView.writes) :
        x.image.storedClock = s.clock ∧ x.setsClock = none := by
      have : x = _ := List.mem_singleton.mp hx
      rw [this]
      exact ⟨rfl, rfl⟩
    exact ⟨h₁, h₁, h₃, fun x hx => (hmem x hx).1.trans_le h₁,
      fun x hx v hv => absurd ((hmem x hx).2.symm.trans hv) (by simp), fun q hq => by cases hq⟩

theorem State.keepsRanges_warn (s : State) : s.KeepsRanges s.warn := by
  unfold State.warn
  dsimp only
  refine State.keepsRanges_ite (fun _ => State.KeepsRanges.trans ?_ (State.keepsRanges_beginLastWrite _)) fun _ => ?_
  all_goals exact State.keepsRanges_of_power (power := .warned) (by rfl) (by simp)

theorem State.keepsRanges_stopped (s : State) {power : Power} (hp : ∀ q, power ≠ .starting q) :
    s.KeepsRanges (s.stopped power) where
  pulse := fun _ => by rfl
  clock := fun ⟨h₁, _, h₃, _, _, _⟩ =>
    ⟨h₁, h₃, h₃, by simp [State.stopped, State.rangeView, State.delivered],
      by simp [State.stopped, State.rangeView, State.delivered], fun q hq => absurd hq (hp q)⟩

/-- A stop leaves whole some of the writes on their way (R2). -/
theorem State.keeps_survivors (ws : List Write) {s : State} (h : ∀ w ∈ ws, w ∈ s.writes) :
    s.Keeps (State.survivors ws s) := by
  induction ws generalizing s with
  | nil => exact .refl s
  | cons w rest ih =>
    have stored : s.Keeps (s.store w).countChoice :=
      State.keeps_store (h w List.mem_cons_self) (by rfl) fun x hx => hx
    unfold State.survivors
    refine State.keeps_ite (fun _ => stored.trans (ih fun x hx => h x (List.mem_cons_of_mem w hx))) fun _ => ?_
    exact State.keeps_of_view (by rfl)

theorem State.keepsRanges_stop (s : State) {power : Power} (hp : ∀ q, power ≠ .starting q) :
    s.KeepsRanges (s.cutShort.stopped power) :=
  (State.keeps_survivors s.writes fun _ hw => hw).ranges.trans (State.keepsRanges_stopped _ hp)

theorem State.keepsRanges_fall (s : State) : s.KeepsRanges s.fall := by
  unfold State.fall
  cases s.power with
  | running | starting _ | warned | lastWrite => exact State.keepsRanges_stop s (by simp)
  | retain | reset | brownOut => exact (State.Keeps.refl s).ranges

end

end Sys2Proof.Machine
end

