-- ==== Sys2Proof/Proofs/Ranges.lean ====
section
namespace Sys2Proof.Machine

section
variable {s t : State}

/-! ### WRITE_STORED, the power and the clock -/

theorem keepsRanges_execWriteStored (h : execWriteStored s = .next t) : s.KeepsRanges t := by
  cases h
  obtain ⟨p, hp⟩ : ∃ p, s.power = p := ⟨_, rfl⟩
  rw [hp]
  cases p with
  | running => exact s.keeps_storeOldest.ranges
  | starting q =>
    have hstored := s.keeps_storeOldest
    refine State.keepsRanges_ite (fun _ => (State.Keeps.refl s).ranges) fun _ => hstored.ranges.trans ?_
    exact State.keepsRanges_ite (fun _ => State.keepsRanges_runStartUp rfl _ (hstored.power.trans hp)) fun _ =>
      (State.Keeps.refl _).ranges
  | warned =>
    change s.KeepsRanges s.storeWarned
    unfold State.storeWarned
    split
    · exact (State.Keeps.refl s).ranges
    · next w rest hw =>
      have stored : s.Keeps ({ s with writes := rest }.store w) :=
        State.keeps_store (w := w) (by rw [hw]; exact List.mem_cons_self) (by rfl) fun x hx => by
          rw [hw]
          exact List.mem_cons_of_mem w hx
      have followed := stored.trans (State.keeps_performWarned w.follow _)
      exact State.keepsRanges_ite (fun _ => followed.ranges.trans (State.keepsRanges_beginLastWrite _)) fun _ =>
        followed.ranges
  | lastWrite =>
    change s.KeepsRanges s.storeLast
    unfold State.storeLast
    split
    · exact (State.Keeps.refl s).ranges
    · next w rest hw =>
      have stored : s.Keeps (s.store w) :=
        State.keeps_store (w := w) (by rw [hw]; exact List.mem_cons_self) (by rfl) fun x hx => hx
      exact stored.ranges.trans (State.keepsRanges_stopped _ (by simp))
  | retain | reset | brownOut => exact (State.Keeps.refl s).ranges

/-- A clock one second later keeps the ranges (R27). -/
theorem State.keeps_tick (h : t.rangeView = { s.rangeView with clock := min (s.clock + 1) maxClock }) : s.Keeps t where
  pulse := by rw [show t.pulse = s.pulse from congrArg RangeView.pulse h]; exact id
  clock := by
    intro ⟨h₁, h₂, h₃, h₄, h₅, h₆⟩
    have hle : s.clock ≤ min (s.clock + 1) maxClock := Nat.le_min.mpr ⟨Nat.le_succ _, h₁⟩
    rw [h]
    exact ⟨Nat.min_le_right _ _, h₂, h₃, h₄, h₅, fun q hq => ⟨(h₆ q hq).1.trans hle, (h₆ q hq).2⟩⟩
  power := congrArg RangeView.power h

theorem keeps_execClockAdvance (h : exec .clockAdvance s = .next t) : s.Keeps t := by
  have later : s.Keeps s.later := State.keeps_tick (by rfl)
  have ticked : s.Keeps { s with ret := s.ret.tick } := State.keeps_tick (by rfl)
  obtain ⟨p, hp⟩ : ∃ p, s.power = p := ⟨_, rfl⟩
  cases p with
  | running =>
    rw [execClockAdvance_of_running hp] at h
    cases h
    exact State.keeps_ite (fun _ => .refl s) fun _ => later.trans (State.keeps_of_view (State.queueDeadlines_rangeView _))
  | starting q =>
    rw [execClockAdvance_of_starting hp] at h
    cases h
    exact State.keeps_ite (fun _ => .refl s) fun _ => later
  | warned | lastWrite =>
    rw [execClockAdvance_of_warned (by simp [hp])] at h
    cases h
    exact ticked
  | retain | reset | brownOut =>
    rw [execClockAdvance_of_unsupplied (by rw [State.isSupplied, hp])] at h
    cases h
    exact State.keeps_ite (fun _ => ticked) fun _ => .refl s

theorem keepsRanges_execPowerFailWarning {heldUp : Bool} (h : execPowerFailWarning heldUp s = .next t) :
    s.KeepsRanges t := by
  have warned : s.KeepsRanges (if heldUp then s.warn else s.warn.fall) :=
    State.keepsRanges_ite (fun _ => s.keepsRanges_warn) fun _ => s.keepsRanges_warn.trans (State.keepsRanges_fall _)
  cases h
  split
  · exact warned
  · exact warned
  · exact (State.Keeps.refl s).ranges

theorem keepsRanges_execExternalReset (h : execExternalReset s = .next t) : s.KeepsRanges t := by
  cases h
  refine State.keepsRanges_ite (fun _ => (s.keepsRanges_stop (power := .reset) (by simp)).trans ?_) fun _ => ?_
  all_goals exact (State.keeps_of_view (by rfl)).ranges

theorem State.keepsRanges_beginStartUp (s : State) (loadhi loadx : Bool) (sense : Sense) :
    s.KeepsRanges (s.beginStartUp loadhi loadx sense) where
  pulse := fun _ => by rfl
  clock := by
    intro ⟨h₁, _, h₃, _, _, _⟩
    have hclock : (s.ret.atStartUp s.stored.storedClock).clock ≤ maxClock := by
      unfold Retention.atStartUp
      split
      · exact h₁
      · exact h₃
    refine ⟨hclock, h₃, h₃, by simp [State.beginStartUp, State.rangeView, State.delivered],
      by simp [State.beginStartUp, State.rangeView, State.delivered], fun q hq => ?_⟩
    obtain rfl : s.startSequence sense = q := Power.starting.inj hq
    exact ⟨Nat.le_refl _, by simp [State.beginStartUp, State.rangeView, State.delivered]⟩

theorem keepsRanges_execStartUp {loadhi loadx : Bool} {sense : Sense} (h : execStartUp loadhi loadx sense s = .next t) :
    s.KeepsRanges t := by
  cases h
  refine State.keepsRanges_ite (fun _ => (State.Keeps.refl s).ranges) fun _ => ?_
  exact (s.keepsRanges_beginStartUp loadhi loadx sense).trans (State.keepsRanges_runStartUp rfl _ rfl)

/-- A lost retention domain has the clock at 0 (R202). -/
theorem keepsRanges_execRetentionDomainLoss (h : execRetentionDomainLoss s = .next t) : s.KeepsRanges t := by
  cases h
  by_cases hs : s.isSupplied = true
  · rw [if_pos hs]
    exact (State.Keeps.refl s).ranges
  · rw [if_neg hs]
    refine ⟨id, fun ⟨_, h₂, h₃, h₄, h₅, _⟩ => ⟨Nat.zero_le _, h₂, h₃, h₄, h₅, fun q hq => absurd ?_ hs⟩⟩
    have hq : s.power = .starting q := hq
    rw [State.isSupplied, hq]

/-! ### Every command -/

theorem keeps_execImportPulse {p : Phase} (h : execImportPulse p s = .next t) : s.Keeps t := by
  refine keeps_ifRunning (fun _ => State.keeps_ite (fun _ => ?_) fun _ => .refl s) h
  have imported : s.Keeps (s.updatePulse (fun u =>
      { u.setLine .imp p .asserted with minuteImports := countTo65535 u.minuteImports })) :=
    State.keeps_updatePulse fun u hu => PulseUnit.inRange_imported hu p
  exact (imported.trans (State.keeps_countOpenPulse _)).trans (State.keeps_addQuanta _ _)

theorem keeps_execExportPulse {p : Phase} (h : execExportPulse p s = .next t) : s.Keeps t := by
  refine keeps_ifRunning (fun _ => State.keeps_ite (fun _ => ?_) fun _ => .refl s) h
  have exported : s.Keeps (s.updatePulse (fun u =>
      { u.setLine .exp p .asserted with hourExports := min 255 (u.hourExports + 1) }.judgeReverse
        s.nv.settings.reverseThreshold)) :=
    State.keeps_updatePulse fun u hu => PulseUnit.inRange_exported hu p _
  have counted (v : State) : v.Keeps (v.updatePulse (fun u => { u with minuteExports := countTo65535 u.minuteExports })) := by
    refine State.keeps_updatePulse fun u hu => ?_
    rw [PulseUnit.inRange_iff] at hu ⊢
    obtain ⟨hwaiting, hhour, himports, -, hopen⟩ := hu
    exact ⟨hwaiting, hhour, himports, Nat.min_le_left _ _, hopen⟩
  dsimp only
  split
  · exact (exported.trans (counted _)).trans (State.keeps_addQuanta _ _)
  · exact exported

theorem keeps_execHourEnd (h : execHourEnd s = .next t) : s.Keeps t := by
  refine keeps_ifRunning (fun _ => State.keeps_ite (fun _ => ?_) fun _ => .refl s) h
  have marked : s.Keeps { s with clockUnit := { s.clockUnit with hourMark := false } } := State.keeps_of_view (by rfl)
  refine marked.trans (State.keeps_updatePulse fun u hu => ?_)
  rw [PulseUnit.inRange_iff] at hu ⊢
  obtain ⟨hwaiting, -, hrest⟩ := hu
  exact ⟨hwaiting, Nat.zero_le _, hrest⟩

theorem keeps_execMinuteEnd {windowFirst : Bool} (h : execMinuteEnd windowFirst s = .next t) : s.Keeps t := by
  refine keeps_ifRunning (fun _ => State.keeps_ite (fun _ => ?_) fun _ => .refl s) h
  have marked : s.Keeps { s with clockUnit := { s.clockUnit with minuteMark := false } } := State.keeps_of_view (by rfl)
  have window (u : State) : u.Keeps u.reevaluateWindow := State.keeps_of_view u.reevaluateWindow_rangeView
  refine marked.trans (State.keeps_ite (fun _ => ?_) fun _ => ?_)
  · exact (window _).trans (State.keeps_endMinute _)
  · exact (State.keeps_endMinute _).trans (window _)

theorem keeps_execSupplyClockSet (h : execSupplyClockSet s = .next t) : s.Keeps t := by
  refine keeps_whenRunning (State.keeps_ite (fun _ => Event.keeps_commitSupply_of ?_) fun _ => .refl s) h
  have late (e : Event) (clock : Nat) : e.Within ((e.restoreReached clock).limitDeadlines clock) :=
    (e.within_restoreReached clock).trans (Event.within_limitDeadlines _ clock)
  have early (e : Event) (clock : Nat) : e.Within ((e.graceReached clock .credit).graceReached clock .remote) :=
    (e.within_graceReached clock .credit).trans (Event.within_graceReached _ clock .remote)
  exact (late _ _).rangeView.trans ((Event.armReached_rangeView _ _).trans ((early _ _).rangeView.trans rfl))

theorem State.keeps_takeLoadhiFall (s : State) : s.Keeps s.takeLoadhiFall := by
  refine Event.keeps_commitSupply_of ?_
  exact ((Event.within_graceEnds _ _ _).trans (Event.within_graceEnds _ _ _)).rangeView.trans rfl

/-- A change of LOADHI or LOADX keeps the ranges if the event of the passage does. -/
theorem State.keeps_levelChange {u : State} (hu : u.rangeView = s.rangeView) {f : State → State} (hf : u.Keeps (f u)) :
    s.Keeps (s.levelChange u f) := by
  unfold State.levelChange
  split
  · exact (State.keeps_of_view hu).trans hf
  · exact State.keeps_of_view hu
  · exact .refl s

theorem keeps_execLoadhiChange {asserted : Bool} (h : execLoadhiChange asserted s = .next t) : s.Keeps t := by
  cases h
  refine State.keeps_levelChange (by rfl) (State.keeps_ite (fun _ => ?_) fun _ => .refl _)
  exact (State.keeps_takeLoadhiFall _).takes

theorem keeps_execLoadxChange {asserted : Bool} (h : execLoadxChange asserted s = .next t) : s.Keeps t := by
  cases h
  refine State.keeps_levelChange (by rfl) (State.keeps_ite (fun _ => State.Keeps.takes ?_) fun _ => .refl _)
  exact (State.keeps_of_view (by rfl)).trans (State.keeps_openFromWait _)

/-- A transaction at the A-port keeps the ranges if its service does. -/
theorem State.keeps_transact {n : Nat} {f : State → State} (hf : s.Keeps (f s)) : s.Keeps (s.transact n f) := by
  unfold State.transact
  split
  · exact hf
  · exact State.keeps_of_view (by rfl)
  · exact State.keeps_of_view (by rfl)
  · exact .refl s

/-- The pulse counts and the clock values: each command keeps their ranges. -/
theorem keepsRanges_exec (c : Instr) (h : exec c s = .next t) : s.KeepsRanges t := by
  unfold exec at h
  cases c with
  | writeStored => exact keepsRanges_execWriteStored h
  | powerFailWarning heldUp => exact keepsRanges_execPowerFailWarning h
  | startUp loadhi loadx sense => exact keepsRanges_execStartUp h
  | externalReset => exact keepsRanges_execExternalReset h
  | retentionDomainLoss => exact keepsRanges_execRetentionDomainLoss h
  | brownOut =>
    cases h
    exact s.keepsRanges_fall
  | clockAdvance => exact (keeps_execClockAdvance h).ranges
  | lPortFrame bytes =>
    exact (keeps_ifRunning (fun _ => State.keeps_of_view (s.receiveAll_rangeView bytes)) h).ranges
  | lPortByteReceived b => exact (keeps_ifRunning (fun _ => State.keeps_of_view (s.receive_rangeView b)) h).ranges
  | lPortFrameSent => exact (keeps_ifRunning (fun _ => State.keeps_of_view s.frameSent_rangeView) h).ranges
  | lPortBreak => exact (keeps_ifRunning (fun _ => State.keeps_of_view (s.clearPort_rangeView .l)) h).ranges
  | lPortGap | thermInactive | buttonRelease =>
    exact (keeps_ifRunning (fun _ => State.keeps_of_view (by rfl)) h).ranges
  | portClear p =>
    refine (keeps_ifRunning (fun _ => State.keeps_ite (fun _ => ?_) fun _ => .refl s) h).ranges
    exact State.keeps_of_view (s.clearPort_rangeView p)
  | pulseLineResting d p =>
    refine (keeps_ifRunning (fun _ => State.keeps_ite (fun _ => ?_) fun _ => .refl s) h).ranges
    exact State.keeps_updatePulse fun u hu => PulseUnit.inRange_setLine hu d p .resting
  | voltageWatchExpiry sense =>
    refine (keeps_ifRunning (fun _ => State.keeps_ite (fun _ => ?_) fun _ => .refl s) h).ranges
    exact State.keeps_of_view (by rfl)
  | aPortRequestTransaction begun bytes =>
    cases h
    refine (State.keeps_transact (State.keeps_ite (fun _ => State.keeps_of_view ?_) fun _ => .refl s)).ranges
    exact (State.judgeAFrame_rangeView _ _ _).trans rfl
  | aPortReadTransaction begun clocked =>
    cases h
    refine (State.keeps_transact (State.keeps_ite (fun _ => ?_) fun _ => .refl s)).ranges
    exact State.keeps_ite (fun _ => State.keeps_of_view (by rfl)) fun _ => State.keeps_of_view (by rfl)
  | status p | readNotices p | snapshot p | readTamper p | readJournal p | readFirstRefusal p =>
    refine (keeps_ifRunning (fun _ => State.keeps_of_view ?_) h).ranges
    split <;> simp
  | readTariff p =>
    refine (keeps_ifRunning (fun _ => State.keeps_of_view ?_) h).ranges
    split
    · split <;> simp
    · rfl
  | readSetting p =>
    refine (keeps_ifRunning (fun _ => State.keeps_of_view ?_) h).ranges
    split
    · dsimp only
      split <;> simp
    · rfl
  | releaseJournal p => exact (keeps_execReleaseJournal h).ranges
  | submitCode p => exact (keeps_execSubmitCode h).ranges
  | clearFirstRefusal p => exact (keeps_execClearFirstRefusal h).ranges
  | credit =>
    refine (keeps_ifRunning (fun _ => ?_) h).ranges
    split
    · exact State.Keeps.takes (State.keeps_applyCode (by rfl) _ _ _ _ fun e => e.applyCredit_rangeView _)
    · exact State.keeps_of_view (by rfl)
  | emergencyLimit =>
    refine (keeps_ifRunning (fun _ => ?_) h).ranges
    split
    · exact State.Keeps.takes (State.keeps_applyCode (by rfl) _ _ _ _ fun e => e.applyLimit_rangeView _)
    · exact State.keeps_of_view (by rfl)
  | debtSet =>
    refine (keeps_ifRunning (fun _ => ?_) h).ranges
    split
    · exact State.Keeps.takes (State.keeps_applyCode (by rfl) _ _ _ _ fun _ => rfl)
    · exact State.keeps_of_view (by rfl)
  | service =>
    refine (keeps_ifRunning (fun _ => ?_) h).ranges
    split
    · exact State.Keeps.takes (State.keeps_applyCode (by rfl) _ _ _ _ fun e => e.openWindow_rangeView _ _)
    · exact State.keeps_of_view (by rfl)
  | tamperClear =>
    refine (keeps_ifRunning (fun _ => ?_) h).ranges
    split
    · exact State.Keeps.takes (State.keeps_applyCode (by rfl) _ _ _ _ fun e => e.clearAll_rangeView _ _)
    · exact State.keeps_of_view (by rfl)
  | bandPrice =>
    refine (keeps_ifRunning (fun _ => ?_) h).ranges
    split
    · exact State.Keeps.takes (State.keeps_applyCode (by rfl) _ _ _ _ fun _ => rfl)
    · exact State.keeps_of_view (by rfl)
  | reconnect =>
    refine (keeps_ifRunning (fun _ => ?_) h).ranges
    split
    · exact State.Keeps.takes (State.keeps_applyCode (by rfl) _ _ _ _ fun e => e.reconnect_rangeView)
    · exact State.keeps_of_view (by rfl)
  | lockoutExpiry p =>
    refine (keeps_whenRunning (State.keeps_ite (fun _ => ?_) fun _ => .refl s) h).ranges
    exact Event.keeps_commit_of (by rfl)
  | energyQuantum =>
    refine (keeps_whenRunning (State.keeps_ite (fun _ => Event.keeps_commit_of ?_) fun _ => .refl s) h).ranges
    exact (Event.accountResults_rangeView _ _).trans rfl
  | pendingHalfLapse => exact (keeps_execPendingHalfLapse h).ranges
  | codeUnitClockSet =>
    refine (keeps_whenRunning (State.keeps_ite (fun _ => ?_) fun _ => .refl s) h).ranges
    exact (State.keeps_of_view (by rfl)).trans (State.keeps_limitCode _ _)
  | press => exact (keeps_execPress h).ranges
  | acceptEmergency => exact (keeps_execAcceptEmergency h).ranges
  | setClock => exact (keeps_execSetClock h).ranges
  | remoteOpen => exact (keeps_execRemoteOpen h).ranges
  | remoteConnect => exact (keeps_execRemoteConnect h).ranges
  | stageTariff => exact (keeps_execStageTariff h).ranges
  | cancelTariff => exact (keeps_execCancelTariff h).ranges
  | setDebt => exact (keeps_execSetDebt h).ranges
  | clearTamper p => exact (keeps_execClearTamper h).ranges
  | clearTrip p => exact (keeps_execClearTrip h).ranges
  | contactorRetry p => exact (keeps_execContactorRetry h).ranges
  | writeSetting p => exact (keeps_execWriteSetting h).ranges
  | accountSettingChange p => exact (keeps_execAccountSettingChange h).ranges
  | tamperSettingChange p => exact (keeps_execTamperSettingChange h).ranges
  | closeService p => exact (keeps_execCloseService h).ranges
  | tamperClockSet => exact (keeps_execTamperClockSet h).ranges
  | serviceWindowExpiry => exact (keeps_execServiceWindowExpiry h).ranges
  | tamperInputActive k => exact (keeps_execTamperInputActive h).ranges
  | tamperInputInactive k => exact (keeps_execTamperInputInactive h).ranges
  | buttonPress => exact (keeps_execButtonPress h).ranges
  | importPulse p => exact (keeps_execImportPulse h).ranges
  | exportPulse p => exact (keeps_execExportPulse h).ranges
  | minuteEnd windowFirst => exact (keeps_execMinuteEnd h).ranges
  | hourEnd => exact (keeps_execHourEnd h).ranges
  | midnight =>
    refine (keeps_ifRunning (fun _ => State.keeps_ite (fun _ => ?_) fun _ => .refl s) h).ranges
    exact State.keeps_of_view ((State.handOwed_rangeView _ _ _).trans rfl)
  | tariffActivation =>
    refine (keeps_whenRunning ?_ h).ranges
    split
    · exact Event.keeps_commit_of (by rfl)
    · exact .refl s
  | dayClose =>
    refine (keeps_whenRunning ?_ h).ranges
    split
    · exact State.keeps_takeDayClose (by rfl) _
    · exact .refl s
  | friendlyWindowEdge =>
    refine (keeps_whenRunning ?_ h).ranges
    split
    · exact .refl s
    · exact Event.keeps_commitSupply_of ((Event.within_windowEdge _ _).rangeView.trans rfl)
  | arrearsCeilingReached =>
    refine (keeps_whenRunning (State.keeps_ite (fun _ => Event.keeps_commitSupply_of ?_) fun _ => .refl s) h).ranges
    exact (Event.within_ceilingReached _).rangeView.trans rfl
  | demandOverLimit =>
    refine (keeps_whenRunning (State.keeps_ite (fun _ => ?_) fun _ => .refl s) h).ranges
    dsimp only
    split
    · exact State.keeps_of_view (by rfl)
    · exact Event.keeps_commit_of ((Event.within_place _ _ _ _ _).rangeView.trans rfl)
  | pulsesWhileOpen =>
    refine (keeps_whenRunning (State.keeps_ite (fun _ => ?_) fun _ => .refl s) h).ranges
    refine State.keeps_ite (fun _ => Event.keeps_commit_of ?_) fun _ => State.keeps_of_view (by rfl)
    exact (Event.within_enter _ _).rangeView.trans rfl
  | graceDeadline k =>
    refine (keeps_whenRunning ?_ h).ranges
    exact Event.keeps_commitSupply_of (Event.within_graceReached _ _ _).rangeView
  | restoreTime =>
    refine (keeps_whenRunning ?_ h).ranges
    exact Event.keeps_commitSupply_of (Event.within_restoreReached _ _).rangeView
  | armDeadline =>
    refine (keeps_whenRunning ?_ h).ranges
    exact Event.keeps_commitSupply_of (Event.armReached_rangeView _ _)
  | supplyClockSet => exact (keeps_execSupplyClockSet h).ranges
  | loadhiChange asserted => exact (keeps_execLoadhiChange h).ranges
  | loadxChange asserted => exact (keeps_execLoadxChange h).ranges
  | thermActive =>
    refine (keeps_whenRunning ?_ h).ranges
    refine State.keeps_ite (fun _ => .refl s) fun _ => ?_
    refine State.keeps_ite (fun _ => State.keeps_of_view (by rfl)) fun _ => Event.keeps_commit_of ?_
    exact (Event.within_place _ _ _ _ _).rangeView.trans rfl
  | drivePulseEnd =>
    cases h
    refine (State.keeps_of_view ?_).ranges
    split <;> rfl
  | driveSettleEnd sense =>
    refine (keeps_whenRunning ?_ h).ranges
    split
    · exact State.keeps_ite (fun _ => s.keeps_judgeReading _ _) fun _ => .refl s
    · exact .refl s
  | outageCoverWatch coverOpen =>
    cases h
    exact (State.keeps_ite (fun _ => State.keeps_of_view (by rfl)) fun _ => .refl s).ranges

/-- Settles O22: one step is the effect of the command at the front of the queue. -/
theorem pulseCountsStayInRange : Obligations.PulseCountsStayInRange := by
  intro s t h
  have hkeeps : s.KeepsRanges t := by
    unfold step at h
    split at h
    · cases h
      exact (State.Keeps.refl s).ranges
    · next c rest _ =>
      have queued : s.Keeps { s with pending := rest } := State.keeps_of_view (by rfl)
      exact queued.ranges.trans (keepsRanges_exec c h)
  exact ⟨hkeeps.pulse, fun hs => t.clockLaw_iff.mpr (hkeeps.clock (s.clockLaw_iff.mp hs))⟩

end

end Sys2Proof.Machine
end


-- ==== Sys2Proof/Laws/StartView.lean ====
section
namespace Sys2Proof.Machine

/-! ## What the sequence settles, and what it leaves alone (R204, R205)

`StartView` is the part of a state that O58 speaks of. An event of the sequence that is `Event.AtStart v days` has left
that part at `v` and calls for notices alone, or, with `days`, for the two follow-ups of a day close as well. -/

/-- What no step of the sequence changes. -/
structure StartKept where
  pending : List Instr
  service : Option CodeService
  settings : Settings
  key : Key
  spent : List Nat
  failures : PerPort Nat
  lockoutSteps : PerPort Nat
  firstRefusal : Option FirstRefusal

/-- The rest of what the end of start-up speaks of. -/
structure StartView where
  kept : StartKept
  ret : Retention
  supply : SupplyUnit
  windowInForce : Bool
  ports : PerPort PortUnit
  writes : List Write
  warnedMark : Bool
  window : Option ServiceWindow
  tariff : TariffSet

def State.startKept (s : State) : StartKept where
  pending := s.pending
  service := s.code.service
  settings := s.nv.settings
  key := s.nv.key
  spent := s.nv.spent
  failures := s.nv.failures
  lockoutSteps := s.nv.lockoutSteps
  firstRefusal := s.nv.firstRefusal

/-- A state's view. -/
def State.startView (s : State) : StartView where
  kept := s.startKept
  ret := s.ret
  supply := s.supply
  windowInForce := s.clockUnit.windowInForce
  ports := s.ports
  writes := s.writes
  warnedMark := s.nv.warnedMark
  window := s.nv.window
  tariff := s.nv.activeTariff

/-- What may follow a write of start-up: a notice, and of a day close its two hand-offs. -/
def FollowUp.ofStart (days : Bool) : FollowUp → Bool
  | .notice _ => true
  | .dayCloseTaken | .ceilingReached => days
  | _ => false

/-- An event of the sequence as it stands: the view it has left, and what it calls for. -/
structure Event.AtStart (v : StartView) (days : Bool) (e : Event) : Prop where
  view : e.state.startView = v
  follow : ∀ f ∈ e.follow, f.ofStart days = true

theorem Event.Within.startView {e e' : Event} (h : e.Within e') : e'.state.startView = e.state.startView := by
  have state {α : Type} (f : State → α) : f (e'.state.withStoreOf e.state) = f e.state := congrArg f h.state
  have nv {α : Type} (f : Nv → α) : f (e'.nv.withSupplyOf e.nv) = f e.nv := congrArg f h.nv
  have kept : e'.state.startKept = e.state.startKept := by
    simp only [State.startKept, StartKept.mk.injEq]
    exact ⟨state (·.pending), state (·.code.service), nv (·.settings), nv (·.key), nv (·.spent), nv (·.failures),
      nv (·.lockoutSteps), nv (·.firstRefusal)⟩
  simp only [State.startView, StartView.mk.injEq]
  exact ⟨kept, state (·.ret), state (·.supply), state (·.clockUnit.windowInForce), state (·.ports), h.writes,
    nv (·.warnedMark), nv (·.window), nv (·.activeTariff)⟩

theorem Event.atStart_begin (s : State) (o : Origin) (days : Bool) : (Event.begin s o).AtStart s.startView days :=
  ⟨rfl, by simp⟩

section
variable {v : StartView} {days : Bool} {e : Event}

theorem Event.atStart_ite {c : Prop} [Decidable c] {a b : Event} (ha : a.AtStart v days) (hb : b.AtStart v days) :
    (if c then a else b).AtStart v days := by
  split <;> assumption

/-! ### Commands of the supply controller -/

theorem Event.AtStart.commands {e' : Event} (h : e.AtStart v days) (hc : e.Commands e') : e'.AtStart v days where
  view := hc.within.startView.trans h.view
  follow := fun f hf => by
    by_cases hs : f = .notice .supplyChanged
    · rw [hs]; rfl
    by_cases ha : f = .notice .armed
    · rw [ha]; rfl
    exact h.follow f ((hc.follow f hs ha).mp hf)

theorem Event.AtStart.log (h : e.AtStart v days) (r : RecordBody) : (e.log r).AtStart v days := ⟨h.view, h.follow⟩

theorem Event.AtStart.updateNv (h : e.AtStart v days) {f : Nv → Nv}
    (hf : (e.updateNv f).state.startView = e.state.startView) : (e.updateNv f).AtStart v days :=
  ⟨hf.trans h.view, h.follow⟩

theorem Event.AtStart.andThen (h : e.AtStart v days) {f : FollowUp} (hf : f.ofStart days = true) :
    (e.andThen f).AtStart v days where
  view := h.view
  follow := fun g hg => by
    rcases List.mem_append.mp hg with hg | hg
    · exact h.follow g hg
    · rwa [List.mem_singleton.mp hg]

theorem Event.AtStart.notify (h : e.AtStart v days) (k : NoticeKind) : (e.notify k).AtStart v days := h.andThen rfl

theorem Event.AtStart.place (h : e.AtStart v days) (k : HoldKind) (phase : HoldPhase) (byRequest : Bool)
    (restore : Nat) : (e.place k phase byRequest restore).AtStart v days :=
  Event.AtStart.commands (e := e.join k phase byRequest restore) ⟨h.view, h.follow⟩ (e.commands_place _ _ _ _)

theorem Event.AtStart.makeFirm (h : e.AtStart v days) (k : HoldKind) (left : PhaseName) (cause : FirmCause) :
    (e.makeFirm k left cause).AtStart v days :=
  Event.AtStart.commands (e := e.firm k left cause) ⟨h.view, h.follow⟩ (e.commands_makeFirm _ _ _)

theorem Event.AtStart.remove (h : e.AtStart v days) (k : HoldKind) (cause : RemovalCause) (named : Option Policy)
    (policy : Policy) : (e.remove k cause named policy).AtStart v days := by
  cases hk : e.nv.holds.phase k with
  | none => rwa [e.remove_of_absent hk]
  | some had =>
    exact Event.AtStart.commands (e := e.drop k had cause named policy) ⟨h.view, h.follow⟩ (e.commands_remove hk _ _ _)

/-! ### The supply controller's events (R109 to R112, R119, R122) -/

theorem Event.AtStart.leaveDeferred (h : e.AtStart v days) (cause : FirmCause) :
    (e.leaveDeferred cause).AtStart v days :=
  Event.atStart_ite (h.updateNv (by rfl)) (h.makeFirm _ _ _)

theorem Event.AtStart.windowEdge (h : e.AtStart v days) (edge : WindowEdge) : (e.windowEdge edge).AtStart v days := by
  unfold Event.windowEdge
  split
  · exact Event.atStart_ite h (h.updateNv (by rfl))
  · exact h.leaveDeferred _
  · exact h

theorem Event.AtStart.ceilingReached (h : e.AtStart v days) : e.ceilingReached.AtStart v days := by
  unfold Event.ceilingReached
  split
  · exact h.leaveDeferred _
  · exact h

theorem Event.AtStart.graceReached (h : e.AtStart v days) (clock : Nat) (k : HoldKind) :
    (e.graceReached clock k).AtStart v days := by
  rw [e.graceReached_eq]
  exact Event.atStart_ite (h.makeFirm _ _ _) h

theorem Event.AtStart.graceEnds (h : e.AtStart v days) (cause : FirmCause) (k : HoldKind) :
    (e.graceEnds cause k).AtStart v days := by
  rw [e.graceEnds_eq]
  exact Event.atStart_ite (h.makeFirm _ _ _) h

theorem Event.AtStart.graceAtStart (h : e.AtStart v days) : e.graceAtStart.AtStart v days :=
  Event.atStart_ite h ((h.graceEnds _ _).graceEnds _ _)

theorem Event.AtStart.restoreReached (h : e.AtStart v days) (clock : Nat) : (e.restoreReached clock).AtStart v days := by
  unfold Event.restoreReached
  split
  · exact Event.atStart_ite (h.remove _ _ _ _) h
  · exact h

theorem Event.AtStart.armReached (h : e.AtStart v days) (clock : Nat) : (e.armReached clock).AtStart v days := by
  have dropped (a : ArmDeadline) : ((e.log (.armLapsed a.deadline a.minutes)).dropArmDeadline).AtStart v days :=
    ⟨h.view, h.follow⟩
  unfold Event.armReached
  split
  · refine Event.atStart_ite (Event.AtStart.place (Event.AtStart.updateNv ?_ (by rfl)) _ _ _ _) h
    exact Event.atStart_ite ((dropped _).commands (Event.commands_giveDisarm _)) (dropped _)
  · exact h

/-! ### The monitor's events (R145, R151, R155) -/

theorem Event.AtStart.tamperResults (h : e.AtStart v days) (before : Nv) (detected : Bool) :
    (e.tamperResults before detected).AtStart v days := by
  have moved (was now : Bool) : (e.tamperCondition was now).AtStart v days :=
    Event.atStart_ite (Event.atStart_ite h (h.place _ _ _ _)) (Event.atStart_ite (h.remove _ _ _ _) h)
  exact Event.atStart_ite ((moved _ _).notify _) (moved _ _)

theorem Event.AtStart.detect (h : e.AtStart v days) (k : TamperKind) (entered : TamperState) (outage : Bool) :
    (e.detect k entered outage).AtStart v days :=
  Event.AtStart.tamperResults (Event.AtStart.log (h.updateNv (by rfl)) _) _ _

/-- A close leaves no window. -/
theorem Event.AtStart.closeWindow (h : e.AtStart v days) (cause : CloseCause) :
    (e.closeWindow cause).AtStart { v with window := none } days := by
  obtain ⟨rfl, hfollow⟩ := h
  have closed : (e.updateNv (fun n => { n with window := none })).AtStart { e.state.startView with window := none }
    days := ⟨by rfl, hfollow⟩
  exact (closed.tamperResults _ _).log _

/-! ### The account's event (R16) -/

theorem Event.AtStart.accountResults (h : e.AtStart v true) (before : Nv) : (e.accountResults before).AtStart v true := by
  have judged : e.judgeLow.AtStart v true := ⟨h.view, h.follow⟩
  have low : (e.lowCreditIfChanged before.account).AtStart v true := by
    unfold Event.lowCreditIfChanged
    rw [e.lowCredit_eq]
    exact Event.atStart_ite h (Event.atStart_ite (judged.notify _) judged)
  have credit (d : Event) (hd : d.AtStart v true) (was now : Bool) : (d.creditCondition was now).AtStart v true :=
    Event.atStart_ite (Event.AtStart.notify (Event.atStart_ite (hd.place _ _ _ _) hd) _)
      (Event.atStart_ite (hd.remove _ _ _ _) hd)
  exact Event.atStart_ite ((credit _ low _ _).andThen rfl) (credit _ low _ _)

end

theorem State.dayCloseEvent_atStart (s : State) (d : DayCloseEvent) : (s.dayCloseEvent d).AtStart s.startView true := by
  have standing (n : Nv → Nv) (r : RecordBody)
      (hn : ((Event.begin s .device).updateNv n).state.startView = s.startView) :
      ((((Event.begin s .device).updateNv n).log r).accountResults s.nv).AtStart s.startView true :=
    (((Event.atStart_begin s .device true).updateNv hn).log r).accountResults s.nv
  refine Event.AtStart.andThen (Event.atStart_ite ?_ (Event.AtStart.notify ?_ _)) rfl
  all_goals exact standing _ _ (by rfl)

end Sys2Proof.Machine
end

