-- ==== Sys2Proof/Laws/StartViewSteps.lean ====
section
namespace Sys2Proof.Machine

/-! ## What each step of the sequence leaves of the view (R205) -/

/-- What a step settles: `tariff` is the set that an activation leaves. -/
def StartView.settle (v : StartView) (clock : Nat) (tariff : TariffSet) : StartStep → StartView
  | .outageRecord => { v with warnedMark := false }
  | .windowClose => { v with window := none }
  | .activation => { v with tariff := tariff }
  | .windowEdge => { v with windowInForce := v.tariff.friendlyAt clock }
  | .ceiling => { v with supply := { v.supply with ceilingHanded := false } }
  | _ => v

/-- The mark of the retention domain that a step's write clears (R155, R203). -/
def StartStep.clears : StartStep → Option RetentionMark
  | .outageRecord => some .reset
  | .coverStep => some .latch
  | _ => none

/-- A write that a step may make. -/
structure Write.OfStep (step : StartStep) (w : Write) : Prop where
  setsClock : w.setsClock = none
  clears : w.clears = step.clears
  follow : ∀ f ∈ w.follow, f.ofStart (step == .owedDays) = true

/-- A step has left the view `v`, and at most one write on its way. -/
def State.StepLeaves (step : StartStep) (v : StartView) (t : State) : Prop :=
  t.startView = v ∨ ∃ w : Write, w.OfStep step ∧ t.startView = { v with writes := v.writes ++ [w] }

section
variable {v : StartView} {e : Event} {step : StartStep}

/-- An event of the sequence makes one write. -/
theorem Event.AtStart.commitSetting (h : e.AtStart v (step == .owedDays)) (b : Block) {m : Option RetentionMark}
    (hm : m = step.clears) : (e.commitSetting b none m).StepLeaves step v := by
  obtain ⟨rfl, hfollow⟩ := h
  refine .inr ⟨_, And.symm ⟨rfl, rfl, hm, fun f hf => ?_⟩⟩
  rcases List.mem_append.mp hf with hf | hf
  · exact hfollow f hf
  · obtain ⟨k, -, rfl⟩ := List.mem_map.mp hf
    rfl

theorem Event.AtStart.commit (h : e.AtStart v (step == .owedDays)) (b : Block) (hm : none = step.clears) :
    (e.commit b).StepLeaves step v :=
  h.commitSetting b hm

theorem Event.AtStart.commitSupply (h : e.AtStart v (step == .owedDays)) (before : Nv) (hm : none = step.clears) :
    (e.commitSupply before).StepLeaves step v := by
  unfold Event.commitSupply
  split
  · exact .inl h.view
  · exact h.commit _ hm

/-- An event of the supply controller in the sequence. -/
theorem State.stepLeaves_supplyStep {s : State} {f : Event → Event} (hv : s.startView = v)
    (hf : (Event.begin s .device).AtStart v (step == .owedDays) → (f (Event.begin s .device)).AtStart v (step == .owedDays))
    (hm : none = step.clears) : (s.supplyStep f).StepLeaves step v :=
  (hf (hv ▸ Event.atStart_begin s .device _)).commitSupply _ hm

theorem State.stepLeaves_ite {c : Prop} [Decidable c] {a b : State} (ha : c → a.StepLeaves step v)
    (hb : ¬ c → b.StepLeaves step v) : (if c then a else b).StepLeaves step v := by
  split
  · next h => exact ha h
  · next h => exact hb h

end

theorem State.handOwed_startView (s : State) (clock : Nat) (byMidnight : Bool) :
    (s.handOwed clock byMidnight).startView = s.startView := by
  rw [s.handOwed_eq]
  rfl

theorem State.stepLeaves_closeOwed (s : State) (clock : Nat) :
    (s.closeOwed clock).StepLeaves .owedDays s.startView := by
  have hhand : (s.handOwed clock false).startView = s.startView := s.handOwed_startView clock false
  unfold State.closeOwed
  dsimp only
  split
  · next d _ =>
    let x : State := { (s.handOwed clock false).leaveArrivals with
      clockUnit := { (s.handOwed clock false).leaveArrivals.clockUnit with dayCloseTaking := true } }
    have hx : (x.dayCloseEvent d).AtStart s.startView true := hhand ▸ x.dayCloseEvent_atStart d
    exact Event.AtStart.commit (step := .owedDays) hx _ rfl
  · exact .inl hhand

/-- Each step settles its own part of the view. -/
theorem State.startStep_leaves (s : State) (q : StartSequence) (step : StartStep) :
    ∃ tariff, (s.startStep q step).StepLeaves step (s.startView.settle q.clock tariff step) := by
  have begun (days : Bool) : (Event.begin s .device).AtStart s.startView days := Event.atStart_begin s .device days
  cases step with
  | outageRecord =>
    refine ⟨s.nv.activeTariff, Event.AtStart.commitSetting (step := .outageRecord) (e := Event.log _ _) ?_ _ rfl⟩
    exact ⟨by rfl, by simp⟩
  | windowClose =>
    refine ⟨s.nv.activeTariff, ?_⟩
    change s.closeAtStart.StepLeaves .windowClose { s.startView with window := none }
    unfold State.closeAtStart
    split
    · exact Event.AtStart.commit ((begun _).closeWindow _) _ rfl
    · next hw => exact .inl (by rw [← hw]; rfl)
  | coverStep =>
    refine ⟨s.nv.activeTariff, State.stepLeaves_ite (fun _ => ?_) fun _ => .inl rfl⟩
    exact Event.AtStart.commitSetting (Event.AtStart.detect ⟨by rfl, by simp⟩ _ _ _) _ rfl
  | owedDays => exact ⟨s.nv.activeTariff, s.stepLeaves_closeOwed q.clock⟩
  | graceDeadlines =>
    exact ⟨s.nv.activeTariff, State.stepLeaves_supplyStep (by rfl)
      (fun h => (h.graceReached _ _).graceReached _ _) rfl⟩
  | armDeadline =>
    exact ⟨s.nv.activeTariff, State.stepLeaves_supplyStep (by rfl) (fun h => h.armReached _) rfl⟩
  | restoreTime =>
    exact ⟨s.nv.activeTariff, State.stepLeaves_supplyStep (by rfl) (fun h => h.restoreReached _) rfl⟩
  | halfLapse =>
    refine ⟨s.nv.activeTariff, ?_⟩
    change (s.lapseAtStart q.clock).StepLeaves _ s.startView
    unfold State.lapseAtStart
    split
    · exact State.stepLeaves_ite (fun _ => Event.AtStart.commit ⟨by rfl, by simp [Event.discardHalf]⟩ _ rfl)
        fun _ => .inl rfl
    · exact .inl rfl
  | lockoutA | lockoutL =>
    refine ⟨s.nv.activeTariff, (?_ : ∀ p, (s.expireAtStart q.clock p).StepLeaves _ s.startView) _⟩
    intro p
    unfold State.expireAtStart
    split
    · exact State.stepLeaves_ite (fun _ => Event.AtStart.commit ⟨by rfl, by simp [Event.endLockout]⟩ _ rfl)
        fun _ => .inl rfl
    · exact .inl rfl
  | activation =>
    change ∃ tariff, (s.activateAtStart q.clock).StepLeaves .activation { s.startView with tariff := tariff }
    unfold State.activateAtStart
    split
    · next t _ _ =>
      refine ⟨t, Event.AtStart.commit (Event.AtStart.notify ?_ _) _ rfl⟩
      exact ⟨by rfl, by simp [Event.activate]⟩
    · exact ⟨s.nv.activeTariff, .inl rfl⟩
  | codeLimits =>
    refine ⟨s.nv.activeTariff, ?_⟩
    change (s.limitCode q.clock).StepLeaves _ s.startView
    unfold State.limitCode
    exact State.stepLeaves_ite (fun _ => .inl rfl) fun _ => Event.AtStart.commit ⟨by rfl, by simp⟩ _ rfl
  | supplyLimits =>
    exact ⟨s.nv.activeTariff, State.stepLeaves_supplyStep (by rfl) (fun h => h.updateNv (by rfl)) rfl⟩
  | graceLevels =>
    exact ⟨s.nv.activeTariff, State.stepLeaves_supplyStep (by rfl) (fun h => h.graceAtStart) rfl⟩
  | windowEdge =>
    exact ⟨s.nv.activeTariff, State.stepLeaves_supplyStep (by rfl) (fun h => h.windowEdge _) rfl⟩
  | ceiling =>
    refine ⟨s.nv.activeTariff, State.stepLeaves_ite (fun _ => ?_) fun _ => .inl rfl⟩
    exact State.stepLeaves_supplyStep (by rfl) (fun h => h.ceilingReached) rfl
  | breakWait =>
    refine ⟨s.nv.activeTariff, State.stepLeaves_ite (fun _ => .inl rfl) fun _ => ?_⟩
    refine State.stepLeaves_ite (fun _ => ?_) fun _ => .inl rfl
    exact Event.AtStart.commit ((begun _).commands (Event.commands_beginDrive _ _ _ _)) _ rfl
  | contactorCheck =>
    refine ⟨s.nv.activeTariff, ?_⟩
    change (s.contactorCheck q.sense).StepLeaves _ s.startView
    unfold State.contactorCheck
    split
    · refine Event.AtStart.commit (Event.AtStart.commands ?_ (Event.commands_beginDrive _ _ _ _)) _ rfl
      exact (begun _).updateNv (by rfl)
    · exact .inl rfl

/-- Steps 1 and 3 make a write when they have a mark to clear (R155, R203). -/
theorem State.startStep_writes (s : State) (q : StartSequence) {step : StartStep}
    (h : step = .outageRecord ∨ step = .coverStep ∧ q.intact = true ∧ s.ret.latch = true) :
    (s.startStep q step).writes ≠ [] := by
  rcases h with rfl | ⟨rfl, hmark⟩
  · exact List.concat_ne_nil _ _
  · change (s.outageStep q.intact).writes ≠ []
    unfold State.outageStep
    rw [if_pos hmark]
    exact List.concat_ne_nil _ _

end Sys2Proof.Machine
end

