-- ==== Sys2Proof/Laws/StartSettles.lean ====
section
namespace Sys2Proof.Machine

/-! ## A step with its write stored (R205)

The step and the storing of its write, if it makes one, are taken together: what the two leave of the view is
`StartView.Settles`. -/

/-- A port as the sequence keeps it: fresh but for its notices, the first of them POWER_UP at the clock (R190, R204). -/
def PortUnit.sinceStart (u : PortUnit) (clock : Nat) : Prop :=
  { u with notices := [] } = PortUnit.fresh ∧ u.notices.head? = some ⟨.powerUp, clock⟩

/-- A raise at a port leaves POWER_UP first in its set: it joins behind, or raises POWER_UP again at the same clock. -/
theorem PortUnit.sinceStart_raise {u : PortUnit} {clock : Nat} (h : u.sinceStart clock) (k : NoticeKind) :
    { u with notices := raiseInto k clock u.notices }.sinceStart clock := by
  obtain ⟨hfresh, hhead⟩ := h
  obtain ⟨rest, hnotices⟩ : ∃ rest, u.notices = ⟨.powerUp, clock⟩ :: rest := List.head?_eq_some_iff.mp hhead
  refine ⟨hfresh, ?_⟩
  dsimp only
  rw [hnotices, raiseInto]
  split
  · next hk => rw [← hk]; rfl
  · rfl

/-! ### What follows a write of the sequence -/

/-- From `s` to `t` notices are raised, and with `days` "arrears ceiling reached" may be handed. -/
structure State.StartFollowed (days : Bool) (s t : State) : Prop where
  view : t.startView =
    { s.startView with ports := t.ports, supply := { s.supply with ceilingHanded := t.supply.ceilingHanded } }
  handed : t.supply.ceilingHanded = true → s.supply.ceilingHanded = true ∨ days = true
  ports : ∀ p, (s.ports.get p).sinceStart s.clock → (t.ports.get p).sinceStart s.clock

section
variable {days : Bool} {s t u : State}

theorem State.StartFollowed.of_view (h : t.startView = s.startView) : State.StartFollowed days s t where
  view := by
    have hports : t.ports = s.ports := congrArg StartView.ports h
    have hsupply : t.supply = s.supply := congrArg StartView.supply h
    rw [h, hports, hsupply]
    rfl
  handed := fun ht => by
    have hsupply : t.supply = s.supply := congrArg StartView.supply h
    exact .inl (hsupply ▸ ht)
  ports := fun p hp => by
    have hports : t.ports = s.ports := congrArg StartView.ports h
    rwa [hports]

theorem State.StartFollowed.trans (h : State.StartFollowed days s t) (k : State.StartFollowed days t u) :
    State.StartFollowed days s u where
  view := by
    have hsupply : t.supply = { s.supply with ceilingHanded := t.supply.ceilingHanded } :=
      congrArg StartView.supply h.view
    rw [k.view, h.view, hsupply]
  handed := fun hu => (k.handed hu).elim h.handed .inr
  ports := fun p hp => by
    have hclock : t.clock = s.clock := congrArg (fun v => v.ret.clock) h.view
    exact hclock ▸ k.ports p (hclock ▸ h.ports p hp)

theorem State.StartFollowed.perform {f : FollowUp} (hf : f.ofStart days = true) (s : State) :
    State.StartFollowed days s (s.perform f) := by
  cases f with
  | notice k =>
    change State.StartFollowed days s (s.raise k)
    refine ⟨?_, fun h => .inl ?_, fun p hp => ?_⟩
    · unfold State.raise State.raiseAt
      split <;> split <;> rfl
    · have hsupply : (s.raise k).supply = s.supply := by
        unfold State.raise State.raiseAt
        split <;> split <;> rfl
      rwa [← hsupply]
    · rw [s.raise_port]
      split
      · exact hp
      · exact PortUnit.sinceStart_raise hp k
  | dayCloseTaken =>
    refine .of_view ?_
    change s.dayCloseStored.startView = _
    unfold State.dayCloseStored
    dsimp only
    split <;> rfl
  | ceilingReached => exact ⟨rfl, fun _ => .inr hf, fun _ h => h⟩
  | answer | quantumTaken | codeServed | windowReevaluated | clockMoved => cases hf

theorem State.StartFollowed.performAll {fs : List FollowUp} (hfs : ∀ f ∈ fs, f.ofStart days = true) (s : State) :
    State.StartFollowed days s (fs.foldl State.perform s) := by
  induction fs generalizing s with
  | nil => exact .of_view rfl
  | cons f rest ih =>
    obtain ⟨hf, hrest⟩ := List.forall_mem_cons.mp hfs
    exact (State.StartFollowed.perform hf s).trans (ih hrest (s.perform f))

end

/-! ### The step as a whole -/

/-- From the view `v` to the view `t` a step has been taken and its write stored. -/
structure StartView.Settles (clock : Nat) (step : StartStep) (v t : StartView) : Prop where
  kept : t.kept = v.kept
  writes : t.writes = []
  ret : t.ret = { v.ret with latch := t.ret.latch, resetMark := t.ret.resetMark }
  latch : t.ret.latch = true → v.ret.latch = true ∧ step ≠ .coverStep
  mark : t.ret.resetMark = true → v.ret.resetMark = true ∧ step ≠ .outageRecord
  supply : t.supply = { v.supply with ceilingHanded := t.supply.ceilingHanded }
  handed : t.supply.ceilingHanded = true → v.supply.ceilingHanded = true ∧ step ≠ .ceiling ∨ step = .owedDays
  warned : t.warnedMark = true → v.warnedMark = true ∧ step ≠ .outageRecord
  window : t.window = none ∨ t.window = v.window ∧ step ≠ .windowClose
  tariff : t.tariff = v.tariff ∨ step = .activation
  windowInForce : t.windowInForce = if step = .windowEdge then v.tariff.friendlyAt clock else v.windowInForce
  ports : ∀ p, (v.ports.get p).sinceStart v.ret.clock → (t.ports.get p).sinceStart v.ret.clock

section
variable (v : StartView) (clock : Nat) (tariff : TariffSet) (step : StartStep)

theorem StartView.settle_kept : (v.settle clock tariff step).kept = v.kept := by
  cases step <;> rfl

theorem StartView.settle_ret : (v.settle clock tariff step).ret = v.ret := by
  cases step <;> rfl

theorem StartView.settle_ports : (v.settle clock tariff step).ports = v.ports := by
  cases step <;> rfl

theorem StartView.settle_writes : (v.settle clock tariff step).writes = v.writes := by
  cases step <;> rfl

theorem StartView.settle_supply : (v.settle clock tariff step).supply =
    { v.supply with ceilingHanded := if step = .ceiling then false else v.supply.ceilingHanded } := by
  cases step <;> rfl

theorem StartView.settle_warnedMark :
    (v.settle clock tariff step).warnedMark = if step = .outageRecord then false else v.warnedMark := by
  cases step <;> rfl

theorem StartView.settle_window :
    (v.settle clock tariff step).window = if step = .windowClose then none else v.window := by
  cases step <;> rfl

theorem StartView.settle_tariff :
    (v.settle clock tariff step).tariff = if step = .activation then tariff else v.tariff := by
  cases step <;> rfl

theorem StartView.settle_windowInForce : (v.settle clock tariff step).windowInForce =
    if step = .windowEdge then v.tariff.friendlyAt clock else v.windowInForce := by
  cases step <;> rfl

end

/-- What a step settles, with the retention domain, the notices and "arrears ceiling reached" as its write, if it makes
one, leaves them. -/
theorem StartView.settles_of {v t : StartView} {clock : Nat} {step : StartStep} (tariff : TariffSet)
    (h : t =
      { v.settle clock tariff step with
        ret := t.ret, writes := [], ports := t.ports
        supply := { (v.settle clock tariff step).supply with ceilingHanded := t.supply.ceilingHanded } })
    (hret : t.ret = { v.ret with latch := t.ret.latch, resetMark := t.ret.resetMark })
    (hlatch : t.ret.latch = true → v.ret.latch = true ∧ step ≠ .coverStep)
    (hmark : t.ret.resetMark = true → v.ret.resetMark = true ∧ step ≠ .outageRecord)
    (hhanded : t.supply.ceilingHanded = true →
      (v.settle clock tariff step).supply.ceilingHanded = true ∨ step = .owedDays)
    (hports : ∀ p, (v.ports.get p).sinceStart v.ret.clock → (t.ports.get p).sinceStart v.ret.clock) :
    StartView.Settles clock step v t where
  kept := (congrArg StartView.kept h).trans (v.settle_kept _ _ _)
  writes := congrArg StartView.writes h
  ret := hret
  latch := hlatch
  mark := hmark
  supply := by
    have hsupply := congrArg StartView.supply h
    rw [v.settle_supply] at hsupply
    exact hsupply
  handed := fun ht => by
    refine (hhanded ht).imp_left fun hs => ?_
    rw [v.settle_supply] at hs
    by_cases hstep : step = .ceiling
    · simp [hstep] at hs
    · exact ⟨by simpa [hstep] using hs, hstep⟩
  warned := fun ht => by
    have hwarned := (congrArg StartView.warnedMark h).trans (v.settle_warnedMark _ _ _)
    by_cases hstep : step = .outageRecord
    · simp [hwarned, hstep] at ht
    · exact ⟨by simpa [hwarned, hstep] using ht, hstep⟩
  window := by
    have hwindow := (congrArg StartView.window h).trans (v.settle_window _ _ _)
    by_cases hstep : step = .windowClose
    · exact .inl (hwindow.trans (if_pos hstep))
    · exact .inr ⟨hwindow.trans (if_neg hstep), hstep⟩
  tariff := by
    have htariff := (congrArg StartView.tariff h).trans (v.settle_tariff _ _ _)
    by_cases hstep : step = .activation
    · exact .inr hstep
    · exact .inl (htariff.trans (if_neg hstep))
  windowInForce := (congrArg StartView.windowInForce h).trans (v.settle_windowInForce _ _ _)
  ports := hports

section
variable {s t : State} {clock : Nat} {tariff : TariffSet} {step : StartStep}

/-- A step that made no write, and had no mark to clear. -/
theorem State.settles_of_noWrite (hv : t.startView = s.startView.settle clock tariff step) (hs : s.writes = [])
    (hrecorded : step ≠ .outageRecord) (hcovered : s.ret.latch = true → step ≠ .coverStep) :
    StartView.Settles clock step s.startView t.startView := by
  have hret : (s.startView.settle clock tariff step).ret = s.ret := s.startView.settle_ret _ _ _
  rw [hv]
  refine StartView.settles_of tariff ?_ (by rw [hret]; rfl) (fun hl => ?_) (fun hm => ?_) .inl fun p hp => ?_
  · change _ = { s.startView.settle clock tariff step with writes := [] }
    rw [← hs, show s.writes = _ from (s.startView.settle_writes clock tariff step).symm]
  · rw [hret] at hl
    exact ⟨hl, hcovered hl⟩
  · rw [hret] at hm
    exact ⟨hm, hrecorded⟩
  · rwa [s.startView.settle_ports]

/-- The retention domain as a step's write leaves it. -/
theorem Write.OfStep.after {w : Write} (h : w.OfStep step) (r : Retention) :
    r.after w = { r with
      latch := r.latch && step.clears != some .latch, resetMark := r.resetMark && step.clears != some .reset } := by
  rw [Retention.after_eq, h.setsClock, h.clears]
  simp

/-- A step whose write is stored. -/
theorem State.settles_of_write {w : Write} (hw : w.OfStep step)
    (hv : t.startView = { s.startView.settle clock tariff step with writes := [w] }) :
    StartView.Settles clock step s.startView t.storeOldest.startView := by
  obtain ⟨hstore, -, -, -, hret, -⟩ := State.storeOldest_spec (s := t) (congrArg StartView.writes hv)
  have htret : t.ret = s.ret := (congrArg StartView.ret hv).trans (s.startView.settle_ret _ _ _)
  rw [htret, hw.after] at hret
  have hlatch : t.storeOldest.ret.latch = (s.ret.latch && step.clears != some .latch) := congrArg Retention.latch hret
  have hmark : t.storeOldest.ret.resetMark = (s.ret.resetMark && step.clears != some .reset) :=
    congrArg Retention.resetMark hret
  let u : State := { t with writes := [], stored := w.image, ret := t.ret.after w }
  have hu : u.startView = { s.startView.settle clock tariff step with writes := [], ret := t.storeOldest.ret } := by
    change { t.startView with writes := [], ret := t.ret.after w } = _
    rw [hv, htret, hw.after, hret]
  have husupply : u.supply = (s.startView.settle clock tariff step).supply := congrArg StartView.supply hu
  have huports : u.ports = s.ports := (congrArg StartView.ports hu).trans (s.startView.settle_ports _ _ _)
  have huclock : u.clock = s.clock := (congrArg (fun v => v.ret.clock) hu).trans (congrArg Retention.clock hret)
  obtain ⟨hview, hhanded, hports⟩ : State.StartFollowed (step == .owedDays) u t.storeOldest := by
    rw [hstore]
    exact State.StartFollowed.performAll hw.follow u
  refine StartView.settles_of tariff ?_ ?_ (fun hl => ?_) (fun hm => ?_) (fun hh => ?_) fun p hp => ?_
  · refine hview.trans ?_
    rw [hu, husupply]
    exact rfl
  · change t.storeOldest.ret = { s.ret with latch := t.storeOldest.ret.latch, resetMark := t.storeOldest.ret.resetMark }
    rw [hlatch, hmark]
    exact hret
  · obtain ⟨hlatch, hclears⟩ := Bool.and_eq_true_iff.mp (hlatch.symm.trans hl)
    exact ⟨hlatch, fun h => by simp [h, StartStep.clears] at hclears⟩
  · obtain ⟨hmark, hclears⟩ := Bool.and_eq_true_iff.mp (hmark.symm.trans hm)
    exact ⟨hmark, fun h => by simp [h, StartStep.clears] at hclears⟩
  · rw [← husupply]
    exact (hhanded hh).imp_right beq_iff_eq.mp
  · rw [huports, huclock] at hports
    exact hports p hp

/-- A step of the sequence with its write stored, whatever the power. -/
theorem State.startStep_settles {q : StartSequence} (hs : s.writes = []) (hlatch : s.ret.latch = true → q.intact = true)
    (ht : t.startView = (s.startStep q step).startView) :
    StartView.Settles q.clock step s.startView t.storeOldest.startView := by
  have hwrites : t.writes = (s.startStep q step).writes := congrArg StartView.writes ht
  obtain ⟨tariff, hleaves⟩ := s.startStep_leaves q step
  rcases hleaves with hv | ⟨w, hw, hv⟩
  · have hnone : t.writes = [] := by
      rw [hwrites]
      exact (congrArg StartView.writes hv).trans ((s.startView.settle_writes _ _ _).trans hs)
    have hstore : t.storeOldest = t := by
      unfold State.storeOldest
      rw [hnone]
    have hno := mt (s.startStep_writes q) (not_not.mpr (hwrites.symm.trans hnone))
    rw [hstore]
    exact State.settles_of_noWrite (ht.trans hv) hs (fun h => hno (.inl h)) fun hl h => hno (.inr ⟨h, hlatch hl, hl⟩)
  · refine State.settles_of_write (tariff := tariff) hw (ht.trans (hv.trans ?_))
    rw [show (s.startView.settle q.clock tariff step).writes = [] from (s.startView.settle_writes _ _ _).trans hs]
    rfl

end

end Sys2Proof.Machine
end

