-- ==== Sys2Proof/Proofs/StartUpSettles.lean ====
section
namespace Sys2Proof.Machine

/-! ## What holds while steps are left (R205, R207) -/

/-- What the sequence has settled of a view `v`, with the steps `left` still to take: `u` is the view it began in. -/
structure StartView.Law (clock : Nat) (intact : Bool) (u : StartView) (left : List StartStep) (v : StartView) : Prop where
  kept : v.kept = u.kept
  writes : v.writes = []
  ret : v.ret = { u.ret with latch := v.ret.latch, resetMark := v.ret.resetMark }
  latch : v.ret.latch = true → intact = true ∧ .coverStep ∈ left
  mark : v.ret.resetMark = true → .outageRecord ∈ left
  supply : v.supply = { u.supply with ceilingHanded := v.supply.ceilingHanded }
  handed : v.supply.ceilingHanded = true → .ceiling ∈ left
  warned : v.warnedMark = true → .outageRecord ∈ left
  window : v.window = none ∨ .windowClose ∈ left
  windowInForce : v.windowInForce = v.tariff.friendlyAt clock ∨ .windowEdge ∈ left
  ports : ∀ p, (v.ports.get p).sinceStart u.ret.clock

/-- The owed days are taken before the ceiling, and an activation before the window edge (R205). -/
theorem startSteps_later {left : List StartStep} :
    (.owedDays :: left <:+ startSteps → .ceiling ∈ left) ∧ (.activation :: left <:+ startSteps → .windowEdge ∈ left) := by
  have htails : ∀ l ∈ startSteps.tails,
      (l.head? = some .owedDays → .ceiling ∈ l.tail) ∧ (l.head? = some .activation → .windowEdge ∈ l.tail) := by decide
  exact ⟨fun h => (htails _ ((List.mem_tails _ _).mpr h)).1 rfl, fun h => (htails _ ((List.mem_tails _ _).mpr h)).2 rfl⟩

/-- A step with its write stored keeps the law, for the steps that are left after it. -/
theorem StartView.Law.settles {clock : Nat} {intact : Bool} {u v t : StartView} {step : StartStep} {left : List StartStep}
    (h : StartView.Law clock intact u (step :: left) v) (ht : StartView.Settles clock step v t)
    (hsteps : step :: left <:+ startSteps) : StartView.Law clock intact u left t where
  kept := ht.kept.trans h.kept
  writes := ht.writes
  ret := by rw [ht.ret, h.ret]
  latch := fun hl => by
    obtain ⟨hv, hstep⟩ := ht.latch hl
    obtain ⟨hintact, hmem⟩ := h.latch hv
    exact ⟨hintact, List.mem_of_ne_of_mem hstep.symm hmem⟩
  mark := fun hm => by
    obtain ⟨hv, hstep⟩ := ht.mark hm
    exact List.mem_of_ne_of_mem hstep.symm (h.mark hv)
  supply := by rw [ht.supply, h.supply]
  handed := fun hh => by
    rcases ht.handed hh with ⟨hv, hstep⟩ | rfl
    · exact List.mem_of_ne_of_mem hstep.symm (h.handed hv)
    · exact startSteps_later.1 hsteps
  warned := fun hw => by
    obtain ⟨hv, hstep⟩ := ht.warned hw
    exact List.mem_of_ne_of_mem hstep.symm (h.warned hv)
  window := by
    rcases ht.window with hnone | ⟨hsame, hstep⟩
    · exact .inl hnone
    · exact h.window.imp hsame.trans (List.mem_of_ne_of_mem hstep.symm)
  windowInForce := by
    rcases ht.tariff with htariff | rfl
    · rw [ht.windowInForce, htariff]
      split
      · exact .inl rfl
      · next hstep => exact h.windowInForce.imp_right (List.mem_of_ne_of_mem (Ne.symm hstep))
    · exact .inr (startSteps_later.2 hsteps)
  ports := fun p => by
    have hclock : v.ret.clock = u.ret.clock := by rw [h.ret]
    exact hclock ▸ ht.ports p (hclock ▸ h.ports p)

/-! ## The sequence (R205) -/

/-- WRITE_STORED while start-up runs (R205). -/
theorem execWriteStored_of_starting {s : State} {q : StartSequence} (hp : s.power = .starting q) {w : Write}
    {rest : List Write} (hw : s.writes = w :: rest) :
    exec .writeStored s =
      .next (if s.storeOldest.writes = [] then s.storeOldest.runStartUp q q.steps else s.storeOldest) := by
  change execWriteStored s = _
  rw [execWriteStored, hp]
  simp only [State.storeInStartUp, hw, List.isEmpty_cons, Bool.false_eq_true, if_false, List.isEmpty_iff]

theorem State.storeOldest_of_noWrite {s : State} (hw : s.writes = []) : s.storeOldest = s := by
  unfold State.storeOldest
  rw [hw]

/-- The steps left are taken, and their writes stored by at most as many WRITE_STORED: `stored` is what one of them
leaves. -/
theorem State.runStartUp_settles {stored : State → State} (hstored : ∀ x y, exec .writeStored x = .next y → stored x = y)
    {u : StartView} (left : List StartStep) {s : State} {q : StartSequence} (hleft : left <:+ startSteps)
    (hagrees : s.storeAgrees = true) (hlaw : StartView.Law q.clock q.intact u left s.startView) :
    ∃ n ≤ left.length, ∃ e : State, e.storeAgrees = true ∧ StartView.Law q.clock q.intact u [] e.startView ∧
      stored^[n] (s.runStartUp q left) = e.endStartUp := by
  induction left generalizing s q with
  | nil => exact ⟨0, le_rfl, s, hagrees, hlaw, rfl⟩
  | cons step rest ih =>
    have hrest : rest <:+ startSteps := (List.suffix_cons step rest).trans hleft
    have htaken := State.storeAgrees_startStep hagrees q step
    have hsettles {t : State} (ht : t.startView = (s.startStep q step).startView) :
        StartView.Law q.clock q.intact u rest t.storeOldest.startView :=
      hlaw.settles (State.startStep_settles hlaw.writes (fun hl => (hlaw.latch hl).1) ht) hleft
    rw [State.runStartUp_cons]
    dsimp only
    by_cases hw : (s.startStep q step).writes = []
    · rw [if_pos (List.isEmpty_iff.mpr hw)]
      have hnext : StartView.Law q.clock q.intact u rest (s.startStep q step).startView := by
        rw [← State.storeOldest_of_noWrite hw]
        exact hsettles (State.storeOldest_of_noWrite hw ▸ rfl)
      obtain ⟨n, hn, e, he⟩ := ih hrest htaken hnext
      exact ⟨n, hn.trans (Nat.le_succ _), e, he⟩
    · rw [if_neg (mt List.isEmpty_iff.mp hw)]
      obtain ⟨w, ws, hw⟩ := List.exists_cons_of_ne_nil hw
      let r : StartSequence := { q with steps := rest }
      let t : State := { s.startStep q step with power := .starting r }
      have hnext : StartView.Law r.clock r.intact u rest t.storeOldest.startView := hsettles rfl
      have hstep : stored t = t.storeOldest.runStartUp r rest := by
        refine hstored _ _ ((execWriteStored_of_starting (s := t) rfl hw).trans ?_)
        exact congrArg _ (if_pos hnext.writes)
      obtain ⟨n, hn, e, hagreesEnd, hlawEnd, he⟩ := ih hrest (State.storeAgrees_storeOldest (s := t) htaken) hnext
      refine ⟨n + 1, Nat.succ_le_succ hn, e, hagreesEnd, hlawEnd, ?_⟩
      change stored^[n + 1] t = _
      rw [Function.iterate_succ_apply, hstep, he]

/-! ## The beginning and the end (R204, R207) -/

theorem Retention.atStartUp_eq (r : Retention) (storedClock : Nat) :
    r.atStartUp storedClock =
      { intact := true, clock := if r.intact then r.clock else storedClock, valid := r.intact && r.valid
        latch := r.intact && r.latch, coverOpen := r.intact && r.coverOpen, resetMark := r.intact && r.resetMark } := by
  obtain ⟨intact, clock, valid, latch, coverOpen, resetMark⟩ := r
  cases intact <;> rfl

/-- The law holds as the sequence begins. -/
theorem StartView.law_begin {clock : Nat} {intact : Bool} {u : StartView} (hw : u.writes = [])
    (hlatch : u.ret.latch = true → intact = true) (hports : ∀ p, (u.ports.get p).sinceStart u.ret.clock) :
    StartView.Law clock intact u startSteps u where
  kept := rfl
  writes := hw
  ret := rfl
  latch := fun h => ⟨hlatch h, by decide⟩
  mark := fun _ => by decide
  supply := rfl
  handed := fun _ => by decide
  warned := fun _ => by decide
  window := .inr (by decide)
  windowInForce := .inr (by decide)
  ports := hports

/-! With no step left the law says what O58 says of the end. -/

section
variable {clock : Nat} {intact : Bool} {u v : StartView} (h : StartView.Law clock intact u [] v)
include h

theorem StartView.Law.ret_end : v.ret = { u.ret with latch := false, resetMark := false } := by
  have hlatch : v.ret.latch = false := Bool.eq_false_iff.mpr fun hl => List.not_mem_nil (h.latch hl).2
  have hmark : v.ret.resetMark = false := Bool.eq_false_iff.mpr fun hm => List.not_mem_nil (h.mark hm)
  exact h.ret.trans (by rw [hlatch, hmark])

theorem StartView.Law.warned_end : v.warnedMark = false :=
  Bool.eq_false_iff.mpr fun hw => List.not_mem_nil (h.warned hw)

theorem StartView.Law.window_end : v.window = none := h.window.resolve_right List.not_mem_nil

theorem StartView.Law.windowInForce_end : v.windowInForce = v.tariff.friendlyAt clock :=
  h.windowInForce.resolve_right List.not_mem_nil

theorem StartView.Law.supply_end (hu : u.supply.ceilingHanded = false) : v.supply = u.supply := by
  have hhanded : v.supply.ceilingHanded = false := Bool.eq_false_iff.mpr fun hh => List.not_mem_nil (h.handed hh)
  rw [h.supply, hhanded, ← hu]

end

/-- With every write stored the blocks hold what the store holds. -/
theorem State.nv_eq_stored {s : State} (hagrees : s.storeAgrees = true) (hw : s.writes = []) : s.nv = s.stored := by
  rw [s.storeAgrees_iff.mp hagrees, hw]
  rfl

/-- The end of the sequence changes the power and the code unit's queue alone (R207). -/
theorem State.endStartUp_eq (s : State) :
    ∃ queue, s.endStartUp = { s with power := .running, code := { s.code with queue := queue } } :=
  State.queueDeadlines_frame _

/-- Settles O58: the steps by `State.runStartUp_settles`, which keeps `StartView.Law`. -/
theorem startUpSettlesTheStore : Obligations.StartUpSettlesTheStore := by
  refine ⟨fun loadhi loadx sense s hs => ?_, fun loadhi loadx sense s hs => ?_, fun s q => ⟨?_, ?_, fun step rest => ?_⟩,
    fun s q w rest hp hw => ?_⟩
  · intro clock valid coverOpen active port
    refine ⟨Config.windowBeforeFirstEvaluation s.choices, s.choices + 1, ?_⟩
    intro q u
    have hret : s.ret.atStartUp s.stored.storedClock = u.ret := s.ret.atStartUp_eq _
    have hq : s.startSequence sense = q := by
      unfold State.startSequence
      rw [hret]
    have hu : s.beginStartUp loadhi loadx sense = u := by
      unfold State.beginStartUp
      rw [hret, hq]
      rfl
    refine ⟨?_, ?_⟩
    · change execStartUp loadhi loadx sense s = _
      rw [execStartUp, hs, hu, hq]
      rfl
    · intro stored
      have hlaw : StartView.Law q.clock q.intact u.startView startSteps u.startView :=
        StartView.law_begin rfl (fun h => (Bool.and_eq_true_iff.mp h).1) fun p => by cases p <;> exact ⟨rfl, rfl⟩
      obtain ⟨n, hn, e, hagrees, hend, he⟩ := State.runStartUp_settles (stored := stored)
        (fun x y h => by simp only [stored, h]) startSteps List.suffix_rfl (u.storeAgrees_iff.mpr rfl) hlaw
      obtain ⟨queue, hqueue⟩ := e.endStartUp_eq
      have ht : stored^[n] (u.runStartUp q startSteps) = _ := he.trans hqueue
      have hkept := hend.kept
      simp only [State.startView, State.startKept, StartKept.mk.injEq] at hkept
      obtain ⟨hpending, hservice, hsettings, hkey, hspent, hfailures, hlockoutSteps, hrefusal⟩ := hkept
      refine ⟨n, hn, ?_⟩
      rw [ht]
      exact ⟨rfl, hpending, hend.writes, State.nv_eq_stored hagrees hend.writes, hend.ret_end, hend.warned_end, hend.window_end,
        hsettings, hkey, hspent, hfailures, hlockoutSteps, hrefusal, hend.windowInForce_end, hend.supply_end rfl,
        hservice, hend.ports⟩
  · change execStartUp loadhi loadx sense s = _
    rw [execStartUp, hs]
    rfl
  · obtain ⟨queue, h⟩ := s.endStartUp_eq
    change s.endStartUp.isRunning = true
    rw [h]
    rfl
  · obtain ⟨queue, h⟩ := s.endStartUp_eq
    change { s.endStartUp with power := s.power, code := s.code } = s
    rw [h]
  · rw [State.runStartUp_cons]
    simp only [List.isEmpty_iff]
  · obtain ⟨hstore, -, -, hwrites, -⟩ := State.storeOldest_spec hw
    rw [execWriteStored_of_starting hp hw, hwrites, hstore, Retention.after_eq]

end Sys2Proof.Machine
end

