-- ==== Sys2Proof/Proofs/Pulses.lean ====
section
namespace Sys2Proof.Machine

/-! ## Pulses (R49, R50, R53, R54, R62, R63) -/

theorem Contactor.watched_iff (c : Contactor) : c.watched = true ↔ c = .opened ∨ c = .armed := by
  cases c <;> decide

theorem State.pulseTaken_iff (s : State) (d : PulseDirection) (p : Phase) :
    s.pulseTaken d p = true ↔ s.nv.settings.phases.uses p = true ∧ s.pulse.line d p = .resting := by
  simp [State.pulseTaken]

/-- One quantum is always one to offer: it goes to the account unless one is outstanding there (R51). -/
theorem State.addQuanta_one (s : State) :
    s.addQuanta 1 =
      (let waiting := min 65535 (s.pulse.waiting + 1)
      let offered := s.pulse.outstanding = false
      { s with
        pulse :=
          { s.pulse with
            waiting := if offered then waiting - 1 else waiting
            outstanding := true }
        arrivals := s.arrivals ++ (if offered then [.quantum] else []) }) := by
  have hsome : 0 < min 65535 (s.pulse.waiting + 1) := by omega
  rw [State.addQuanta_eq]
  cases hout : s.pulse.outstanding <;> simp [hsome]

/-- A pulse in OPEN and ARMED is counted up to 11, and the eleventh is handed on (R62, R63). -/
theorem State.countOpenPulse_eq (s : State) :
    s.countOpenPulse =
      (let counted := (s.nv.contactor = .opened ∨ s.nv.contactor = .armed) ∧ s.pulse.openPulses < 11
      { s with
        pulse := { s.pulse with openPulses := if counted then s.pulse.openPulses + 1 else s.pulse.openPulses }
        driver :=
          { s.driver with
            pulsesHanded := s.driver.pulsesHanded || decide (counted ∧ s.pulse.openPulses = 10) } }) := by
  unfold State.countOpenPulse openPulseLimit
  by_cases counted : (s.nv.contactor = .opened ∨ s.nv.contactor = .armed) ∧ s.pulse.openPulses < 11
  · rw [if_pos (counted.imp_left s.nv.contactor.watched_iff.mpr)]
    by_cases hlast : s.pulse.openPulses = 10
    · simp [counted.1, hlast, State.updatePulse]
    · simp [counted, hlast, State.updatePulse]
  · rw [if_neg (mt (And.imp_left s.nv.contactor.watched_iff.mp) counted)]
    simp [counted]

theorem execImportPulse_of_running {s : State} (p : Phase) (hr : s.isRunning = true) :
    exec (.importPulse p) s =
      .next
        (if s.nv.settings.phases.uses p = true ∧ s.pulse.importLines.get p = .resting then
          (s.updatePulse (fun u =>
            { u with
              importLines := u.importLines.set p .asserted
              minuteImports := min 65535 (u.minuteImports + 1) })).countOpenPulse.addQuanta 1
        else s) := by
  change execImportPulse p s = _
  rw [execImportPulse, ifRunning_of_running _ hr]
  exact congrArg _ (if_congr (s.pulseTaken_iff .imp p) rfl rfl)

/-- Settles O20: the pulse while open by `State.countOpenPulse_eq`, and the quantum by `State.addQuanta_one`. -/
theorem importPulseIsAQuantum : Obligations.ImportPulseIsAQuantum := by
  intro p s hr
  rw [execImportPulse_of_running p hr]
  split
  · refine ⟨_, rfl, ?_⟩
    rw [State.countOpenPulse_eq, State.addQuanta_one]
    exact ⟨⟨rfl, rfl, rfl⟩, rfl⟩
  · rfl

theorem execExportPulse_of_resting {p : Phase} {s : State} (hr : s.isRunning = true)
    (hu : s.nv.settings.phases.uses p = true) (hl : s.pulse.exportLines.get p = .resting) :
    exec (.exportPulse p) s =
      .next
        (let counted := s.updatePulse (fun u =>
          { u with
            exportLines := u.exportLines.set p .asserted
            hourExports := min 255 (u.hourExports + 1)
            reverseInput :=
              u.reverseInput || decide (s.nv.settings.reverseThreshold ≤ min 255 (u.hourExports + 1)) })
        match s.nv.settings.reversePolicy with
        | .add =>
          (counted.updatePulse (fun u => { u with minuteExports := min 65535 (u.minuteExports + 1) })).addQuanta 1
        | .ignore => counted) := by
  change execExportPulse p s = _
  rw [execExportPulse, ifRunning_of_running _ hr, if_pos ((s.pulseTaken_iff .exp p).mpr ⟨hu, hl⟩)]
  rfl

/-- The input that a full hour below the threshold ends, and any other hour leaves (R54, R55). -/
theorem PulseUnit.endHour_eq (u : PulseUnit) (threshold : Nat) :
    u.endHour threshold =
      { u with
        reverseInput := if u.hourFull = true ∧ u.hourExports < threshold then false else u.reverseInput
        hourExports := 0
        hourFull := true } := by
  unfold PulseUnit.endHour
  by_cases h : u.hourFull = true ∧ u.hourExports < threshold
  · simp [h]
  · have hkept : (u.hourFull && decide (u.hourExports < threshold)) = false := by simpa using h
    simp [h, hkept]

/-- Settles O21: the pulse by the reverse policy, and the hour's end by `PulseUnit.endHour_eq`. -/
theorem exportPulsesAreJudged : Obligations.ExportPulsesAreJudged := by
  refine ⟨⟨fun p s hr hu hl => ?_, fun d p s hr hu => ?_⟩, fun s hr hm => ?_⟩
  · refine ⟨_, execExportPulse_of_resting hr hu hl, ?_⟩
    cases s.nv.settings.reversePolicy with
    | add =>
      dsimp only
      rw [State.addQuanta_one]
      simp
    | ignore => simp [State.updatePulse]
  · change execPulseLineResting d p s = _
    rw [execPulseLineResting, ifRunning_of_running _ hr, if_pos hu]
    cases d <;> rfl
  · change execHourEnd s = _
    rw [execHourEnd, ifRunning_of_running _ hr, if_pos hm, ← PulseUnit.endHour_eq]
    rfl

end Sys2Proof.Machine
end

