-- ==== Sys2Proof/Proofs/DriveAttempts.lean ====
section
namespace Sys2Proof.Machine

/-! ## The reading (R127, R128) -/

theorem Sense.agrees_eq (x : Sense) (p : Phases) (d : Position) :
    x.agrees p d = match d with | .opened => !(x.shown p).contains true | .closed => !(x.shown p).contains false := by
  cases p with
  | one => cases d <;> simp [Sense.agrees, Sense.anyInUse, Sense.allInUse, Sense.shown]
  | three =>
    have hthree : (Phases.three == Phases.one) = false := rfl
    cases d <;> simp [Sense.agrees, Sense.anyInUse, Sense.allInUse, Sense.shown, hthree]

theorem Sense.inUse_eq (x : Sense) (p : Phases) :
    x.inUse p = match p with | .one => { l1 := x.l1, l2 := false, l3 := false } | .three => x := by
  cases p <;> simp [Sense.inUse]

/-! ## The supply controller's action on a verified completion (R116) -/

/-- What a verified completion ends in: the contactor state, its drive, the drive target and the arm deadline. -/
structure DriveEnd where
  contactor : Contactor
  drive : Option Drive
  target : Position
  arm : Option ArmDeadline

/-- What an arming by a policy ends in (R117). -/
def Policy.armingEnd (p : Policy) (n : Nv) (clock : Nat) : DriveEnd :=
  match p with
  | .auto => ⟨.closing, some (newDrive n .closed .command .device), .closed, none⟩
  | .press => ⟨.armed, none, n.driveTarget, none⟩
  | .pressWithin m => ⟨.armed, none, n.driveTarget, some { deadline := deadlineSum clock (60 * m), minutes := m }⟩

theorem State.armingPolicy_congr {s t : State} (hp : t.nv.policy = s.nv.policy) (hc : t.choices = s.choices) :
    t.armingPolicy = s.armingPolicy := by
  rw [State.armingPolicy, State.armingPolicy, hp, hc]

/-- With no policy in force the arming is by one of the three, with a duration of R103 (notes/assumptions/8.md). -/
theorem State.armingPolicy_of_none {s : State} (h : s.nv.policy = none) :
    s.armingPolicy = .auto ∨ s.armingPolicy = .press ∨
      ∃ m, 1 ≤ m ∧ m ≤ 240 ∧ s.armingPolicy = .pressWithin m := by
  rw [State.armingPolicy, h]
  dsimp only
  split
  · exact .inl rfl
  · split
    · exact .inr (.inl rfl)
    · exact .inr (.inr ⟨_, by omega, by omega, rfl⟩)

/-- What a verified completion in a direction ends in (R116). -/
def State.endOf (s : State) (d : Position) : DriveEnd :=
  match d with
  | .closed =>
    if s.nv.holds.anyFirm then ⟨.opening, some (newDrive s.nv .opened .command .device), .opened, s.nv.armDeadline⟩
    else ⟨.closed, none, s.nv.driveTarget, s.nv.armDeadline⟩
  | .opened =>
    if s.nv.holds.isEmpty then s.armingPolicy.armingEnd s.nv s.clock
    else ⟨.opened, none, s.nv.driveTarget, s.nv.armDeadline⟩

section
variable {s : State}

theorem State.endOf_closed_of_firm (h : s.nv.holds.anyFirm = true) :
    s.endOf .closed = ⟨.opening, some (newDrive s.nv .opened .command .device), .opened, s.nv.armDeadline⟩ := if_pos h

theorem State.endOf_closed (h : ¬ s.nv.holds.anyFirm = true) :
    s.endOf .closed = ⟨.closed, none, s.nv.driveTarget, s.nv.armDeadline⟩ := if_neg h

theorem State.endOf_opened_of_empty (h : s.nv.holds.isEmpty = true) :
    s.endOf .opened = s.armingPolicy.armingEnd s.nv s.clock := if_pos h

theorem State.endOf_opened (h : ¬ s.nv.holds.isEmpty = true) :
    s.endOf .opened = ⟨.opened, none, s.nv.driveTarget, s.nv.armDeadline⟩ := if_neg h

end

/-- The event `e'` has been made from `e` by commands that end in `x`: SUPPLY_CHANGED is raised but for a drive that
opens again, ARMED with an arming, and a watch that begins finds its input inactive (R125, R134). -/
structure Event.EndsIn (e e' : Event) (x : DriveEnd) : Prop where
  nv : e'.nv = { e.nv with contactor := x.contactor, driveTarget := x.target, armDeadline := x.arm }
  drive : e'.state.driver.drive = x.drive
  pulses : e'.state.driver.pulsesHanded = e.state.driver.pulsesHanded
  voltage : e.nv.contactor.watched = false → e'.state.driver.voltageInput = false
  changed : .notice .supplyChanged ∈ e'.follow ↔ x.contactor ≠ .opening
  armed : .notice .armed ∈ e'.follow ↔ x.contactor = .armed

section
variable (e : Event)

theorem Event.commands_armBy (p : Policy) : e.Commands (e.armBy p) := by
  cases p with
  | auto => exact e.commands_giveClose _
  | press | pressWithin m => exact e.commands_giveArm _

/-- The event as a completion finds it: a verified open restarts the count of pulses while open (R62). -/
def Event.verifiedAt (d : Position) : Event :=
  match d with
  | .closed => e
  | .opened => e.restartOpenPulses

theorem Event.commands_completed (d : Position) : (e.verifiedAt d).Commands (e.completed d) := by
  cases d with
  | closed => exact e.commands_ite _ _ _ (e.commands_beginDrive _ _ _) (e.commands_enter _)
  | opened =>
    have entered : e.restartOpenPulses.Commands (e.restartOpenPulses.enter .opened) := Event.commands_enter _ _
    exact Event.commands_ite _ _ _ _ (entered.trans (Event.commands_armBy _ _)) entered

variable {e}

/-- An arming that follows an entry to OPEN in the same event. -/
theorem Event.EndsIn.giveArm {o : Event} {x : DriveEnd} (h : e.EndsIn o x) (a : Option ArmDeadline) :
    e.EndsIn (o.giveArm a) { x with contactor := .armed, arm := a } := by
  have hnv : (o.giveArm a).nv = { o.nv with armDeadline := a, contactor := .armed } := Event.enter_nv _ _
  have hdriver : (o.giveArm a).state.driver =
      { o.state.driver with voltageInput := o.state.driver.voltageInput && (o.nv.contactor.watched && true) } :=
    Event.enter_driver _ _
  have hfollow : (o.giveArm a).follow = o.follow ++ [.notice .supplyChanged, .notice .armed] := Event.enter_follow _ _
  refine ⟨by rw [hnv, h.nv], by rw [hdriver]; exact h.drive, by rw [hdriver]; exact h.pulses, fun hw => ?_,
    by simp [hfollow], by simp [hfollow]⟩
  rw [hdriver, h.voltage hw, Bool.false_and]

/-- A close drive that follows an entry to OPEN in the same event. -/
theorem Event.EndsIn.giveClose {o : Event} {x : DriveEnd} (h : e.EndsIn o x) (hx : x.contactor = .opened) :
    e.EndsIn (o.giveClose .device) ⟨.closing, some (newDrive e.nv .closed .command .device), .closed, none⟩ := by
  have hnv : (o.giveClose .device).nv =
      { o.nv with armDeadline := none, driveTarget := .closed, contactor := .closing } := Event.beginDrive_nv _ _ _ _
  have hdriver := o.dropArmDeadline.beginDrive_driver .closed .command .device
  have hfollow : (o.giveClose .device).follow = o.follow := Event.beginDrive_follow _ _ _ _
  have hsettings : o.nv.settings = e.nv.settings := by rw [h.nv]
  have hnew : newDrive o.dropArmDeadline.nv .closed .command .device = newDrive e.nv .closed .command .device := by
    simp [newDrive, hsettings]
  refine ⟨by rw [hnv, h.nv], ?_, ?_, fun _ => ?_, ?_, ?_⟩
  · rw [Event.giveClose, hdriver, hnew]
  · rw [Event.giveClose, hdriver]
    exact h.pulses
  · rw [Event.giveClose, hdriver]
  · simp [hfollow, h.changed, hx]
  · simp [hfollow, h.armed, hx]

/-- An emptied list that arms by a policy after an entry to OPEN in the same event (R117). -/
theorem Event.EndsIn.armBy {o : Event} {a : Option ArmDeadline} (h : e.EndsIn o ⟨.opened, none, e.nv.driveTarget, a⟩)
    (hclock : o.state.clock = e.state.clock) (p : Policy) : e.EndsIn (o.armBy p) (p.armingEnd e.nv e.state.clock) := by
  cases p with
  | auto => exact h.giveClose rfl
  | press => exact h.giveArm none
  | pressWithin m =>
    have harms : o.armBy (.pressWithin m) =
        o.giveArm (some { deadline := deadlineSum e.state.clock (60 * m), minutes := m }) := by
      rw [Event.armBy, hclock]
    rw [harms]
    exact h.giveArm _

variable (hf : e.follow = [])
include hf

/-- A close that a FIRM hold found is followed by an open drive. -/
theorem Event.endsIn_giveOpen :
    e.EndsIn e.giveOpen ⟨.opening, some (newDrive e.nv .opened .command .device), .opened, e.nv.armDeadline⟩ := by
  have hdriver := e.beginDrive_driver .opened .command .device
  have hfollow := (e.beginDrive_follow .opened .command .device).trans hf
  rw [Event.giveOpen]
  exact ⟨e.beginDrive_nv _ _ _, by rw [hdriver], by rw [hdriver], fun _ => by rw [hdriver], by simp [hfollow],
    by simp [hfollow]⟩

variable (hd : e.state.driver.drive = none)
include hd

/-- An entry to CLOSED or OPEN, the drive ended. -/
theorem Event.endsIn_enter {c : Contactor} (hc : c = .closed ∨ c = .opened) :
    e.EndsIn (e.enter c) ⟨c, none, e.nv.driveTarget, e.nv.armDeadline⟩ := by
  refine ⟨e.enter_nv _, by rw [e.enter_driver]; exact hd, by rw [e.enter_driver], ?_, ?_, ?_⟩
  · intro h
    rw [e.enter_driver, h, Bool.false_and, Bool.and_false]
  all_goals
    rw [e.enter_follow, hf]
    rcases hc with rfl | rfl <;> simp [Contactor.announced]

/-- A verified completion ends as the list and the policy in force say (R116). -/
theorem Event.endsIn_completed (d : Position) : e.EndsIn (e.completed d) (e.state.endOf d) := by
  cases d with
  | closed =>
    by_cases h : e.nv.holds.anyFirm = true
    · have hgive : e.completed .closed = e.giveOpen := if_pos h
      rw [State.endOf_closed_of_firm h, hgive]
      exact Event.endsIn_giveOpen hf
    · have henter : e.completed .closed = e.enter .closed := if_neg h
      rw [State.endOf_closed h, henter]
      exact Event.endsIn_enter hf hd (.inl rfl)
  | opened =>
    have hopened : e.EndsIn (e.restartOpenPulses.enter .opened)
        ⟨.opened, none, e.nv.driveTarget, e.nv.armDeadline⟩ := by
      obtain ⟨hnv, hdrive, hpulses, hvoltage, hchanged, harmed⟩ :=
        Event.endsIn_enter (e := e.restartOpenPulses) hf hd (.inr rfl)
      exact ⟨hnv, hdrive, hpulses, hvoltage, hchanged, harmed⟩
    have hwithin := e.restartOpenPulses.within_enter .opened
    have hcompleted : e.completed .opened = if e.nv.holds.isEmpty then
        (e.restartOpenPulses.enter .opened).armBy (e.restartOpenPulses.enter .opened).state.armingPolicy
      else e.restartOpenPulses.enter .opened := by
      rw [Event.completed, hopened.nv]
    have hchoices : (e.restartOpenPulses.enter .opened).state.choices = e.state.choices := by
      have := congrArg State.choices hwithin.state
      exact this
    have hpolicy : (e.restartOpenPulses.enter .opened).state.nv.policy = e.state.nv.policy := by
      have := congrArg Nv.policy hopened.nv
      exact this
    rw [hcompleted, State.armingPolicy_congr hpolicy hchoices]
    by_cases h : e.nv.holds.isEmpty = true
    · rw [State.endOf_opened_of_empty h, if_pos h]
      exact hopened.armBy hwithin.clock _
    · rw [State.endOf_opened h, if_neg h]
      exact hopened

end

/-! ## The end of a settle time (R127, R128, R129) -/

/-- The event of a verified completion up to the supply controller's action. -/
def State.completionBegun (s : State) (d : Drive) : Event :=
  ((Event.begin s d.origin).log d.completionRecord).endDrive

/-- The event of a verified completion: the supply controller's action, and the free choice that an arming with no
policy in force takes (notes/assumptions/8.md). -/
def State.completionEvent (s : State) (d : Drive) : Event :=
  let e := (s.completionBegun d).completed d.direction
  if s.nv.policy = none then { e with state := e.state.countChoice } else e

theorem State.verified_eq (s : State) (d : Drive) : s.verified d = (s.completionEvent d).commit .driver := rfl

/-- The event of a verified completion is that of the supply controller's action but for the count of choices. -/
theorem State.completionEvent_eq (s : State) (d : Drive) :
    ∃ n, s.completionEvent d =
      { (s.completionBegun d).completed d.direction with
        state := { ((s.completionBegun d).completed d.direction).state with choices := n } } := by
  unfold State.completionEvent
  dsimp only
  split
  · exact ⟨_, rfl⟩
  · exact ⟨_, rfl⟩

theorem State.endsIn_completionEvent (s : State) (d : Drive) :
    (s.completionBegun d).EndsIn (s.completionEvent d) (s.endOf d.direction) := by
  obtain ⟨n, hn⟩ := s.completionEvent_eq d
  obtain ⟨hnv, hdrive, hpulses, hvoltage, hchanged, harmed⟩ :=
    Event.endsIn_completed (e := s.completionBegun d) rfl rfl d.direction
  rw [hn]
  exact ⟨hnv, hdrive, hpulses, hvoltage, hchanged, harmed⟩

/-- The event of a verified completion holds its one record, and has changed nothing that no command changes but the
count of pulses while open and of choices (R62, R129). -/
theorem State.completionEvent_spec (s : State) (d : Drive) :
    (s.completionEvent d).records = [d.completionRecord] ∧ (s.completionEvent d).origin = d.origin ∧
      (s.completionEvent d).state.writes = s.writes ∧ (s.completionEvent d).state.clock = s.clock ∧
      (s.completionEvent d).state.pulse =
        (match d.direction with | .closed => s.pulse | .opened => { s.pulse with openPulses := 0 }) ∧
      { (s.completionEvent d).state.withStoreOf s with pulse := s.pulse, choices := s.choices } = s := by
  obtain ⟨n, hn⟩ := s.completionEvent_eq d
  obtain ⟨hwithin, hrecords, -⟩ := (s.completionBegun d).commands_completed d.direction
  rw [hn]
  generalize (s.completionBegun d).completed d.direction = e at *
  have hpulse := congrArg State.pulse hwithin.state
  have hframe := congrArg
    (fun u => ({ u.withStoreOf s with pulse := s.pulse, choices := s.choices } : State)) hwithin.state
  cases hd : d.direction <;> rw [hd] at hwithin hrecords hpulse hframe
  all_goals exact ⟨hrecords, hwithin.origin, hwithin.writes, hwithin.clock, hpulse, hframe⟩

/-- The stored state that a verified completion leaves (R129). -/
theorem State.verified_nv (s : State) (d : Drive) :
    (s.verified d).nv =
      { s.nv with
        contactor := (s.endOf d.direction).contactor
        driveTarget := (s.endOf d.direction).target
        armDeadline := (s.endOf d.direction).arm
        journal := s.nv.journal.appendAll s.clock d.origin [d.completionRecord] } := by
  obtain ⟨hrecords, horigin, -, hclock, -, -⟩ := s.completionEvent_spec d
  rw [s.verified_eq, Event.commit_nv, Event.image, Event.journal, hrecords, horigin, hclock,
    (s.endsIn_completionEvent d).nv]
  rfl

/-- The contactor and its driver as a state `t` has them are those of an end. -/
structure State.EndedIn (t : State) (x : DriveEnd) : Prop where
  contactor : t.nv.contactor = x.contactor
  drive : t.driver.drive = x.drive
  target : t.nv.driveTarget = x.target
  arm : t.nv.armDeadline = x.arm

/-- The state `t` has armed by a policy, as R117 says it. -/
def State.armedBy (s t : State) (policy : Policy) : Prop :=
  match policy with
  | .auto =>
    t.nv.contactor = .closing ∧ t.nv.driveTarget = .closed ∧ t.nv.armDeadline = none ∧
      t.driver.drive = some (newDrive s.nv .closed .command .device)
  | .press =>
    t.nv.contactor = .armed ∧ t.driver.drive = none ∧ t.nv.armDeadline = none ∧
      t.nv.driveTarget = s.nv.driveTarget
  | .pressWithin m =>
    t.nv.contactor = .armed ∧ t.driver.drive = none ∧ t.nv.driveTarget = s.nv.driveTarget ∧
      t.nv.armDeadline = some { deadline := deadlineSum s.clock (60 * m), minutes := m }

theorem State.EndedIn.armedBy {s t : State} {p : Policy} (h : t.EndedIn (p.armingEnd s.nv s.clock)) :
    s.armedBy t p := by
  obtain ⟨hcontactor, hdrive, htarget, harm⟩ := h
  cases p with
  | auto => exact ⟨hcontactor, htarget, harm, hdrive⟩
  | press => exact ⟨hcontactor, hdrive, harm, htarget⟩
  | pressWithin m => exact ⟨hcontactor, hdrive, htarget, harm⟩

/-- A drive opens again only after a close that a FIRM hold found. -/
theorem State.endOf_opening (s : State) (d : Position) :
    (s.endOf d).contactor ≠ .opening ↔ d = .opened ∨ s.nv.holds.anyFirm = false := by
  cases d with
  | closed => cases h : s.nv.holds.anyFirm <;> simp [State.endOf, h]
  | opened =>
    cases h : s.nv.holds.isEmpty with
    | false => simp [State.endOf, h]
    | true => cases hp : s.armingPolicy <;> simp [State.endOf, h, hp, Policy.armingEnd]

/-- The state `t` that a verified completion of a drive leaves, when the command `i` takes it (R129). -/
structure State.Completed (s t : State) (d : Drive) (i : Instr) : Prop where
  began : s.beganWrite t .driver
  nv : t.nv =
    { s.nv with
      contactor := (s.endOf d.direction).contactor
      driveTarget := (s.endOf d.direction).target
      armDeadline := (s.endOf d.direction).arm
      journal := s.nv.journal.appendAll s.clock d.origin [d.completionRecord] }
  drive : t.driver.drive = (s.endOf d.direction).drive
  pulses : t.driver.pulsesHanded = s.driver.pulsesHanded
  voltage : s.nv.contactor.watched = false → t.driver.voltageInput = false
  changed : .notice .supplyChanged ∈ t.newestFollow ↔ (s.endOf d.direction).contactor ≠ .opening
  armed : .notice .armed ∈ t.newestFollow ↔ (s.endOf d.direction).contactor = .armed
  pulse : t.pulse = match d.direction with | .closed => s.pulse | .opened => { s.pulse with openPulses := 0 }
  frame : { t.withStoreOf s with pulse := s.pulse, choices := s.choices } = s.leaveLine i

theorem State.verified_spec (s : State) (d : Drive) (i : Instr) :
    s.Completed ((s.verified d).leaveLine i) d i := by
  obtain ⟨-, -, hwrites, -, hpulse, hframe⟩ := s.completionEvent_spec d
  obtain ⟨-, hdrive, hpulses, hvoltage, hchanged, harmed⟩ := s.endsIn_completionEvent d
  have hmem {f : FollowUp} := (s.completionEvent d).mem_commit_follow .driver i (f := f)
  exact ⟨Event.beganWrite_commit hwrites _ _, s.verified_nv d, hdrive, hpulses, hvoltage,
    (hmem (by decide)).trans hchanged, (hmem (by decide)).trans harmed, hpulse, congrArg (State.leaveLine · i) hframe⟩

theorem State.Completed.endedIn {s t : State} {d : Drive} {i : Instr} (h : s.Completed t d i) :
    t.EndedIn (s.endOf d.direction) :=
  ⟨by rw [h.nv], h.drive, by rw [h.nv], by rw [h.nv]⟩

section
variable {s t : State} {d : Drive} {i : Instr} (h : s.Completed t d i)
include h

theorem State.Completed.journal : t.nv.journal = s.nv.journal.appendAll s.clock d.origin [d.completionRecord] := by
  rw [h.nv]

/-- What a verified close leaves (R116, R129). -/
theorem State.Completed.closed (hd : d.direction = .closed) :
    t.nv.journal = s.nv.journal.appendAll s.clock d.origin [.supplyClosed d.cause (d.retryCount + 1)] ∧
      (if s.nv.holds.anyFirm = true then
        t.nv.contactor = .opening ∧ t.nv.driveTarget = .opened ∧
          t.driver.drive = some (newDrive s.nv .opened .command .device)
      else t.nv.contactor = .closed ∧ t.driver.drive = none ∧ t.nv.driveTarget = s.nv.driveTarget) ∧
      t.nv.armDeadline = s.nv.armDeadline ∧ t.pulse = s.pulse := by
  have hjournal := h.journal
  have hpulse := h.pulse
  have hended := h.endedIn
  rw [Drive.completionRecord, hd] at hjournal
  rw [hd] at hpulse hended
  by_cases hfirm : s.nv.holds.anyFirm = true
  · rw [State.endOf_closed_of_firm hfirm] at hended
    rw [if_pos hfirm]
    exact ⟨hjournal, ⟨hended.contactor, hended.target, hended.drive⟩, hended.arm, hpulse⟩
  · rw [State.endOf_closed hfirm] at hended
    rw [if_neg hfirm]
    exact ⟨hjournal, ⟨hended.contactor, hended.drive, hended.target⟩, hended.arm, hpulse⟩

/-- An emptied list arms by the policy in force, or by one of the three with none in force (R116, R117,
notes/assumptions/8.md). -/
theorem State.Completed.arms (hd : d.direction = .opened) (hempty : s.nv.holds.isEmpty = true) :
    match s.nv.policy with
    | some policy => s.armedBy t policy
    | none => s.armedBy t .auto ∨ s.armedBy t .press ∨ ∃ m, 1 ≤ m ∧ m ≤ 240 ∧ s.armedBy t (.pressWithin m) := by
  have hended := h.endedIn
  rw [hd, State.endOf_opened_of_empty hempty] at hended
  have harmed := hended.armedBy
  cases hpolicy : s.nv.policy with
  | some policy =>
    have hforce : s.armingPolicy = policy := by rw [State.armingPolicy, hpolicy]
    exact hforce ▸ harmed
  | none =>
    rcases State.armingPolicy_of_none hpolicy with hp | hp | ⟨m, hlow, hhigh, hp⟩
    · exact .inl (hp ▸ harmed)
    · exact .inr (.inl (hp ▸ harmed))
    · exact .inr (.inr ⟨m, hlow, hhigh, hp ▸ harmed⟩)

/-- What a verified open leaves with a hold in the list (R116). -/
theorem State.Completed.opened (hd : d.direction = .opened) (hheld : ¬ s.nv.holds.isEmpty = true) :
    t.nv.contactor = .opened ∧ t.driver.drive = none ∧ t.nv.driveTarget = s.nv.driveTarget ∧
      t.nv.armDeadline = s.nv.armDeadline := by
  have hended := h.endedIn
  rw [hd, State.endOf_opened hheld] at hended
  exact ⟨hended.contactor, hended.drive, hended.target, hended.arm⟩

end

/-- An event with a record waits for the journal, or is taken (R159). -/
theorem Event.takes_commit_of_records {s : State} {e : Event} (hw : e.state.writes = s.writes) (hr : e.records ≠ [])
    (i : Instr) (b : Block) :
    s.takes i none (e.commit b) =
      if s.mayBegin i b true = false then s.waits i b else (e.commit b).leaveLine i := by
  cases hmay : s.mayBegin i b true with
  | false => exact Event.takes_commit_waits hw hr hmay
  | true => exact Event.takes_commit hw hmay fun _ => rfl

theorem State.takes_verified (s : State) (d : Drive) (i : Instr) :
    s.takes i none (s.verified d) =
      if s.mayBegin i .driver true = false then s.waits i .driver else (s.verified d).leaveLine i := by
  obtain ⟨hrecords, -, hwrites, -⟩ := s.completionEvent_spec d
  exact Event.takes_commit_of_records hwrites (hrecords ▸ List.cons_ne_nil _ _) i .driver

/-- The event of a fault up to the entry to its state (R128). -/
def State.faultBegun (s : State) (d : Drive) (sense : Sense) : Event :=
  (((Event.begin s d.origin).log (.contactorFaultVerify d.direction.faultState d.cause
    (sense.inUse s.nv.settings.phases))).endDrive).notify .contactorFault

theorem State.faulted_eq (s : State) (d : Drive) (sense : Sense) :
    s.faulted d sense = ((s.faultBegun d sense).enter d.direction.faultState.contactor).commit .driver := rfl

/-- The state `t` that a fault of a drive leaves, when the command `i` takes it (R128). -/
structure State.Faulted (s t : State) (d : Drive) (sense : Sense) (i : Instr) : Prop where
  began : s.beganWrite t .driver
  nv : t.nv =
    { s.nv with
      contactor := d.direction.faultState.contactor
      journal := s.nv.journal.appendAll s.clock d.origin
        [.contactorFaultVerify d.direction.faultState d.cause (sense.inUse s.nv.settings.phases)] }
  driver : t.driver = { s.driver with drive := none, voltageInput := false }
  fault : .notice .contactorFault ∈ t.newestFollow
  changed : .notice .supplyChanged ∈ t.newestFollow
  frame : t.withStoreOf s = s.leaveLine i

theorem FaultState.contactor_spec (f : FaultState) : f.contactor.watched = false ∧ f.contactor.announced = true := by
  cases f <;> exact ⟨rfl, rfl⟩

theorem State.faulted_spec (s : State) (d : Drive) (sense : Sense) (i : Instr) :
    s.Faulted ((s.faulted d sense).leaveLine i) d sense i := by
  obtain ⟨hwatched, hannounced⟩ := d.direction.faultState.contactor_spec
  have hwithin := (s.faultBegun d sense).within_enter d.direction.faultState.contactor
  have hrecords := ((s.faultBegun d sense).commands_enter d.direction.faultState.contactor).records
  have hnv := (s.faultBegun d sense).enter_nv d.direction.faultState.contactor
  have hdriver := (s.faultBegun d sense).enter_driver d.direction.faultState.contactor
  have hfollow := (s.faultBegun d sense).enter_follow d.direction.faultState.contactor
  rw [s.faulted_eq]
  generalize (s.faultBegun d sense).enter d.direction.faultState.contactor = e at *
  have hmem {f : FollowUp} := e.mem_commit_follow .driver i (f := f)
  refine ⟨Event.beganWrite_commit hwithin.writes _ _, ?_, ?_, ?_, ?_, ?_⟩
  · have hjournal := hwithin.image_journal
    rw [hrecords] at hjournal
    rw [State.leaveLine_nv, Event.commit_nv, Event.image, show e.journal = _ from hjournal, hnv]
    rfl
  · rw [hwatched, Bool.and_false, Bool.and_false] at hdriver
    exact hdriver
  · rw [hmem (by decide), hfollow]
    simp [State.faultBegun]
  · rw [hmem (by decide), hfollow]
    simp [hannounced]
  · exact congrArg (State.leaveLine · i) (hwithin.commit_withStoreOf .driver s)

theorem State.takes_faulted (s : State) (d : Drive) (sense : Sense) (i : Instr) :
    s.takes i none (s.faulted d sense) =
      if s.mayBegin i .driver true = false then s.waits i .driver else (s.faulted d sense).leaveLine i := by
  have hwrites := ((s.faultBegun d sense).within_enter d.direction.faultState.contactor).writes
  have hrecords := ((s.faultBegun d sense).commands_enter d.direction.faultState.contactor).records
  exact Event.takes_commit_of_records (s := s) hwrites (hrecords ▸ List.cons_ne_nil _ _) i .driver

theorem execDriveSettleEnd_of_settle {s : State} {d : Drive} (sense : Sense) (hr : s.isRunning = true)
    (hd : s.driver.drive = some d) (hs : d.stage = .settle) :
    exec (.driveSettleEnd sense) s = .next (s.takes (.driveSettleEnd sense) none (s.judgeReading d sense)) := by
  change execDriveSettleEnd sense s = _
  rw [execDriveSettleEnd, whenRunning_of_running _ _ hr, hd]
  dsimp only
  rw [if_pos hs]

/-! ## The end of a pulse (R126) -/

theorem execDrivePulseEnd_of_driven {s : State} (h : s.isRunning = true ∨ ∃ q, s.power = .starting q) :
    exec .drivePulseEnd s = .next s.endPulse := by
  change execDrivePulseEnd s = _
  unfold execDrivePulseEnd
  rcases h with hr | ⟨q, hq⟩
  · have hpower : s.power = .running := by simpa [State.isRunning] using hr
    rw [hpower]
  · rw [hq]

/-- In the pulse of an attempt the output of its direction alone is asserted. -/
theorem State.cdc_of_cdo {s : State} (h : s.cdo = true) : s.cdc = false := by
  unfold State.cdo State.cdc State.driveOutput at *
  cases hd : s.driver.drive with
  | none => rfl
  | some d =>
    rw [hd] at h
    have hopened : d.direction = .opened := by simpa using (Bool.and_eq_true_iff.mp h).2
    simp [hopened]

theorem State.driveOutput_endPulse (s : State) (d : Position) : s.endPulse.driveOutput d = false := by
  unfold State.driveOutput State.endPulse
  cases s.driver.drive <;> rfl

/-- Settles O39: the pulse's end by `State.endPulse`, and the reading by what a verified completion
(`State.verified_spec`), a second attempt or a fault (`State.faulted_spec`) leaves. -/
theorem attemptsRunToTheirEnd : Obligations.AttemptsRunToTheirEnd := by
  refine ⟨⟨fun s hs => execDrivePulseEnd_of_driven hs, fun s => State.cdc_of_cdo, fun s t ht hr => ?_⟩,
    fun sense s d hr hd hs => ?_⟩
  · rw [execDrivePulseEnd_of_driven (.inl hr)] at ht
    cases ht
    exact ⟨s.driveOutput_endPulse _, s.driveOutput_endPulse _⟩
  · intro shown agrees i
    rw [execDriveSettleEnd_of_settle sense hr hd hs]
    have hagrees : sense.agrees s.nv.settings.phases d.direction = agrees := Sense.agrees_eq _ _ _
    clear_value agrees
    unfold State.judgeReading
    rw [hagrees]
    cases agrees with
    | true =>
      rw [if_pos rfl, s.takes_verified d i]
      cases hmay : s.mayBegin i .driver true with
      | false => rw [if_pos ⟨.inl rfl, rfl⟩, if_pos rfl]
      | true =>
        rw [if_neg (by simp), if_neg (by simp)]
        refine ⟨_, rfl, ?_⟩
        have h := s.verified_spec d i
        generalize (s.verified d).leaveLine i = t at *
        intro attempts
        rw [if_pos rfl]
        refine ⟨h.began, by rw [h.nv], by rw [h.nv], ?_, h.pulses, ?_, ?_, ?_, h.frame, by rw [h.nv]; rfl⟩
        · rintro (hc | hc)
          · exact h.voltage (by rw [hc]; rfl)
          · exact h.voltage (by rw [hc]; rfl)
        · rw [h.changed, s.endOf_opening]
        · rw [h.armed, h.nv]
        · cases hdir : d.direction with
          | closed => exact h.closed hdir
          | opened =>
            have hjournal := h.journal
            have hpulse := h.pulse
            rw [Drive.completionRecord, hdir] at hjournal
            rw [hdir] at hpulse
            refine ⟨hjournal, hpulse, ?_⟩
            cases hempty : s.nv.holds.isEmpty with
            | false =>
              rw [if_pos rfl]
              exact h.opened hdir (by simp [hempty])
            | true =>
              rw [if_neg (by decide)]
              exact h.arms hdir hempty
    | false =>
      rw [if_neg (by decide : ¬ false = true)]
      by_cases hfirst : d.retryCount = 0
      · rw [if_neg (by simp [hfirst]), if_pos hfirst]
        refine ⟨_, congrArg _ (State.takes_of_writes _ rfl), ?_⟩
        intro attempts
        rw [if_neg (by decide : ¬ false = true), if_pos hfirst]
        rfl
      · rw [if_neg hfirst, s.takes_faulted d sense i]
        cases hmay : s.mayBegin i .driver true with
        | false => rw [if_pos ⟨.inr hfirst, rfl⟩, if_pos rfl]
        | true =>
          rw [if_neg (by simp), if_neg (by simp)]
          refine ⟨_, rfl, ?_⟩
          obtain ⟨hbegan, hnv, hdriver, hfault, hchanged, hframe⟩ := s.faulted_spec d sense i
          intro attempts
          rw [if_neg (by decide : ¬ false = true), if_neg hfirst]
          refine ⟨hbegan, hdriver, hnv.trans ?_, hfault, hchanged, hframe⟩
          rw [sense.inUse_eq]
          cases d.direction <;> rfl

end Sys2Proof.Machine
end

