-- ==== Sys2Proof/Laws/SettingsTable.lean ====
section
namespace Sys2Proof.Machine

/-! ## The table of the settings (R196)

In a split of one of the table's functions the case `h_n` is the row of setting `n`, and `h_29` a number that names no
setting. -/

theorem settingSize_eq (n : Nat) :
    settingSize n =
      if n = 0 ∨ 28 < n then none
      else if n ∈ [2, 3, 4] then some 4
      else if n ∈ [5, 7, 23, 25, 26, 27, 28] then some 2
      else some 1 := by
  by_cases hn : 28 < n
  · rw [if_pos (.inr hn)]
    unfold settingSize
    split
    case h_29 => rfl
    all_goals omega
  · interval_cases n <;> rfl

theorem settingSize_bounds {n size : Nat} (h : settingSize n = some size) : 1 ≤ n ∧ n ≤ 28 := by
  by_contra hn
  have hnone : settingSize n = none := (settingSize_eq n).trans (if_pos (by omega))
  cases hnone.symm.trans h

theorem clamp_eq {low high : Nat} (h : low ≤ high) (x : Nat) : clamp low high x = max low (min high x) := by
  unfold clamp
  split
  · omega
  · split <;> omega

/-- A notice mask that may be set: two bytes with bits 0, 13, 14 and 15 at 0. -/
theorem mask_iff {x : Nat} (hx : x < 65536) :
    x % 2 = 0 ∧ x < 8192 ↔
      ¬ (x.testBit 0 = true ∨ x.testBit 13 = true ∨ x.testBit 14 = true ∨ x.testBit 15 = true) := by
  simp only [Nat.testBit_eq_decide_div_mod_eq, decide_eq_true_eq]
  omega

/-- All settings as their numbers encode them, in the order of their numbers. -/
def Settings.readAll (x : Settings) : List Nat := (List.range' 1 28).map x.read

theorem Settings.readAll_eq (x : Settings) :
    x.readAll =
      [x.phases.number, x.lowCreditThreshold, x.availabilityThreshold, x.arrearsCeiling, x.graceTime,
        if x.creditPolicy = .auto then 0 else 1, x.demandLimit, if x.demandMode = .always then 0 else 1,
        x.loadRestoreDelay, if x.reversePolicy = .add then 0 else 1, x.reverseThreshold, x.fallback,
        x.classes.mainCover.number, x.classes.terminalCover.number, x.classes.magnetic.number,
        x.classes.reverseFlow.number, x.classes.loadSideVoltage.number, x.debounces.mainCover,
        x.debounces.terminalCover, x.debounces.magnetic, x.debounces.reverseFlow, x.debounces.loadSideVoltage,
        x.journalLow, match x.release with | .aPort => 1 | .lPort => 2 | .either => 3, x.pulseTime, x.settleTime,
        x.masks.a.toNat, x.masks.l.toNat] := rfl

theorem Settings.readAll_getElem (x : Settings) {m : Nat} (hm : 1 ≤ m ∧ m ≤ 28) :
    x.readAll[m - 1]? = some (x.read m) := by
  obtain ⟨hlow, hhigh⟩ := hm
  have hlt : m - 1 < 28 := by omega
  simp [Settings.readAll, hlt, Nat.add_sub_cancel' hlow]

theorem Settings.read_of_no_setting (x : Settings) {m : Nat} (hm : ¬ (1 ≤ m ∧ m ≤ 28)) : x.read m = 0 := by
  unfold Settings.read
  split
  case h_29 => rfl
  all_goals omega

theorem Settings.write_of_no_setting (x : Settings) {n : Nat} (hn : ¬ (1 ≤ n ∧ n ≤ 28)) (v : Nat) :
    x.write n v = x := by
  unfold Settings.write
  split
  case h_29 => rfl
  all_goals omega

/-- A setting written changes its own place alone. -/
theorem Settings.readAll_write (x : Settings) {n : Nat} (hn : 1 ≤ n ∧ n ≤ 28) (v : Nat) :
    (x.write n v).readAll = x.readAll.set (n - 1) ((x.write n v).read n) := by
  obtain ⟨hlow, hhigh⟩ := hn
  rw [Settings.readAll_eq, Settings.readAll_eq]
  interval_cases n <;> rfl

theorem Settings.read_write_ne (x : Settings) {n m : Nat} (h : m ≠ n) (v : Nat) : (x.write n v).read m = x.read m := by
  by_cases hn : 1 ≤ n ∧ n ≤ 28
  · by_cases hm : 1 ≤ m ∧ m ≤ 28
    · have hplace : n - 1 ≠ m - 1 := by omega
      have hat := (x.write n v).readAll_getElem hm
      rw [x.readAll_write hn, List.getElem?_set_ne hplace, x.readAll_getElem hm] at hat
      exact (Option.some.inj hat).symm
    · rw [Settings.read_of_no_setting _ hm, Settings.read_of_no_setting _ hm]
  · rw [x.write_of_no_setting hn]

/-- A value that the table accepts is read back as it was written (R198, R200). -/
theorem Settings.read_write {n x v : Nat} (h : settingAccepted n x = some v) (s : Settings) :
    (s.write n v).read n = v := by
  unfold settingAccepted at h
  split at h
  case h_1 =>
    obtain ⟨hx, ⟨⟩⟩ := Option.ite_none_right_eq_some.mp h
    rcases hx with rfl | rfl <;> rfl
  case h_6 | h_8 | h_10 =>
    obtain ⟨hx, ⟨⟩⟩ := Option.ite_none_right_eq_some.mp h
    interval_cases x <;> rfl
  case h_13 | h_14 | h_15 | h_16 | h_17 | h_24 =>
    obtain ⟨⟨hlow, hhigh⟩, ⟨⟩⟩ := Option.ite_none_right_eq_some.mp h
    interval_cases x <;> rfl
  case h_27 | h_28 =>
    obtain ⟨⟨-, hx⟩, ⟨⟩⟩ := Option.ite_none_right_eq_some.mp h
    exact Nat.mod_eq_of_lt (by omega)
  case h_29 => cases h
  all_goals rfl

/-- What WRITE_SETTING makes of a value (R196, R197). -/
theorem settingAccepted_eq : ∀ n size x : Nat, settingSize n = some size → x < 256 ^ size →
    settingAccepted n x =
      (let within : Nat → Nat → Option Nat := fun low high => some (max low (min high x))
      let among : Nat → Nat → Option Nat := fun low high => if low ≤ x ∧ x ≤ high then some x else none
      match n with
      | 1 => if x = 1 ∨ x = 3 then some x else none
      | 2 => within 0 999999
      | 3 => within 0 99999
      | 4 => within 0 9999999
      | 5 => within 0 600
      | 6 | 8 | 10 => among 0 1
      | 9 => within 1 60
      | 11 | 18 | 19 | 20 | 21 | 22 => within 1 255
      | 13 | 14 | 15 | 16 | 17 | 24 => among 1 3
      | 23 => within 17 256
      | 25 => within 20 200
      | 26 => within 100 1000
      | 27 | 28 =>
        if x.testBit 0 = true ∨ x.testBit 13 = true ∨ x.testBit 14 = true ∨ x.testBit 15 = true then none else some x
      | _ => some x) := by
  intro n size x hs hx
  unfold settingAccepted
  split
  case h_2 | h_3 | h_4 | h_5 | h_9 | h_11 | h_18 | h_19 | h_20 | h_21 | h_22 | h_23 | h_25 | h_26 =>
    exact congrArg some (clamp_eq (by decide) x)
  case h_6 | h_8 | h_10 => exact if_congr (by simp) rfl rfl
  case h_27 | h_28 =>
    cases hs
    exact (if_congr (mask_iff hx) rfl rfl).trans (ite_not _ _ _)
  case h_29 =>
    obtain ⟨hlow, hhigh⟩ := settingSize_bounds hs
    interval_cases n <;> contradiction
  all_goals rfl

end Sys2Proof.Machine
end

