-- ==== Sys2Proof/Proofs/Settings.lean ====
section
namespace Sys2Proof.Machine

/-! ## What a payload asks for (R197) -/

section
variable {n : Byte} {value : List Byte}

theorem judgeSetting_of_no_setting (h : settingSize n.toNat = none) : judgeSetting (n :: value) = .error .range := by
  simp only [judgeSetting, h]

variable {size : Nat} (h : settingSize n.toNat = some size)
include h

theorem judgeSetting_of_length (hlen : value.length ≠ size) : judgeSetting (n :: value) = .error .length := by
  simp only [judgeSetting, h, if_pos hlen]

theorem judgeSetting_of_range (hlen : ¬ value.length ≠ size) (hv : settingAccepted n.toNat (ofBytes value) = none) :
    judgeSetting (n :: value) = .error .range := by
  simp only [judgeSetting, h, if_neg hlen, hv]

theorem judgeSetting_of_accepted (hlen : ¬ value.length ≠ size) {v : Nat}
    (hv : settingAccepted n.toNat (ofBytes value) = some v) : judgeSetting (n :: value) = .ok (n.toNat, v) := by
  simp only [judgeSetting, h, if_neg hlen, hv]

end

/-! ## WRITE_SETTING and READ_SETTING (R197, R198, R200) -/

/-- The event of a setting of the store and power monitor (R198). -/
def State.ownSettingEvent (s : State) (p : Port) (n v : Nat) : Event :=
  let e := (Event.begin (s.takeRequest p) p.origin).updateNv (fun nv => { nv with settings := nv.settings.write n v })
  let e := e.log (.settingChanged n (s.nv.settings.read n) v)
  let e := { e with state := e.state.updatePulse (fun u => u.settingChanged s.nv.settings e.nv.settings n) }
  e.andThen (.answer p .ok (toBytes ((settingSize n).getD 0) v))

theorem State.writeOwnSetting_eq (s : State) (p : Port) (n v : Nat) :
    s.writeOwnSetting p n v = (s.ownSettingEvent p n v).commit .store := rfl

theorem State.ownSettingEvent_state (s : State) (p : Port) (n v : Nat) :
    (s.ownSettingEvent p n v).state =
      { s.takeRequest p with
        nv := { s.nv with settings := s.nv.settings.write n v }
        pulse := s.pulse.settingChanged s.nv.settings (s.nv.settings.write n v) n } := rfl

section
variable {p : Port} {s : State} {r : Request} (hr : s.isRunning = true) (hreq : s.requestOf p .writeSetting = some r)
include hr hreq

theorem execWriteSetting_of_closed (hw : s.nv.window = none) :
    exec (.writeSetting p) s = .next ((s.answer p .wrongGroup []).leaveLine (.writeSetting p)) := by
  change execWriteSetting p s = _
  rw [execWriteSetting, ifRunning_of_running _ hr, hreq]
  dsimp only
  rw [if_pos ((s.stillPermitted_writeSetting p).mpr hw)]

variable (hw : s.nv.window ≠ none)
include hw

theorem execWriteSetting_of_refused {status : Status} (hj : judgeSetting r.payload = .error status) :
    exec (.writeSetting p) s = .next ((s.answer p status []).leaveLine (.writeSetting p)) := by
  change execWriteSetting p s = _
  rw [execWriteSetting, ifRunning_of_running _ hr, hreq]
  dsimp only
  rw [if_neg (mt (s.stillPermitted_writeSetting p).mp hw), hj]

variable {n v : Nat} (hj : judgeSetting r.payload = .ok (n, v))
include hj

/-- An accepted setting is written by its owner: the store and power monitor at the journal's turn, another block once
it takes the event that joins its list. -/
theorem execWriteSetting_of_accepted :
    exec (.writeSetting p) s =
      .next
        (match settingOwner n with
        | .store =>
          if s.mayBegin (.writeSetting p) .store true = false then s.waits (.writeSetting p) .store
          else (if s.nv.journal.free < 17 then s.answer p .journalFull []
            else (s.ownSettingEvent p n v).commit .store).leaveLine (.writeSetting p)
        | .account => ((s.handSetting p n v).arrive (.request p)).leaveLine (.writeSetting p)
        | .tamper => ((s.handSetting p n v).arriveTamper (.request p)).leaveLine (.writeSetting p)) := by
  change execWriteSetting p s = _
  rw [execWriteSetting, ifRunning_of_running _ hr, hreq]
  dsimp only
  rw [if_neg (mt (s.stillPermitted_writeSetting p).mp hw), hj]
  dsimp only
  cases settingOwner n with
  | store =>
    rw [s.writeOwnSetting_eq]
    exact congrArg _ (State.takesTurn_of_room (by rfl) (by rfl))
  | account | tamper => rfl

end

/-- What a changed setting does at the pulse input unit (R49, R54). -/
theorem PulseUnit.settingChanged_eq (u : PulseUnit) (x : Settings) {n y v : Nat} (hv : settingAccepted n y = some v) :
    u.settingChanged x (x.write n v) n =
      if n = 1 ∧ x.phases = .one ∧ v = 3 then
        { u with
          importLines := { u.importLines with l2 := .asserted, l3 := .asserted }
          exportLines := { u.exportLines with l2 := .asserted, l3 := .asserted } }
      else if n = 11 then { u with reverseInput := u.reverseInput || decide (v ≤ u.hourExports) }
      else u := by
  have hthree : n = 1 → ((x.write n v).phases = .three ↔ v = 3) := by
    rintro rfl
    obtain ⟨hy, ⟨⟩⟩ := Option.ite_none_right_eq_some.mp hv
    rcases hy with rfl | rfl <;> simp [Settings.write]
  have hthreshold : n = 11 → (x.write n v).reverseThreshold = v := by
    rintro rfl
    rfl
  unfold PulseUnit.settingChanged
  refine if_congr ?_ rfl ?_
  · exact and_congr_right fun hn => and_congr_right fun _ => hthree hn
  · split
    · next hn => rw [hthreshold hn]; rfl
    · rfl

/-- The stored state and the pulse input unit that the write of an own setting leaves, with all else as the request's
taking leaves it (R198). -/
theorem State.ownSettingEvent_taken (s : State) (p : Port) {n size : Nat} (v : Nat)
    (hsize : settingSize n = some size) (i : Instr) :
    let t := ((s.ownSettingEvent p n v).commit .store).leaveLine i
    s.beganWrite t .store ∧
      t.nv =
        { s.nv with
          settings := s.nv.settings.write n v
          journal := s.nv.journal.appendAll s.clock p.origin [.settingChanged n (s.nv.settings.read n) v] } ∧
      .answer p .ok (toBytes size v) ∈ t.newestFollow ∧
      t.pulse = s.pulse.settingChanged s.nv.settings (s.nv.settings.write n v) n ∧
      { t.withStoreOf s with pulse := s.pulse } = (s.takeRequest p).leaveLine i := by
  have hstate := s.ownSettingEvent_state p n v
  refine ⟨Event.beganWrite_commit (by rfl) _ _, by rfl, ?_, by rfl, ?_⟩
  · rw [Event.mem_commit_follow _ _ _ (by simp), State.ownSettingEvent, hsize]
    exact List.mem_singleton_self _
  · change ({ (s.ownSettingEvent p n v).state.withStoreOf s with pulse := s.pulse } : State).leaveLine i = _
    rw [hstate]
    rfl

/-- Settles O55: WRITE_SETTING through its refusals in order to the owner of an accepted setting, and the table by its
equations. -/
theorem settingsAreReadAndWritten : Obligations.SettingsAreReadAndWritten := by
  refine ⟨fun p s r n value hr hreq hpayload => ?_, fun p s r hr hreq hpayload => ?_, fun p s r hr hreq => ?_,
    settingSize_eq, settingAccepted_eq, fun x => ?_⟩
  · intro x i
    by_cases hw : s.nv.window = none
    · rw [if_pos hw]
      exact execWriteSetting_of_closed hr hreq hw
    · rw [if_neg hw]
      have refused {status : Status} (hj : judgeSetting (n :: value) = .error status) :
          exec i s = .next ((s.answer p status []).leaveLine i) :=
        execWriteSetting_of_refused hr hreq hw (hpayload ▸ hj)
      cases hsize : settingSize n.toNat with
      | none => exact refused (judgeSetting_of_no_setting hsize)
      | some size =>
        by_cases hlen : value.length ≠ size
        · dsimp only
          rw [if_pos hlen]
          exact refused (judgeSetting_of_length hsize hlen)
        · dsimp only
          rw [if_neg hlen]
          cases hv : settingAccepted n.toNat x with
          | none => exact refused (judgeSetting_of_range hsize hlen hv)
          | some v =>
            have hj : judgeSetting r.payload = .ok (n.toNat, v) := hpayload ▸ judgeSetting_of_accepted hsize hlen hv
            rw [execWriteSetting_of_accepted hr hreq hw hj]
            dsimp only
            unfold settingOwner
            split
            · rfl
            split
            · rfl
            split
            · rfl
            split
            · rfl
            refine ⟨_, rfl, ?_⟩
            obtain ⟨hbegan, hnv, hfollow, hpulse, hframe⟩ := s.ownSettingEvent_taken p v hsize i
            generalize ((s.ownSettingEvent p n.toNat v).commit .store).leaveLine i = t at *
            refine ⟨hbegan, hnv, ?_, fun m hm => ?_, hfollow, ?_, hframe⟩
            · rw [hnv]
              exact Settings.read_write hv _
            · rw [hnv]
              exact Settings.read_write_ne _ hm _
            · rw [hpulse]
              exact PulseUnit.settingChanged_eq _ _ hv
  · by_cases hw : s.nv.window = none
    · rw [if_pos hw]
      exact execWriteSetting_of_closed hr hreq hw
    · rw [if_neg hw]
      exact execWriteSetting_of_refused hr hreq hw (by rw [hpayload]; rfl)
  · intro n
    change execReadSetting p s = _
    rw [execReadSetting, ifRunning_of_running _ hr]
    cases hsize : settingSize n with
    | none => simp only [hreq, n, hsize]
    | some size => simp only [hreq, n, hsize]
  · intro cls
    refine x.readAll_eq.trans ?_
    generalize x.creditPolicy = credit, x.demandMode = demand, x.reversePolicy = reverse
    cases credit <;> cases demand <;> cases reverse <;> rfl

end Sys2Proof.Machine
end

