-- ==== Sys2Proof/Proofs/MeterCodes.lean ====
section
namespace Sys2Proof.Machine

/-! ## Digits -/

/-- The number that a run of a list's digits writes, digit by digit. -/
theorem digitsNumber_run (l : List Nat) {a n : Nat} (h : a + n ≤ l.length) :
    digitsNumber ((l.drop a).take n) = (List.range n).foldl (fun x i => 10 * x + l.getD (a + i) 0) 0 := by
  have hrun : (l.drop a).take n = (List.range n).map (fun i => l.getD (a + i) 0) := by
    refine List.ext_getElem (by simp; omega) fun i h₁ h₂ => ?_
    have hi : i < n := by simpa using h₂
    have : a + i < l.length := by omega
    simp [this]
  rw [hrun, digitsNumber, List.foldl_map]

@[simp] theorem length_decimalDigits (n x : Nat) : (decimalDigits n x).length = n := by simp [decimalDigits]

theorem le_nine_of_mem_decimalDigits {n x d : Nat} (h : d ∈ decimalDigits n x) : d ≤ 9 := by
  obtain ⟨i, -, rfl⟩ := List.mem_map.mp h
  omega

theorem decimalDigits_succ (n x : Nat) : decimalDigits (n + 1) x = decimalDigits n (x / 10) ++ [x % 10] := by
  have hlast : x / 10 ^ (n + 1 - 1 - n) % 10 = x % 10 := by simp
  rw [decimalDigits, List.range_succ, List.map_append, List.map_singleton, hlast, decimalDigits]
  refine congrArg (· ++ [x % 10]) (List.map_congr_left fun i hi => ?_)
  have hin : n + 1 - 1 - i = n - 1 - i + 1 := by have := List.mem_range.mp hi; omega
  rw [hin, pow_succ', Nat.div_div_eq_div_mul]

/-- The decimal digits of a number write it, modulo the power of ten that they reach. -/
theorem digitsNumber_decimalDigits (n x : Nat) : digitsNumber (decimalDigits n x) = x % 10 ^ n := by
  induction n generalizing x with
  | zero => simp [decimalDigits, digitsNumber, Nat.mod_one]
  | succ n ih =>
    have hsnoc : digitsNumber (decimalDigits n (x / 10) ++ [x % 10])
        = 10 * digitsNumber (decimalDigits n (x / 10)) + x % 10 := by simp [digitsNumber]
    rw [decimalDigits_succ, hsnoc, ih, pow_succ', Nat.mod_mul, Nat.add_comm]

theorem digitsNumber_decimalDigits_of_lt {n x : Nat} (h : x < 10 ^ n) : digitsNumber (decimalDigits n x) = x := by
  rw [digitsNumber_decimalDigits, Nat.mod_eq_of_lt h]

/-- A number written in a run of digits is the number that the run writes. -/
theorem digitsNumber_field {l pre post : List Nat} {a n x : Nat} (h : l = pre ++ (decimalDigits n x ++ post))
    (ha : pre.length = a) (hx : x < 10 ^ n) : digitsNumber ((l.drop a).take n) = x := by
  rw [h, List.drop_left' ha, List.take_left' (length_decimalDigits n x), digitsNumber_decimalDigits_of_lt hx]

/-! ## Meter codes (R66, R67) -/

section
variable {key : Key}

/-- The plain digits of a code of 21 digits, one by one (R66). -/
theorem plainDigits_getD (hmask : key.mask.length = 16) {code : List Byte} (hcode : code.length = 21) {i : Nat}
    (hi : i < 21) :
    (plainDigits key code).getD i 0 =
      if i < 16 then ((code.getD i 0).toNat + 10 - key.mask.getD i 0) % 10 else (code.getD i 0).toNat := by
  have hlen : i < (plainDigits key code).length := by simp [plainDigits, hmask, hcode]; omega
  rw [List.getD_eq_getElem _ _ hlen]
  by_cases h : i < 16
  · simp [plainDigits, h, hmask, hcode, hi]
  · have hsplit : 16 + (i - 16) = i := by omega
    have hright : (List.zipWith (fun d m => (d + 10 - m) % 10) ((code.map (·.toNat)).take 16) key.mask).length = 16 := by
      simp [hmask, hcode]
    simp only [plainDigits]
    rw [List.getElem_append_right (by omega)]
    simp [h, hcode, hi, hright, hsplit]

/-- A digit masked and unmasked is the digit. -/
theorem zipWith_unmask {plain mask : List Nat} (hlen : plain.length = mask.length) (hplain : ∀ d ∈ plain, d ≤ 9)
    (hmask : ∀ m ∈ mask, m ≤ 9) :
    List.zipWith (fun d m => (d + 10 - m) % 10) (List.zipWith (fun d m => (d + m) % 10) plain mask) mask = plain := by
  refine List.ext_getElem (by simp [hlen]) fun i h₁ h₂ => ?_
  have hd := hplain _ (List.getElem_mem h₂)
  have hm := hmask _ (List.getElem_mem (hlen ▸ h₂))
  simp only [List.getElem_zipWith]
  omega

/-- The sixteen plain digits that a code is made of (R67). -/
def fieldDigits (kind issue value sub : Nat) : List Nat :=
  decimalDigits 1 kind ++ decimalDigits 5 issue ++ decimalDigits 8 value ++ decimalDigits 2 sub

/-- The digits of a code made under a key: the masked sixteen and the five of the check (R66). -/
def codeDigits (key : Key) (plain : List Nat) : List Nat :=
  List.zipWith (fun d m => (d + m) % 10) plain key.mask ++
    decimalDigits 5 (expectedCheck key (digitsNumber plain))

theorem makeCode_eq (kind issue value sub : Nat) :
    makeCode key kind issue value sub = (codeDigits key (fieldDigits kind issue value sub)).map (BitVec.ofNat 8) := rfl

@[simp] theorem length_fieldDigits (kind issue value sub : Nat) : (fieldDigits kind issue value sub).length = 16 := by
  simp [fieldDigits]

theorem le_nine_of_mem_fieldDigits {kind issue value sub d : Nat} (h : d ∈ fieldDigits kind issue value sub) :
    d ≤ 9 := by
  simp only [fieldDigits, List.mem_append] at h
  rcases h with ((h | h) | h) | h <;> exact le_nine_of_mem_decimalDigits h

theorem le_nine_of_mem_codeDigits {plain : List Nat} {d : Nat} (h : d ∈ codeDigits key plain) : d ≤ 9 := by
  rcases List.mem_append.mp h with h | h
  · obtain ⟨i, hi, rfl⟩ := List.mem_iff_getElem.mp h
    rw [List.getElem_zipWith]
    omega
  · exact le_nine_of_mem_decimalDigits h

/-- The bytes of a code made under a key write its digits. -/
theorem map_toNat_makeCode (kind issue value sub : Nat) :
    (makeCode key kind issue value sub).map (·.toNat) = codeDigits key (fieldDigits kind issue value sub) := by
  rw [makeCode_eq, List.map_map]
  refine (List.map_congr_left fun d hd => ?_).trans (List.map_id _)
  have := le_nine_of_mem_codeDigits hd
  exact (BitVec.toNat_ofNat d 8).trans (Nat.mod_eq_of_lt (by omega))

/-- The plain digits of a code under the key it was made under are the digits it was made of, and its check (R66). -/
theorem plainDigits_makeCode (hlen : key.mask.length = 16) (hmask : ∀ m ∈ key.mask, m ≤ 9) (kind issue value sub : Nat) :
    plainDigits key (makeCode key kind issue value sub) =
      fieldDigits kind issue value sub ++
        decimalDigits 5 (expectedCheck key (digitsNumber (fieldDigits kind issue value sub))) := by
  let plain := fieldDigits kind issue value sub
  have hmasked : (List.zipWith (fun d m => (d + m) % 10) plain key.mask).length = 16 := by simp [plain, hlen]
  have hunmask := zipWith_unmask (by simp [plain, hlen]) (fun d => le_nine_of_mem_fieldDigits) hmask (plain := plain)
  unfold plainDigits
  rw [map_toNat_makeCode, codeDigits]
  dsimp only
  rw [List.take_left' hmasked, List.drop_left' hmasked, hunmask]

/-- The check of a code that was made under the key passes (R66). -/
theorem checkPasses_makeCode (hlen : key.mask.length = 16) (hmask : ∀ m ∈ key.mask, m ≤ 9) (kind issue value sub : Nat) :
    checkPasses key (makeCode key kind issue value sub) = true := by
  have hsixteen := length_fieldDigits kind issue value sub
  have hcheck (n : Nat) : expectedCheck key n < 10 ^ 5 := (Nat.mod_lt _ (by decide)).trans (by decide)
  unfold checkPasses
  rw [plainDigits_makeCode hlen hmask]
  dsimp only
  rw [List.take_left' hsixteen, List.drop_left' hsixteen, digitsNumber_decimalDigits_of_lt (hcheck _), beq_self_eq_true]

end

/-- Settles O23: the fields by the runs of plain digits, and a made code by unmasking its digits. -/
theorem meterCodeRoundTrips : Obligations.MeterCodeRoundTrips := by
  refine ⟨fun key code hmask _ hcode _ => ?_, fun key kind issue value sub hlen hmask hk hi hv hs => ?_⟩
  · intro digit plain number
    have hplain : (plainDigits key code).length = 21 := by simp [plainDigits, hmask, hcode]
    have hrun {a n : Nat} (h : a + n ≤ 21) : digitsNumber (((plainDigits key code).drop a).take n) = number a n := by
      rw [digitsNumber_run _ (hplain ▸ h)]
      refine List.foldl_ext _ _ _ fun x i hi => ?_
      rw [plainDigits_getD hmask hcode (by have := List.mem_range.mp hi; omega)]
    have hlast : ((plainDigits key code).drop 16).take 5 = (plainDigits key code).drop 16 :=
      List.take_of_length_le (by simp [hplain])
    refine ⟨?_, hrun (a := 0) (n := 1) (by decide), hrun (by decide), hrun (by decide), hrun (by decide)⟩
    rw [← hrun (a := 16) (n := 5) (by decide), ← hrun (a := 0) (n := 16) (by decide), hlast]
    exact beq_iff_eq
  · intro code
    have hplain := plainDigits_makeCode hlen hmask kind issue value sub
    generalize decimalDigits 5 _ = check at hplain
    have hsplit : plainDigits key code = decimalDigits 1 kind ++ (decimalDigits 5 issue ++ (decimalDigits 8 value ++
        (decimalDigits 2 sub ++ check))) := hplain.trans (by simp only [fieldDigits, List.append_assoc])
    have hbytes : code.map (·.toNat) = codeDigits key (fieldDigits kind issue value sub) := map_toNat_makeCode ..
    refine ⟨?_, fun b hb => ?_, checkPasses_makeCode hlen hmask kind issue value sub, ?_, ?_, ?_, ?_⟩
    · rw [← List.length_map (f := (·.toNat)), hbytes]
      simp [codeDigits, hlen]
    · exact le_nine_of_mem_codeDigits (hbytes ▸ List.mem_map_of_mem hb)
    · exact digitsNumber_field (pre := []) hsplit rfl (by omega)
    · exact digitsNumber_field hsplit (by simp) (by omega)
    · exact digitsNumber_field (hsplit.trans (List.append_assoc _ _ _).symm) (by simp) (by omega)
    · exact digitsNumber_field (hsplit.trans (by rw [← List.append_assoc, ← List.append_assoc])) (by simp) (by omega)

end Sys2Proof.Machine
end

