-- ==== Sys2Proof/Proofs/CodeItems.lean ====
section
namespace Sys2Proof.Machine

/-! ## An event that makes one write (R159) -/

section
variable {s u : State} (hw : u.writes = s.writes) (c : Instr) (n : Nv) (b : Block) (o : Origin) (rs : List RecordBody)
  (fs : List FollowUp) (clock : Option Nat)
include hw

/-- An event waits until its one write may begin, and is taken then. -/
theorem State.takes_withWrite :
    s.takes c none (u.withWrite n b o rs fs clock) =
      if s.mayBegin c b (!rs.isEmpty) = false then s.waits c b else (u.withWrite n b o rs fs clock).leaveLine c := by
  obtain ⟨w, howner, happends, hwrites⟩ : ∃ w : Write, w.owner = b ∧ w.appends = !rs.isEmpty ∧
      (u.withWrite n b o rs fs clock).writes = s.writes ++ [w] := ⟨_, rfl, rfl, by rw [← hw]; rfl⟩
  subst howner
  rw [← happends]
  cases hmay : s.mayBegin c w.owner w.appends with
  | false => exact State.takes_of_waits hwrites hmay
  | true => exact State.takes_of_mayBegin hwrites hmay

/-- An event with no record asks for its block alone, and has no append to wait for. -/
theorem State.takes_withWrite_plain :
    s.takes c none (u.withWrite n b o [] fs clock) =
      if s.blockBusy b c = true then s else (u.withWrite n b o [] fs clock).leaveLine c := by
  rw [State.takes_withWrite hw]
  cases hbusy : s.blockBusy b c <;> simp [State.mayBegin, State.waits, hbusy]

/-- An event that is tested for room and makes one write of its own block is taken at the journal's turn. -/
theorem State.takesTurn_withWrite (hmay : s.mayBegin c b true = true) :
    s.takesTurn c b (u.withWrite n b o rs fs clock) = (u.withWrite n b o rs fs clock).leaveLine c :=
  State.takesTurn_of_mayBegin hmay (by rw [← hw]; rfl) (State.mayBegin_weaken hmay fun _ => rfl)

end

/-! ## The first refusal record (R89) -/

theorem execReadFirstRefusal_of_request {p : Port} {s : State} {r : Request} (hr : s.isRunning = true)
    (ht : s.codeTakes (.request p) = true) (hreq : s.requestOf p .readFirstRefusal = some r) :
    exec (.readFirstRefusal p) s =
      .next (s.leaveQueue.answer p .ok (match s.nv.firstRefusal with | some f => f.bytes | none => [])) := by
  change execReadFirstRefusal p s = _
  rw [execReadFirstRefusal, ifRunning_of_running _ hr, ht, hreq] <;> rfl

theorem execClearFirstRefusal_of_request {p : Port} {s : State} {r : Request} (hr : s.isRunning = true)
    (ht : s.codeTakes (.request p) = true) (hreq : s.requestOf p .clearFirstRefusal = some r) :
    let i := Instr.clearFirstRefusal p
    exec i s =
      .next (s.takes i none
        (if s.nv.firstRefusal = none then s.leaveQueue.answer p .ok []
        else (s.leaveQueue.takeRequest p).withWrite { s.nv with firstRefusal := none } .code p.origin []
          [.answer p .ok []] none)) := by
  change execClearFirstRefusal p s = _
  rw [execClearFirstRefusal, whenRunning_of_running _ _ hr, ht, hreq]
  cases s.nv.firstRefusal with
  | none => rfl
  | some f => exact congrArg _ (congrArg _ (Event.commitSetting_eq _ _ _ _ s rfl rfl))

/-! ## Deadlines of the code unit (R86, R87, R93) -/

theorem execLockoutExpiry_of_item {p : Port} {s : State} (hr : s.isRunning = true)
    (ht : s.codeTakes (.lockoutExpiry p) = true) :
    exec (.lockoutExpiry p) s =
      .next (s.takes (.lockoutExpiry p) none
        (s.leaveQueue.withWrite { s.nv with lockouts := s.nv.lockouts.set p none } .code .device [.lockoutEnded p] []
          none)) := by
  change execLockoutExpiry p s = _
  rw [execLockoutExpiry, whenRunning_of_running _ _ hr, if_pos ht]
  exact congrArg _ (congrArg _ (Event.commitSetting_eq _ _ _ _ s rfl rfl))

theorem execPendingHalfLapse_of_pending {s : State} {h : PendingHalf} (hr : s.isRunning = true)
    (ht : s.codeTakes (.halfLapse true) = true) (hh : s.nv.pendingHalf = some h) :
    exec .pendingHalfLapse s =
      .next (s.takes .pendingHalfLapse none
        (s.leaveQueue.withWrite { s.nv with pendingHalf := none } .code .device [.keyHalfLapsed h.kind h.issue] []
          none)) := by
  change execPendingHalfLapse s = _
  rw [execPendingHalfLapse, whenRunning_of_running _ _ hr, if_pos ht, hh]
  exact congrArg _ (congrArg _ (Event.commitSetting_eq _ _ _ _ s rfl rfl))

/-- The queue's oldest item is one item. -/
theorem State.codeTakes_ne {s : State} {i j : CodeItem} (h : s.codeTakes i = true) (hne : j ≠ i) :
    s.codeTakes j = false := by
  simp only [State.codeTakes, Bool.and_eq_true, beq_iff_eq] at h
  simp [State.codeTakes, h.2, hne.symm]

theorem execPendingHalfLapse_of_stale {s : State} (hr : s.isRunning = true)
    (ht : s.codeTakes (.halfLapse false) = true) :
    exec .pendingHalfLapse s = .next (s.leaveQueue.leaveLine .pendingHalfLapse) := by
  change execPendingHalfLapse s = _
  rw [execPendingHalfLapse, whenRunning_of_running _ _ hr, if_neg (by simp [State.codeTakes_ne ht]), if_pos ht]
  exact congrArg _ (State.takes_of_writes _ rfl)

theorem execCodeUnitClockSet_of_item {s : State} (hr : s.isRunning = true) (ht : s.codeTakes .clockSet = true) :
    exec .codeUnitClockSet s = .next (s.takes .codeUnitClockSet none (s.leaveQueue.limitCode s.clock)) := by
  change execCodeUnitClockSet s = _
  rw [execCodeUnitClockSet, whenRunning_of_running _ _ hr, if_pos ht]

/-- Settles O28: each item by its meaning, with its one write taken or waiting. -/
theorem refusalsReadAndDeadlinesTaken : Obligations.RefusalsReadAndDeadlinesTaken := by
  refine ⟨fun p s r hr ht => ⟨execReadFirstRefusal_of_request hr ht, fun hreq => ?_⟩,
    ⟨fun p s hr ht => ?_, fun s h hr ht hh => ?_, fun s hr ht => execPendingHalfLapse_of_stale hr ht⟩,
    fun s hr ht => ?_⟩
  · rw [execClearFirstRefusal_of_request hr ht hreq]
    refine congrArg _ ?_
    split
    · exact State.takes_of_writes _ (by simp)
    · exact State.takes_withWrite_plain (s := s) (by rfl) ..
  · rw [execLockoutExpiry_of_item hr ht]
    exact congrArg _ (State.takes_withWrite (s := s) (by rfl) ..)
  · rw [execPendingHalfLapse_of_pending hr ht hh]
    exact congrArg _ (State.takes_withWrite (s := s) (by rfl) ..)
  · intro limited n
    have hsame : n = s.nv ↔ n.lockouts = s.nv.lockouts ∧ n.pendingHalf = s.nv.pendingHalf := by
      refine ⟨fun h => ⟨congrArg Nv.lockouts h, congrArg Nv.pendingHalf h⟩, fun ⟨hl, hp⟩ => ?_⟩
      change { s.nv with lockouts := n.lockouts, pendingHalf := n.pendingHalf } = s.nv
      rw [hl, hp]
    have hlimit : s.leaveQueue.limitCode s.clock =
        if n = s.nv then s.leaveQueue else s.leaveQueue.withWrite n .code .device [] [] none :=
      s.leaveQueue.limitCode_eq s.clock
    rw [execCodeUnitClockSet_of_item hr ht, hlimit]
    refine congrArg _ ((apply_ite _ _ _ _).trans (if_congr hsame ?_ ?_))
    · exact State.takes_of_writes _ rfl
    · exact State.takes_withWrite_plain (s := s) (by rfl) ..

end Sys2Proof.Machine
end

