-- ==== Sys2Proof/Proofs/FailedChecks.lean ====
section
namespace Sys2Proof.Machine

/-! ## SUBMIT_CODE (R70) -/

section
variable {p : Port} {s : State}

/-- The lines that a command's own append leaves make no block busy for it. -/
theorem State.blockBusy_leaveLine (s : State) (b : Block) (c : Instr) :
    (s.leaveLine c).blockBusy b c = s.blockBusy b c := by
  have hline : ∀ l : List JournalEvent, (l.filter (fun e => !e.appendOf c)).any (JournalEvent.appendOfOther b c)
      = l.any (JournalEvent.appendOfOther b c) := by
    intro l
    rw [List.any_filter]
    refine congrArg l.any (funext fun e => ?_)
    cases e with
    | request q => rfl
    | append owner command => by_cases h : command = c <;> simp [JournalEvent.appendOf, JournalEvent.appendOfOther, h]
  exact congrArg (s.writing b || ·) (hline s.journalWaiting)

theorem State.service_none_of_codeTakes {i : CodeItem} (h : s.codeTakes i = true) : s.code.service = none := by
  simp only [State.codeTakes, State.codeBusy, Bool.and_eq_true, Bool.not_eq_true', Bool.or_eq_false_iff] at h
  obtain ⟨⟨hservice, -⟩, -⟩ := h
  simpa using hservice

theorem execSubmitCode_of_waiting {c : CodeService} (hr : s.isRunning = true) (h : s.codeAtJournal p = some c) :
    exec (.submitCode p) s = .next (s.goOn c) := by
  change execSubmitCode p s = _
  rw [execSubmitCode, ifRunning_of_running _ hr, h]

theorem execSubmitCode_of_request {r : Request} (hr : s.isRunning = true) (ht : s.codeTakes (.request p) = true)
    (hb : s.blockBusy .code (.submitCode p) = false) (hreq : s.requestOf p .submitCode = some r) :
    exec (.submitCode p) s =
      .next (((s.leaveLine (.submitCode p)).leaveQueue.takeRequest p).serveCode p r.payload) := by
  have hnone : s.codeAtJournal p = none := by
    rw [State.codeAtJournal, State.service_none_of_codeTakes ht]
  have hbusy : (s.leaveLine (.submitCode p)).blockBusy .code (.submitCode p) = false := by
    rw [State.blockBusy_leaveLine, hb]
  change execSubmitCode p s = _
  rw [execSubmitCode, ifRunning_of_running _ hr, hnone]
  dsimp only
  rw [hbusy]
  change Host.Outcome.next (match s.codeTakes (.request p) && !false, s.requestOf p .submitCode with
    | true, some r => ((s.leaveLine (.submitCode p)).leaveQueue.takeRequest p).serveCode p r.payload
    | _, _ => s.leaveLine (.submitCode p)) = _
  rw [ht, hreq]
  rfl

theorem execSubmitCode_of_nothing (hr : s.isRunning = true) (hnone : s.codeAtJournal p = none)
    (h : s.codeTakes (.request p) = false ∨ s.blockBusy .code (.submitCode p) = true ∨
      s.requestOf p .submitCode = none) :
    exec (.submitCode p) s = .next (s.leaveLine (.submitCode p)) := by
  change execSubmitCode p s = _
  rw [execSubmitCode, ifRunning_of_running _ hr, hnone]
  dsimp only
  split
  · next r ht hreq =>
    rw [State.blockBusy_leaveLine, Bool.and_eq_true, Bool.not_eq_true'] at ht
    obtain ⟨htakes, hbusy⟩ := ht
    rcases h with h | h | h
    · exact absurd (h.symm.trans htakes) (by decide)
    · exact absurd (hbusy.symm.trans h) (by decide)
    · exact absurd (h.symm.trans hreq) (by simp)
  · rfl

end

/-! ## The first tests of a code (R73 to R75) -/

theorem digits_any_iff (code : List Byte) : code.any (fun b => 9 < b.toNat) = true ↔ ∃ b ∈ code, 9 < b.toNat := by simp

section
variable (u : State) {p : Port} {code : List Byte}

theorem State.serveCode_of_digit (h : ∃ b ∈ code, 9 < b.toNat) :
    u.serveCode p code =
      u.refuseCode (u.newService p code)
        { stage := .format, outcome := .format, decoded := none, failures := none, lockoutRemaining := none
          effect := none } := by
  unfold State.serveCode
  exact if_pos ((digits_any_iff code).mpr h)

variable (hdigits : ∀ b ∈ code, b.toNat ≤ 9)
include hdigits

theorem State.serveCode_of_lockout {l : Lockout} (h : u.nv.lockouts.get p = some l) :
    u.serveCode p code =
      u.refuseCode (u.newService p code)
        { stage := .lockout, outcome := .locked, decoded := none, failures := none
          lockoutRemaining := some (l.deadline - u.clock), effect := none } := by
  unfold State.serveCode
  rw [h]
  exact if_neg (by simpa using hdigits)

theorem State.serveCode_of_open (h : u.nv.lockouts.get p = none) :
    u.serveCode p code = u.serveChecked (u.newService p code) := by
  unfold State.serveCode
  rw [h]
  exact if_neg (by simpa using hdigits)

end

theorem State.serveChecked_of_failed (u : State) {c : CodeService} (h : checkPasses u.nv.key c.digits = false) :
    u.serveChecked c = (u.serve c).goOn c :=
  if_pos h

/-- A code in service that failed its check goes on at its refusal write. -/
theorem State.goOn_of_failed (v : State) {c : CodeService} (h : c.atOwner = false) :
    v.goOn c = v.takes (.submitCode c.port) none (v.refuseAtCheck c) := by
  rw [State.goOn, h]
  rfl

/-! ## A code refused at CHECK (R75, R85) -/

/-- The lockout that a failure begins: 1 minute at the fifth, then twice the last, at most 64 (R85). -/
theorem lockoutMinutes_eq (count step : Nat) :
    lockoutMinutes count step =
      if step ≠ 0 ∨ count = 5 then some (if step = 0 then 1 else min 64 (2 * step)) else none := by
  unfold lockoutMinutes
  by_cases hs : step = 0 <;> simp [hs]

/-- A refusal at CHECK makes one write, with the first refusal record filled if it was empty (R79, R88). -/
theorem Event.refuseCode_of_check (v : State) (n : Nv) (o : Origin) (rs : List RecordBody) (c : CodeService)
    {r : CodeResult} (hr : r.stage = .check) (hj : n.journal = v.nv.journal) :
    Event.refuseCode
        { state := { v with nv := n }, origin := o, low := v.nv.settings.journalLow, records := rs, follow := [] } c r =
      (v.withServed c).withWrite (n.keepRefusal c .check r.outcome) .code o rs
        [.answer c.port r.outcome r.bytes, .codeServed] none := by
  have hkeep : (n.keepRefusal c .check r.outcome).journal = v.nv.journal := by rw [Nv.keepRefusal_eq, ← hj]
  unfold Event.refuseCode
  dsimp only
  rw [if_pos (.inl hr), hr]
  exact Event.commitSetting_eq _ _ _ _ (v.withServed c) rfl hkeep

/-- The first refusal record takes a refused code if it was empty (R88). -/
theorem Nv.keepRefusal_match (n : Nv) (c : CodeService) (stage : CodeStage) (outcome : Status) :
    n.keepRefusal c stage outcome =
      { n with
        firstRefusal :=
          match n.firstRefusal with
          | some f => some f
          | none => some { digits := c.digits, port := c.port, stage := stage, outcome := outcome, time := c.taken } } := by
  rw [Nv.keepRefusal_eq]
  cases n.firstRefusal <;> rfl

section
variable (v : State) (c : CodeService)

/-- A failed check that begins no lockout: the count alone, with no record (R85). -/
theorem State.refuseAtCheck_of_open {count : Nat} (hcount : min 5 (v.nv.failures.get c.port + 1) = count)
    (h : lockoutMinutes count (v.nv.lockoutSteps.get c.port) = none) :
    v.refuseAtCheck c =
      (v.withServed c).withWrite (({ v.nv with failures := v.nv.failures.set c.port count } : Nv).keepRefusal c .check .check)
        .code c.port.origin []
        [.answer c.port .check ([3, Status.check.byte, 2, 0] ++ toBytes 4 0 ++ toBytes 1 count ++ toBytes 4 0),
          .codeServed] none := by
  unfold State.refuseAtCheck
  dsimp only
  rw [hcount, h]
  exact Event.refuseCode_of_check v _ _ _ c rfl rfl

/-- A failed check that begins a lockout: the count, the step, the lockout and its record (R85). -/
theorem State.refuseAtCheck_of_lockout {count minutes : Nat} (hcount : min 5 (v.nv.failures.get c.port + 1) = count)
    (h : lockoutMinutes count (v.nv.lockoutSteps.get c.port) = some minutes) :
    let deadline := deadlineHeld c.taken (60 * minutes)
    v.refuseAtCheck c =
      (v.withServed c).withWrite
        (({ v.nv with
            failures := v.nv.failures.set c.port count
            lockoutSteps := v.nv.lockoutSteps.set c.port minutes
            lockouts := v.nv.lockouts.set c.port (some { deadline := deadline, minutes := minutes }) } : Nv).keepRefusal c
              .check .check)
        .code c.port.origin [.lockoutBegan c.port minutes deadline]
        [.answer c.port .check
          ([3, Status.check.byte, 6, 0] ++ toBytes 4 0 ++ toBytes 1 count ++ toBytes 4 (deadline - c.taken)),
          .codeServed] none := by
  unfold State.refuseAtCheck
  dsimp only
  rw [hcount, h]
  exact Event.refuseCode_of_check v _ _ _ c rfl rfl

end

/-- SUBMIT_CODE at a code that failed its check, at its taking or back from the journal, is its refusal write (R70). -/
theorem execSubmitCode_of_failed {p : Port} {s v : State} {c : CodeService} (hr : s.isRunning = true)
    (h : (∃ r, s.codeTakes (.request p) = true ∧ s.blockBusy .code (.submitCode p) = false ∧
        s.requestOf p .submitCode = some r ∧ (∀ b ∈ r.payload, b.toNat ≤ 9) ∧ s.nv.lockouts.get p = none ∧
        checkPasses s.nv.key r.payload = false ∧ c = s.newService p r.payload ∧
        v = ((s.leaveLine (.submitCode p)).leaveQueue.takeRequest p).serve c) ∨
      s.codeAtJournal p = some c ∧ c.atOwner = false ∧ v = s) :
    c.port = p ∧ v.nv = s.nv ∧ exec (.submitCode p) s = .next (v.takes (.submitCode p) none (v.refuseAtCheck c)) := by
  rcases h with ⟨r, ht, hb, hreq, hdigits, hopen, hfail, rfl, rfl⟩ | ⟨hwait, howner, rfl⟩
  · have hserve := ((s.leaveLine (.submitCode p)).leaveQueue.takeRequest p).serveCode_of_open hdigits hopen
    refine ⟨rfl, rfl, ?_⟩
    rw [execSubmitCode_of_request hr ht hb hreq, hserve, State.serveChecked_of_failed _ (by exact hfail)]
    exact congrArg _ (State.goOn_of_failed _ rfl)
  · obtain ⟨-, rfl, -⟩ := State.codeAtJournal_spec hwait
    exact ⟨rfl, rfl, (execSubmitCode_of_waiting hr hwait).trans (congrArg _ (v.goOn_of_failed howner))⟩

/-- Settles O25: the code by `execSubmitCode_of_failed`, and its refusal write with a lockout or without. -/
theorem failedCheckCountsAndLocks : Obligations.FailedCheckCountsAndLocks := by
  intro p s v c hr hcase
  obtain ⟨rfl, hnv, hexec⟩ := execSubmitCode_of_failed hr hcase
  rw [← hnv]
  intro i count step locks minutes deadline n payload
  have hlocks : locks = decide (step ≠ 0 ∨ count = 5) := rfl
  have hminutes : lockoutMinutes count step = if locks = true then some minutes else none :=
    (lockoutMinutes_eq count step).trans (if_congr (by rw [hlocks, decide_eq_true_iff]) rfl rfl)
  have hrefuse : v.refuseAtCheck c =
      (v.withServed c).withWrite n .code c.port.origin (if locks then [.lockoutBegan c.port minutes deadline] else [])
        [.answer c.port .check payload, .codeServed] none := by
    clear_value locks
    cases locks with
    | false =>
      rw [v.refuseAtCheck_of_open c rfl hminutes, Nv.keepRefusal_match]
      rfl
    | true =>
      rw [v.refuseAtCheck_of_lockout c rfl hminutes, Nv.keepRefusal_match]
      rfl
  rw [show exec i s = _ from hexec, hrefuse, State.takes_withWrite (s := v) (by rfl)]
  refine congrArg _ ?_
  cases locks <;> rfl

end Sys2Proof.Machine
end

