-- ==== Sys2Proof/Proofs/CodeTests.lean ====
section
namespace Sys2Proof.Machine

/-! ## The later tests of a code (R76 to R78, R80) -/

/-- A code with its four fields decoded under a key (R67). -/
def CodeService.decode (c : CodeService) (key : Key) : CodeService :=
  { c with
    kind := codeKind key c.digits, issue := codeIssue key c.digits, value := codeValue key c.digits
    sub := codeSub key c.digits }

/-- The tests of a code that passed its check, in their order, and what becomes of one that passes them all. -/
theorem State.serveChecked_of_passed (u : State) {c : CodeService} (h : checkPasses u.nv.key c.digits = true) :
    let read := c.decode u.nv.key
    u.serveChecked c =
      if read.kind = 9 then u.refuseCode read (read.refusal .kind .kind)
      else if u.nv.spent.contains read.issue then u.refuseCode read (read.refusal .spent .used)
      else if u.nv.spent.length = spentPlaces ∧ u.nv.spent.any (fun x => x ≤ read.issue) = false then
        u.refuseCode read (read.refusal .spent .old)
      else if u.nv.journal.free < reserveFloor then u.refuseCode read (read.refusal .room .journalFull)
      else if codeInRange read.kind read.value read.sub = false then u.refuseCode read (read.refusal .apply .value)
      else if read.kind = 6 ∨ read.kind = 7 then
        (u.serve { read with atOwner := true }).goOn { read with atOwner := true }
      else u.handCode read :=
  if_neg (by rw [h]; decide)

/-- The owners whose arrival lists codes join are those of kinds 0 to 2 and of kinds 4 and 5 (R68). -/
theorem codeOwner_eq_account (kind : Nat) : codeOwner kind = .account ↔ kind ≤ 2 := by
  unfold codeOwner
  split_ifs <;> simp_all

theorem codeOwner_eq_tamper (kind : Nat) : codeOwner kind = .tamper ↔ kind = 4 ∨ kind = 5 := by
  unfold codeOwner
  split_ifs <;> simp_all <;> omega

/-- A code handed to its owner waits there, on the arrival list of its kind (R70). -/
theorem State.handCode_eq (u : State) (c : CodeService) :
    u.handCode c =
      { u with
        code := { u.code with service := some { c with atOwner := true } }
        arrivals := u.arrivals ++ (if c.kind ≤ 2 then [.code] else [])
        tamper :=
          { u.tamper with
            arrivals := u.tamper.arrivals ++ (if c.kind = 4 ∨ c.kind = 5 then [.code] else []) } } := by
  have haccount := codeOwner_eq_account c.kind
  have htamper := codeOwner_eq_tamper c.kind
  unfold State.handCode
  cases howner : codeOwner c.kind <;> rw [howner] at haccount htamper <;>
    simp [← haccount, ← htamper, State.serve, State.arrive, State.arriveTamper]

/-- The ranges of each kind (R68). -/
theorem codeInRange_iff (value sub : Nat) {kind : Nat} : kind ≤ 8 →
    (codeInRange kind value sub = true ↔
      match kind with
      | 0 => 1 ≤ value ∧ value ≤ 99999999 ∧ sub = 0
      | 1 => value ≤ 100000 ∧ sub = 0
      | 2 => value ≤ 99999999 ∧ sub ≤ 50
      | 3 => value ≤ 9999999 ∧ sub ≤ 3
      | 4 => value = 0 ∧ 1 ≤ sub ∧ sub ≤ 48
      | 5 => value = 0 ∧ sub ≤ 5
      | 8 => value = 0 ∧ sub = 0
      | _ => True) := by
  intro hk
  interval_cases kind <;>
    simp only [codeInRange, Bool.and_eq_true, decide_eq_true_eq, beq_iff_eq, and_assoc] <;> rfl

/-- Settles O24: SUBMIT_CODE by what it finds, and the tests in the order of `State.serveCode` and
`State.serveChecked`. -/
theorem codeIsTestedInOrder : Obligations.CodeIsTestedInOrder := by
  refine ⟨fun p s r hr ht hb hreq => ?_, fun p s c hr hwait => execSubmitCode_of_waiting hr hwait,
    fun p s hr hnone h => execSubmitCode_of_nothing hr hnone h,
    fun kind value sub hk _ => ?_⟩
  · intro u key code raw read
    have hexec : exec (.submitCode p) s = .next (u.serveCode p code) := execSubmitCode_of_request hr ht hb hreq
    rw [hexec]
    refine ⟨fun h => congrArg _ (u.serveCode_of_digit h), fun hdigits =>
      ⟨fun l hl => congrArg _ (u.serveCode_of_lockout hdigits hl), fun hopen hfail => ?_, fun hopen hpass => ?_⟩⟩
    · rw [u.serveCode_of_open hdigits hopen]
      exact congrArg _ (u.serveChecked_of_failed hfail)
    · have hold : u.nv.spent.any (fun x => x ≤ read.issue) = false ↔ ∀ x ∈ s.nv.spent, read.issue < x := by
        simp [u]
      rw [u.serveCode_of_open hdigits hopen, u.serveChecked_of_passed (by exact hpass)]
      exact congrArg _ (if_congr Iff.rfl rfl (if_congr List.contains_iff_mem rfl (if_congr (and_congr Iff.rfl hold) rfl
        (if_congr Iff.rfl rfl (if_congr Iff.rfl rfl (if_congr Iff.rfl rfl (u.handCode_eq read)))))))
  · exact codeInRange_iff value sub hk

end Sys2Proof.Machine
end

