-- ==== Sys2Proof/Proofs/KeyHalves.lean ====
section
namespace Sys2Proof.Machine

/-! ## Key halves (R90 to R92) -/

section
variable (s : State) (c : CodeService)

/-- The write of an application, whose response and end of service lead what follows it (R94). -/
theorem Event.commit_served (effect : CodeEffect) (b : Block) (u : State) (n : Nv) (o : Origin) (rs : List RecordBody)
    (fs : List FollowUp) (hj : n.journal = u.nv.journal) :
    (Event.served
        { state := { u with nv := n }, origin := o, low := u.nv.settings.journalLow, records := rs, follow := fs } c
        effect).commit b =
      (u.withServed c).withWrite n b o rs (c.servedFollow effect ++ fs) none :=
  Event.commitSetting_eq _ _ _ _ (u.withServed c) rfl hj

/-- A half held: its two records need room, and its one write makes it the pending half (R78, R90). -/
theorem State.holdHalf_eq (h : PendingHalf) :
    s.holdHalf c h =
      if s.nv.journal.free < 2 then s.refuseCode c (c.refusal .room .journalFull)
      else
        (s.staleLapse.withServed c).withWrite { s.nv.withSpent c with pendingHalf := some h } .code c.port.origin
          [.codeApplied c.kind c.issue (.keyHeld h.deadline), .keyHalfHeld h.kind h.issue]
          (c.servedFollow (.keyHeld h.deadline)) none := by
  unfold State.holdHalf
  by_cases hroom : s.nv.journal.free < 2
  · rw [if_pos hroom]
    exact State.applyCode_noRoom (Nat.le_of_lt_succ hroom)
  · rw [if_neg hroom, State.applyCode_taken (by exact Nat.lt_of_succ_le (Nat.not_lt.mp hroom))]
    exact Event.commit_served c (.keyHeld h.deadline) .code s.staleLapse _ _ _ _ rfl

/-- Two halves that meet: room for the two records, the pair's numbers, and the one write of the new key (R78, R91,
R92). -/
theorem State.changeKey_eq (first second : PendingHalf) :
    s.changeKey c first second =
      if s.nv.journal.free < 2 then s.refuseCode c (c.refusal .room .journalFull)
      else if first.issue + 1 = second.issue then
        (s.staleLapse.withServed c).withWrite
          { s.nv with
            key := { mask := first.digits ++ second.digits, check := 100 * first.check + second.check }
            pendingHalf := none, spent := [], firstRefusal := none, failures := ⟨0, 0⟩, lockoutSteps := ⟨0, 0⟩ }
          .code c.port.origin [.codeApplied c.kind c.issue .keyChanged, .keyChanged first.issue second.issue]
          (c.servedFollow .keyChanged ++ [.notice .keyChanged]) none
      else s.refuseCode c (c.refusal .apply .pair) := by
  have hpairs : pairs first second = false ↔ ¬ first.issue + 1 = second.issue := by simp [pairs]
  unfold State.changeKey
  dsimp only
  refine if_congr Iff.rfl rfl ?_
  by_cases hpair : first.issue + 1 = second.issue
  · rw [if_neg (mt hpairs.mp (not_not.mpr hpair)), if_pos hpair, Event.commitCode_eq]
    exact Event.commit_served c .keyChanged .code s.staleLapse _ _ _ _ rfl
  · rw [if_pos (hpairs.mpr hpair), if_neg hpair]

/-- A half is held unless one of the other kind is pending, which it then meets (R90, R91). -/
theorem State.applyHalf_eq (h : PendingHalf) :
    s.applyHalf c h =
      match s.nv.pendingHalf with
      | none => s.holdHalf c h
      | some w =>
        if w.kind = h.kind then s.holdHalf c h
        else s.changeKey c (if h.kind = .first then h else w) (if h.kind = .first then w else h) := by
  unfold State.applyHalf
  cases s.nv.pendingHalf with
  | none => rfl
  | some w =>
    dsimp only
    cases w.kind <;> cases h.kind <;> simp only [if_true, if_false, reduceCtorEq]

end

/-- The outcome of a half whose turn has come is taken: its write is the code unit's, as the turn was. -/
theorem State.takesTurn_half {s : State} {c : CodeService} {i : Instr} (hmay : s.mayBegin i .code true = true)
    (h : PendingHalf) : s.takesTurn i .code (s.applyHalf c h) = (s.applyHalf c h).leaveLine i := by
  have hbusy : s.blockBusy .code i = false := by
    simp only [State.mayBegin, Bool.and_eq_true, Bool.not_eq_true'] at hmay
    exact hmay.1
  have refused (r : CodeResult) : s.takesTurn i .code (s.refuseCode c r) = (s.refuseCode c r).leaveLine i :=
    State.takesTurn_refuseCode c r rfl hmay hbusy
  have held : s.takesTurn i .code (s.holdHalf c h) = (s.holdHalf c h).leaveLine i := by
    rw [s.holdHalf_eq]
    split
    · exact refused _
    · exact State.takesTurn_withWrite (by rfl) _ _ _ _ _ _ _ hmay
  have changed (x y : PendingHalf) : s.takesTurn i .code (s.changeKey c x y) = (s.changeKey c x y).leaveLine i := by
    rw [s.changeKey_eq]
    split
    · exact refused _
    split
    · exact State.takesTurn_withWrite (by rfl) _ _ _ _ _ _ _ hmay
    · exact refused _
  rw [s.applyHalf_eq]
  split
  · exact held
  split
  · exact held
  · exact changed _ _

theorem deadlineHeld_eq (clock duration : Nat) : deadlineHeld clock duration = min (clock + duration) 4294967295 := rfl

/-- Settles O27: a half waits for its turn, and is then held or met with the half of the other kind. -/
theorem keyHalvesAreHeldOrPaired : Obligations.KeyHalvesAreHeldOrPaired := by
  intro s c howner _ i h v held paired
  have hgo : s.goOn c = s.takesTurn i .code (s.applyHalf c h) := by
    have hhalf : s.halfOf c = h := by rw [State.halfOf, CodeService.half, deadlineHeld_eq]
    rw [State.goOn, if_pos howner, hhalf]
  clear_value h
  rw [hgo]
  cases hmay : s.mayBegin i .code true with
  | false =>
    rw [if_pos rfl]
    exact State.takesTurn_of_waits _ hmay
  | true =>
    rw [if_neg (by decide : ¬ true = false), State.takesTurn_half hmay, s.applyHalf_eq]
    refine congrArg (State.leaveLine · i) ?_
    have hheld : s.holdHalf c h =
        if s.nv.journal.free < 2 then s.refuseCode c (c.refusal .room .journalFull) else held := s.holdHalf_eq c h
    have hchange (x y : PendingHalf) : s.changeKey c x y =
        if s.nv.journal.free < 2 then s.refuseCode c (c.refusal .room .journalFull)
        else if x.issue + 1 = y.issue then paired x y else s.refuseCode c (c.refusal .apply .pair) :=
      s.changeKey_eq c x y
    simp only [hheld, hchange]
    clear_value held paired
    by_cases hroom : s.nv.journal.free < 2
    · simp only [if_pos hroom, ite_self] <;> cases s.nv.pendingHalf <;> rfl
    · simp only [if_neg hroom] <;> cases s.nv.pendingHalf <;> rfl

end Sys2Proof.Machine
end

