-- ==== Sys2Proof/Proofs/RemoteHold.lean ====
section
namespace Sys2Proof.Machine

/-! ## The write of an event at the supply -/

theorem State.SameSupply.trans {t u v : State} (h : t.SameSupply u) (h' : u.SameSupply v) : t.SameSupply v :=
  ⟨h.holds.trans h'.holds, h.policy.trans h'.policy, h.armDeadline.trans h'.armDeadline,
    h.contactor.trans h'.contactor, h.driveTarget.trans h'.driveTarget, h.driver.trans h'.driver,
    h.changed.trans h'.changed, h.armed.trans h'.armed⟩

/-- The write of an event leaves a state that the rules of the supply read as they read the event. -/
theorem Event.sameSupply_commit (e : Event) (b : Block) (i : Instr) : ((e.commit b).leaveLine i).SameSupply e.view := by
  obtain ⟨⟨⟨h₁, h₂, h₃, h₄, h₅, h₆, h₇, h₈⟩, -⟩, -⟩ := e.alike_commitSetting b none none
  exact ⟨h₁, h₂, h₃, h₄, h₅, h₆, h₇, h₈⟩

/-- What the code unit adds to an application leaves what the rules of the supply read. -/
theorem Event.sameSupply_served (e : Event) (c : CodeService) (effect : CodeEffect) :
    ((e.withCode c effect).served c effect).view.SameSupply e.view :=
  (e.served_alike c effect).toSameSupply

/-- The response and the end of its service follow the write of an application (R94). -/
theorem Event.servedFollow_mem (e : Event) (c : CodeService) (effect : CodeEffect) (b : Block) (i : Instr)
    {f : FollowUp} (hf : f ∈ c.servedFollow effect) :
    f ∈ (((e.served c effect).commit b).leaveLine i).newestFollow := by
  have hjournal : f ≠ .notice .journalLow ∧ f ≠ .notice .journalFull := by
    simp only [CodeService.servedFollow, List.mem_cons, List.not_mem_nil, or_false] at hf
    rcases hf with rfl | rfl <;> simp
  exact (Event.mem_commit_follow _ _ _ hjournal).mpr (List.mem_append_left _ hf)

/-! ## REMOTE_CONNECT and RECONNECT (R83, R103) -/

/-- The event of a removal of the REMOTE hold before the removal: the lapse marker cleared (R103). -/
def State.unmark (s : State) (o : Origin) : Event :=
  (Event.begin s o).updateNv (fun n => { n with lapseMarker := false })

theorem State.unmark_ready {s u : State} (o : Origin) (nv : u.nv = s.nv) (supply : u.supply = s.supply)
    (driver : u.driver = s.driver) (clock : u.clock = s.clock)
    (window : u.clockUnit.windowInForce = s.clockUnit.windowInForce) : (u.unmark o).Ready s :=
  (Event.ready_begin_of o nv supply driver clock window).updateNv rfl rfl

section
variable {s : State} {r : Request} (hr : s.isRunning = true) (hreq : s.requestOf .l .remoteConnect = some r)
include hr hreq

theorem execRemoteConnect_of_range (hp : decodePolicy r.payload = none) :
    exec .remoteConnect s = .next ((s.answer .l .range []).leaveLine .remoteConnect) := by
  change execRemoteConnect s = _
  simp only [execRemoteConnect, ifRunning_of_running _ hr, hreq, hp]

variable {policy : Policy} (hp : decodePolicy r.payload = some policy)
include hp

theorem execRemoteConnect_of_absent (hh : s.nv.holds.remote = none) :
    exec .remoteConnect s = .next ((s.answer .l .notHeld []).leaveLine .remoteConnect) := by
  change execRemoteConnect s = _
  simp only [execRemoteConnect, ifRunning_of_running _ hr, hreq, hp, hh, if_true]

/-- REMOTE_CONNECT with a REMOTE hold in the list waits for the journal's turn, and is then refused for want of room or
removes the hold (R103, R164). -/
theorem execRemoteConnect_of_held (hh : s.nv.holds.remote ≠ none) :
    exec .remoteConnect s =
      .next
        (if s.mayBegin .remoteConnect .supply true = false then s.waits .remoteConnect .supply
        else
          (if s.nv.journal.free < 17 then s.answer .l .journalFull []
          else
            ((((s.takeRequest .l).unmark .lPort).remove .remote .remoteConnect (some policy) policy).andThen
              (.answer .l .ok [])).commit .supply).leaveLine .remoteConnect) := by
  have hwrites : (((s.takeRequest .l).unmark .lPort).remove .remote .remoteConnect (some policy) policy).state.writes =
      s.writes := (Event.within_remove _ _ _ _ _).writes
  change execRemoteConnect s = _
  simp only [execRemoteConnect, ifRunning_of_running _ hr, hreq, hp, if_neg hh]
  exact congrArg _ (State.takesTurn_of_room (by exact hwrites) rfl)

end

/-- What REMOTE_CONNECT's write leaves (R103, R115, R117). -/
theorem State.remoteConnect_taken (s : State) {hold : RemoteHold} (hh : s.nv.holds.remote = some hold) (policy : Policy) :
    let t := (((((s.takeRequest .l).unmark .lPort).remove .remote .remoteConnect (some policy) policy).andThen
      (.answer .l .ok [])).commit .supply).leaveLine .remoteConnect
    s.removed t .remote policy ∧ t.nv.lapseMarker = false ∧
      t.nv.journal = s.nv.journal.appendAll s.clock .lPort
        [s.nv.removalRecord .remote hold.phase .remoteConnect (some policy) policy] ∧
      .answer .l .ok [] ∈ t.newestFollow ∧ s.beganWrite t .supply ∧
      t.withStoreOf s = (s.takeRequest .l).leaveLine .remoteConnect ∧
      { t.nv.withSupplyOf s.nv with lapseMarker := s.nv.lapseMarker } = s.nv := by
  let e := (s.takeRequest .l).unmark .lPort
  let d := e.remove .remote .remoteConnect (some policy) policy
  let e' := d.andThen (.answer .l .ok [])
  have hphase : s.nv.holds.phase .remote = some hold.phase := by simp [HoldList.phase, hh]
  have hready : e.Ready s := State.unmark_ready .lPort rfl rfl rfl rfl rfl
  have hin : e.Within e' := (e.within_remove _ _ _ _).trans (Event.within_andThen _ _)
  have hnv := hin.image_withSupplyOf s.nv
  have hrecords : e'.records = [s.nv.removalRecord .remote hold.phase .remoteConnect (some policy) policy] :=
    e.remove_records hphase _ _ _
  intro t
  refine ⟨?_, ?_, ?_, ?_, ?_, ?_, ?_⟩
  · refine ((e'.sameSupply_commit .supply .remoteConnect).removed _ _).mpr ?_
    exact ((d.sameSupply_andThen (by decide) (by decide)).removed _ _).mpr (hready.removed hphase _ _ _)
  · exact congrArg Nv.lapseMarker hnv
  · exact hin.image_journal.trans (congrArg _ hrecords)
  · rw [Event.mem_commit_follow _ _ _ (by decide)]
    simp
  · exact Event.beganWrite_commit hin.writes _ _
  · exact congrArg (State.leaveLine · .remoteConnect) (hin.commit_withStoreOf .supply s)
  · have := congrArg (fun n => ({ n with lapseMarker := s.nv.lapseMarker } : Nv)) hnv
    exact this

/-- A RECONNECT application moves the supply by the removal of a REMOTE hold, or not at all, with one record or none
(R83, R103). -/
theorem State.reconnect_spec (s : State) (o : Origin) :
    let e := (Event.begin s o).reconnect
    match s.nv.holds.remote with
    | none => s.supplyKept e.view ∧ e.records = []
    | some hold =>
      s.removed e.view .remote .press ∧ e.records = [s.nv.removalRecord .remote hold.phase .reconnect none .press] := by
  intro e
  have hready : (s.unmark o).Ready s := State.unmark_ready o rfl rfl rfl rfl rfl
  cases hh : s.nv.holds.remote with
  | none =>
    have hphase : s.nv.holds.phase .remote = none := by simp [HoldList.phase, hh]
    have he : e = s.unmark o := Event.remove_of_absent (e := s.unmark o) hphase _ _ _
    rw [he]
    exact ⟨hready.kept, rfl⟩
  | some hold =>
    have hphase : s.nv.holds.phase .remote = some hold.phase := by simp [HoldList.phase, hh]
    exact ⟨hready.removed hphase _ _ _, Event.remove_records (e := s.unmark o) hphase _ _ _⟩

/-- Settles O30: REMOTE_CONNECT through its refusals in order to the removal, and RECONNECT as its application's one
write. -/
theorem remoteHoldIsRemoved : Obligations.RemoteHoldIsRemoved := by
  refine ⟨fun s r hr hreq => ?_, fun s c hr ha hfree hmay => ?_⟩
  · cases hp : decodePolicy r.payload with
    | none => exact execRemoteConnect_of_range hr hreq hp
    | some policy =>
      cases hh : s.nv.holds.remote with
      | none => exact execRemoteConnect_of_absent hr hreq hp hh
      | some hold =>
        have hexec := execRemoteConnect_of_held hr hreq hp (by simp [hh])
        dsimp only
        rw [hexec]
        split
        · rfl
        split
        · rfl
        · exact ⟨_, rfl, s.remoteConnect_taken hh policy⟩
  · obtain ⟨-, -, hkind⟩ := s.applicationOf_spec ha
    let effect := CodeEffect.reconnect s.nv.holds.remote.isSome
    let e := (Event.begin s c.port.origin).reconnect
    have hspec := s.reconnect_spec c.port.origin
    have hin : (s.unmark c.port.origin).Within e := Event.within_remove _ _ _ _ _
    obtain ⟨hwrites, hstate, -, hnv, hjournal⟩ := hin.served_frames c effect .supply s
    have hlength : e.records.length < s.nv.journal.free := by
      have hone : e.records.length ≤ 1 := by
        cases hh : s.nv.holds.remote <;> rw [hh] at hspec <;> simp [e, hspec.2]
      omega
    let t := (((e.withCode c effect).served c effect).commit .supply).leaveLine .reconnect
    have hsame : t.SameSupply e.view := (Event.sameSupply_commit _ _ _).trans (e.sameSupply_served c effect)
    have hrecords : t.nv.journal = s.nv.journal.appendAll s.clock c.port.origin (.codeApplied 8 c.issue effect :: e.records) :=
      hkind ▸ hjournal
    refine ⟨t, ?_, ?_, ?_, ?_, ?_, ?_, ?_, ?_, ?_, ?_⟩
    · rw [execReconnect_of_application hr ha, State.applyCode_taken hlength]
      exact congrArg _ (Event.takesTurn_commit hwrites hmay)
    · exact congrArg Nv.lapseMarker hnv
    · exact congrArg Nv.spent hnv
    · exact congrArg Nv.failures hnv
    · exact congrArg Nv.lockoutSteps hnv
    · exact fun f hf => Event.servedFollow_mem _ _ _ _ _ hf
    · cases hh : s.nv.holds.remote with
      | none =>
        rw [hh] at hspec
        obtain ⟨hkept, hnone⟩ := hspec
        refine ⟨hsame.supplyKept.mpr hkept, ?_⟩
        rw [hrecords, show e.records = [] from hnone, show effect = .reconnect false by simp [effect, hh]]
      | some hold =>
        rw [hh] at hspec
        obtain ⟨hremoved, hone⟩ := hspec
        refine ⟨(hsame.removed _ _).mpr hremoved, ?_⟩
        rw [hrecords, show e.records = _ from hone, show effect = .reconnect true by simp [effect, hh]]
    · exact Event.beganWrite_commit hwrites _ _
    · exact congrArg (State.leaveLine · .reconnect) hstate
    · have := congrArg (fun n => ({ n with
        lapseMarker := s.nv.lapseMarker, spent := s.nv.spent, failures := s.nv.failures
        lockoutSteps := s.nv.lockoutSteps } : Nv)) hnv
      exact this

end Sys2Proof.Machine
end

