-- ==== Sys2Proof/Proofs/TamperClears.lean ====
section
namespace Sys2Proof.Machine

/-! ## The kinds of a clear (R146) -/

/-- The kinds of `ks` that are LATCHED, which a clear of `ks` brings to QUIET. -/
def Nv.latchedOf (n : Nv) (ks : List TamperKind) : List TamperKind :=
  ks.filter (fun k => (n.tampers.get k).state == .latched)

/-- The event `e'` is `e` with the LATCHED kinds of `ks` made QUIET, a record for each, and nothing else (R146). -/
structure Event.Quiets (e e' : Event) (path : ClearPath) (ks : List TamperKind) : Prop where
  same : e' =
    { e with state := { e.state with nv := { e.nv with tampers := e'.nv.tampers } }, records := e'.records }
  records : e'.records = e.records ++ (e.nv.latchedOf ks).map (fun k => .tamperCleared k path)
  tampers : ∀ j, e'.nv.tampers.get j =
    if j ∈ ks ∧ (e.nv.tampers.get j).state = .latched then { e.nv.tampers.get j with state := .quiet }
    else e.nv.tampers.get j

theorem Event.clearKind_quiets (path : ClearPath) (e : Event) (k : TamperKind) :
    e.Quiets (e.clearKind path k) path [k] := by
  by_cases hk : (e.nv.tampers.get k).state = .latched
  · have he' : e.clearKind path k =
        (e.setTamper k { e.nv.tampers.get k with state := .quiet }).log (.tamperCleared k path) := if_pos hk
    rw [he']
    refine ⟨rfl, by simp [Nv.latchedOf, hk], fun j => ?_⟩
    by_cases hj : j = k
    · simp [hj, hk]
    · simp [hj]
  · have he' : e.clearKind path k = e := if_neg hk
    rw [he']
    refine ⟨rfl, by simp [Nv.latchedOf, hk], fun j => ?_⟩
    rw [if_neg (by rintro ⟨hj, hl⟩; exact hk (List.mem_singleton.mp hj ▸ hl))]

/-- A kind cleared leaves the others to the kinds cleared after it. -/
theorem Event.Quiets.cons {a b c : Event} {path : ClearPath} {k : TamperKind} {ks : List TamperKind}
    (h : a.Quiets b path [k]) (h' : b.Quiets c path ks) (hk : k ∉ ks) : a.Quiets c path (k :: ks) := by
  have hkeep {j : TamperKind} (hj : j ≠ k) : b.nv.tampers.get j = a.nv.tampers.get j := by
    rw [h.tampers, if_neg (by simp [hj])]
  have hlatched : b.nv.latchedOf ks = a.nv.latchedOf ks :=
    List.filter_congr fun j hj => by rw [hkeep (by rintro rfl; exact hk hj)]
  refine ⟨?_, ?_, fun j => ?_⟩
  · rw [h'.same, h.same]
    rfl
  · have hcons : a.nv.latchedOf (k :: ks) = a.nv.latchedOf [k] ++ a.nv.latchedOf ks := List.filter_append [k] ks
    rw [h'.records, h.records, hlatched, hcons, List.map_append, List.append_assoc]
  · rw [h'.tampers]
    by_cases hj : j = k
    · subst hj
      rw [if_neg (fun hl => hk hl.1), h.tampers]
      simp
    · rw [hkeep hj]
      simp [hj]

theorem Event.clearKinds_quiets (path : ClearPath) {ks : List TamperKind} (hks : ks.Nodup) (e : Event) :
    e.Quiets (ks.foldl (Event.clearKind path) e) path ks := by
  induction ks generalizing e with
  | nil => exact ⟨rfl, by simp [Nv.latchedOf], fun j => by simp⟩
  | cons k ks ih =>
    obtain ⟨hnotin, hrest⟩ := List.nodup_cons.mp hks
    exact (e.clearKind_quiets path k).cons (ih hrest _) hnotin

/-- The kinds that a clear names are at most five. -/
theorem length_clearKinds (n : Nat) : (clearKinds n).length ≤ 5 := by
  unfold clearKinds
  split <;> decide

/-- A clear never makes the monitor's condition true (R145, R146). -/
theorem Nv.tamperCondition_of_clears {n m : Nv} {ks : List TamperKind}
    (h : m.tamperCondition = TamperKind.all.any (fun k => n.effectiveClass k == .enforce &&
      (n.tampers.get k).state != .quiet && !n.clears ks k)) (hm : m.tamperCondition = true) :
    n.tamperCondition = true := by
  obtain ⟨k, hk, hcond⟩ := List.any_eq_true.mp (h.symm.trans hm)
  exact List.any_eq_true.mpr ⟨k, hk, (Bool.and_eq_true_iff.mp hcond).1⟩

/-- What a clear does (R146): the kinds it names made QUIET if LATCHED, and then the TAMPER hold following, without
TAMPER raised. -/
theorem Event.clearAll_effects {s : State} {e : Event} (h : e.Ready s) (hnv : e.nv = s.nv) (hrecords : e.records = [])
    (hfollow : .notice .tamper ∉ e.follow) (path : ClearPath) (n : Nat) :
    let e' := e.clearAll path (clearKinds n)
    ∃ c rs, e.Quiets c path (clearKinds n) ∧ c.Within e' ∧ e'.records = c.records ++ rs ∧ s.tamperFollows e'.view rs ∧
      .notice .tamper ∉ e'.follow := by
  intro e'
  let c := (clearKinds n).foldl (Event.clearKind path) e
  obtain ⟨hready, hsame, -⟩ := Event.clearKinds_spec path (clearKinds_nodup n) h
  obtain ⟨hcond, -⟩ := Event.clearAll_spec h hnv hrecords hfollow path n
  rw [← hsame] at hfollow
  obtain ⟨hin, ⟨rs, hrs, hfollows⟩, hnotice⟩ := hready.tamperResults e.nv false (by rw [hnv]) hfollow
  refine ⟨c, rs, e.clearKinds_quiets path (clearKinds_nodup n), hin, hrs, hfollows, fun hmem => ?_⟩
  obtain hdetected | ⟨hbefore, hafter⟩ := hnotice.mp hmem
  · cases hdetected
  · have := Nv.tamperCondition_of_clears hcond (hin.tamperCondition.trans hafter)
    rw [hbefore] at this
    cases this

/-- What a clear that begins with what `s` holds leaves for its write (R146): the kinds, the records, the TAMPER hold and
the frames. -/
structure State.Cleared (s u : State) (o : Origin) (path : ClearPath) (n : Nat) (c e : Event)
    (rs : List RecordBody) : Prop where
  held : u.nv = s.nv
  clock : u.clock = s.clock
  quiets : (Event.begin u o).Quiets c path (clearKinds n)
  within : c.Within e
  records : e.records = (s.nv.latchedOf (clearKinds n)).map (fun k => .tamperCleared k path) ++ rs
  follows : s.tamperFollows e.view rs
  notice : .notice .tamper ∉ e.follow

section
variable {s u : State} (o : Origin) (path : ClearPath) (n : Nat) (nv : u.nv = s.nv) (supply : u.supply = s.supply)
    (driver : u.driver = s.driver) (clock : u.clock = s.clock)
    (window : u.clockUnit.windowInForce = s.clockUnit.windowInForce)
include nv supply driver clock window

theorem Event.clearAll_cleared :
    ∃ c rs, s.Cleared u o path n c ((Event.begin u o).clearAll path (clearKinds n)) rs := by
  obtain ⟨c, rs, hquiets, hin, hrecords, hfollows, hnotice⟩ :=
    Event.clearAll_effects (Event.ready_begin_of o nv supply driver clock window) nv rfl List.not_mem_nil path n
  refine ⟨c, rs, nv, clock, hquiets, hin, ?_, hfollows, hnotice⟩
  have hbegin : (Event.begin u o).nv = s.nv := nv
  rw [hrecords, hquiets.records, hbegin]
  rfl

end

theorem State.tamperFollows_length_le {s t : State} {rs : List RecordBody} (h : s.tamperFollows t rs) :
    rs.length ≤ 1 := by
  unfold State.tamperFollows at h
  split at h <;> rw [h.2] <;> simp

section
variable {s u : State} {o : Origin} {path : ClearPath} {n : Nat} {c e : Event} {rs : List RecordBody}
  (h : s.Cleared u o path n c e rs)
include h

theorem State.Cleared.length_le : e.records.length ≤ 6 := by
  have hhold := State.tamperFollows_length_le h.follows
  have hkinds : (s.nv.latchedOf (clearKinds n)).length ≤ 5 := (List.length_filter_le _ _).trans (length_clearKinds n)
  rw [h.records, List.length_append, List.length_map]
  omega

theorem State.Cleared.state : c.state = { u with nv := { s.nv with tampers := c.nv.tampers } } := by
  rw [← h.held]
  exact congrArg Event.state h.quiets.same

theorem State.Cleared.tampers (k : TamperKind) :
    c.nv.tampers.get k =
      if k ∈ clearKinds n ∧ (s.nv.tampers.get k).state = .latched then { s.nv.tampers.get k with state := .quiet }
      else s.nv.tampers.get k := by
  rw [← h.held]
  exact h.quiets.tampers k

theorem State.Cleared.origin : c.origin = o := by rw [h.quiets.same]; rfl

theorem State.Cleared.nv : c.nv = { s.nv with tampers := c.nv.tampers } := congrArg State.nv h.state

theorem State.Cleared.writes : c.state.writes = u.writes := by rw [h.state]

theorem State.Cleared.journal : c.nv.journal = s.nv.journal := by rw [h.nv]

theorem State.Cleared.at_clock : c.state.clock = s.clock := by
  rw [h.state]
  exact h.clock

end

/-! ## CLEAR_TAMPER (R147) -/

theorem State.stillPermitted_clearTamper (s : State) (p : Port) :
    s.stillPermitted p .clearTamper = false ↔ p = .a ∧ s.nv.window = none := by
  cases p <;> cases h : s.nv.window <;>
    simp [State.stillPermitted, RequestCode.permitted, RequestCode.groups, Group.permitted, h]

/-- The event of CLEAR_TAMPER, with its response. -/
def State.clearTamperEvent (s : State) (p : Port) (n : Nat) (status : Status) (payload : List Byte) : Event :=
  ((Event.begin (s.leaveTamper.takeRequest p) p.origin).clearAll .request (clearKinds n)).andThen
    (.answer p status payload)

theorem execClearTamper_of_request {p : Port} {s : State} {r : Request} (hr : s.isRunning = true)
    (hreq : s.tamperRequest p .clearTamper = some r) :
    let which := field r.payload 0 1
    let results := (clearKinds which).map (fun k => (s.nv.tampers.get k).state.clearResult)
    let status : Status := if .stillActive ∈ results then .stillActive else .ok
    let payload := results.flatMap (fun x => toBytes 1 x.number)
    let i := Instr.clearTamper p
    exec i s = .next (s.takes i none
      (if p = .a ∧ s.nv.window = none then s.leaveTamper.answer p .wrongGroup []
      else if 5 < which then s.leaveTamper.answer p .range []
      else if .cleared ∈ results then (s.clearTamperEvent p which status payload).commit .tamper
      else s.leaveTamper.answer p status payload)) := by
  intro which results status payload i
  change execClearTamper p s = _
  rw [execClearTamper, whenRunning_of_running _ _ hr, hreq]
  simp only [s.stillPermitted_clearTamper, List.contains_iff_mem]
  rfl

/-- A clear with a CLEARED among its results has a LATCHED kind (R146). -/
theorem Nv.latchedOf_ne_nil {n : Nv} {ks : List TamperKind} (h : .cleared ∈ n.clearResults ks) : n.latchedOf ks ≠ [] := by
  obtain ⟨k, hk, hresult⟩ := List.mem_map.mp h
  have hlatched : (n.tampers.get k).state = .latched := by
    cases hs : (n.tampers.get k).state <;> simp [hs, TamperState.clearResult] at hresult
    rfl
  exact List.ne_nil_of_mem (List.mem_filter.mpr ⟨hk, by simp [hlatched]⟩)

/-- What CLEAR_TAMPER's write leaves (R146, R147). -/
theorem State.clearTamper_taken (s : State) (p : Port) (n : Nat) (status : Status) (payload : List Byte) :
    let e := s.clearTamperEvent p n status payload
    let t := (e.commit .tamper).leaveLine (.clearTamper p)
    ∃ records, e.state.writes = s.writes ∧
      e.records = (s.nv.latchedOf (clearKinds n)).map (fun k => .tamperCleared k .request) ++ records ∧
      s.beganWrite t .tamper ∧
      (∀ k, t.nv.tampers.get k =
        if k ∈ clearKinds n ∧ (s.nv.tampers.get k).state = .latched then { s.nv.tampers.get k with state := .quiet }
        else s.nv.tampers.get k) ∧
      t.nv.journal = s.nv.journal.appendAll s.clock p.origin
        ((s.nv.latchedOf (clearKinds n)).map (fun k => .tamperCleared k .request) ++ records) ∧
      s.tamperFollows t records ∧ .notice .tamper ∉ t.newestFollow ∧ .answer p status payload ∈ t.newestFollow ∧
      t.withStoreOf s = (s.leaveTamper.takeRequest p).leaveLine (.clearTamper p) ∧
      { t.nv.withSupplyOf s.nv with tampers := s.nv.tampers } = s.nv := by
  intro e t
  obtain ⟨c, rs, h⟩ := Event.clearAll_cleared (s := s) (u := s.leaveTamper.takeRequest p) p.origin .request n rfl rfl rfl
    rfl rfl
  have hin : c.Within e := h.within.trans (Event.within_andThen _ _)
  have hwrites : e.state.writes = s.writes := hin.writes.trans h.writes
  have hnv : t.nv.withSupplyOf s.nv = c.nv.withSupplyOf s.nv := hin.image_withSupplyOf s.nv
  have htampers : t.nv.tampers = c.nv.tampers := by
    have := congrArg Nv.tampers hnv
    exact this
  have hrecords : e.records = _ := h.records
  have hsame : t.SameSupply _ :=
    (e.sameSupply_commit .tamper (.clearTamper p)).trans (Event.sameSupply_andThen _ (by simp) (by simp))
  refine ⟨rs, hwrites, hrecords, Event.beganWrite_commit hwrites _ _, fun k => ?_, ?_, ?_, ?_, ?_, ?_, ?_⟩
  · rw [htampers, h.tampers]
  · rw [← hrecords, ← h.at_clock, ← h.origin]
    exact hin.image_journal.trans (congrArg (Journal.appendAll · _ _ _) h.journal)
  · exact (hsame.tamperFollows rfl rs).mpr h.follows
  · rw [Event.mem_commit_follow _ _ _ (by decide)]
    simpa [e, State.clearTamperEvent] using h.notice
  · rw [Event.mem_commit_follow _ _ _ (by simp)]
    simp [e, State.clearTamperEvent]
  · refine congrArg (State.leaveLine · (.clearTamper p)) ((hin.commit_withStoreOf .tamper s).trans ?_)
    rw [h.state]
    rfl
  · rw [hnv, h.nv]
    rfl

/-! ## TAMPER_CLEAR (R82) -/

/-- The event of a TAMPER_CLEAR code before the code unit's part of it. -/
def State.tamperClearEvent (s : State) (c : CodeService) : Event :=
  (Event.begin s.leaveTamper c.port.origin).clearAll .code (clearKinds c.sub)

/-- What TAMPER_CLEAR's commit leaves (R82, R84, R94, R146). -/
theorem State.tamperClear_taken (s : State) (c : CodeService) (hkind : c.kind = 5) :
    let effect := CodeEffect.tamperClear (s.nv.clearResults (clearKinds c.sub))
    let e := s.tamperClearEvent c
    let f := (e.withCode c effect).served c effect
    let t := (f.commit .tamper).leaveLine .tamperClear
    ∃ records, e.records.length ≤ 6 ∧ f.state.writes = s.writes ∧ s.beganWrite t .tamper ∧
      ((∀ k, t.nv.tampers.get k =
        if k ∈ clearKinds c.sub ∧ (s.nv.tampers.get k).state = .latched then { s.nv.tampers.get k with state := .quiet }
        else s.nv.tampers.get k) ∧
      t.nv.journal = s.nv.journal.appendAll s.clock c.port.origin
        (.codeApplied 5 c.issue effect ::
          (s.nv.latchedOf (clearKinds c.sub)).map (fun k => .tamperCleared k .code) ++ records) ∧
      ∀ g ∈ c.servedFollow effect, g ∈ t.newestFollow) ∧
      s.tamperFollows t records ∧ .notice .tamper ∉ t.newestFollow ∧
      t.withStoreOf s = (s.leaveTamper.withServed c).leaveLine .tamperClear ∧
      t.nv.withSupplyOf s.nv = ({ s.nv with tampers := t.nv.tampers } : Nv).withSpent c := by
  intro effect e f t
  obtain ⟨d, rs, h⟩ : ∃ d rs, s.Cleared s.leaveTamper c.port.origin .code c.sub d e rs :=
    Event.clearAll_cleared c.port.origin .code c.sub rfl rfl rfl rfl rfl
  clear_value e
  obtain ⟨hwrites, hstate, -, hnv, hjournal⟩ := h.within.served_frames c effect .tamper s
  replace hwrites : f.state.writes = s.writes := hwrites.trans h.writes
  have htampers : t.nv.tampers = d.nv.tampers := by
    have := congrArg Nv.tampers hnv
    exact this
  refine ⟨rs, h.length_le, hwrites, Event.beganWrite_commit hwrites _ _, ⟨fun k => ?_, ?_, fun g hg => ?_⟩, ?_, ?_, ?_, ?_⟩
  · rw [htampers, h.tampers]
  · rw [h.journal, h.at_clock, h.origin, hkind, h.records] at hjournal
    exact hjournal
  · exact (e.withCode c effect).servedFollow_mem c effect .tamper .tamperClear hg
  · have hsame : t.SameSupply e.view := (Event.sameSupply_commit _ _ _).trans (e.sameSupply_served c effect)
    exact (hsame.tamperFollows rfl rs).mpr h.follows
  · have hserved : f.follow = c.servedFollow effect ++ e.follow := rfl
    rw [Event.mem_commit_follow _ _ _ (by decide), hserved]
    simp [CodeService.servedFollow, h.notice]
  · refine congrArg (State.leaveLine · .tamperClear) (hstate.trans ?_)
    rw [h.state]
    rfl
  · rw [htampers]
    refine hnv.trans ?_
    rw [h.nv]
    rfl

/-! ## READ_TAMPER (R148) -/

theorem execReadTamper_of_request {p : Port} {s : State} {r : Request} (hr : s.isRunning = true)
    (hreq : s.tamperRequest p .readTamper = some r) :
    exec (.readTamper p) s = .next (s.leaveTamper.answer p .ok s.nv.tamperPayload) := by
  change execReadTamper p s = _
  rw [execReadTamper, ifRunning_of_running _ hr, hreq]

theorem Nv.length_tamperPayload (n : Nv) : n.tamperPayload.length = 55 := by
  simp [Nv.tamperPayload, Nv.tamperBytes, TamperKind.all, clearKinds]

/-- The number of a kind's effective class: RECORD for TERMINAL_COVER while the window is open (R143). -/
theorem Nv.effectiveClass_number (n : Nv) (k : TamperKind) :
    (n.effectiveClass k).number =
      if k = .terminalCover ∧ n.window ≠ none then 1 else (n.settings.classes.get k).number := by
  simp only [← Option.isSome_iff_ne_none, Nv.effectiveClass]
  split <;> rfl

/-- The ten bytes of a kind, as the response names them (R148, R195). -/
theorem Nv.tamperBytes_eq (n : Nv) (k : TamperKind) :
    let x := n.tampers.get k
    let state := match x.state with | .quiet => 1 | .active => 2 | .latched => 3
    let cls : TamperClass → Nat := fun y => match y with | .record => 1 | .notify => 2 | .enforce => 3
    toBytes 1 state ++ toBytes 2 x.count ++ toBytes 1 (cls (n.settings.classes.get k)) ++
        toBytes 1 (if k = .terminalCover ∧ n.window ≠ none then 1 else cls (n.settings.classes.get k)) ++
        toBytes 1 (n.settings.debounces.get k) ++
        toBytes 4 (match x.detected with | some at_ => at_ | none => 0) = n.tamperBytes k := by
  intro x state cls
  have hstate : state = x.state.number := by cases h : x.state <;> simp [state, h, TamperState.number]
  have hclass (y : TamperClass) : cls y = y.number := by cases y <;> rfl
  have htime : (match x.detected with | some at_ => at_ | none => 0) = x.detected.getD 0 := by cases x.detected <;> rfl
  rw [hstate, hclass, htime, ← n.effectiveClass_number k]
  rfl

/-! ## The clears -/

/-- Settles O43: CLEAR_TAMPER through its tests in order, TAMPER_CLEAR as its application's one write, both by
`Event.clearAll_cleared`, and READ_TAMPER's payload. -/
theorem tamperIsCleared : Obligations.TamperIsCleared := by
  refine ⟨fun p s r hr hreq => ?_, fun s c hr ha hfree hmay => ?_, fun p s r hr hreq => ?_⟩
  · intro which kinds results status payload u i
    have hexec : exec i s = _ := execClearTamper_of_request hr hreq
    have hanswer (status : Status) (payload : List Byte) :
        s.takes i none (u.answer p status payload) = (u.answer p status payload).leaveLine i :=
      State.takes_of_writes _ (by simp [u])
    rw [hexec]
    by_cases hwindow : p = .a ∧ s.nv.window = none
    · rw [if_pos hwindow, if_pos hwindow, hanswer]
    rw [if_neg hwindow, if_neg hwindow]
    by_cases hrange : 5 < which
    · rw [if_pos hrange, if_pos hrange, hanswer]
    rw [if_neg hrange, if_neg hrange]
    by_cases hcleared : .cleared ∈ results
    · obtain ⟨records, hwrites, hrecords, htaken⟩ := s.clearTamper_taken p which status payload
      have hne : (s.clearTamperEvent p which status payload).records ≠ [] := by
        have hlatched : s.nv.latchedOf (clearKinds which) ≠ [] := Nv.latchedOf_ne_nil hcleared
        rw [hrecords]
        simp [hlatched]
      rw [if_neg (not_not.mpr hcleared), if_pos hcleared, Event.takes_commit_of_records hwrites hne]
      by_cases hwaits : s.mayBegin i .tamper true = false
      · rw [if_pos hwaits, if_pos hwaits]
      · rw [if_neg hwaits, if_neg hwaits]
        exact ⟨_, records, rfl, htaken⟩
    · rw [if_pos hcleared, if_neg hcleared, hanswer]
  · obtain ⟨-, -, hkind⟩ := s.applicationOf_spec (s.tamperApplication_spec ha).1
    obtain ⟨rs, hlength, hwrites, hbegan, hkinds, hfollows, hnotice, hframe, hnv⟩ := s.tamperClear_taken c hkind
    refine ⟨_, rs, ?_, hbegan, hkinds, hfollows, hnotice, ?_, ?_, ?_, hframe, ?_⟩
    · have hroom : (s.tamperClearEvent c).records.length < s.leaveTamper.nv.journal.free :=
        Nat.lt_of_le_of_lt hlength hfree
      rw [execTamperClear_of_application hr ha, State.applyCode_taken hroom]
      exact congrArg _ (Event.takesTurn_commit hwrites hmay)
    · exact congrArg Nv.spent hnv
    · exact congrArg Nv.failures hnv
    · exact congrArg Nv.lockoutSteps hnv
    · have := congrArg (fun n => ({ n with
        tampers := s.nv.tampers, spent := s.nv.spent, failures := s.nv.failures
        lockoutSteps := s.nv.lockoutSteps } : Nv)) hnv
      exact this
  · intro kind payload
    have hkind (k : TamperKind) : kind k = s.nv.tamperBytes k := s.nv.tamperBytes_eq k
    have hpayload : payload = s.nv.tamperPayload := by
      simp only [payload, hkind]
      cases hw : s.nv.window <;>
        simp [Nv.tamperPayload, TamperKind.all, clearKinds, hw, yesNo, numberOrAbsent]
    rw [hpayload]
    exact ⟨execReadTamper_of_request hr hreq, s.nv.length_tamperPayload⟩

end Sys2Proof.Machine
end

