-- ==== Sys2Proof/Laws/LawView.lean ====
section
namespace Sys2Proof.Machine

/-! ## What the laws of the supply read of a state (R101, R104, R113, R118, R119, R123, R124)

The laws of the hold list, of the contactor and of its drive read a small part of the stored state, and of the driver
the direction of the drive in progress. An event of a block is sound when it takes each law from the part it found to
the part it leaves. -/

/-- The part of a state that the laws of the supply read. -/
structure LawView where
  holds : HoldList
  marker : Bool
  exhausted : Bool
  tampered : Bool
  contactor : Contactor
  target : Position
  arm : Option ArmDeadline
  drive : Option Position

/-- The part of a stored state, with the direction of the drive in progress. -/
def Nv.lawView (n : Nv) (drive : Option Position) : LawView where
  holds := n.holds
  marker := n.lapseMarker
  exhausted := n.account.exhausted
  tampered := n.tamperCondition
  contactor := n.contactor
  target := n.driveTarget
  arm := n.armDeadline
  drive := drive

def State.lawView (s : State) : LawView := s.nv.lawView (s.driver.drive.map (·.direction))

def Event.lawView (e : Event) : LawView := e.state.lawView

namespace LawView

/-- CLOSED without a FIRM hold, ARMED with an empty list (R113). -/
def Supplied (v : LawView) : Prop :=
  (v.contactor = .closed → v.holds.anyFirm = false) ∧ (v.contactor = .armed → v.holds.isEmpty = true)

/-- The CREDIT hold follows the exhausted condition (R101). -/
def Credited (v : LawView) : Prop := v.holds.credit.isSome = v.exhausted

/-- The TAMPER hold follows its condition (R104). -/
def Guarded (v : LawView) : Prop := v.holds.tamper = v.tampered

/-- The lapse marker comes with the REMOTE hold of the lapse (R119). -/
def Lapsed (v : LawView) : Prop := v.marker = true → v.holds.remote = some { phase := .firm, byRequest := false }

/-- The target of a drive in OPENING and CLOSING, and the arm deadline in ARMED alone (R118, R124). -/
structure Targeted (v : LawView) : Prop where
  target : ∀ d, v.contactor.drivenTo = some d → v.target = d
  arm : v.arm ≠ none → v.contactor = .armed

/-- The drive in progress is the one that the contactor state calls for (R123). -/
def Fits (v : LawView) : Prop := v.drive = v.contactor.drivenTo

/-- No drive but the one that the contactor state calls for is in progress. -/
def Loose (v : LawView) : Prop := v.drive = none ∨ v.Fits

/-- From one part to another the laws of the contactor and its drive are kept. -/
structure KeepsDrive (v w : LawView) : Prop where
  driven : v.Targeted → v.Loose → w.Targeted ∧ w.Loose
  fits : v.Fits → w.Fits

/-- From one part to another every law of the supply is kept. -/
structure Keeps (v w : LawView) : Prop where
  supplied : v.Supplied → w.Supplied
  credited : v.Credited → w.Credited
  guarded : v.Guarded → w.Guarded
  lapsed : v.Lapsed → w.Lapsed
  drive : v.KeepsDrive w

variable {v w x : LawView}

theorem KeepsDrive.refl (v : LawView) : v.KeepsDrive v := ⟨fun h k => ⟨h, k⟩, id⟩

theorem KeepsDrive.trans (h : v.KeepsDrive w) (k : w.KeepsDrive x) : v.KeepsDrive x where
  driven := fun ht hl =>
    have ⟨ht', hl'⟩ := h.driven ht hl
    k.driven ht' hl'
  fits := k.fits ∘ h.fits

/-- What changes neither the contactor nor its drive keeps their laws. -/
theorem KeepsDrive.of_same
    (h : (w.contactor, w.target, w.arm, w.drive) = (v.contactor, v.target, v.arm, v.drive)) : v.KeepsDrive w := by
  simp only [Prod.mk.injEq] at h
  obtain ⟨hc, ht, ha, hd⟩ := h
  have hfits : w.Fits ↔ v.Fits := by rw [Fits, hd, hc, Fits]
  refine ⟨fun h hl => ⟨⟨?_, ?_⟩, hl.imp hd.trans hfits.mpr⟩, hfits.mpr⟩
  · rw [hc, ht]
    exact h.target
  · rw [hc, ha]
    exact h.arm

theorem Keeps.refl (v : LawView) : v.Keeps v := ⟨id, id, id, id, .refl v⟩

theorem Keeps.trans (h : v.Keeps w) (k : w.Keeps x) : v.Keeps x :=
  ⟨k.supplied ∘ h.supplied, k.credited ∘ h.credited, k.guarded ∘ h.guarded, k.lapsed ∘ h.lapsed, h.drive.trans k.drive⟩

/-! ### The contactor -/

/-- A contactor state entered without a drive; `arm` is the arm deadline then held. -/
def enter (v : LawView) (c : Contactor) (arm : Option ArmDeadline) : LawView := { v with contactor := c, arm := arm }

/-- A drive begun in a direction. -/
def beginDrive (v : LawView) (d : Position) (arm : Option ArmDeadline) : LawView :=
  { v with contactor := d.driving, target := d, arm := arm, drive := some d }

theorem drivenTo_driving (d : Position) : d.driving.drivenTo = some d := by cases d <;> rfl

/-- A state that no drive leads to, entered with no drive in progress. -/
theorem targeted_rest {c : Contactor} (hc : c.drivenTo = none) (hw : w.contactor = c)
    (harm : w.arm ≠ none → c = .armed) : w.Targeted := by
  refine ⟨fun d hd => ?_, fun h => hw.trans (harm h)⟩
  rw [hw, hc] at hd
  cases hd

theorem keepsDrive_enter {c : Contactor} {arm : Option ArmDeadline} (hv : v.contactor.drivenTo = none)
    (hc : c.drivenTo = none) (harm : v.Targeted → arm ≠ none → c = .armed) : v.KeepsDrive (v.enter c arm) where
  driven := by
    intro ht hl
    have hnone : v.drive = none := hl.elim id fun hf => hf.trans hv
    exact ⟨targeted_rest hc rfl (harm ht), .inl hnone⟩
  fits := fun hf => hf.trans (hv.trans hc.symm)

/-- The end of a drive in a state that no drive leads to. -/
theorem keepsDrive_endDrive {c : Contactor} (hv : v.drive ≠ none) (hc : c.drivenTo = none) :
    v.KeepsDrive { v.enter c v.arm with drive := none } where
  driven := by
    intro ht hl
    refine ⟨targeted_rest hc rfl fun harm => ?_, .inl rfl⟩
    have hfits : v.Fits := hl.resolve_left hv
    rw [Fits, ht.arm harm] at hfits
    exact absurd hfits hv
  fits := fun _ => hc.symm

theorem keepsDrive_beginDrive {d : Position} {arm : Option ArmDeadline}
    (harm : v.Targeted → v.Loose → arm = none) : v.KeepsDrive (v.beginDrive d arm) where
  driven := by
    intro ht hl
    refine ⟨⟨fun d' hd => ?_, fun h => absurd (harm ht hl) h⟩, .inr (drivenTo_driving d).symm⟩
    exact Option.some.inj ((drivenTo_driving d).symm.trans hd)
  fits := fun _ => (drivenTo_driving d).symm

/-- Outside ARMED no arm deadline is held. -/
theorem Targeted.unarmed (h : v.Targeted) (hc : v.contactor ≠ .armed) : v.arm = none := by
  by_contra harm
  exact hc (h.arm harm)

/-- While a drive is in progress no arm deadline is held. -/
theorem Targeted.unarmed_of_drive (h : v.Targeted) (hl : v.Loose) (hd : v.drive ≠ none) : v.arm = none := by
  refine h.unarmed fun hc => ?_
  have hfits : v.Fits := hl.resolve_left hd
  rw [Fits, hc] at hfits
  exact hd hfits

end LawView

/-! ### The operations on an event -/

section
variable (e : Event)

@[simp] theorem Event.log_lawView (r : RecordBody) : (e.log r).lawView = e.lawView := rfl
@[simp] theorem Event.andThen_lawView (f : FollowUp) : (e.andThen f).lawView = e.lawView := rfl
@[simp] theorem Event.notify_lawView (k : NoticeKind) : (e.notify k).lawView = e.lawView := rfl
@[simp] theorem Event.begin_lawView (s : State) (o : Origin) : (Event.begin s o).lawView = s.lawView := rfl
@[simp] theorem Event.dropArmDeadline_lawView : e.dropArmDeadline.lawView = { e.lawView with arm := none } := rfl
@[simp] theorem Event.endDrive_lawView : e.endDrive.lawView = { e.lawView with drive := none } := rfl

@[simp] theorem Event.enter_lawView (c : Contactor) : (e.enter c).lawView = e.lawView.enter c e.lawView.arm := by
  have hd : (e.enter c).state.driver.drive = e.state.driver.drive := by rw [e.enter_driver c]
  unfold Event.lawView State.lawView
  rw [show (e.enter c).state.nv = _ from e.enter_nv c, hd]
  rfl

@[simp] theorem Event.beginDrive_lawView (d : Position) (cause : DriveCause) (o : Origin) :
    (e.beginDrive d cause o).lawView = e.lawView.beginDrive d e.lawView.arm := by
  have hd : (e.beginDrive d cause o).state.driver.drive = some (newDrive e.nv d cause o) := by
    rw [e.beginDrive_driver d cause o]
  unfold Event.lawView State.lawView
  rw [show (e.beginDrive d cause o).state.nv = _ from e.beginDrive_nv d cause o, hd]
  rfl

theorem Event.giveClose_lawView (o : Origin) : (e.giveClose o).lawView = e.lawView.beginDrive .closed none :=
  Event.beginDrive_lawView _ _ _ _

theorem Event.giveArm_lawView (arm : Option ArmDeadline) : (e.giveArm arm).lawView = e.lawView.enter .armed arm :=
  Event.enter_lawView _ _

theorem Event.giveDisarm_lawView : e.giveDisarm.lawView = e.lawView.enter .opened none := Event.enter_lawView _ _

/-- What a hold that becomes FIRM does to the contactor: it leaves CLOSED for a wait or a drive, and BREAK_WAIT for a
drive (R114). -/
theorem Event.commandForFirm_cases (k : HoldKind) :
    (e.commandForFirm k).lawView = e.lawView ∧ e.nv.contactor ≠ .closed ∨
    (e.commandForFirm k).lawView = e.lawView.enter .breakWait e.lawView.arm ∧ e.nv.contactor = .closed ∨
    (e.commandForFirm k).lawView = e.lawView.beginDrive .opened e.lawView.arm ∧ e.nv.contactor ≠ .armed := by
  unfold Event.commandForFirm
  split
  · next hc =>
    rw [hc]
    split
    · exact .inr (.inl ⟨Event.enter_lawView _ _, rfl⟩)
    · exact .inr (.inr ⟨Event.beginDrive_lawView _ _ _ _, by decide⟩)
  · next hc =>
    rw [hc]
    split
    · exact .inr (.inr ⟨Event.beginDrive_lawView _ _ _ _, by decide⟩)
    · exact .inl ⟨rfl, by decide⟩
  · next hc _ => exact .inl ⟨rfl, hc⟩

/-- What the policy of an emptied list does in OPEN: a close drive, or the entry to ARMED (R117). -/
theorem Event.armBy_cases (p : Policy) :
    (e.armBy p).lawView = e.lawView.beginDrive .closed none ∨ ∃ arm, (e.armBy p).lawView = e.lawView.enter .armed arm := by
  cases p with
  | auto => exact .inl (e.giveClose_lawView _)
  | press => exact .inr ⟨_, e.giveArm_lawView _⟩
  | pressWithin m => exact .inr ⟨_, e.giveArm_lawView _⟩

/-! ### The contactor's laws -/

theorem Event.keepsDrive_commandForFirm (k : HoldKind) : e.lawView.KeepsDrive (e.commandForFirm k).lawView := by
  rcases e.commandForFirm_cases k with ⟨h, -⟩ | ⟨h, hc⟩ | ⟨h, hc⟩ <;> rw [h]
  · exact .refl _
  · have hc : e.lawView.contactor = .closed := hc
    refine LawView.keepsDrive_enter (by rw [hc]; rfl) rfl fun ht harm => absurd (ht.unarmed (by rw [hc]; decide)) harm
  · exact LawView.keepsDrive_beginDrive fun ht _ => ht.unarmed hc

theorem Event.keepsDrive_armBy (hc : e.nv.contactor = .opened) (p : Policy) :
    e.lawView.KeepsDrive (e.armBy p).lawView := by
  have hc : e.lawView.contactor = .opened := hc
  rcases e.armBy_cases p with h | ⟨arm, h⟩ <;> rw [h]
  · exact LawView.keepsDrive_beginDrive fun _ _ => rfl
  · exact LawView.keepsDrive_enter (by rw [hc]; rfl) rfl fun _ _ => rfl

theorem Event.keepsDrive_giveResume (hc : e.nv.contactor = .breakWait) : e.lawView.KeepsDrive e.giveResume.lawView := by
  have hc : e.lawView.contactor = .breakWait := hc
  rw [Event.giveResume, Event.enter_lawView]
  exact LawView.keepsDrive_enter (by rw [hc]; rfl) rfl fun ht harm => absurd (ht.unarmed (by rw [hc]; decide)) harm

theorem Event.keepsDrive_giveDisarm (hc : e.nv.contactor = .armed) : e.lawView.KeepsDrive e.giveDisarm.lawView := by
  have hc : e.lawView.contactor = .armed := hc
  rw [Event.giveDisarm_lawView]
  exact LawView.keepsDrive_enter (by rw [hc]; rfl) rfl fun _ harm => absurd rfl harm

theorem Event.keepsDrive_commandForEmptied (p : Policy) : e.lawView.KeepsDrive (e.commandForEmptied p).lawView := by
  unfold Event.commandForEmptied
  split
  · next hc => exact e.keepsDrive_armBy hc p
  · next hc => exact e.keepsDrive_giveResume hc
  · exact .refl _

end

end Sys2Proof.Machine
end

