-- ==== Sys2Proof/Laws/LawHolds.lean ====
section
namespace Sys2Proof.Machine

/-! ### The hold list under its operations (R98) -/

section
variable {h l : HoldList}

/-- A list that keeps each absent hold absent stays empty. -/
theorem HoldList.isEmpty_of_phases (he : h.isEmpty = true) (hl : ∀ k, h.phase k = none → l.phase k = none) :
    l.isEmpty = true := by
  simp only [HoldList.isEmpty, List.all_eq_true, beq_iff_eq] at he ⊢
  exact fun k hk => hl k (he k hk)

/-- A list that has a FIRM hold only where another has one has none when the other has none. -/
theorem HoldList.anyFirm_of_phases (hf : h.anyFirm = false)
    (hl : ∀ k, l.phase k = some .firm → h.phase k = some .firm) : l.anyFirm = false := by
  simp only [HoldList.anyFirm, List.any_eq_false, beq_iff_eq] at hf ⊢
  exact fun k hk hfirm => hf k hk (hl k hfirm)

theorem HoldList.phase_remove (h : HoldList) (k j : HoldKind) :
    (h.remove k).phase j = if j = k then none else h.phase j := by
  cases k <;> cases j <;> rfl

/-- A placing leaves the holds of the other kinds. -/
theorem HoldList.phase_place_ne {k j : HoldKind} (hj : j ≠ k) (phase : HoldPhase) (b : Bool) (restore : Nat) :
    (h.place k phase b restore).phase j = h.phase j := by
  have hsame : (h.place k phase b restore).remove k = h.remove k := by cases k <;> rfl
  have hplaced := (h.place k phase b restore).phase_remove k j
  rw [hsame, h.phase_remove, if_neg hj, if_neg hj] at hplaced
  exact hplaced.symm

theorem HoldList.phase_rephase (h : HoldList) (k j : HoldKind) (phase : HoldPhase) :
    (h.rephase k phase).phase j = h.phase j ∨
      j = k ∧ h.phase j ≠ none ∧ (h.rephase k phase).phase j = some phase := by
  cases k with
  | credit =>
    cases j with
    | credit => cases hc : h.credit <;> simp [HoldList.rephase, HoldList.phase, hc]
    | _ => exact .inl rfl
  | remote =>
    cases j with
    | remote => cases hr : h.remote <;> simp [HoldList.rephase, HoldList.phase, hr]
    | _ => exact .inl rfl
  | _ => exact .inl rfl

theorem HoldList.isEmpty_remove (he : h.isEmpty = true) (k : HoldKind) : (h.remove k).isEmpty = true := by
  refine HoldList.isEmpty_of_phases he fun j hj => ?_
  rw [h.phase_remove, hj, ite_self]

theorem HoldList.anyFirm_remove (hf : h.anyFirm = false) (k : HoldKind) : (h.remove k).anyFirm = false := by
  refine HoldList.anyFirm_of_phases hf fun j hj => ?_
  rw [h.phase_remove] at hj
  split at hj
  · cases hj
  · exact hj

theorem HoldList.isEmpty_rephase (he : h.isEmpty = true) (k : HoldKind) (phase : HoldPhase) :
    (h.rephase k phase).isEmpty = true := by
  refine HoldList.isEmpty_of_phases he fun j hj => ?_
  rcases h.phase_rephase k j phase with heq | ⟨-, hheld, -⟩
  · rw [heq, hj]
  · exact absurd hj hheld

theorem HoldList.anyFirm_rephase (hf : h.anyFirm = false) (k : HoldKind) {phase : HoldPhase} (hp : phase ≠ .firm) :
    (h.rephase k phase).anyFirm = false := by
  refine HoldList.anyFirm_of_phases hf fun j hj => ?_
  rcases h.phase_rephase k j phase with heq | ⟨-, -, hphase⟩
  · rw [← heq, hj]
  · exact absurd (Option.some.inj (hphase.symm.trans hj)) hp

/-- A CREDIT or REMOTE hold placed in a phase that waits leaves a list without a FIRM hold without one. -/
theorem HoldList.anyFirm_place (hf : h.anyFirm = false) {k : HoldKind} {phase : HoldPhase}
    (hk : k = .credit ∨ k = .remote) (hp : phase ≠ .firm) (b : Bool) (restore : Nat) :
    (h.place k phase b restore).anyFirm = false := by
  refine HoldList.anyFirm_of_phases hf fun j hj => ?_
  by_cases hjk : j = k
  · have hplaced : (h.place k phase b restore).phase k = some phase := by rcases hk with rfl | rfl <;> rfl
    rw [hjk, hplaced] at hj
    exact absurd (Option.some.inj hj) hp
  · rwa [HoldList.phase_place_ne hjk] at hj

/-- A phase with its grace deadline limited to the clock (R112). -/
def HoldPhase.limited (clock grace : Nat) : HoldPhase → HoldPhase
  | .grace d => .grace (limitDeadline clock grace d)
  | p => p

theorem HoldList.phase_limited (h : HoldList) (clock grace restore : Nat) (k : HoldKind) :
    (h.limited clock grace restore).phase k =
      (h.phase k).map (HoldPhase.limited clock grace) := by
  cases k with
  | credit => rfl
  | remote => cases hr : h.remote <;> simp only [HoldList.limited, HoldList.phase, hr] <;> rfl
  | tamper => cases ht : h.tamper <;> simp only [HoldList.limited, HoldList.phase, ht] <;> rfl
  | load => cases hl : h.load <;> simp only [HoldList.limited, HoldList.phase, hl] <;> rfl
  | trip => cases ht : h.trip <;> simp only [HoldList.limited, HoldList.phase, ht] <;> rfl

theorem HoldList.isEmpty_limited (he : h.isEmpty = true) (clock grace restore : Nat) :
    (h.limited clock grace restore).isEmpty = true :=
  HoldList.isEmpty_of_phases he fun k hk => by rw [h.phase_limited, hk]; rfl

theorem HoldList.anyFirm_limited (hf : h.anyFirm = false) (clock grace restore : Nat) :
    (h.limited clock grace restore).anyFirm = false := by
  refine HoldList.anyFirm_of_phases hf fun k hk => ?_
  rw [h.phase_limited] at hk
  cases hphase : h.phase k with
  | none => rw [hphase] at hk; cases hk
  | some p =>
    rw [hphase] at hk
    cases p with
    | firm => rfl
    | grace | deferred => cases hk

end

/-! ### The hold list in an event -/

namespace LawView

/-- A part that differs from another at the contactor and its drive alone. -/
structure SameHolds (v w : LawView) : Prop where
  holds : w.holds = v.holds
  marker : w.marker = v.marker
  exhausted : w.exhausted = v.exhausted
  tampered : w.tampered = v.tampered

/-- The part with another hold list. -/
def withHolds (v : LawView) (h : HoldList) : LawView := { v with holds := h }

variable {v w : LawView}

theorem SameHolds.refl (v : LawView) : v.SameHolds v := ⟨rfl, rfl, rfl, rfl⟩

theorem SameHolds.credited (h : v.SameHolds w) : w.Credited ↔ v.Credited := by
  rw [Credited, h.holds, h.exhausted, Credited]

theorem SameHolds.guarded (h : v.SameHolds w) : w.Guarded ↔ v.Guarded := by
  rw [Guarded, h.holds, h.tampered, Guarded]

theorem SameHolds.lapsed (h : v.SameHolds w) : w.Lapsed ↔ v.Lapsed := by
  rw [Lapsed, h.holds, h.marker, Lapsed]

/-- In a state that is neither CLOSED nor ARMED the list is free. -/
theorem supplied_of_contactor {c : Contactor} (hc : w.contactor = c) (h₁ : c ≠ .closed := by decide)
    (h₂ : c ≠ .armed := by decide) : w.Supplied :=
  ⟨fun h => absurd (hc.symm.trans h) h₁, fun h => absurd (hc.symm.trans h) h₂⟩

theorem supplied_beginDrive (v : LawView) (d : Position) (arm : Option ArmDeadline) : (v.beginDrive d arm).Supplied := by
  cases d
  · exact supplied_of_contactor (c := .opening) rfl
  · exact supplied_of_contactor (c := .closing) rfl

end LawView

section
variable (e : Event)

theorem Event.sameHolds_commandForFirm (k : HoldKind) : e.lawView.SameHolds (e.commandForFirm k).lawView := by
  rcases e.commandForFirm_cases k with ⟨h, -⟩ | ⟨h, -⟩ | ⟨h, -⟩ <;> rw [h] <;> exact ⟨rfl, rfl, rfl, rfl⟩

theorem Event.sameHolds_armBy (p : Policy) : e.lawView.SameHolds (e.armBy p).lawView := by
  rcases e.armBy_cases p with h | ⟨_, h⟩ <;> rw [h] <;> exact ⟨rfl, rfl, rfl, rfl⟩

theorem Event.sameHolds_giveResume : e.lawView.SameHolds e.giveResume.lawView := by
  rw [Event.giveResume, Event.enter_lawView]
  exact ⟨rfl, rfl, rfl, rfl⟩

theorem Event.sameHolds_commandForEmptied (p : Policy) : e.lawView.SameHolds (e.commandForEmptied p).lawView := by
  unfold Event.commandForEmptied
  split
  · exact e.sameHolds_armBy p
  · exact e.sameHolds_giveResume
  · exact .refl _

/-- What a hold that becomes FIRM calls for leaves CLOSED, so the law of R113 stands after it if ARMED holds an empty
list. -/
theorem Event.supplied_commandForFirm (k : HoldKind) (ha : e.nv.contactor = .armed → e.nv.holds.isEmpty = true) :
    (e.commandForFirm k).lawView.Supplied := by
  rcases e.commandForFirm_cases k with ⟨h, hc⟩ | ⟨h, -⟩ | ⟨h, -⟩ <;> rw [h]
  · exact ⟨fun h => absurd h hc, ha⟩
  · exact LawView.supplied_of_contactor (c := .breakWait) rfl
  · exact LawView.supplied_beginDrive _ _ _

/-- The action on an emptied list keeps R113 (R117). -/
theorem Event.supplied_commandForEmptied (he : e.nv.holds.isEmpty = true) (p : Policy) :
    (e.commandForEmptied p).lawView.Supplied := by
  have hempty : e.lawView.Supplied := ⟨fun _ => HoldList.anyFirm_of_isEmpty he, fun _ => he⟩
  unfold Event.commandForEmptied
  split
  · rcases e.armBy_cases p with h | ⟨_, h⟩ <;> rw [h]
    · exact LawView.supplied_beginDrive _ _ _
    · exact ⟨(nomatch ·), fun _ => he⟩
  · rw [Event.giveResume, Event.enter_lawView]
    exact ⟨fun _ => HoldList.anyFirm_of_isEmpty he, fun _ => he⟩
  · exact hempty

/-! #### Placing -/

theorem Event.join_lawView (k : HoldKind) (phase : HoldPhase) (b : Bool) (restore : Nat) :
    (e.join k phase b restore).lawView = e.lawView.withHolds (e.nv.holds.place k phase b restore) := rfl

theorem Event.sameHolds_place (k : HoldKind) (phase : HoldPhase) (b : Bool) (restore : Nat) :
    (e.lawView.withHolds (e.nv.holds.place k phase b restore)).SameHolds (e.place k phase b restore).lawView := by
  rw [e.place_eq, ← e.join_lawView]
  dsimp only
  split
  · rw [Event.giveDisarm_lawView]
    exact ⟨rfl, rfl, rfl, rfl⟩
  · split
    · exact Event.sameHolds_commandForFirm _ _
    · exact .refl _

theorem Event.keepsDrive_place (k : HoldKind) (phase : HoldPhase) (b : Bool) (restore : Nat) :
    e.lawView.KeepsDrive (e.place k phase b restore).lawView := by
  have joined : e.lawView.KeepsDrive (e.join k phase b restore).lawView := .of_same rfl
  rw [e.place_eq]
  dsimp only
  refine joined.trans ?_
  split
  · next hc => exact Event.keepsDrive_giveDisarm _ hc
  · split
    · exact Event.keepsDrive_commandForFirm _ _
    · exact .refl _

/-- A placing keeps R113, if the hold is one of the kinds that may wait or is placed FIRM. -/
theorem Event.supplied_place {k : HoldKind} {phase : HoldPhase} (hk : k = .credit ∨ k = .remote ∨ phase = .firm)
    (b : Bool) (restore : Nat) (h : e.lawView.Supplied) : (e.place k phase b restore).lawView.Supplied := by
  rw [e.place_eq]
  dsimp only
  split
  · rw [Event.giveDisarm_lawView]
    exact LawView.supplied_of_contactor (c := .opened) rfl
  · next ha =>
    split
    · exact Event.supplied_commandForFirm _ _ fun hc => absurd hc ha
    · next hp =>
      refine ⟨fun hc => HoldList.anyFirm_place (h.1 hc) ?_ hp _ _, fun hc => absurd hc ha⟩
      exact hk.imp_right fun hk => hk.resolve_right hp

/-! #### Passages to another phase -/

theorem Event.firm_lawView (k : HoldKind) (left : PhaseName) (cause : FirmCause) :
    (e.firm k left cause).lawView = e.lawView.withHolds (e.nv.holds.rephase k .firm) := rfl

theorem Event.sameHolds_makeFirm (k : HoldKind) (left : PhaseName) (cause : FirmCause) :
    (e.lawView.withHolds (e.nv.holds.rephase k .firm)).SameHolds (e.makeFirm k left cause).lawView :=
  Event.sameHolds_commandForFirm (e.firm k left cause) k

theorem Event.keepsDrive_makeFirm (k : HoldKind) (left : PhaseName) (cause : FirmCause) :
    e.lawView.KeepsDrive (e.makeFirm k left cause).lawView := by
  have firmed : e.lawView.KeepsDrive (e.firm k left cause).lawView := .of_same rfl
  exact firmed.trans (Event.keepsDrive_commandForFirm (e.firm k left cause) k)

theorem Event.supplied_makeFirm (k : HoldKind) (left : PhaseName) (cause : FirmCause) (h : e.lawView.Supplied) :
    (e.makeFirm k left cause).lawView.Supplied :=
  Event.supplied_commandForFirm (e.firm k left cause) k fun hc => HoldList.isEmpty_rephase (h.2 hc) k .firm

/-! #### Removal -/

theorem Event.drop_lawView (k : HoldKind) (had : HoldPhase) (cause : RemovalCause) (named : Option Policy)
    (policy : Policy) : (e.drop k had cause named policy).lawView = e.lawView.withHolds (e.nv.holds.remove k) := rfl

theorem HoldList.remove_of_absent {h : HoldList} {k : HoldKind} (hk : h.phase k = none) : h.remove k = h := by
  cases h
  cases k <;> simp_all [HoldList.phase, HoldList.remove]

theorem Event.sameHolds_remove (k : HoldKind) (cause : RemovalCause) (named : Option Policy) (policy : Policy) :
    (e.lawView.withHolds (e.nv.holds.remove k)).SameHolds (e.remove k cause named policy).lawView := by
  cases hk : e.nv.holds.phase k with
  | none =>
    rw [e.remove_of_absent hk, HoldList.remove_of_absent hk]
    exact .refl _
  | some had =>
    rw [e.remove_eq hk, ← e.drop_lawView k had cause named policy]
    dsimp only
    split
    · exact Event.sameHolds_commandForEmptied _ _
    · split
      · exact Event.sameHolds_giveResume _
      · exact .refl _

theorem Event.keepsDrive_remove (k : HoldKind) (cause : RemovalCause) (named : Option Policy) (policy : Policy) :
    e.lawView.KeepsDrive (e.remove k cause named policy).lawView := by
  cases hk : e.nv.holds.phase k with
  | none =>
    rw [e.remove_of_absent hk]
    exact .refl _
  | some had =>
    have dropped : e.lawView.KeepsDrive (e.drop k had cause named policy).lawView := .of_same rfl
    rw [e.remove_eq hk]
    dsimp only
    refine dropped.trans ?_
    split
    · exact Event.keepsDrive_commandForEmptied _ _
    · split
      · next h => exact Event.keepsDrive_giveResume _ h.1
      · exact .refl _

theorem Event.supplied_remove (k : HoldKind) (cause : RemovalCause) (named : Option Policy) (policy : Policy)
    (h : e.lawView.Supplied) : (e.remove k cause named policy).lawView.Supplied := by
  cases hk : e.nv.holds.phase k with
  | none => rwa [e.remove_of_absent hk]
  | some had =>
    rw [e.remove_eq hk]
    dsimp only
    split
    · next hempty => exact Event.supplied_commandForEmptied (e.drop k had cause named policy) hempty policy
    · split
      · next hresume =>
        rw [Event.giveResume, Event.enter_lawView]
        exact ⟨fun _ => hresume.2, fun h => nomatch h⟩
      · exact ⟨fun hc => HoldList.anyFirm_remove (h.1 hc) k, fun hc => HoldList.isEmpty_remove (h.2 hc) k⟩

end

end Sys2Proof.Machine
end

