-- ==== Sys2Proof/Laws/LawEvents.lean ====
section
namespace Sys2Proof.Machine

/-! ### What the events of the supply controller keep -/

namespace LawView
variable {v w : LawView}

/-- A part changed at the contactor and its drive alone keeps every law if it keeps those that read them. -/
theorem SameHolds.keeps (h : v.SameHolds w) (hs : v.Supplied → w.Supplied) (hd : v.KeepsDrive w) : v.Keeps w :=
  ⟨hs, h.credited.mpr, h.guarded.mpr, h.lapsed.mpr, hd⟩

/-- A part whose hold list is `l`, but for the contactor and its drive. -/
theorem SameHolds.keeps_of_list {l : HoldList} (h : (v.withHolds l).SameHolds w) (hs : v.Supplied → w.Supplied)
    (hd : v.KeepsDrive w) (hc : l.credit.isSome = v.holds.credit.isSome) (ht : l.tamper = v.holds.tamper)
    (hl : v.Lapsed → (v.withHolds l).Lapsed) : v.Keeps w where
  supplied := hs
  credited := fun hv => h.credited.mpr (hc.trans hv)
  guarded := fun hv => h.guarded.mpr (ht.trans hv)
  lapsed := fun hv => h.lapsed.mpr (hl hv)
  drive := hd

end LawView

section
variable (e : Event)

/-! #### The LOAD, TRIP and REMOTE holds (R102, R105, R106) -/

theorem Event.keeps_place_load (restore : Nat) : e.lawView.Keeps (e.place .load .firm false restore).lawView :=
  (e.sameHolds_place _ _ _ _).keeps_of_list (e.supplied_place (by simp) _ _) (e.keepsDrive_place _ _ _ _) rfl rfl id

theorem Event.keeps_place_trip : e.lawView.Keeps (e.place .trip .firm false 0).lawView :=
  (e.sameHolds_place _ _ _ _).keeps_of_list (e.supplied_place (by simp) _ _) (e.keepsDrive_place _ _ _ _) rfl rfl id

/-- The REMOTE hold placed where there is none: no lapse is marked. -/
theorem Event.keeps_place_remote (h : e.nv.holds.remote = none) (phase : HoldPhase) (b : Bool) :
    e.lawView.Keeps (e.place .remote phase b 0).lawView := by
  refine (e.sameHolds_place _ _ _ _).keeps_of_list (e.supplied_place (by simp) _ _) (e.keepsDrive_place _ _ _ _) rfl rfl ?_
  intro hl hm
  exact absurd (h.symm.trans (hl hm)) (by simp)

theorem Event.keeps_remove_load (cause : RemovalCause) (named : Option Policy) (policy : Policy) :
    e.lawView.Keeps (e.remove .load cause named policy).lawView :=
  (e.sameHolds_remove _ _ _ _).keeps_of_list (e.supplied_remove _ _ _ _) (e.keepsDrive_remove _ _ _ _) rfl rfl id

theorem Event.keeps_remove_trip (cause : RemovalCause) (named : Option Policy) (policy : Policy) :
    e.lawView.Keeps (e.remove .trip cause named policy).lawView :=
  (e.sameHolds_remove _ _ _ _).keeps_of_list (e.supplied_remove _ _ _ _) (e.keepsDrive_remove _ _ _ _) rfl rfl id

/-- The REMOTE hold removed, and the lapse marker cleared before it (R103, R119). -/
theorem Event.keeps_remove_remote (cause : RemovalCause) (named : Option Policy) (policy : Policy) :
    e.lawView.Keeps
      ((e.updateNv (fun n => { n with lapseMarker := false })).remove .remote cause named policy).lawView := by
  let u := e.updateNv (fun n => { n with lapseMarker := false })
  have cleared : e.lawView.Keeps u.lawView := ⟨id, id, id, fun _ hm => (nomatch hm), .of_same rfl⟩
  refine cleared.trans ?_
  exact (u.sameHolds_remove _ _ _ _).keeps_of_list (u.supplied_remove _ _ _ _) (u.keepsDrive_remove _ _ _ _) rfl rfl
    fun _ hm => nomatch hm

/-! #### Phases (R109 to R111) -/

/-- A passage to FIRM leaves which holds the list has, and a hold of a lapse is FIRM already. -/
theorem Event.keeps_makeFirm (k : HoldKind) (left : PhaseName) (cause : FirmCause) :
    e.lawView.Keeps (e.makeFirm k left cause).lawView := by
  refine (e.sameHolds_makeFirm k left cause).keeps_of_list (e.supplied_makeFirm _ _ _) (e.keepsDrive_makeFirm _ _ _)
    ?_ ?_ ?_
  · change (e.nv.holds.rephase k .firm).credit.isSome = e.nv.holds.credit.isSome
    cases k with
    | credit => exact Option.isSome_map
    | _ => rfl
  · cases k <;> rfl
  · intro hl hm
    have hremote : e.nv.holds.remote = some { phase := .firm, byRequest := false } := hl hm
    change (e.nv.holds.rephase k .firm).remote = _
    cases k with
    | remote => simp [HoldList.rephase, hremote]
    | _ => exact hremote

/-- The CREDIT hold's passage to a phase that waits. -/
theorem Event.keeps_rephase_credit {phase : HoldPhase} (hp : phase ≠ .firm) :
    e.lawView.Keeps (e.updateNv (fun n => { n with holds := n.holds.rephase .credit phase })).lawView := by
  have same : (e.lawView.withHolds (e.nv.holds.rephase .credit phase)).SameHolds
      (e.updateNv (fun n => { n with holds := n.holds.rephase .credit phase })).lawView := .refl _
  refine same.keeps_of_list (fun hs => ?_) (.of_same rfl) Option.isSome_map rfl id
  exact ⟨fun hc => HoldList.anyFirm_rephase (hs.1 hc) _ hp, fun hc => HoldList.isEmpty_rephase (hs.2 hc) _ _⟩

theorem Event.keeps_leaveDeferred (cause : FirmCause) : e.lawView.Keeps (e.leaveDeferred cause).lawView := by
  unfold Event.leaveDeferred
  split
  · exact e.keeps_rephase_credit (by simp)
  · exact e.keeps_makeFirm _ _ _

theorem Event.keeps_windowEdge (edge : WindowEdge) : e.lawView.Keeps (e.windowEdge edge).lawView := by
  unfold Event.windowEdge
  split
  · split
    · exact .refl _
    · exact e.keeps_rephase_credit (by simp)
  · exact e.keeps_leaveDeferred _
  · exact .refl _

theorem Event.keeps_ceilingReached : e.lawView.Keeps e.ceilingReached.lawView := by
  unfold Event.ceilingReached
  split
  · exact e.keeps_leaveDeferred _
  · exact .refl _

theorem Event.keeps_graceReached (clock : Nat) (k : HoldKind) : e.lawView.Keeps (e.graceReached clock k).lawView := by
  unfold Event.graceReached
  split
  · split
    · exact e.keeps_makeFirm _ _ _
    · exact .refl _
  · exact .refl _

theorem Event.keeps_graceEnds (cause : FirmCause) (k : HoldKind) : e.lawView.Keeps (e.graceEnds cause k).lawView := by
  unfold Event.graceEnds
  split
  · exact e.keeps_makeFirm _ _ _
  · exact .refl _

/-! #### Deadlines (R105, R112, R119) -/

theorem Event.keeps_restoreReached (clock : Nat) : e.lawView.Keeps (e.restoreReached clock).lawView := by
  unfold Event.restoreReached
  split
  · split
    · exact e.keeps_remove_load _ _ _
    · exact .refl _
  · exact .refl _

theorem Event.keeps_dropArmDeadline : e.lawView.Keeps e.dropArmDeadline.lawView :=
  ⟨id, id, id, id, fun h hl => ⟨⟨h.target, fun harm => absurd rfl harm⟩, hl⟩, id⟩

/-- A lapse without its marker and its hold: the arm deadline leaves with the arming (R118). -/
theorem Event.keeps_disarm :
    e.lawView.Keeps
      (if e.dropArmDeadline.nv.contactor = .armed then e.dropArmDeadline.giveDisarm else e.dropArmDeadline).lawView := by
  refine e.keeps_dropArmDeadline.trans ?_
  split
  · next hc =>
    refine LawView.SameHolds.keeps ?_ (fun _ => ?_) (Event.keepsDrive_giveDisarm _ hc) <;> rw [Event.giveDisarm_lawView]
    · exact ⟨rfl, rfl, rfl, rfl⟩
    · exact LawView.supplied_of_contactor (c := .opened) rfl
  · exact .refl _

/-- A lapse marks itself and places its hold, whatever REMOTE hold stood there (R119). -/
theorem Event.keeps_lapse :
    e.lawView.Keeps ((e.updateNv (fun n => { n with lapseMarker := true })).place .remote .firm false 0).lawView := by
  let u := e.updateNv (fun n => { n with lapseMarker := true })
  have same := u.sameHolds_place .remote .firm false 0
  exact ⟨u.supplied_place (by simp) _ _, same.credited.mpr, same.guarded.mpr, fun _ => same.lapsed.mpr fun _ => rfl,
    (LawView.KeepsDrive.of_same rfl : e.lawView.KeepsDrive u.lawView).trans (u.keepsDrive_place _ _ _ _)⟩

theorem Event.keeps_armReached (clock : Nat) : e.lawView.Keeps (e.armReached clock).lawView := by
  unfold Event.armReached
  split
  · next a _ =>
    split
    · exact (Event.keeps_disarm (e.log (.armLapsed a.deadline a.minutes))).trans (Event.keeps_lapse _)
    · exact .refl _
  · exact .refl _

theorem Event.keeps_limitDeadlines (clock : Nat) : e.lawView.Keeps (e.limitDeadlines clock).lawView where
  supplied := fun h =>
    ⟨fun hc => HoldList.anyFirm_limited (h.1 hc) _ _ _, fun hc => HoldList.isEmpty_limited (h.2 hc) _ _ _⟩
  credited := fun h => Option.isSome_map.trans h
  guarded := id
  lapsed := fun h hm => by
    have hremote : e.nv.holds.remote = some { phase := .firm, byRequest := false } := h hm
    simp [Event.limitDeadlines, Event.lawView, State.lawView, Nv.lawView, HoldList.limited, Event.updateNv,
      show e.state.nv.holds.remote = _ from hremote]
  drive :=
    { driven := fun h hl => ⟨⟨h.target, fun harm => h.arm fun hn => harm (by
        simp [Event.limitDeadlines, Event.lawView, State.lawView, Nv.lawView, Event.updateNv,
          show e.state.nv.armDeadline = none from hn])⟩, hl⟩
      fits := id }

/-! #### The contactor alone (R115, R121, R131, R133) -/

/-- A drive begun, by whatever cause, with no arm deadline left. -/
theorem Event.keeps_beginDrive (d : Position) (cause : DriveCause) (o : Origin)
    (harm : e.lawView.Targeted → e.lawView.Loose → e.nv.armDeadline = none) :
    e.lawView.Keeps (e.beginDrive d cause o).lawView := by
  rw [Event.beginDrive_lawView]
  exact LawView.SameHolds.keeps ⟨rfl, rfl, rfl, rfl⟩ (fun _ => LawView.supplied_beginDrive _ _ _)
    (LawView.keepsDrive_beginDrive harm)

theorem Event.keeps_giveClose (o : Origin) : e.lawView.Keeps (e.giveClose o).lawView :=
  e.keeps_dropArmDeadline.trans (Event.keeps_beginDrive _ _ _ _ fun _ _ => rfl)

theorem Event.keeps_press (r : PressResult) : e.lawView.Keeps (e.press r).lawView := by
  unfold Event.press
  split
  · exact e.keeps_giveClose _
  · exact .refl _
  · exact .refl _

end

/-! #### The CREDIT and TAMPER holds (R101, R104) -/

/-- The end of an event that may have changed the exhausted condition: `v` is what it found (R101). -/
theorem Event.keeps_creditCondition {e : Event} {v : LawView} {after : Bool}
    (he : e.lawView = { v with exhausted := after }) : v.Keeps (e.creditCondition v.exhausted after).lawView := by
  have hsupplied : e.lawView.Supplied ↔ v.Supplied := by rw [he]; rfl
  have hlapsed : e.lawView.Lapsed ↔ v.Lapsed := by rw [he]; rfl
  have hguarded : e.lawView.Guarded ↔ v.Guarded := by rw [he]; rfl
  have hdrive : v.KeepsDrive e.lawView := by rw [he]; exact .of_same rfl
  have hholds : e.nv.holds = v.holds := congrArg LawView.holds he
  have hafter : e.lawView.exhausted = after := congrArg LawView.exhausted he
  -- the condition as it was, and the list already in the state that it calls for
  have same (hc : v.Credited → e.lawView.Credited) : v.Keeps e.lawView :=
    ⟨hsupplied.mpr, hc, hguarded.mpr, hlapsed.mpr, hdrive⟩
  unfold Event.creditCondition
  split
  · next hnow =>
    obtain ⟨-, htrue⟩ := hnow
    dsimp only
    split
    · have placed := e.sameHolds_place .credit e.creditPhase false 0
      refine ⟨fun h => e.supplied_place (by simp) _ _ (hsupplied.mpr h), fun _ => placed.credited.mpr ?_,
        fun h => placed.guarded.mpr (hguarded.mpr h), fun h => placed.lapsed.mpr (hlapsed.mpr h),
        hdrive.trans (e.keepsDrive_place _ _ _ _)⟩
      exact (hafter.trans htrue).symm
    · next hheld =>
      refine same fun _ => ?_
      rw [LawView.Credited, hafter, htrue]
      exact Option.isSome_iff_ne_none.mpr hheld
  · split
    · next hnow =>
      obtain ⟨-, hfalse⟩ := hnow
      have removed := e.sameHolds_remove .credit .credit none e.nv.settings.creditPolicy.policy
      refine ⟨fun h => e.supplied_remove _ _ _ _ (hsupplied.mpr h), fun _ => removed.credited.mpr ?_,
        fun h => removed.guarded.mpr (hguarded.mpr h), fun h => removed.lapsed.mpr (hlapsed.mpr h),
        hdrive.trans (e.keepsDrive_remove _ _ _ _)⟩
      exact (hafter.trans hfalse).symm
    · next hrise hfall =>
      have hunchanged : after = v.exhausted := by
        revert hrise hfall
        cases v.exhausted <;> cases after <;> simp
      refine same fun hc => ?_
      rw [LawView.Credited, hafter, hunchanged]
      exact (congrArg (fun h : HoldList => h.credit.isSome) hholds).trans hc

/-- The end of an event that may have changed the TAMPER hold's condition: `v` is what it found (R104). -/
theorem Event.keeps_tamperCondition {e : Event} {v : LawView} {after : Bool}
    (he : e.lawView = { v with tampered := after }) : v.Keeps (e.tamperCondition v.tampered after).lawView := by
  have hsupplied : e.lawView.Supplied ↔ v.Supplied := by rw [he]; rfl
  have hlapsed : e.lawView.Lapsed ↔ v.Lapsed := by rw [he]; rfl
  have hcredited : e.lawView.Credited ↔ v.Credited := by rw [he]; rfl
  have hdrive : v.KeepsDrive e.lawView := by rw [he]; exact .of_same rfl
  have hholds : e.nv.holds = v.holds := congrArg LawView.holds he
  have hafter : e.lawView.tampered = after := congrArg LawView.tampered he
  have same (hg : v.Guarded → e.lawView.Guarded) : v.Keeps e.lawView :=
    ⟨hsupplied.mpr, hcredited.mpr, hg, hlapsed.mpr, hdrive⟩
  unfold Event.tamperCondition
  split
  · next hnow =>
    obtain ⟨-, htrue⟩ := hnow
    split
    · next hheld => exact same fun _ => hheld.trans (hafter.trans htrue).symm
    · have placed := e.sameHolds_place .tamper .firm false 0
      refine ⟨fun h => e.supplied_place (by simp) _ _ (hsupplied.mpr h), fun h => placed.credited.mpr (hcredited.mpr h),
        fun _ => placed.guarded.mpr ?_, fun h => placed.lapsed.mpr (hlapsed.mpr h),
        hdrive.trans (e.keepsDrive_place _ _ _ _)⟩
      exact (hafter.trans htrue).symm
  · split
    · next hnow =>
      obtain ⟨-, hfalse⟩ := hnow
      have removed := e.sameHolds_remove .tamper .tamper none .press
      refine ⟨fun h => e.supplied_remove _ _ _ _ (hsupplied.mpr h), fun h => removed.credited.mpr (hcredited.mpr h),
        fun _ => removed.guarded.mpr ?_, fun h => removed.lapsed.mpr (hlapsed.mpr h),
        hdrive.trans (e.keepsDrive_remove _ _ _ _)⟩
      exact (hafter.trans hfalse).symm
    · next hrise hfall =>
      have hunchanged : after = v.tampered := by
        revert hrise hfall
        cases v.tampered <;> cases after <;> simp
      refine same fun hg => ?_
      rw [LawView.Guarded, hafter, hunchanged]
      exact (congrArg HoldList.tamper hholds).trans hg

end Sys2Proof.Machine
end

