-- ==== Sys2Proof/Laws/LawKeeping.lean ====
section
namespace Sys2Proof.Machine

/-! ### The laws on every image (R2) -/

theorem Nv.supplyLaw_iff (n : Nv) (d : Option Position) : n.supplyLaw = true ↔ (n.lawView d).Supplied := by
  change ((n.contactor != .closed || !n.holds.anyFirm) && (n.contactor != .armed || n.holds.isEmpty)) = true ↔
    (n.contactor = .closed → n.holds.anyFirm = false) ∧ (n.contactor = .armed → n.holds.isEmpty = true)
  simp only [Bool.and_eq_true, Bool.or_eq_true, bne_iff_ne, Bool.not_eq_true', or_iff_not_imp_left, not_not, ne_eq]

theorem Nv.creditLaw_iff (n : Nv) (d : Option Position) : n.creditLaw = true ↔ (n.lawView d).Credited := beq_iff_eq

theorem Nv.tamperLaw_iff (n : Nv) (d : Option Position) : n.tamperLaw = true ↔ (n.lawView d).Guarded := beq_iff_eq

theorem Nv.lapseLaw_iff (n : Nv) (d : Option Position) : n.lapseLaw = true ↔ (n.lawView d).Lapsed := by
  change (!n.lapseMarker || n.holds.remote == some { phase := .firm, byRequest := false }) = true ↔
    (n.lapseMarker = true → n.holds.remote = some { phase := .firm, byRequest := false })
  cases n.lapseMarker <;> simp

/-- The law on the drive target and the one on the arm deadline (R118, R124). -/
def Nv.targeted (n : Nv) : Bool := n.targetLaw && (n.armDeadline.isNone || n.contactor == .armed)

theorem Nv.targeted_iff (n : Nv) (d : Option Position) : n.targeted = true ↔ (n.lawView d).Targeted := by
  have htarget : n.targetLaw = true ↔ ∀ d, n.contactor.drivenTo = some d → n.driveTarget = d := by
    unfold Nv.targetLaw
    cases n.contactor <;> simp [Contactor.drivenTo]
  have harm : (n.armDeadline.isNone || n.contactor == .armed) = true ↔ (n.armDeadline ≠ none → n.contactor = .armed) := by
    cases n.armDeadline <;> simp
  rw [Nv.targeted, Bool.and_eq_true, htarget, harm]
  exact ⟨fun ⟨h, k⟩ => ⟨h, k⟩, fun ⟨h, k⟩ => ⟨h, k⟩⟩

theorem State.everyImage_iff (P : Nv → Bool) (s : State) :
    s.everyImage P = true ↔ P s.nv = true ∧ P s.stored = true ∧ ∀ w ∈ s.writes, P w.image = true := by
  simp [State.everyImage, and_assoc]

theorem State.everyImage_and (P Q : Nv → Bool) (s : State) :
    s.everyImage (fun n => P n && Q n) = true ↔ s.everyImage P = true ∧ s.everyImage Q = true := by
  simp only [State.everyImage_iff, Bool.and_eq_true]
  exact ⟨fun ⟨⟨h₁, h₂⟩, ⟨h₃, h₄⟩, h₅⟩ => ⟨⟨h₁, h₃, fun w hw => (h₅ w hw).1⟩, h₂, h₄, fun w hw => (h₅ w hw).2⟩,
    fun ⟨⟨h₁, h₃, h₅⟩, h₂, h₄, h₆⟩ => ⟨⟨h₁, h₂⟩, ⟨h₃, h₄⟩, fun w hw => ⟨h₅ w hw, h₆ w hw⟩⟩⟩

/-! ### What a step keeps -/

section
variable (s : State)

theorem State.supplyLaw_iff : s.nv.supplyLaw = true ↔ s.lawView.Supplied := s.nv.supplyLaw_iff _
theorem State.creditLaw_iff : s.nv.creditLaw = true ↔ s.lawView.Credited := s.nv.creditLaw_iff _
theorem State.tamperLaw_iff : s.nv.tamperLaw = true ↔ s.lawView.Guarded := s.nv.tamperLaw_iff _
theorem State.lapseLaw_iff : s.nv.lapseLaw = true ↔ s.lawView.Lapsed := s.nv.lapseLaw_iff _
theorem State.targeted_iff : s.nv.targeted = true ↔ s.lawView.Targeted := s.nv.targeted_iff _

end

/-- What the laws read of a whole state. -/
def State.lawFrame (s : State) : LawView × Nv × List Write × Power := (s.lawView, s.stored, s.writes, s.power)

/-- The events of the blocks take place while the part runs, and the steps of start-up while it runs (R201, R207). -/
def State.Live (s : State) : Prop := s.isRunning = true ∨ ∃ q, s.power = .starting q

/-- Every image has the target and the arm deadline of its contactor state, and while events take place no drive but
the one called for is in progress. -/
structure State.DriveSound (s : State) : Prop where
  images : s.everyImage Nv.targeted = true
  loose : s.Live → s.lawView.Loose

/-- From `s` to `t` the laws on the hold list of every image are kept. -/
structure State.ImagesKeep (s t : State) : Prop where
  supplied : s.everyImage Nv.supplyLaw = true → t.everyImage Nv.supplyLaw = true
  credited : s.everyImage Nv.creditLaw = true → t.everyImage Nv.creditLaw = true
  guarded : s.everyImage Nv.tamperLaw = true → t.everyImage Nv.tamperLaw = true
  lapsed : s.everyImage Nv.lapseLaw = true → t.everyImage Nv.lapseLaw = true

/-- From `s` to `t`, in the same power state, the laws on the images and the one on the drive are kept. -/
structure State.EventKeeps (s t : State) : Prop extends State.ImagesKeep s t where
  driven : s.DriveSound → t.DriveSound
  fits : s.lawView.Fits → t.lawView.Fits
  power : t.power = s.power

/-- The store and the writes on their way hold the same images, in the same power state. -/
structure State.SameImages (s t : State) : Prop where
  stored : t.stored = s.stored
  writes : t.writes = s.writes
  power : t.power = s.power

/-- From `s` to `t` an event that has made no write yet keeps the laws. -/
structure State.Kept (s t : State) : Prop where
  laws : s.lawView.Keeps t.lawView
  images : s.SameImages t

section
variable {s t u : State}

theorem State.SameImages.trans (h : s.SameImages t) (k : t.SameImages u) : s.SameImages u :=
  ⟨k.stored.trans h.stored, k.writes.trans h.writes, k.power.trans h.power⟩

theorem State.Kept.refl (s : State) : s.Kept s := ⟨.refl _, rfl, rfl, rfl⟩

theorem State.Kept.trans (h : s.Kept t) (k : t.Kept u) : s.Kept u := ⟨h.laws.trans k.laws, h.images.trans k.images⟩

theorem State.kept_of_frame (h : t.lawFrame = s.lawFrame) : s.Kept t := by
  simp only [State.lawFrame, Prod.mk.injEq] at h
  obtain ⟨hlaws, hstored, hwrites, hpower⟩ := h
  exact ⟨by rw [hlaws]; exact .refl _, hstored, hwrites, hpower⟩

theorem Event.Within.sameImages {e e' : Event} (h : e.Within e') : e.state.SameImages e'.state := by
  have stored := congrArg State.stored h.state
  have power := congrArg State.power h.state
  exact ⟨stored, h.writes, power⟩

/-- An operation of the supply controller or the contactor driver keeps the laws if it keeps them in what they read. -/
theorem Event.Within.kept {e e' : Event} (h : e.Within e') (laws : e.lawView.Keeps e'.lawView) : e.state.Kept e'.state :=
  ⟨laws, h.sameImages⟩

theorem State.ImagesKeep.refl (s : State) : s.ImagesKeep s := ⟨id, id, id, id⟩

theorem State.ImagesKeep.trans (h : s.ImagesKeep t) (k : t.ImagesKeep u) : s.ImagesKeep u :=
  ⟨k.supplied ∘ h.supplied, k.credited ∘ h.credited, k.guarded ∘ h.guarded, k.lapsed ∘ h.lapsed⟩

theorem State.EventKeeps.refl (s : State) : s.EventKeeps s := ⟨.refl s, id, id, rfl⟩

theorem State.EventKeeps.trans (h : s.EventKeeps t) (k : t.EventKeeps u) : s.EventKeeps u :=
  ⟨h.toImagesKeep.trans k.toImagesKeep, k.driven ∘ h.driven, k.fits ∘ h.fits, k.power.trans h.power⟩

theorem State.eventKeeps_ite {p : Prop} [Decidable p] (ht : p → s.EventKeeps t) (hu : ¬ p → s.EventKeeps u) :
    s.EventKeeps (if p then t else u) := by
  split
  · next h => exact ht h
  · next h => exact hu h

theorem State.Live.of_power (h : s.Live) (hp : t.power = s.power) : t.Live := by
  rcases h with h | ⟨q, hq⟩
  · exact .inl (by rw [State.isRunning, hp]; exact h)
  · exact .inr ⟨q, hp.trans hq⟩

/-- A law on the images, read of what the laws read, is kept where the blocks' image keeps it and no other is new. -/
theorem State.everyImage_of_new {P : Nv → Bool} (hnv : P s.nv = true → P t.nv = true) (hstored : t.stored = s.stored)
    (hwrites : ∀ w ∈ t.writes, w ∈ s.writes ∨ w.image = t.nv) (h : s.everyImage P = true) : t.everyImage P = true := by
  rw [State.everyImage_iff] at h ⊢
  obtain ⟨hn, hs, hw⟩ := h
  refine ⟨hnv hn, hstored ▸ hs, fun w hmem => ?_⟩
  rcases hwrites w hmem with hmem | himage
  · exact hw w hmem
  · exact himage ▸ hnv hn

/-- A state with the laws of another, and no image on its way but those on their way there and the one that its blocks
hold: while events take place, it keeps every law. -/
theorem State.eventKeeps_of_new (hl : s.Live) (laws : s.lawView.Keeps t.lawView) (hstored : t.stored = s.stored)
    (hwrites : ∀ w ∈ t.writes, w ∈ s.writes ∨ w.image = t.nv) (hpower : t.power = s.power) : s.EventKeeps t where
  supplied := State.everyImage_of_new
    (fun h => t.supplyLaw_iff.mpr (laws.supplied (s.supplyLaw_iff.mp h))) hstored hwrites
  credited := State.everyImage_of_new
    (fun h => t.creditLaw_iff.mpr (laws.credited (s.creditLaw_iff.mp h))) hstored hwrites
  guarded := State.everyImage_of_new
    (fun h => t.tamperLaw_iff.mpr (laws.guarded (s.tamperLaw_iff.mp h))) hstored hwrites
  lapsed := State.everyImage_of_new
    (fun h => t.lapseLaw_iff.mpr (laws.lapsed (s.lapseLaw_iff.mp h))) hstored hwrites
  driven := by
    intro ⟨himages, hloose⟩
    have htargeted := s.targeted_iff.mp ((s.everyImage_iff _).mp himages).1
    obtain ⟨htargeted', hloose'⟩ := laws.drive.driven htargeted (hloose hl)
    exact ⟨State.everyImage_of_new (fun _ => t.targeted_iff.mpr htargeted') hstored hwrites himages,
      fun _ => hloose'⟩
  fits := laws.drive.fits
  power := hpower

/-- What leaves all that the laws read keeps them, in every power state. -/
theorem State.eventKeeps_of_frame (h : t.lawFrame = s.lawFrame) : s.EventKeeps t := by
  simp only [State.lawFrame, Prod.mk.injEq] at h
  obtain ⟨hlaws, hstored, hwrites, hpower⟩ := h
  have image {P : Nv → Bool} (hP : P s.nv = true → P t.nv = true) : s.everyImage P = true → t.everyImage P = true :=
    State.everyImage_of_new hP hstored fun w hw => .inl (hwrites ▸ hw)
  have live : t.Live → s.Live := fun h => h.of_power hpower.symm
  exact ⟨⟨image fun h => t.supplyLaw_iff.mpr (by rw [hlaws]; exact s.supplyLaw_iff.mp h),
    image fun h => t.creditLaw_iff.mpr (by rw [hlaws]; exact s.creditLaw_iff.mp h),
    image fun h => t.tamperLaw_iff.mpr (by rw [hlaws]; exact s.tamperLaw_iff.mp h),
    image fun h => t.lapseLaw_iff.mpr (by rw [hlaws]; exact s.lapseLaw_iff.mp h)⟩,
    fun hs => ⟨image (fun h => t.targeted_iff.mpr (by rw [hlaws]; exact s.targeted_iff.mp h)) hs.images,
      fun hl => by rw [hlaws]; exact hs.loose (live hl)⟩,
    fun hf => by rw [hlaws]; exact hf, hpower⟩

/-- The write of an event that keeps the laws. -/
theorem State.Kept.commitSetting {e : Event} (hl : s.Live) (h : s.Kept e.state) (b : Block) (c : Option Nat)
    (m : Option RetentionMark) : s.EventKeeps (e.commitSetting b c m) := by
  refine State.eventKeeps_of_new hl h.laws h.images.stored (fun w hw => ?_) h.images.power
  rcases List.mem_append.mp (show w ∈ e.state.writes ++ _ from hw) with hw | hw
  · exact .inl (h.images.writes ▸ hw)
  · exact .inr (congrArg Write.image (List.mem_singleton.mp hw))

theorem State.Kept.commit {e : Event} (hl : s.Live) (h : s.Kept e.state) (b : Block) : s.EventKeeps (e.commit b) :=
  h.commitSetting hl b none none

theorem State.Kept.commitClearing {e : Event} (hl : s.Live) (h : s.Kept e.state) (b : Block) (m : RetentionMark) :
    s.EventKeeps (e.commitClearing b m) :=
  h.commitSetting hl b none (some m)

theorem State.Kept.eventKeeps (hl : s.Live) (h : s.Kept t) : s.EventKeeps t :=
  State.eventKeeps_of_new hl h.laws h.images.stored (fun _ hw => .inl (h.images.writes ▸ hw)) h.images.power

theorem State.Kept.commitSupply {e : Event} (hl : s.Live) (h : s.Kept e.state) (before : Nv) :
    s.EventKeeps (e.commitSupply before) :=
  State.eventKeeps_ite (fun _ => h.eventKeeps hl) fun _ => h.commit hl .supply

/-! ### Events that wait -/

theorem State.eventKeeps_waits (s : State) (c : Instr) (b : Block) : s.EventKeeps (s.waits c b) := by
  rcases s.waits_cases c b with ⟨h, -⟩ | ⟨h, -⟩ <;> rw [h]
  · exact .refl s
  · rw [State.joinLine_eq]
    exact State.eventKeeps_of_frame rfl

theorem State.EventKeeps.takes {c : Instr} {turn : Option Block} (h : s.EventKeeps t) :
    s.EventKeeps (s.takes c turn t) := by
  rcases s.takes_spec c turn t with ⟨ht, -⟩ | ⟨x, -, -, ht⟩ <;> rw [ht]
  · exact h.trans (State.eventKeeps_of_frame rfl)
  · exact s.eventKeeps_waits c x.1

theorem eventKeeps_ifRunning {f : State → State} (hf : s.Live → s.EventKeeps (f s)) (h : ifRunning s f = .next t) :
    s.EventKeeps t := by
  unfold ifRunning at h
  cases h
  exact State.eventKeeps_ite (fun hr => hf (.inl hr)) fun _ => .refl s

theorem eventKeeps_whenRunning {c : Instr} {f : State → State} (hf : s.Live → s.EventKeeps (f s))
    (h : whenRunning c s f = .next t) : s.EventKeeps t :=
  eventKeeps_ifRunning (fun hl => (hf hl).takes) h

end

end Sys2Proof.Machine
end

