-- ==== Sys2Proof/Laws/LawFrames.lean ====
section
namespace Sys2Proof.Machine

/-! ### What the shared operations leave of what the laws read -/

section
variable (s : State)

@[simp] theorem State.answerByte_lawFrame (p : Port) (status : Byte) (payload : List Byte) :
    (s.answerByte p status payload).lawFrame = s.lawFrame := by
  obtain ⟨_, _, h⟩ := s.answerByte_frame p status payload
  rw [h]
  rfl

@[simp] theorem State.answer_lawFrame (p : Port) (status : Status) (payload : List Byte) :
    (s.answer p status payload).lawFrame = s.lawFrame :=
  s.answerByte_lawFrame p _ payload

theorem State.respond_lawFrame (p : Port) (f : Frame) : (s.respond p f).lawFrame = s.lawFrame := by
  obtain ⟨_, _, h⟩ := s.respond_frame p f
  rw [h]
  rfl

@[simp] theorem State.raise_lawFrame (k : NoticeKind) : (s.raise k).lawFrame = s.lawFrame := by
  obtain ⟨_, h⟩ := s.raise_frame k
  rw [h]
  rfl

@[simp] theorem State.queueDeadlines_lawFrame : s.queueDeadlines.lawFrame = s.lawFrame := by
  obtain ⟨_, h⟩ := s.queueDeadlines_frame
  rw [h]
  rfl

@[simp] theorem State.reevaluateWindow_lawFrame : s.reevaluateWindow.lawFrame = s.lawFrame := by
  rw [State.reevaluateWindow_eq]
  rfl

@[simp] theorem State.handOwed_lawFrame (clock : Nat) (byMidnight : Bool) :
    (s.handOwed clock byMidnight).lawFrame = s.lawFrame := by
  rw [State.handOwed_eq]
  rfl

@[simp] theorem State.handTamperClockSet_lawFrame : s.handTamperClockSet.lawFrame = s.lawFrame := by
  unfold State.handTamperClockSet
  split <;> rfl

@[simp] theorem State.handClockSet_lawFrame : s.handClockSet.lawFrame = s.lawFrame := by
  unfold State.handClockSet
  split <;> rfl

@[simp] theorem State.leaveArrivals_lawFrame : s.leaveArrivals.lawFrame = s.lawFrame := rfl
@[simp] theorem State.leaveQueue_lawFrame : s.leaveQueue.lawFrame = s.lawFrame := rfl
@[simp] theorem State.leaveTamper_lawFrame : s.leaveTamper.lawFrame = s.lawFrame := rfl
@[simp] theorem State.leaveLine_lawFrame (c : Instr) : (s.leaveLine c).lawFrame = s.lawFrame := rfl
@[simp] theorem State.leaveJournal_lawFrame : s.leaveJournal.lawFrame = s.lawFrame := rfl
@[simp] theorem State.updatePort_lawFrame (p : Port) (f : PortUnit → PortUnit) :
    (s.updatePort p f).lawFrame = s.lawFrame := rfl
@[simp] theorem State.countChoice_lawFrame : s.countChoice.lawFrame = s.lawFrame := rfl
@[simp] theorem State.handSetting_lawFrame (p : Port) (n v : Nat) : (s.handSetting p n v).lawFrame = s.lawFrame := rfl

theorem State.passLevel_lawFrame (k : TamperKind) (active : Bool) : (s.passLevel k active).lawFrame = s.lawFrame := by
  unfold State.passLevel
  split <;> rfl

theorem State.passExpiry_lawFrame : s.passExpiry.lawFrame = s.lawFrame := by
  unfold State.passExpiry
  split <;> rfl

theorem State.refuseFrame_lawFrame (status : Status) (code : Byte) :
    (s.refuseFrame status code).lawFrame = s.lawFrame := by
  unfold State.refuseFrame
  split <;> rfl

theorem State.judgeRequest_lawFrame (p : Port) (code : Byte) (payload : List Byte) :
    (s.judgeRequest p code payload).lawFrame = s.lawFrame := by
  have joins (u : State) (c : RequestCode) : (u.joinQueue p c).lawFrame = u.lawFrame := by
    unfold State.joinQueue
    split <;> rfl
  unfold State.judgeRequest
  split
  · exact s.respond_lawFrame _ _
  · unfold State.takeIn
    split
    · rfl
    · exact joins _ _
  · rfl

theorem State.judgeLFrame_lawFrame (bytes : List Byte) : (s.judgeLFrame bytes).lawFrame = s.lawFrame := by
  unfold State.judgeLFrame
  dsimp only
  split
  · exact s.refuseFrame_lawFrame _ _
  · split
    · exact s.judgeRequest_lawFrame _ _ _
    · split
      · rfl
      · exact s.refuseFrame_lawFrame _ _

theorem State.receive_lawFrame (b : Byte) : (s.receive b).lawFrame = s.lawFrame := by
  unfold State.receive
  dsimp only
  split
  · exact State.judgeLFrame_lawFrame _ _
  · rfl

theorem State.receiveAll_lawFrame (bytes : List Byte) : (bytes.foldl State.receive s).lawFrame = s.lawFrame := by
  induction bytes generalizing s with
  | nil => rfl
  | cons b rest ih => exact (ih _).trans (s.receive_lawFrame b)

theorem State.frameSent_lawFrame : s.frameSent.lawFrame = s.lawFrame := by
  unfold State.frameSent
  split <;> rfl

theorem State.judgeAFrame_lawFrame (begun : PortPhase) (bytes : List Byte) :
    (s.judgeAFrame begun bytes).lawFrame = s.lawFrame := by
  unfold State.judgeAFrame
  split
  · split
    · split
      · exact s.judgeRequest_lawFrame _ _ _
      · exact s.respond_lawFrame _ _
    · split <;> rfl
  · rfl

theorem State.clearPort_lawFrame (p : Port) : (s.clearPort p).lawFrame = s.lawFrame := by
  cases p <;> rfl

theorem State.addQuanta_lawFrame (n : Nat) : (s.addQuanta n).lawFrame = s.lawFrame := by
  obtain ⟨_, _, h⟩ := s.addQuanta_frame n
  rw [h]
  rfl

theorem State.offerQuantum_lawFrame : s.offerQuantum.lawFrame = s.lawFrame := by
  rcases s.offerQuantum_cases with ⟨-, -, h⟩ | ⟨-, h⟩ <;> rw [h]
  rfl

theorem State.countOpenPulse_lawFrame : s.countOpenPulse.lawFrame = s.lawFrame := by
  unfold State.countOpenPulse
  dsimp only
  split
  · split <;> rfl
  · rfl

theorem State.endMinute_lawFrame : s.endMinute.lawFrame = s.lawFrame := by
  have judged : s.judgeMinute.lawFrame = s.lawFrame := by
    refine Eq.trans ?_ (s.addQuanta_lawFrame s.fallbackQuanta)
    unfold State.judgeMinute
    dsimp only
    split <;> rfl
  change (if s.pulse.minuteFull then s.judgeMinute else s).lawFrame = s.lawFrame
  split
  · exact judged
  · rfl

theorem State.clockMoved_lawFrame (old new : Nat) (wasValid : Bool) :
    (s.clockMoved old new wasValid).lawFrame = s.lawFrame := by
  refine Eq.trans ?_ s.reevaluateWindow_lawFrame
  unfold State.clockMoved
  dsimp only
  split
  · simp only [State.handOwed_lawFrame, State.handClockSet_lawFrame, State.queueDeadlines_lawFrame,
      State.handTamperClockSet_lawFrame]
    rfl
  · simp only [State.handClockSet_lawFrame, State.queueDeadlines_lawFrame, State.handTamperClockSet_lawFrame]
    rfl

/-- What follows a stored write leaves all that the laws read. -/
theorem State.perform_lawFrame (f : FollowUp) : (s.perform f).lawFrame = s.lawFrame := by
  cases f with
  | answer p status payload => exact s.answer_lawFrame _ _ _
  | notice k => exact s.raise_lawFrame k
  | quantumTaken => exact State.offerQuantum_lawFrame _
  | dayCloseTaken =>
    change s.dayCloseStored.lawFrame = s.lawFrame
    unfold State.dayCloseStored
    dsimp only
    split <;> rfl
  | ceilingReached | codeServed => rfl
  | windowReevaluated => exact s.reevaluateWindow_lawFrame
  | clockMoved old new wasValid => exact s.clockMoved_lawFrame old new wasValid

theorem State.performAll_lawFrame (fs : List FollowUp) : (fs.foldl State.perform s).lawFrame = s.lawFrame := by
  induction fs generalizing s with
  | nil => rfl
  | cons f rest ih => exact (ih _).trans (s.perform_lawFrame f)

theorem State.performWarned_lawFrame (fs : List FollowUp) : (fs.foldl State.performWarned s).lawFrame = s.lawFrame := by
  induction fs generalizing s with
  | nil => rfl
  | cons f rest ih =>
    refine (ih _).trans ?_
    unfold State.performWarned
    split
    · exact s.raise_lawFrame _
    · rfl

end

/-! ### The events of the other blocks -/

section
variable {e : Event} {v : LawView}

/-- The end of an event at the account: `v` is what it found (R4). -/
theorem Event.keeps_accountResults (before : Nv) (hv : v.exhausted = before.account.exhausted)
    (he : e.lawView = { v with exhausted := e.nv.account.exhausted }) : v.Keeps (e.accountResults before).lawView := by
  let u := e.lowCreditIfChanged before.account
  have low : e.lowCredit.lawView = e.lawView := by
    unfold Event.lowCredit
    dsimp only
    split <;> split <;> rfl
  have hu : u.lawView = e.lawView := by
    unfold u Event.lowCreditIfChanged
    split
    · rfl
    · exact low
  have hafter : u.nv.account.exhausted = e.nv.account.exhausted := congrArg LawView.exhausted hu
  have hcondition : v.Keeps (u.creditCondition v.exhausted u.nv.account.exhausted).lawView :=
    Event.keeps_creditCondition (by rw [hu, he, hafter])
  have hand (d : Event) : (d.handCeiling before).lawView = d.lawView := by
    unfold Event.handCeiling
    split <;> rfl
  rw [Event.accountResults, hand, ← hv]
  exact hcondition

theorem Event.sameImages_accountResults (e : Event) (before : Nv) :
    e.state.SameImages (e.accountResults before).state := by
  have low : e.state.SameImages (e.lowCreditIfChanged before.account).state := by
    unfold Event.lowCreditIfChanged Event.lowCredit
    dsimp only
    split
    · exact ⟨rfl, rfl, rfl⟩
    · split <;> split <;> exact ⟨rfl, rfl, rfl⟩
  exact low.trans ((Event.within_creditCondition _ _ _).trans (Event.within_handCeiling _ _)).sameImages

/-- An event at the account that has changed the account record alone of what the laws read. -/
theorem Event.kept_accountResults {s : State} (hi : s.SameImages e.state)
    (he : e.lawView = { s.lawView with exhausted := e.nv.account.exhausted }) :
    s.Kept (e.accountResults s.nv).state :=
  ⟨Event.keeps_accountResults s.nv rfl he, hi.trans (e.sameImages_accountResults s.nv)⟩

/-- The end of an event at the tamper monitor: `v` is what it found (R145). -/
theorem Event.keeps_tamperResults (before : Nv) (detected : Bool) (hv : v.tampered = before.tamperCondition)
    (he : e.lawView = { v with tampered := e.nv.tamperCondition }) :
    v.Keeps (e.tamperResults before detected).lawView := by
  have notified (d : Event) (p : Prop) [Decidable p] :
      (if p then d.notify .tamper else d).lawView = d.lawView := by split <;> rfl
  rw [Event.tamperResults, notified, ← hv]
  exact Event.keeps_tamperCondition he

/-- An event at the monitor that has changed, of what the laws read, the TAMPER hold's condition alone. -/
theorem Event.kept_tamperResults {s : State} (detected : Bool) (hi : s.SameImages e.state)
    (he : e.lawView = { s.lawView with tampered := e.nv.tamperCondition }) :
    s.Kept (e.tamperResults s.nv detected).state :=
  ⟨Event.keeps_tamperResults s.nv detected rfl he, hi.trans (e.within_tamperResults s.nv detected).sameImages⟩

end

section
variable (e : Event)

theorem Event.kept_graceReached (clock : Nat) (k : HoldKind) : e.state.Kept (e.graceReached clock k).state :=
  (e.within_graceReached clock k).kept (e.keeps_graceReached clock k)

theorem Event.kept_graceEnds (cause : FirmCause) (k : HoldKind) : e.state.Kept (e.graceEnds cause k).state :=
  (e.within_graceEnds cause k).kept (e.keeps_graceEnds cause k)

theorem Event.kept_restoreReached (clock : Nat) : e.state.Kept (e.restoreReached clock).state :=
  (e.within_restoreReached clock).kept (e.keeps_restoreReached clock)

theorem Event.kept_limitDeadlines (clock : Nat) : e.state.Kept (e.limitDeadlines clock).state :=
  (e.within_limitDeadlines clock).kept (e.keeps_limitDeadlines clock)

theorem Event.kept_windowEdge (edge : WindowEdge) : e.state.Kept (e.windowEdge edge).state :=
  (e.within_windowEdge edge).kept (e.keeps_windowEdge edge)

theorem Event.kept_ceilingReached : e.state.Kept e.ceilingReached.state :=
  e.within_ceilingReached.kept e.keeps_ceilingReached

/-- A lapse changes the lapse marker with the hold list and the contactor (R119). -/
theorem Event.kept_armReached (clock : Nat) : e.state.Kept (e.armReached clock).state := by
  refine ⟨e.keeps_armReached clock, ?_⟩
  have disarmed (d : Event) : d.state.SameImages (if d.nv.contactor = .armed then d.giveDisarm else d).state :=
    (Event.within_ite _ _ _ _ d.within_giveDisarm (.refl d)).sameImages
  have marked (d : Event) : d.state.SameImages (d.updateNv (fun n => { n with lapseMarker := true })).state :=
    ⟨rfl, rfl, rfl⟩
  unfold Event.armReached
  split
  · next a _ =>
    split
    · have dropped : e.state.SameImages (e.log (.armLapsed a.deadline a.minutes)).dropArmDeadline.state := ⟨rfl, rfl, rfl⟩
      exact ((dropped.trans (disarmed _)).trans (marked _)).trans (Event.within_place _ _ _ _ _).sameImages
    · exact ⟨rfl, rfl, rfl⟩
  · exact ⟨rfl, rfl, rfl⟩

theorem Event.kept_applyCredit (v : Nat) : e.state.Kept (e.applyCredit v).state :=
  Event.kept_accountResults (e := e.updateAccount (fun a => a.applyCredit v)) ⟨rfl, rfl, rfl⟩ rfl

theorem Event.kept_applyLimit (v : Nat) : e.state.Kept (e.applyLimit v).state :=
  Event.kept_accountResults (e := e.updateAccount (fun a => { a with emergencyLimit := v })) ⟨rfl, rfl, rfl⟩ rfl

theorem Event.kept_remove_remote (cause : RemovalCause) (named : Option Policy) (policy : Policy) :
    e.state.Kept ((e.updateNv (fun n => { n with lapseMarker := false })).remove .remote cause named policy).state :=
  have cleared : e.state.SameImages (e.updateNv (fun n => { n with lapseMarker := false })).state := ⟨rfl, rfl, rfl⟩
  ⟨e.keeps_remove_remote _ _ _, cleared.trans (Event.within_remove _ _ _ _ _).sameImages⟩

theorem Event.kept_detect (k : TamperKind) (entered : TamperState) (outage : Bool) :
    e.state.Kept (e.detect k entered outage).state :=
  Event.kept_tamperResults _ ⟨rfl, rfl, rfl⟩ rfl

theorem Event.kept_openWindow (closing minutes : Nat) : e.state.Kept (e.openWindow closing minutes).state :=
  Event.kept_tamperResults _ ⟨rfl, rfl, rfl⟩ rfl

theorem Event.kept_closeWindow (cause : CloseCause) : e.state.Kept (e.closeWindow cause).state :=
  Event.kept_tamperResults (e := e.updateNv (fun n => { n with window := none })) false ⟨rfl, rfl, rfl⟩ rfl

/-- A clear changes, of what the laws read, the TAMPER hold's condition alone. -/
theorem Event.clearKinds_lawView (path : ClearPath) (ks : List TamperKind) :
    e.state.SameImages (ks.foldl (Event.clearKind path) e).state ∧
      (ks.foldl (Event.clearKind path) e).lawView =
        { e.lawView with tampered := (ks.foldl (Event.clearKind path) e).nv.tamperCondition } := by
  induction ks generalizing e with
  | nil => exact ⟨⟨rfl, rfl, rfl⟩, rfl⟩
  | cons k rest ih =>
    obtain ⟨himages, hview⟩ := ih (e.clearKind path k)
    have one : e.state.SameImages (e.clearKind path k).state ∧
        (e.clearKind path k).lawView = { e.lawView with tampered := (e.clearKind path k).nv.tamperCondition } := by
      unfold Event.clearKind
      dsimp only
      split <;> exact ⟨⟨rfl, rfl, rfl⟩, rfl⟩
    exact ⟨one.1.trans himages, by rw [List.foldl_cons, hview, one.2]⟩

theorem Event.kept_clearAll (path : ClearPath) (ks : List TamperKind) : e.state.Kept (e.clearAll path ks).state :=
  have ⟨himages, hview⟩ := e.clearKinds_lawView path ks
  Event.kept_tamperResults false himages hview

end

end Sys2Proof.Machine
end

