-- ==== Sys2Proof/Laws/LawCommands.lean ====
section
namespace Sys2Proof.Machine

/-! ### Codes -/

theorem Nv.keepRefusal_lawView (n : Nv) (c : CodeService) (stage : CodeStage) (outcome : Status) (d : Option Position) :
    (n.keepRefusal c stage outcome).lawView d = n.lawView d := by
  unfold Nv.keepRefusal
  split <;> rfl

section
variable {s t : State}

/-- An operation of the supply controller or the contactor driver, in an event begun with what the laws read. -/
theorem Event.Within.kept_of {e e' : Event} (h : e.Within e') (hs : e.state.lawFrame = s.lawFrame)
    (laws : e.lawView.Keeps e'.lawView) : s.Kept e'.state :=
  (State.kept_of_frame hs).trans (h.kept laws)

theorem Event.eventKeeps_refuseCode_of {e : Event} (hl : s.Live) (h : e.state.lawFrame = s.lawFrame) (c : CodeService)
    (r : CodeResult) : s.EventKeeps (e.refuseCode c r) := by
  let reset := if r.stage.resets then e.updateNv (fun n => n.resetFailures c.port) else e
  let kept := reset.updateNv (fun n => n.keepRefusal c r.stage r.outcome)
  let u : State := { kept.state with code := { kept.state.code with service := some { c with atOwner := false } } }
  have hreset : reset.state.lawFrame = e.state.lawFrame := by
    unfold reset
    split <;> rfl
  have hlaws : u.lawView = reset.state.lawView := Nv.keepRefusal_lawView _ _ _ _ _
  have hu : u.lawFrame = s.lawFrame := by
    refine Eq.trans ?_ (hreset.trans h)
    change (u.lawView, _) = (reset.state.lawView, _)
    rw [hlaws]
    rfl
  unfold Event.refuseCode
  refine State.eventKeeps_ite (fun _ => State.Kept.commit hl (State.kept_of_frame ?_) _) fun _ =>
    State.eventKeeps_of_frame ?_
  · exact hu
  · exact (u.answer_lawFrame _ _ _).trans hu

theorem State.eventKeeps_refuseCode (hl : s.Live) (h : t.lawFrame = s.lawFrame) (c : CodeService) (r : CodeResult) :
    s.EventKeeps (t.refuseCode c r) :=
  Event.eventKeeps_refuseCode_of (e := Event.begin t c.port.origin) hl h c r

/-- An application that keeps the laws in its event keeps them, refused or not. -/
theorem State.eventKeeps_applyCode (hl : s.Live) (h : t.lawFrame = s.lawFrame) (c : CodeService) (b : Block)
    (test : Option Status) (effect : CodeEffect) {apply : Event → Event}
    (happly : ∀ e : Event, e.state.Kept (apply e).state) :
    s.EventKeeps (t.applyCode c b test effect apply) := by
  refine State.eventKeeps_ite (fun _ => State.eventKeeps_refuseCode hl h _ _) fun _ => ?_
  cases test with
  | some outcome => exact State.eventKeeps_refuseCode hl h _ _
  | none =>
    refine State.Kept.commit hl ?_ _
    exact ((State.kept_of_frame h).trans (happly (Event.begin t c.port.origin))).trans (State.kept_of_frame rfl)

theorem State.eventKeeps_refuseAtCheck (hl : s.Live) (c : CodeService) : s.EventKeeps (s.refuseAtCheck c) := by
  unfold State.refuseAtCheck
  dsimp only
  split <;> exact Event.eventKeeps_refuseCode_of hl (by rfl) _ _

theorem State.eventKeeps_applyHalf (hl : s.Live) (c : CodeService) (h : PendingHalf) :
    s.EventKeeps (s.applyHalf c h) := by
  have held : s.EventKeeps (s.holdHalf c h) :=
    State.eventKeeps_applyCode hl (by rfl) _ _ _ _ fun _ => State.kept_of_frame rfl
  have change (first second : PendingHalf) : s.EventKeeps (s.changeKey c first second) :=
    State.eventKeeps_ite (fun _ => State.eventKeeps_refuseCode hl (by rfl) _ _) fun _ =>
      State.eventKeeps_ite (fun _ => State.eventKeeps_refuseCode hl (by rfl) _ _) fun _ =>
        State.Kept.commit hl (State.kept_of_frame (by rfl)) _
  unfold State.applyHalf
  split
  · exact held
  · split
    · exact change _ _
    · exact change _ _
    · exact held

theorem State.eventKeeps_goOn (hl : s.Live) (c : CodeService) : s.EventKeeps (s.goOn c) :=
  State.eventKeeps_ite (fun _ => (State.eventKeeps_applyHalf hl _ _).takes) fun _ =>
    (State.eventKeeps_refuseAtCheck hl _).takes

theorem State.eventKeeps_handCode (s : State) (c : CodeService) : s.EventKeeps (s.handCode c) := by
  unfold State.handCode
  dsimp only
  split <;> exact State.eventKeeps_of_frame (by rfl)

theorem State.eventKeeps_serveChecked (hl : s.Live) (c : CodeService) : s.EventKeeps (s.serveChecked c) := by
  have refused (c : CodeService) (r : CodeResult) : s.EventKeeps (s.refuseCode c r) :=
    State.eventKeeps_refuseCode hl (by rfl) c r
  have goes (c : CodeService) : s.EventKeeps ((s.serve c).goOn c) :=
    (State.eventKeeps_of_frame (by rfl)).trans (State.eventKeeps_goOn (s := s.serve c) hl c)
  unfold State.serveChecked
  refine State.eventKeeps_ite (fun _ => goes _) fun _ => ?_
  refine State.eventKeeps_ite (fun _ => refused _ _) fun _ => ?_
  refine State.eventKeeps_ite (fun _ => refused _ _) fun _ => ?_
  refine State.eventKeeps_ite (fun _ => refused _ _) fun _ => ?_
  refine State.eventKeeps_ite (fun _ => refused _ _) fun _ => ?_
  refine State.eventKeeps_ite (fun _ => refused _ _) fun _ => ?_
  exact State.eventKeeps_ite (fun _ => goes _) fun _ => s.eventKeeps_handCode _

theorem State.eventKeeps_serveCode (hl : s.Live) (p : Port) (digits : List Byte) :
    s.EventKeeps (s.serveCode p digits) := by
  unfold State.serveCode
  refine State.eventKeeps_ite (fun _ => State.eventKeeps_refuseCode hl (by rfl) _ _) fun _ => ?_
  dsimp only
  split
  · exact State.eventKeeps_refuseCode hl (by rfl) _ _
  · exact State.eventKeeps_serveChecked hl _

theorem State.eventKeeps_limitCode (hl : s.Live) (clock : Nat) : s.EventKeeps (s.limitCode clock) := by
  unfold State.limitCode
  dsimp only
  exact State.eventKeeps_ite (fun _ => .refl s) fun _ => State.Kept.commit hl (State.kept_of_frame (by rfl)) _

/-! ### The commands of the code unit and the journal -/

theorem State.eventKeeps_answer (s : State) (p : Port) (status : Status) (payload : List Byte) :
    s.EventKeeps (s.answer p status payload) :=
  State.eventKeeps_of_frame (s.answer_lawFrame _ _ _)

theorem eventKeeps_execSubmitCode {p : Port} (h : execSubmitCode p s = .next t) : s.EventKeeps t := by
  refine eventKeeps_ifRunning (fun hl => ?_) h
  dsimp only
  split
  · exact State.eventKeeps_goOn hl _
  · split
    · let u := ((s.leaveLine (.submitCode p)).leaveQueue).takeRequest p
      have left : s.EventKeeps u := State.eventKeeps_of_frame rfl
      have hu : u.Live := hl.of_power rfl
      exact left.trans (State.eventKeeps_serveCode hu _ _)
    · exact State.eventKeeps_of_frame rfl

theorem eventKeeps_execClearFirstRefusal {p : Port} (h : execClearFirstRefusal p s = .next t) : s.EventKeeps t := by
  refine eventKeeps_whenRunning (fun hl => ?_) h
  dsimp only
  split
  · split
    · exact State.eventKeeps_of_frame (by simp)
    · exact State.Kept.commit hl (State.kept_of_frame (by rfl)) _
  · exact .refl s

theorem eventKeeps_execPendingHalfLapse (h : execPendingHalfLapse s = .next t) : s.EventKeeps t := by
  refine eventKeeps_whenRunning (fun hl => ?_) h
  split
  · split
    · exact State.Kept.commit hl (State.kept_of_frame (by rfl)) _
    · exact State.eventKeeps_of_frame (by rfl)
  · exact State.eventKeeps_ite (fun _ => State.eventKeeps_of_frame (by rfl)) fun _ => .refl s

/-- A release changes the journal alone. -/
theorem State.eventKeeps_release (hl : s.Live) (p : Port) (seq : Nat) : s.EventKeeps (s.release p seq) := by
  refine State.eventKeeps_of_new hl (.refl _) rfl (fun w hw => ?_) rfl
  rcases List.mem_append.mp (show w ∈ s.writes ++ _ from hw) with hw | hw
  · exact .inl hw
  · exact .inr (congrArg Write.image (List.mem_singleton.mp hw))

theorem eventKeeps_execReleaseJournal {p : Port} (h : execReleaseJournal p s = .next t) : s.EventKeeps t := by
  refine eventKeeps_ifRunning (fun hl => ?_) h
  dsimp only
  split
  · refine State.eventKeeps_ite (fun _ => State.eventKeeps_of_frame (by simp)) fun _ => ?_
    split
    · exact State.eventKeeps_of_frame (by simp)
    · let u := s.leaveJournal.takeRequest p
      have left : s.EventKeeps u := State.eventKeeps_of_frame rfl
      have hu : u.Live := hl.of_power rfl
      exact left.trans (State.eventKeeps_release hu _ _)
    · exact State.eventKeeps_of_frame (by simp)
    · exact State.eventKeeps_of_frame (by simp)
  · exact .refl s

/-! ### The commands of the account and the clock and tariff unit -/

theorem eventKeeps_execSetDebt (h : execSetDebt s = .next t) : s.EventKeeps t := by
  refine eventKeeps_ifRunning (fun hl => ?_) h
  dsimp only
  split
  · refine State.eventKeeps_ite (fun _ => State.eventKeeps_of_frame (by simp)) fun _ => State.EventKeeps.takes ?_
    exact State.eventKeeps_ite (fun _ => State.Kept.commit hl (State.kept_of_frame (by rfl)) _) fun _ =>
      State.eventKeeps_of_frame (by simp)
  · exact State.eventKeeps_of_frame (by rfl)

theorem State.kept_acceptEvent (s : State) : s.Kept s.acceptEvent.state := by
  unfold State.acceptEvent
  refine Event.kept_accountResults ?_ ?_
  · exact ⟨rfl, rfl, rfl⟩
  · rfl

theorem State.kept_quantumEvent (s : State) : s.Kept s.quantumEvent.state := by
  unfold State.quantumEvent
  refine Event.kept_accountResults ?_ ?_
  · exact ⟨rfl, rfl, rfl⟩
  · rfl

theorem State.kept_dayCloseEvent (s : State) (d : DayCloseEvent) : s.Kept (s.dayCloseEvent d).state := by
  have notified (e : Event) (p : Prop) [Decidable p] :
      ((if p then e else e.notify .creditChanged).andThen .dayCloseTaken).state = e.state := by split <;> rfl
  unfold State.dayCloseEvent
  dsimp only
  rw [notified]
  refine Event.kept_accountResults ?_ ?_
  · exact ⟨rfl, rfl, rfl⟩
  · rfl

theorem eventKeeps_execAcceptEmergency (h : execAcceptEmergency s = .next t) : s.EventKeeps t := by
  refine eventKeeps_whenRunning (fun hl => ?_) h
  split
  · refine State.eventKeeps_ite (fun _ => State.Kept.commit hl ?_ _) fun _ => State.eventKeeps_of_frame (by simp)
    exact (State.kept_of_frame (by rfl)).trans (s.leaveArrivals.takeRequest .a).kept_acceptEvent
  · exact .refl s

/-- The configured classes are settings of the tamper monitor (R196, R197). -/
theorem Settings.write_classes (x : Settings) {n : Nat} (hn : settingOwner n ≠ .tamper) (v : Nat) :
    (x.write n v).classes = x.classes := by
  unfold Settings.write
  split <;> simp_all [settingOwner]

/-- A setting of another block leaves what the laws read. -/
theorem Nv.writeSetting_lawView (m : Nv) {n : Nat} (hn : settingOwner n ≠ .tamper) (v : Nat) (d : Option Position) :
    { m with settings := m.settings.write n v }.lawView d = m.lawView d := by
  have hclass (k : TamperKind) : { m with settings := m.settings.write n v }.effectiveClass k = m.effectiveClass k := by
    simp only [Nv.effectiveClass, m.settings.write_classes hn v]
  have hcondition : { m with settings := m.settings.write n v }.tamperCondition = m.tamperCondition := by
    simp only [Nv.tamperCondition, hclass]
  simp only [Nv.lawView, hcondition]

theorem State.writeSetting_lawFrame (s : State) {n : Nat} (hn : settingOwner n ≠ .tamper) (v : Nat) :
    { s with nv := { s.nv with settings := s.nv.settings.write n v } }.lawFrame = s.lawFrame := by
  have hview := s.nv.writeSetting_lawView hn v (s.driver.drive.map (·.direction))
  exact congrArg (fun x => (x, s.stored, s.writes, s.power)) hview

theorem eventKeeps_execAccountSettingChange {p : Port} (h : execAccountSettingChange p s = .next t) :
    s.EventKeeps t := by
  refine eventKeeps_ifRunning (fun hl => ?_) h
  dsimp only
  split
  · next n v _ _ =>
    refine State.eventKeeps_ite (fun howner => ?_) fun _ => .refl s
    refine State.eventKeeps_ite (fun _ => State.eventKeeps_of_frame (by simp)) fun _ => State.EventKeeps.takes ?_
    refine State.eventKeeps_ite (fun _ => State.Kept.commit hl (State.kept_of_frame ?_) _) fun _ =>
      State.eventKeeps_of_frame (by simp)
    have written := State.writeSetting_lawFrame s (n := n) (by rw [howner]; decide) v
    refine Eq.trans ?_ written
    rw [Event.andThen_state]
    split
    · unfold Event.lowCredit
      dsimp only
      split <;> split <;> rfl
    · unfold Event.handCeiling
      split <;> rfl
  · exact .refl s

theorem State.eventKeeps_writeOwnSetting (hl : s.Live) (p : Port) {n : Nat} (hn : settingOwner n ≠ .tamper) (v : Nat) :
    s.EventKeeps (s.writeOwnSetting p n v) :=
  State.Kept.commit hl (State.kept_of_frame (Eq.trans (by rfl) (s.writeSetting_lawFrame hn v))) _

theorem eventKeeps_execWriteSetting {p : Port} (h : execWriteSetting p s = .next t) : s.EventKeeps t := by
  refine eventKeeps_ifRunning (fun hl => ?_) h
  split
  · refine State.eventKeeps_ite (fun _ => State.eventKeeps_of_frame (by simp)) fun _ => ?_
    split
    · exact State.eventKeeps_of_frame (by simp)
    · split
      · next howner =>
        refine State.EventKeeps.takes ?_
        exact State.eventKeeps_ite (fun _ => State.eventKeeps_writeOwnSetting hl _ (by rw [howner]; decide) _) fun _ =>
          s.eventKeeps_answer _ _ _
      · exact State.eventKeeps_of_frame (by rfl)
      · exact State.eventKeeps_of_frame (by rfl)
  · exact State.eventKeeps_of_frame (by rfl)

theorem eventKeeps_execSetClock (h : execSetClock s = .next t) : s.EventKeeps t := by
  have set (u : State) (new : Nat) : (u.setClockEvent new).state.lawFrame = u.lawFrame := by
    unfold State.setClockEvent
    cases u.nv.dueTariff new <;> rfl
  refine eventKeeps_ifRunning (fun hl => ?_) h
  dsimp only
  split
  · refine State.eventKeeps_ite (fun _ => State.eventKeeps_of_frame (by simp)) fun _ => State.EventKeeps.takes ?_
    refine State.eventKeeps_ite (fun _ => ?_) fun _ => s.eventKeeps_answer _ _ _
    exact State.Kept.commitSetting hl (State.kept_of_frame (set (s.takeRequest .l) _)) _ _ _
  · exact State.eventKeeps_of_frame (by rfl)

theorem eventKeeps_execStageTariff (h : execStageTariff s = .next t) : s.EventKeeps t := by
  have staged (u : State) (x : TariffSet) : (u.stageEvent x).state.lawFrame = u.lawFrame := by
    unfold State.stageEvent
    dsimp only
    split <;> rfl
  refine eventKeeps_ifRunning (fun hl => ?_) h
  split
  · split
    · exact State.eventKeeps_of_frame (by simp)
    · refine State.EventKeeps.takes ?_
      exact State.eventKeeps_ite
        (fun _ => State.Kept.commit hl (State.kept_of_frame (staged (s.takeRequest .l) _)) _) fun _ =>
          s.eventKeeps_answer _ _ _
  · exact State.eventKeeps_of_frame (by rfl)

theorem eventKeeps_execCancelTariff (h : execCancelTariff s = .next t) : s.EventKeeps t := by
  refine eventKeeps_ifRunning (fun hl => ?_) h
  dsimp only
  split
  · refine State.eventKeeps_ite (fun _ => State.eventKeeps_of_frame (by simp)) fun _ => State.EventKeeps.takes ?_
    exact State.eventKeeps_ite (fun _ => State.Kept.commit hl (State.kept_of_frame (by rfl)) _) fun _ =>
      s.eventKeeps_answer _ _ _
  · exact State.eventKeeps_of_frame (by rfl)

/-! ### The commands of the supply controller and the contactor driver -/

theorem eventKeeps_execRemoteOpen (h : execRemoteOpen s = .next t) : s.EventKeeps t := by
  refine eventKeeps_ifRunning (fun hl => ?_) h
  split
  · refine State.eventKeeps_ite (fun _ => State.eventKeeps_of_frame (by simp)) fun hnone => State.EventKeeps.takes ?_
    refine State.eventKeeps_ite (fun _ => State.Kept.commit hl ?_ _) fun _ => s.eventKeeps_answer _ _ _
    have hremote : s.nv.holds.remote = none := by simpa using hnone
    exact (Event.within_place (Event.begin (s.takeRequest .l) .lPort) _ _ _ _).kept_of (by rfl)
      (Event.keeps_place_remote (Event.begin (s.takeRequest .l) .lPort) hremote _ _)
  · exact State.eventKeeps_of_frame (by rfl)

theorem eventKeeps_execRemoteConnect (h : execRemoteConnect s = .next t) : s.EventKeeps t := by
  refine eventKeeps_ifRunning (fun hl => ?_) h
  dsimp only
  split
  · split
    · exact State.eventKeeps_of_frame (by simp)
    · refine State.eventKeeps_ite (fun _ => State.eventKeeps_of_frame (by simp)) fun _ => State.EventKeeps.takes ?_
      refine State.eventKeeps_ite (fun _ => State.Kept.commit hl ?_ _) fun _ => s.eventKeeps_answer _ _ _
      exact (State.kept_of_frame (by rfl)).trans
        (Event.kept_remove_remote (Event.begin (s.takeRequest .l) .lPort) _ _ _)
  · exact State.eventKeeps_of_frame (by rfl)

theorem eventKeeps_execClearTrip {p : Port} (h : execClearTrip p s = .next t) : s.EventKeeps t := by
  refine eventKeeps_whenRunning (fun hl => ?_) h
  split
  · refine State.eventKeeps_ite (fun _ => s.eventKeeps_answer _ _ _) fun _ => ?_
    refine State.eventKeeps_ite (fun _ => s.eventKeeps_answer _ _ _) fun _ => ?_
    refine State.eventKeeps_ite (fun _ => s.eventKeeps_answer _ _ _) fun _ => State.Kept.commit hl ?_ _
    exact (Event.within_remove (Event.begin (s.takeRequest p) p.origin) _ _ _ _).kept_of (by rfl)
      (Event.keeps_remove_trip _ _ _ _)
  · exact .refl s

/-- A retry drives from a fault state, in which no arm deadline is held (R133). -/
theorem eventKeeps_execContactorRetry {p : Port} (h : execContactorRetry p s = .next t) : s.EventKeeps t := by
  refine eventKeeps_whenRunning (fun hl => ?_) h
  split
  · refine State.eventKeeps_ite (fun _ => s.eventKeeps_answer _ _ _) fun _ => ?_
    split
    · exact s.eventKeeps_answer _ _ _
    · next d hd =>
      refine State.Kept.commit hl ?_ _
      refine (Event.within_beginDrive (Event.begin (s.takeRequest p) p.origin) _ _ _).kept_of (by rfl)
        (Event.keeps_beginDrive _ _ _ _ fun ht _ => ht.unarmed fun hc => ?_)
      have harmed : s.nv.contactor = .armed := hc
      rw [harmed] at hd
      cases hd
  · exact .refl s

theorem eventKeeps_execPress (h : execPress s = .next t) : s.EventKeeps t := by
  have pressed (r : PressResult) :
      s.Kept ((Event.begin (s.takeRequest .a) .aPort).press r).state :=
    (Event.within_press _ _).kept_of (by rfl) (Event.keeps_press _ _)
  refine eventKeeps_whenRunning (fun hl => ?_) h
  split
  · split
    · refine State.Kept.commit hl ?_ _
      exact pressed .close
    · refine State.Kept.commit hl ?_ _
      exact pressed .late
    · exact State.eventKeeps_of_frame (by simp)
    · exact State.eventKeeps_of_frame (by simp)
  · exact .refl s

theorem eventKeeps_execButtonPress (h : execButtonPress s = .next t) : s.EventKeeps t := by
  refine eventKeeps_whenRunning (fun hl => ?_) h
  refine State.eventKeeps_ite (fun _ => .refl s) fun _ => ?_
  refine State.eventKeeps_ite (fun _ => State.Kept.commit hl ?_ _) fun _ => State.eventKeeps_of_frame (by rfl)
  exact (Event.within_press _ _).kept_of (by rfl) (Event.keeps_press _ _)

end

end Sys2Proof.Machine
end

