-- ==== Sys2Proof/Laws/LawDrive.lean ====
section
namespace Sys2Proof.Machine

section
variable {s t : State}

/-! ### The contactor driver -/

/-- The policy of an emptied list acted on in OPEN (R116, R117). -/
theorem Event.keeps_armBy {e : Event} (hc : e.nv.contactor = .opened) (he : e.nv.holds.isEmpty = true) (p : Policy) :
    e.lawView.Keeps (e.armBy p).lawView := by
  refine (e.sameHolds_armBy p).keeps (fun _ => ?_) (e.keepsDrive_armBy hc p)
  rcases e.armBy_cases p with h | ⟨_, h⟩ <;> rw [h]
  · exact LawView.supplied_beginDrive _ _ _
  · exact ⟨(nomatch ·), fun _ => he⟩

/-- A contactor state entered at the end of a drive (R116, R128). -/
theorem Event.keeps_enter_endDrive {e : Event} {c : Contactor} (hd : e.lawView.drive ≠ none)
    (hc : c.drivenTo = none) (hs : c = .closed → e.nv.holds.anyFirm = false) (ha : c ≠ .armed) :
    e.lawView.Keeps (e.endDrive.enter c).lawView := by
  rw [Event.enter_lawView]
  refine LawView.SameHolds.keeps ⟨rfl, rfl, rfl, rfl⟩ (fun _ => ⟨hs, fun h => absurd h ha⟩) ?_
  exact LawView.keepsDrive_endDrive hd hc

/-- A verified completion ends its drive, and the command of R116 follows it. -/
theorem Event.kept_completed {e : Event} (hd : e.lawView.drive ≠ none) (d : Position) :
    e.state.Kept (e.endDrive.completed d).state := by
  have ended : e.state.SameImages e.endDrive.state := ⟨rfl, rfl, rfl⟩
  cases d with
  | closed =>
    unfold Event.completed
    dsimp only
    split
    · refine ⟨?_, ended.trans (Event.within_beginDrive _ _ _ _).sameImages⟩
      change e.lawView.Keeps e.endDrive.giveOpen.lawView
      rw [Event.giveOpen, Event.beginDrive_lawView]
      exact LawView.SameHolds.keeps ⟨rfl, rfl, rfl, rfl⟩ (fun _ => LawView.supplied_beginDrive _ _ _)
        (LawView.keepsDrive_beginDrive fun ht hl => ht.unarmed_of_drive hl hd)
    · next hfirm =>
      exact ⟨Event.keeps_enter_endDrive hd rfl (fun _ => by simpa using hfirm) (by decide),
        ended.trans (Event.within_enter _ _).sameImages⟩
  | opened =>
    let u := e.endDrive.restartOpenPulses.enter .opened
    have entered : e.state.Kept u.state := by
      have restarted : e.state.SameImages e.endDrive.restartOpenPulses.state := ⟨rfl, rfl, rfl⟩
      refine ⟨?_, restarted.trans (Event.within_enter _ _).sameImages⟩
      change e.lawView.Keeps (e.endDrive.restartOpenPulses.enter .opened).lawView
      have same : (e.endDrive.restartOpenPulses.enter .opened).lawView = (e.endDrive.enter .opened).lawView := by
        simp only [Event.enter_lawView]
        rfl
      rw [same]
      exact Event.keeps_enter_endDrive hd rfl (nomatch ·) (by decide)
    have hc : u.nv.contactor = .opened := by rw [Event.enter_nv]
    change e.state.Kept (if u.nv.holds.isEmpty then u.armBy u.state.armingPolicy else u).state
    split
    · next hempty => exact entered.trans ((Event.within_armBy _ _).kept (Event.keeps_armBy hc hempty _))
    · exact entered

theorem State.eventKeeps_verified (hl : s.Live) {d : Drive} (hd : s.driver.drive = some d) :
    s.EventKeeps (s.verified d) := by
  let e := (Event.begin s d.origin).log d.completionRecord
  have hdrive : e.lawView.drive ≠ none := by
    change s.driver.drive.map _ ≠ none
    simp [hd]
  have completed : s.Kept (e.endDrive.completed d.direction).state := Event.kept_completed (e := e) hdrive _
  unfold State.verified
  dsimp only
  split
  · exact (completed.trans (State.kept_of_frame (by rfl))).commit
      (e := { e.endDrive.completed d.direction with state := (e.endDrive.completed d.direction).state.countChoice }) hl _
  · exact completed.commit hl _

/-- The entry to the contactor state of a fault, from a drive that has ended (R128). -/
theorem State.eventKeeps_faulted (hl : s.Live) {d : Drive} (hd : s.driver.drive = some d) (sense : Sense) :
    s.EventKeeps (s.faulted d sense) := by
  let e := (Event.begin s d.origin).log (.contactorFaultVerify d.direction.faultState d.cause
    (sense.inUse s.nv.settings.phases))
  have hdrive : e.lawView.drive ≠ none := by
    change s.driver.drive.map _ ≠ none
    simp [hd]
  have entered (c : Contactor) (hc : c.drivenTo = none) (h₁ : c ≠ .closed) (h₂ : c ≠ .armed) :
      s.Kept ((e.endDrive.notify .contactorFault).enter c).state := by
    have ended : s.SameImages (e.endDrive.notify .contactorFault).state := ⟨rfl, rfl, rfl⟩
    refine ⟨?_, ended.trans (Event.within_enter _ _).sameImages⟩
    change e.lawView.Keeps ((e.endDrive.notify .contactorFault).enter c).lawView
    rw [Event.enter_lawView, Event.notify_lawView, ← Event.enter_lawView]
    exact Event.keeps_enter_endDrive hdrive hc (fun h => absurd h h₁) h₂
  refine State.Kept.commit hl ?_ _
  cases d.direction with
  | opened => exact entered .welded rfl (by decide) (by decide)
  | closed => exact entered .stuckOpen rfl (by decide) (by decide)

theorem State.eventKeeps_judgeReading (hl : s.Live) {d : Drive} (hd : s.driver.drive = some d) (sense : Sense) :
    s.EventKeeps (s.judgeReading d sense) := by
  unfold State.judgeReading
  refine State.eventKeeps_ite (fun _ => State.eventKeeps_verified hl hd) fun _ => ?_
  refine State.eventKeeps_ite (fun _ => State.eventKeeps_of_frame ?_) fun _ => State.eventKeeps_faulted hl hd _
  unfold State.lawFrame State.lawView
  rw [hd]
  rfl

/-- The output released is no change of the drive's direction (R126). -/
theorem State.endPulse_lawFrame (s : State) : s.endPulse.lawFrame = s.lawFrame := by
  unfold State.lawFrame State.lawView State.endPulse
  cases h : s.driver.drive <;> rfl

theorem State.eventKeeps_openFromWait (hl : s.Live) : s.EventKeeps s.openFromWait := by
  refine State.eventKeeps_ite (fun hc => State.Kept.commit hl ?_ _) fun _ => .refl s
  refine (Event.within_beginDrive (Event.begin s .device) _ _ _).kept_of (by rfl)
    (Event.keeps_beginDrive _ _ _ _ fun ht _ => ht.unarmed ?_)
  change s.nv.contactor ≠ .armed
  rw [hc]
  decide

/-- Pulses while open are handed from OPEN or ARMED alone, in which no drive is in progress (R131). -/
theorem eventKeeps_execPulsesWhileOpen (h : execPulsesWhileOpen s = .next t) : s.EventKeeps t := by
  refine eventKeeps_whenRunning (fun hl => State.eventKeeps_ite (fun _ => ?_) fun _ => .refl s) h
  refine State.eventKeeps_ite (fun hw => State.Kept.commit hl ?_ _) fun _ => State.eventKeeps_of_frame (by rfl)
  let u : State := { s with driver := { s.driver with pulsesHanded := false } }
  let e := (((Event.begin u .device).log .contactorFaultPulses).dropArmDeadline).notify .contactorFault
  have dropped : s.Kept e.state := (Event.within_dropArmDeadline (Event.begin u .device)).kept_of (by rfl)
    (Event.keeps_dropArmDeadline _)
  refine dropped.trans ((Event.within_enter e .welded).kept ?_)
  have hrest : s.nv.contactor.drivenTo = none := by
    replace hw : s.nv.contactor.watched = true := hw
    revert hw
    cases s.nv.contactor <;> decide
  rw [Event.enter_lawView]
  exact LawView.SameHolds.keeps ⟨rfl, rfl, rfl, rfl⟩ (fun _ => LawView.supplied_of_contactor (c := .welded) rfl)
    (LawView.keepsDrive_enter hrest rfl fun _ harm => absurd rfl harm)

/-! ### The tamper monitor -/

theorem State.eventKeeps_takeTamper {u : State} (hl : s.Live) (hu : u.lawFrame = s.lawFrame) {f : State → State}
    {c : Instr} {e : TamperEvent} (hf : ∀ v : State, v.Live → v.EventKeeps (f v)) : s.EventKeeps (u.takeTamper c e f) := by
  have hpower : u.power = s.power := congrArg (fun x => x.2.2.2) hu
  have hlive : u.leaveTamper.Live := hl.of_power hpower
  have htaken : u.EventKeeps (f u.leaveTamper) := (State.eventKeeps_of_frame (by rfl)).trans (hf u.leaveTamper hlive)
  exact (State.eventKeeps_of_frame hu).trans (State.eventKeeps_ite (fun _ => htaken.takes) fun _ => .refl u)

theorem State.eventKeeps_closeWindow (hl : s.Live) (o : Origin) (cause : CloseCause) :
    s.EventKeeps (((Event.begin s o).closeWindow cause).commit .tamper) :=
  State.Kept.commit hl (Event.kept_closeWindow (Event.begin s o) cause) _

/-- Another closing time leaves the window open, and the effective classes with it (R143, R153). -/
theorem Nv.moveClosing_lawView (n : Nv) {w : ServiceWindow} (hw : n.window = some w) (v : ServiceWindow)
    (d : Option Position) : { n with window := some v }.lawView d = n.lawView d := by
  have hclass (k : TamperKind) : { n with window := some v }.effectiveClass k = n.effectiveClass k := by
    simp only [Nv.effectiveClass, hw, Option.isSome_some]
  have hcondition : { n with window := some v }.tamperCondition = n.tamperCondition := by
    simp only [Nv.tamperCondition, hclass]
  simp only [Nv.lawView, hcondition]

theorem eventKeeps_execTamperClockSet (h : execTamperClockSet s = .next t) : s.EventKeeps t := by
  refine eventKeeps_ifRunning (fun hl => ?_) h
  refine State.eventKeeps_takeTamper hl (by rfl) fun v hv => ?_
  dsimp only
  split
  · exact .refl v
  · next w hw =>
    refine State.eventKeeps_ite (fun _ => State.eventKeeps_closeWindow hv _ _) fun _ => ?_
    refine State.eventKeeps_ite (fun _ => .refl v) fun _ => State.Kept.commit hv ?_ _
    exact State.kept_of_frame (congrArg (fun x => (x, v.stored, v.writes, v.power))
      (v.nv.moveClosing_lawView hw _ _))

theorem eventKeeps_execServiceWindowExpiry (h : execServiceWindowExpiry s = .next t) : s.EventKeeps t := by
  refine eventKeeps_ifRunning (fun hl => State.eventKeeps_takeTamper hl s.passExpiry_lawFrame fun v hv => ?_) h
  exact State.eventKeeps_ite (fun _ => State.eventKeeps_closeWindow hv _ _) fun _ => .refl v

theorem eventKeeps_execTamperInputActive {k : TamperKind} (h : execTamperInputActive k s = .next t) :
    s.EventKeeps t := by
  refine eventKeeps_ifRunning (fun hl => State.eventKeeps_takeTamper hl (s.passLevel_lawFrame k true) fun v hv => ?_) h
  exact State.eventKeeps_ite (fun _ => .refl v) fun _ =>
    State.Kept.commit hv (Event.kept_detect (Event.begin v .device) _ _ _) _

/-- A kind that becomes LATCHED stays one that is not QUIET (R142, R145). -/
theorem Event.endEpisode_lawView (e : Event) {k : TamperKind} (hk : (e.nv.tampers.get k).state = .active) :
    (e.endEpisode k).lawView = e.lawView := by
  have hquiet (j : TamperKind) :
      (((e.endEpisode k).nv.tampers.get j).state != .quiet) = ((e.nv.tampers.get j).state != .quiet) := by
    change (((e.nv.tampers.set k _).get j).state != .quiet) = _
    by_cases hj : j = k
    · subst hj
      rw [PerKind.get_set, hk]
      rfl
    · rw [PerKind.get_set_ne _ _ hj]
  have hcondition : (e.endEpisode k).nv.tamperCondition = e.nv.tamperCondition := by
    simp only [Nv.tamperCondition, hquiet]
    rfl
  exact congrArg (fun b => { e.lawView with tampered := b }) hcondition

theorem eventKeeps_execTamperInputInactive {k : TamperKind} (h : execTamperInputInactive k s = .next t) :
    s.EventKeeps t := by
  refine eventKeeps_ifRunning (fun hl => State.eventKeeps_takeTamper hl (s.passLevel_lawFrame k false) fun v hv => ?_) h
  refine State.eventKeeps_ite (fun hactive => State.Kept.commit hv (State.kept_of_frame ?_) _) fun _ => .refl v
  exact congrArg (fun x => (x, v.stored, v.writes, v.power)) (Event.endEpisode_lawView (Event.begin v .device) hactive)

theorem eventKeeps_execClearTamper {p : Port} (h : execClearTamper p s = .next t) : s.EventKeeps t := by
  refine eventKeeps_whenRunning (fun hl => ?_) h
  dsimp only
  split
  · refine State.eventKeeps_ite (fun _ => State.eventKeeps_of_frame (by simp)) fun _ => ?_
    refine State.eventKeeps_ite (fun _ => State.eventKeeps_of_frame (by simp)) fun _ => ?_
    refine State.eventKeeps_ite (fun _ => State.Kept.commit hl ?_ _) fun _ => State.eventKeeps_of_frame (by simp)
    exact (State.kept_of_frame (by rfl)).trans
      (Event.kept_clearAll (Event.begin (s.leaveTamper.takeRequest p) p.origin) _ _)
  · exact .refl s

theorem eventKeeps_execCloseService {p : Port} (h : execCloseService p s = .next t) : s.EventKeeps t := by
  refine eventKeeps_whenRunning (fun hl => ?_) h
  dsimp only
  split
  · refine State.eventKeeps_ite (fun _ => State.eventKeeps_of_frame (by simp)) fun _ => State.Kept.commit hl ?_ _
    exact (State.kept_of_frame (by rfl)).trans
      (Event.kept_closeWindow (Event.begin (s.leaveTamper.takeRequest p) p.origin) .closeService)
  · exact .refl s

theorem eventKeeps_execTamperSettingChange {p : Port} (h : execTamperSettingChange p s = .next t) :
    s.EventKeeps t := by
  refine eventKeeps_ifRunning (fun hl => ?_) h
  dsimp only
  split
  · refine State.eventKeeps_ite (fun _ => ?_) fun _ => .refl s
    refine State.eventKeeps_ite (fun _ => State.eventKeeps_of_frame (by simp)) fun _ => State.EventKeeps.takes ?_
    refine State.eventKeeps_ite (fun _ => State.Kept.commit hl ?_ _) fun _ => State.eventKeeps_of_frame (by simp)
    refine (Event.kept_tamperResults false ?_ ?_).trans (State.kept_of_frame (by rfl))
    · exact ⟨rfl, rfl, rfl⟩
    · rfl
  · exact .refl s

end

end Sys2Proof.Machine
end

