-- ==== Sys2Proof/Laws/LawPower.lean ====
section
namespace Sys2Proof.Machine

section
variable {s t : State}

/-! ### The steps of start-up (R205) -/

/-- An event of the sequence at the supply controller. -/
theorem State.eventKeeps_supplyStep {u : State} {f : Event → Event} (hl : s.Live) (hu : u.lawFrame = s.lawFrame)
    (hf : (Event.begin u .device).state.Kept (f (Event.begin u .device)).state) : s.EventKeeps (u.supplyStep f) :=
  State.Kept.commitSupply hl ((State.kept_of_frame hu).trans hf) _

theorem State.eventKeeps_closeOwed (hl : s.Live) (clock : Nat) : s.EventKeeps (s.closeOwed clock) := by
  unfold State.closeOwed
  dsimp only
  split
  · refine State.Kept.commit hl (State.Kept.trans (State.kept_of_frame ?_) (State.kept_dayCloseEvent _ _)) _
    exact Eq.trans (by rfl) (s.handOwed_lawFrame clock false)
  · exact State.eventKeeps_of_frame (s.handOwed_lawFrame _ _)

theorem State.eventKeeps_contactorCheck (hl : s.Live) (x : Sense) : s.EventKeeps (s.contactorCheck x) := by
  unfold State.contactorCheck
  split
  · refine State.Kept.commit hl ?_ _
    have dropped := (Event.within_dropArmDeadline (Event.begin s .device)).kept (Event.keeps_dropArmDeadline _)
    exact dropped.trans ((Event.within_beginDrive _ _ _ _).kept (Event.keeps_beginDrive _ _ _ _ fun _ _ => rfl))
  · exact .refl s

/-- The contactor check leaves the drive that the contactor state calls for, if no other was in progress (R136). -/
theorem State.fits_contactorCheck (h : s.lawView.Loose) (x : Sense) : (s.contactorCheck x).lawView.Fits := by
  cases hd : s.nv.checkDrive s.driver.drive.isSome x with
  | some d =>
    have ht : s.contactorCheck x = ((Event.begin s .device).dropArmDeadline.beginDrive d .startUp .device).commit
        .driver := by
      unfold State.contactorCheck
      rw [hd]
    rw [ht]
    change ((Event.begin s .device).dropArmDeadline.beginDrive d .startUp .device).lawView.Fits
    rw [Event.beginDrive_lawView]
    exact (LawView.drivenTo_driving d).symm
  | none =>
    have ht : s.contactorCheck x = s := by
      unfold State.contactorCheck
      rw [hd]
    rw [ht]
    refine h.elim (fun hnone => ?_) id
    have hnone : s.driver.drive = none := Option.map_eq_none_iff.mp hnone
    change s.driver.drive.map _ = s.nv.contactor.drivenTo
    rw [hnone] at hd ⊢
    revert hd
    unfold Nv.checkDrive
    cases s.nv.contactor <;> simp [Contactor.drivenTo]

theorem State.eventKeeps_startStep (hl : s.Live) (q : StartSequence) (step : StartStep) :
    s.EventKeeps (s.startStep q step) := by
  cases step with
  | outageRecord =>
    change s.EventKeeps (s.recordOutage q)
    exact State.Kept.commitClearing hl (State.kept_of_frame (by rfl)) .store .reset
  | windowClose =>
    change s.EventKeeps s.closeAtStart
    unfold State.closeAtStart
    split
    · exact State.eventKeeps_closeWindow hl _ .startUp
    · exact .refl s
  | coverStep =>
    change s.EventKeeps (s.outageStep q.intact)
    unfold State.outageStep
    split
    · have levelled : s.Kept (s.setLevel .mainCover s.ret.coverOpen) := State.kept_of_frame rfl
      have detected := Event.kept_detect (Event.begin (s.setLevel .mainCover s.ret.coverOpen) .device) .mainCover
        (if s.ret.coverOpen then .active else .latched) true
      exact (levelled.trans detected).commitClearing hl .tamper .latch
    · exact .refl s
  | owedDays => exact State.eventKeeps_closeOwed hl q.clock
  | graceDeadlines =>
    rw [State.startStep]
    exact State.eventKeeps_supplyStep hl (by rfl) ((Event.kept_graceReached _ _ _).trans (Event.kept_graceReached _ _ _))
  | armDeadline =>
    rw [State.startStep]
    exact State.eventKeeps_supplyStep hl (by rfl) (Event.kept_armReached _ _)
  | restoreTime =>
    rw [State.startStep]
    exact State.eventKeeps_supplyStep hl (by rfl) (Event.kept_restoreReached _ _)
  | halfLapse =>
    change s.EventKeeps (s.lapseAtStart q.clock)
    unfold State.lapseAtStart
    split
    · exact State.eventKeeps_ite (fun _ => State.Kept.commit hl (State.kept_of_frame (by rfl)) _) fun _ => .refl s
    · exact .refl s
  | lockoutA | lockoutL =>
    refine (?_ : ∀ p, s.EventKeeps (s.expireAtStart q.clock p)) _
    intro p
    unfold State.expireAtStart
    split
    · exact State.eventKeeps_ite (fun _ => State.Kept.commit hl (State.kept_of_frame (by rfl)) _) fun _ => .refl s
    · exact .refl s
  | activation =>
    change s.EventKeeps (s.activateAtStart q.clock)
    unfold State.activateAtStart
    split
    · exact State.Kept.commit hl (State.kept_of_frame (by rfl)) _
    · exact .refl s
  | codeLimits => exact State.eventKeeps_limitCode hl _
  | supplyLimits =>
    rw [State.startStep]
    exact State.eventKeeps_supplyStep hl (by rfl) (Event.kept_limitDeadlines _ _)
  | graceLevels =>
    rw [State.startStep]
    refine State.eventKeeps_supplyStep hl (by rfl) ?_
    unfold Event.graceAtStart
    split
    · exact .refl _
    · exact (Event.kept_graceEnds _ _ _).trans (Event.kept_graceEnds _ _ _)
  | windowEdge =>
    rw [State.startStep, State.windowAtStart]
    exact State.eventKeeps_supplyStep hl (by rfl) (Event.kept_windowEdge _ _)
  | ceiling =>
    refine State.eventKeeps_ite (fun _ => ?_) fun _ => State.eventKeeps_of_frame (by rfl)
    exact State.eventKeeps_supplyStep hl (by rfl) (Event.kept_ceilingReached _)
  | breakWait => exact State.eventKeeps_ite (fun _ => .refl s) fun _ => State.eventKeeps_openFromWait hl
  | contactorCheck => exact State.eventKeeps_contactorCheck hl q.sense

/-! ### From one power state to another -/

/-- The three laws on the drive, its target and the arm deadline, read of the parts. -/
structure State.DriveLaws (s : State) : Prop where
  sound : s.DriveSound
  running : s.power = .running → s.lawView.Fits
  starting : ∀ q, s.power = .starting q → s.lawView.Fits ∨ .contactorCheck ∈ q.steps

theorem State.driveFits_iff (s : State) : s.driveFits = true ↔ s.lawView.Fits := beq_iff_eq

theorem State.driveLaws_iff (s : State) :
    s.driveLaw = true ∧ s.everyImage Nv.targetLaw = true ∧ s.armLaw = true ↔ s.DriveLaws := by
  have himages : s.everyImage Nv.targeted = true ↔ s.everyImage Nv.targetLaw = true ∧ s.armLaw = true :=
    State.everyImage_and _ _ s
  rw [← himages]
  have hnone : s.driver.drive.isNone = true ↔ s.lawView.drive = none := by
    change _ ↔ s.driver.drive.map _ = none
    simp
  unfold State.driveLaw
  constructor
  · intro ⟨hdrive, h⟩
    cases hp : s.power with
    | running =>
      rw [hp] at hdrive
      have hfits := s.driveFits_iff.mp hdrive
      exact ⟨⟨h, fun _ => .inr hfits⟩, fun _ => hfits, fun q hq => by simp [hp] at hq⟩
    | starting q =>
      simp only [hp, Bool.or_eq_true, Bool.and_eq_true, List.contains_iff_mem, hnone, s.driveFits_iff] at hdrive
      refine ⟨⟨h, fun _ => ?_⟩, fun hr => by simp [hp] at hr, fun r hr => ?_⟩
      · exact hdrive.elim .inr fun hd => .inl hd.1
      · obtain rfl : q = r := Power.starting.inj (hp.symm.trans hr)
        exact hdrive.imp_right And.right
    | warned | lastWrite | retain | reset | brownOut =>
      refine ⟨⟨h, fun hl => ?_⟩, fun hr => by simp [hp] at hr, fun q hq => by simp [hp] at hq⟩
      simp [State.Live, State.isRunning, hp] at hl
  · intro ⟨⟨h, hloose⟩, hrunning, hstarting⟩
    refine ⟨?_, h⟩
    cases hp : s.power with
    | running => exact s.driveFits_iff.mpr (hrunning hp)
    | starting q =>
      simp only [Bool.or_eq_true, Bool.and_eq_true, List.contains_iff_mem, hnone, s.driveFits_iff]
      rcases hloose (.inr ⟨q, hp⟩) with hd | hf
      · exact (hstarting q hp).imp_right fun hq => ⟨hd, hq⟩
      · exact .inl hf
    | warned | lastWrite | retain | reset | brownOut => rfl

/-- From `s` to `t` every law of the supply is kept. -/
structure State.StepKeeps (s t : State) : Prop extends State.ImagesKeep s t where
  drive : s.DriveLaws → t.DriveLaws

theorem State.StepKeeps.refl (s : State) : s.StepKeeps s := ⟨.refl s, id⟩

theorem State.StepKeeps.trans {u : State} (h : s.StepKeeps t) (k : t.StepKeeps u) : s.StepKeeps u :=
  ⟨h.toImagesKeep.trans k.toImagesKeep, k.drive ∘ h.drive⟩

theorem State.stepKeeps_ite {p : Prop} [Decidable p] {u : State} (ht : p → s.StepKeeps t)
    (hu : ¬ p → s.StepKeeps u) : s.StepKeeps (if p then t else u) := by
  split
  · next h => exact ht h
  · next h => exact hu h

theorem State.EventKeeps.stepKeeps (h : s.EventKeeps t) : s.StepKeeps t where
  toImagesKeep := h.toImagesKeep
  drive := fun ⟨hsound, hrunning, hstarting⟩ =>
    ⟨h.driven hsound, fun hr => h.fits (hrunning (h.power.symm.trans hr)),
      fun q hq => (hstarting q (h.power.symm.trans hq)).imp_left h.fits⟩

/-- A state whose images have the laws of images that the store, its writes and its blocks held. -/
theorem State.everyImage_of_old {P : Nv → Bool} (himages : ∀ n, n = t.nv ∨ n = t.stored ∨ (∃ w ∈ t.writes, w.image = n) →
      ∃ m, (m = s.nv ∨ m = s.stored ∨ ∃ w ∈ s.writes, w.image = m) ∧ (P m = true → P n = true))
    (h : s.everyImage P = true) : t.everyImage P = true := by
  rw [State.everyImage_iff] at h ⊢
  obtain ⟨hn, hs, hw⟩ := h
  have old (n : Nv) (hmem : n = t.nv ∨ n = t.stored ∨ ∃ w ∈ t.writes, w.image = n) : P n = true := by
    obtain ⟨m, hm, hP⟩ := himages n hmem
    rcases hm with rfl | rfl | ⟨w, hmem, rfl⟩
    · exact hP hn
    · exact hP hs
    · exact hP (hw w hmem)
  exact ⟨old _ (.inl rfl), old _ (.inr (.inl rfl)), fun w hmem => old _ (.inr (.inr ⟨w, hmem, rfl⟩))⟩

/-- A part in which no event takes place holds images that were held before it, as far as the laws read them. -/
theorem State.imagesKeep_of_old (himages : ∀ n, n = t.nv ∨ n = t.stored ∨ (∃ w ∈ t.writes, w.image = n) →
      ∃ m, (m = s.nv ∨ m = s.stored ∨ ∃ w ∈ s.writes, w.image = m) ∧ n.lawView none = m.lawView none) :
    s.ImagesKeep t ∧ (s.everyImage Nv.targeted = true → t.everyImage Nv.targeted = true) := by
  have keep {P : Nv → Bool} {L : LawView → Prop} (hP : ∀ n : Nv, P n = true ↔ L (n.lawView none)) :
      s.everyImage P = true → t.everyImage P = true := by
    refine State.everyImage_of_old fun n hn => ?_
    obtain ⟨m, hm, hview⟩ := himages n hn
    exact ⟨m, hm, fun h => (hP n).mpr (by rw [hview]; exact (hP m).mp h)⟩
  exact ⟨⟨keep fun n => n.supplyLaw_iff none, keep fun n => n.creditLaw_iff none, keep fun n => n.tamperLaw_iff none,
    keep fun n => n.lapseLaw_iff none⟩, keep fun n => n.targeted_iff none⟩

/-- A part in which no event takes place, and whose images were held before, keeps the laws. -/
theorem State.stepKeeps_of_old (himages : ∀ n, n = t.nv ∨ n = t.stored ∨ (∃ w ∈ t.writes, w.image = n) →
      ∃ m, (m = s.nv ∨ m = s.stored ∨ ∃ w ∈ s.writes, w.image = m) ∧ n.lawView none = m.lawView none)
    (hdead : ¬ t.Live) : s.StepKeeps t := by
  obtain ⟨hkeep, htargeted⟩ := State.imagesKeep_of_old himages
  refine ⟨hkeep, fun h => ⟨⟨htargeted h.sound.images, fun hl => absurd hl hdead⟩, fun hr => ?_, fun q hq => ?_⟩⟩
  · exact absurd (.inl (by simp [State.isRunning, hr])) hdead
  · exact absurd (.inr ⟨q, hq⟩) hdead

end

end Sys2Proof.Machine
end

