-- ==== Sys2Proof/Proofs/SupplyLaws.lean ====
section
namespace Sys2Proof.Machine

section
variable {s t : State}

/-! ### Writes stored, and stops -/

/-- The images that a state holds, in its blocks, in the store and on their way. -/
def State.HasImage (s : State) (n : Nv) : Prop := n = s.nv ∨ n = s.stored ∨ ∃ w ∈ s.writes, w.image = n

theorem State.hasImage_write {w : Write} (h : w ∈ s.writes) : s.HasImage w.image := .inr (.inr ⟨w, h, rfl⟩)

/-- Images that were held before keep the laws on them, and the drive its own if nothing else changes. -/
theorem State.eventKeeps_of_old (himages : ∀ n, t.HasImage n → s.HasImage n) (hview : t.lawView = s.lawView)
    (hpower : t.power = s.power) : s.EventKeeps t := by
  obtain ⟨hkeep, htargeted⟩ := State.imagesKeep_of_old fun n hn => ⟨n, himages n hn, rfl⟩
  refine ⟨hkeep, fun h => ⟨htargeted h.images, fun hl => ?_⟩, fun hf => by rw [hview]; exact hf, hpower⟩
  rw [hview]
  exact h.loose (hl.of_power hpower.symm)

/-- A write taken up by the store, and left on its way or not. -/
theorem State.eventKeeps_store {w : Write} (hw : w ∈ s.writes) (hnv : t.nv = s.nv) (hdriver : t.driver = s.driver)
    (hstored : t.stored = w.image) (hwrites : ∀ x ∈ t.writes, x ∈ s.writes) (hpower : t.power = s.power) :
    s.EventKeeps t := by
  refine State.eventKeeps_of_old (fun n hn => ?_) (by rw [State.lawView, hnv, hdriver, State.lawView]) hpower
  rcases hn with rfl | rfl | ⟨x, hx, rfl⟩
  · exact .inl hnv
  · rw [hstored]
    exact State.hasImage_write hw
  · exact State.hasImage_write (hwrites x hx)

theorem State.eventKeeps_storeOldest (s : State) : s.EventKeeps s.storeOldest := by
  unfold State.storeOldest
  split
  · exact .refl s
  · next w rest hw =>
    have stored : s.EventKeeps ({ s with writes := rest }.store w) :=
      State.eventKeeps_store (w := w) (by rw [hw]; exact List.mem_cons_self) rfl rfl rfl
        (fun x hx => by rw [hw]; exact List.mem_cons_of_mem w hx) rfl
    exact stored.trans (State.eventKeeps_of_frame (State.performAll_lawFrame _ _))

/-- The last write holds what the store holds, as far as the laws read it (R201). -/
theorem State.stepKeeps_beginLastWrite (s : State) : s.StepKeeps s.beginLastWrite := by
  refine State.stepKeeps_of_old (fun n hn => ?_) (by simp [State.Live, State.isRunning, State.beginLastWrite])
  refine ⟨s.stored, .inr (.inl rfl), ?_⟩
  rcases hn with rfl | rfl | ⟨w, hw, rfl⟩
  · rfl
  · rfl
  · obtain rfl := List.mem_singleton.mp hw
    rfl

theorem State.stepKeeps_warn (s : State) : s.StepKeeps s.warn := by
  have warned (u : State) (hnv : u.nv = s.nv) (hs : u.stored = s.stored) (hw : u.writes = s.writes)
      (hp : u.power = .warned) : s.StepKeeps u := by
    refine State.stepKeeps_of_old (fun n hn => ⟨n, ?_, rfl⟩) (by simp [State.Live, State.isRunning, hp])
    rw [hnv, hs, hw] at hn
    exact hn
  unfold State.warn
  dsimp only
  refine State.stepKeeps_ite (fun _ => State.StepKeeps.trans ?_ (State.stepKeeps_beginLastWrite _)) fun _ => ?_
  all_goals exact warned _ rfl rfl rfl rfl

theorem State.stepKeeps_storeWarned (s : State) : s.StepKeeps s.storeWarned := by
  unfold State.storeWarned
  split
  · exact .refl s
  · next w rest hw =>
    have stored : s.EventKeeps ({ s with writes := rest }.store w) :=
      State.eventKeeps_store (w := w) (by rw [hw]; exact List.mem_cons_self) rfl rfl rfl
        (fun x hx => by rw [hw]; exact List.mem_cons_of_mem w hx) rfl
    have followed := stored.trans (State.eventKeeps_of_frame (State.performWarned_lawFrame _ w.follow))
    exact State.stepKeeps_ite (fun _ => followed.stepKeeps.trans (State.stepKeeps_beginLastWrite _)) fun _ =>
      followed.stepKeeps

theorem State.stepKeeps_stopped (s : State) {power : Power} (hr : power ≠ .running) (hp : ∀ q, power ≠ .starting q) :
    s.StepKeeps (s.stopped power) := by
  refine State.stepKeeps_of_old (fun n hn => ⟨s.stored, .inr (.inl rfl), ?_⟩) ?_
  · rcases hn with rfl | rfl | ⟨w, hw, rfl⟩
    · rfl
    · rfl
    · exact absurd (show w ∈ State.delivered.writes from hw) List.not_mem_nil
  · rintro (h | ⟨q, hq⟩)
    · exact hr (by simpa [State.isRunning, State.stopped] using h)
    · exact hp q hq

theorem State.stepKeeps_storeLast (s : State) : s.StepKeeps s.storeLast := by
  unfold State.storeLast
  split
  · exact .refl s
  · next w rest hw =>
    have stored : s.EventKeeps (s.store w) :=
      State.eventKeeps_store (w := w) (by rw [hw]; exact List.mem_cons_self) rfl rfl rfl (fun _ hx => hx) rfl
    exact stored.stepKeeps.trans (State.stepKeeps_stopped _ (by simp) (by simp))

/-- A stop leaves whole some of the writes on their way (R2). -/
theorem State.eventKeeps_survivors (ws : List Write) {s : State} (h : ∀ w ∈ ws, w ∈ s.writes) :
    s.EventKeeps (State.survivors ws s) := by
  induction ws generalizing s with
  | nil => exact .refl s
  | cons w rest ih =>
    have stored : s.EventKeeps (s.store w).countChoice :=
      State.eventKeeps_store (h w List.mem_cons_self) rfl rfl rfl (fun _ hx => hx) rfl
    unfold State.survivors
    refine State.eventKeeps_ite (fun _ => stored.trans (ih fun x hx => h x (List.mem_cons_of_mem w hx))) fun _ => ?_
    exact State.eventKeeps_of_frame rfl

theorem State.stepKeeps_stop (s : State) {power : Power} (hr : power ≠ .running) (hp : ∀ q, power ≠ .starting q) :
    s.StepKeeps (s.cutShort.stopped power) :=
  (State.eventKeeps_survivors s.writes fun _ hw => hw).stepKeeps.trans (State.stepKeeps_stopped _ hr hp)

theorem State.stepKeeps_fall (s : State) : s.StepKeeps s.fall := by
  unfold State.fall
  cases s.power with
  | running | starting _ | warned | lastWrite => exact State.stepKeeps_stop s (by simp) (by simp)
  | retain | reset | brownOut => exact .refl s

/-! ### The sequence of start-up (R204, R205, R136) -/

/-- A change of the power state alone. -/
theorem State.imagesKeep_of_power {power : Power} (h : t.lawFrame = { s with power := power }.lawFrame) :
    s.ImagesKeep t := by
  have powered : s.ImagesKeep { s with power := power } :=
    (State.imagesKeep_of_old (s := s) (t := { s with power := power }) fun n hn => ⟨n, hn, rfl⟩).1
  exact powered.trans (State.eventKeeps_of_frame h).toImagesKeep

theorem State.imagesKeep_runStartUp {p : StartSequence} (q : StartSequence) (steps : List StartStep) {s : State}
    (hp : s.power = .starting p) : s.ImagesKeep (s.runStartUp q steps) := by
  induction steps generalizing s with
  | nil => exact State.imagesKeep_of_power (State.queueDeadlines_lawFrame _)
  | cons step rest ih =>
    have ht := State.eventKeeps_startStep (.inr ⟨p, hp⟩) q step
    rw [State.runStartUp_cons]
    refine ht.toImagesKeep.trans ?_
    dsimp only
    split
    · exact ih (ht.power.trans hp)
    · exact State.imagesKeep_of_power rfl

/-- While the sequence runs, a drive that does not fit is missing and the contactor check is still to come; so it fits
when the sequence has ended (R136). -/
theorem State.driveLaws_runStartUp {p : StartSequence} (q : StartSequence) (steps : List StartStep) {s : State}
    (hp : s.power = .starting p) (hs : s.DriveSound) (hsteps : s.lawView.Fits ∨ .contactorCheck ∈ steps) :
    (s.runStartUp q steps).DriveLaws := by
  have repowered {u v : State} (h : u.DriveSound) (hu : u.Live) {power : Power}
      (hv : v.lawFrame = { u with power := power }.lawFrame) : v.DriveSound ∧ v.lawView = u.lawView ∧ v.power = power := by
    have hview : v.lawView = u.lawView := congrArg Prod.fst hv
    have himages : { u with power := power }.everyImage Nv.targeted = true := h.images
    have hloose : { u with power := power }.DriveSound := ⟨himages, fun _ => h.loose hu⟩
    exact ⟨(State.eventKeeps_of_frame hv).driven hloose, hview, congrArg (fun x => x.2.2.2) hv⟩
  induction steps generalizing s with
  | nil =>
    have hfits : s.lawView.Fits := hsteps.resolve_right List.not_mem_nil
    obtain ⟨hsound, hview, hpower⟩ := repowered hs (.inr ⟨p, hp⟩) (v := s.runStartUp q [])
      (State.queueDeadlines_lawFrame { s with power := .running })
    refine ⟨hsound, fun _ => by rw [hview]; exact hfits, fun r hr => ?_⟩
    rw [hpower] at hr
    cases hr
  | cons step rest ih =>
    have hl : s.Live := .inr ⟨p, hp⟩
    have ht := State.eventKeeps_startStep hl q step
    have htp : (s.startStep q step).power = .starting p := ht.power.trans hp
    have htl : (s.startStep q step).Live := .inr ⟨p, htp⟩
    have hrest : (s.startStep q step).lawView.Fits ∨ .contactorCheck ∈ rest := by
      rcases hsteps with hfits | hmem
      · exact .inl (ht.fits hfits)
      · rcases List.mem_cons.mp hmem with rfl | hmem
        · exact .inl (State.fits_contactorCheck (hs.loose hl) q.sense)
        · exact .inr hmem
    rw [State.runStartUp_cons]
    dsimp only
    split
    · exact ih htp (ht.driven hs) hrest
    · obtain ⟨hsound, hview, hpower⟩ := repowered (ht.driven hs) htl (power := .starting { q with steps := rest }) rfl
      refine ⟨hsound, fun hr => ?_, fun r hr => ?_⟩
      · rw [hpower] at hr
        cases hr
      · rw [hpower] at hr
        obtain rfl : { q with steps := rest } = r := Power.starting.inj hr
        rw [hview]
        exact hrest

theorem stepKeeps_execStartUp {loadhi loadx : Bool} {sense : Sense} (h : execStartUp loadhi loadx sense s = .next t) :
    s.StepKeeps t := by
  cases h
  refine State.stepKeeps_ite (fun _ => .refl s) fun _ => ?_
  let u := s.beginStartUp loadhi loadx sense
  have hu : u.power = .starting (s.startSequence sense) := rfl
  obtain ⟨hkeep, htargeted⟩ : s.ImagesKeep u ∧ (s.everyImage Nv.targeted = true → u.everyImage Nv.targeted = true) := by
    refine State.imagesKeep_of_old fun n hn => ⟨s.stored, .inr (.inl rfl), ?_⟩
    rcases hn with rfl | rfl | ⟨w, hw, rfl⟩
    · rfl
    · rfl
    · exact absurd (show w ∈ State.delivered.writes from hw) List.not_mem_nil
  refine ⟨hkeep.trans (State.imagesKeep_runStartUp _ _ hu), fun hs => ?_⟩
  exact State.driveLaws_runStartUp _ _ hu ⟨htargeted hs.sound.images, fun _ => .inl rfl⟩ (.inr (by decide))

theorem stepKeeps_execWriteStored (h : execWriteStored s = .next t) : s.StepKeeps t := by
  cases h
  have hstored := s.eventKeeps_storeOldest
  split
  · exact hstored.stepKeeps
  · next q hp =>
    refine State.stepKeeps_ite (fun _ => .refl s) fun _ => ?_
    dsimp only
    refine State.stepKeeps_ite (fun _ => ?_) fun _ => hstored.stepKeeps
    have hq := hstored.power.trans hp
    refine hstored.stepKeeps.trans ⟨State.imagesKeep_runStartUp q q.steps hq, fun hs => ?_⟩
    exact State.driveLaws_runStartUp q q.steps hq hs.sound (hs.starting q hq)
  · exact s.stepKeeps_storeWarned
  · exact s.stepKeeps_storeLast
  all_goals exact .refl s

theorem stepKeeps_execPowerFailWarning {heldUp : Bool} (h : execPowerFailWarning heldUp s = .next t) :
    s.StepKeeps t := by
  have warned : s.StepKeeps (if heldUp then s.warn else s.warn.fall) :=
    State.stepKeeps_ite (fun _ => s.stepKeeps_warn) fun _ => s.stepKeeps_warn.trans (State.stepKeeps_fall _)
  cases h
  split
  · exact warned
  · exact warned
  · exact .refl s

theorem stepKeeps_execExternalReset (h : execExternalReset s = .next t) : s.StepKeeps t := by
  cases h
  have marked (u : State) : u.StepKeeps u.markReset := (State.eventKeeps_of_frame (by rfl)).stepKeeps
  exact State.stepKeeps_ite (fun _ => (s.stepKeeps_stop (power := .reset) (by simp) (by simp)).trans (marked _)) fun _ =>
    marked s

theorem eventKeeps_execClockAdvance (h : exec .clockAdvance s = .next t) : s.EventKeeps t := by
  have later : s.EventKeeps s.later := State.eventKeeps_of_frame (by rfl)
  have ticked : s.EventKeeps { s with ret := s.ret.tick } := State.eventKeeps_of_frame (by rfl)
  obtain ⟨p, hp⟩ : ∃ p, s.power = p := ⟨_, rfl⟩
  cases p with
  | running =>
    rw [execClockAdvance_of_running hp] at h
    cases h
    exact State.eventKeeps_ite (fun _ => .refl s) fun _ =>
      later.trans (State.eventKeeps_of_frame (State.queueDeadlines_lawFrame _))
  | starting q =>
    rw [execClockAdvance_of_starting hp] at h
    cases h
    exact State.eventKeeps_ite (fun _ => .refl s) fun _ => later
  | warned | lastWrite =>
    rw [execClockAdvance_of_warned (by simp [hp])] at h
    cases h
    exact ticked
  | retain | reset | brownOut =>
    rw [execClockAdvance_of_unsupplied (by rw [State.isSupplied, hp])] at h
    cases h
    exact State.eventKeeps_ite (fun _ => ticked) fun _ => .refl s

/-! ### Every command -/

/-- A change of LOADHI or LOADX keeps the laws if the event of the passage does. -/
theorem State.eventKeeps_levelChange {u : State} (hu : u.lawFrame = s.lawFrame) {f : State → State}
    (hf : u.Live → u.EventKeeps (f u)) : s.EventKeeps (s.levelChange u f) := by
  have hpower : u.power = s.power := congrArg (fun x => x.2.2.2) hu
  unfold State.levelChange
  split
  · next hp => exact (State.eventKeeps_of_frame hu).trans (hf (.inl (by simp [State.isRunning, hpower, hp])))
  · exact State.eventKeeps_of_frame hu
  · exact .refl s

theorem State.eventKeeps_takeLoadhiFall (hl : s.Live) : s.EventKeeps s.takeLoadhiFall := by
  refine State.Kept.commitSupply hl ?_ _
  exact (State.kept_of_frame (by rfl)).trans ((Event.kept_graceEnds _ _ _).trans (Event.kept_graceEnds _ _ _))

theorem eventKeeps_execLoadhiChange {asserted : Bool} (h : execLoadhiChange asserted s = .next t) : s.EventKeeps t := by
  cases h
  refine State.eventKeeps_levelChange (by rfl) fun hl => State.eventKeeps_ite (fun _ => ?_) fun _ => .refl _
  exact (State.eventKeeps_takeLoadhiFall hl).takes

theorem eventKeeps_execLoadxChange {asserted : Bool} (h : execLoadxChange asserted s = .next t) : s.EventKeeps t := by
  cases h
  refine State.eventKeeps_levelChange (by rfl) fun hl =>
    State.eventKeeps_ite (fun _ => State.EventKeeps.takes ?_) fun _ => .refl _
  let u : State := { s.setLoadx asserted with supply := { (s.setLoadx asserted).supply with loadxFell := false } }
  have hu : u.Live := hl.of_power rfl
  have taken : (s.setLoadx asserted).EventKeeps u := State.eventKeeps_of_frame rfl
  exact taken.trans (State.eventKeeps_openFromWait hu)

theorem eventKeeps_execSupplyClockSet (h : execSupplyClockSet s = .next t) : s.EventKeeps t := by
  refine eventKeeps_whenRunning (fun hl => State.eventKeeps_ite (fun _ => ?_) fun _ => .refl s) h
  refine State.Kept.commitSupply hl ?_ _
  have reached (e : Event) (clock : Nat) : e.state.Kept
      ((((e.graceReached clock .credit).graceReached clock .remote).armReached clock).restoreReached clock).state :=
    ((((e.kept_graceReached _ _).trans (Event.kept_graceReached _ _ _)).trans (Event.kept_armReached _ _))).trans
      (Event.kept_restoreReached _ _)
  exact (State.kept_of_frame (by rfl)).trans ((reached _ _).trans (Event.kept_limitDeadlines _ _))

theorem eventKeeps_execMinuteEnd {windowFirst : Bool} (h : execMinuteEnd windowFirst s = .next t) : s.EventKeeps t := by
  refine eventKeeps_ifRunning (fun _ => State.eventKeeps_ite (fun _ => ?_) fun _ => .refl s) h
  have marked : s.EventKeeps { s with clockUnit := { s.clockUnit with minuteMark := false } } :=
    State.eventKeeps_of_frame (by rfl)
  have window (u : State) : u.EventKeeps u.reevaluateWindow := State.eventKeeps_of_frame u.reevaluateWindow_lawFrame
  have ended (u : State) : u.EventKeeps u.endMinute := State.eventKeeps_of_frame u.endMinute_lawFrame
  refine marked.trans (State.eventKeeps_ite (fun _ => ?_) fun _ => ?_)
  · exact (window _).trans (ended _)
  · exact (ended _).trans (window _)

theorem eventKeeps_execExportPulse {p : Phase} (h : execExportPulse p s = .next t) : s.EventKeeps t := by
  refine eventKeeps_ifRunning (fun _ => State.eventKeeps_ite (fun _ => ?_) fun _ => .refl s) h
  dsimp only
  split
  · exact (State.eventKeeps_of_frame (by rfl)).trans (State.eventKeeps_of_frame (State.addQuanta_lawFrame _ _))
  · exact State.eventKeeps_of_frame (by rfl)

theorem eventKeeps_execImportPulse {p : Phase} (h : execImportPulse p s = .next t) : s.EventKeeps t := by
  refine eventKeeps_ifRunning (fun _ => State.eventKeeps_ite (fun _ => ?_) fun _ => .refl s) h
  have imported : s.EventKeeps (s.updatePulse (fun u =>
      { u.setLine .imp p .asserted with minuteImports := countTo65535 u.minuteImports })) :=
    State.eventKeeps_of_frame rfl
  exact (imported.trans (State.eventKeeps_of_frame (State.countOpenPulse_lawFrame _))).trans
    (State.eventKeeps_of_frame (State.addQuanta_lawFrame _ _))

/-- A transaction at the A-port keeps the laws if its service does. -/
theorem State.eventKeeps_transact {n : Nat} {f : State → State} (hf : s.EventKeeps (f s)) :
    s.EventKeeps (s.transact n f) := by
  unfold State.transact
  split
  · exact hf
  · exact State.eventKeeps_of_frame (by rfl)
  · exact State.eventKeeps_of_frame (by rfl)
  · exact .refl s

/-- The application of a code at its owner: the account's, the tariff's, the tamper monitor's or the supply
controller's (R68). -/
theorem eventKeeps_code {c : Instr} {owner : Block} {u : State} {code : CodeService} {test : Option Status}
    {effect : CodeEffect} {apply : Event → Event} (hl : s.Live) (hu : u.lawFrame = s.lawFrame)
    (happly : ∀ e : Event, e.state.Kept (apply e).state) :
    s.EventKeeps (s.takesTurn c owner (u.applyCode code owner test effect apply)) :=
  (State.eventKeeps_applyCode hl hu code owner test effect happly).takes

/-- The laws of the supply: each command keeps them. -/
theorem stepKeeps_exec (c : Instr) (h : exec c s = .next t) : s.StepKeeps t := by
  unfold exec at h
  cases c with
  | writeStored => exact stepKeeps_execWriteStored h
  | powerFailWarning heldUp => exact stepKeeps_execPowerFailWarning h
  | startUp loadhi loadx sense => exact stepKeeps_execStartUp h
  | externalReset => exact stepKeeps_execExternalReset h
  | retentionDomainLoss =>
    cases h
    exact State.stepKeeps_ite (fun _ => .refl s) fun _ => (State.eventKeeps_of_frame (by rfl)).stepKeeps
  | brownOut =>
    cases h
    exact s.stepKeeps_fall
  | clockAdvance => exact (eventKeeps_execClockAdvance h).stepKeeps
  | lPortFrame bytes =>
    exact (eventKeeps_ifRunning (fun _ => State.eventKeeps_of_frame (s.receiveAll_lawFrame bytes)) h).stepKeeps
  | lPortByteReceived b =>
    exact (eventKeeps_ifRunning (fun _ => State.eventKeeps_of_frame (s.receive_lawFrame b)) h).stepKeeps
  | lPortFrameSent =>
    exact (eventKeeps_ifRunning (fun _ => State.eventKeeps_of_frame s.frameSent_lawFrame) h).stepKeeps
  | lPortBreak =>
    exact (eventKeeps_ifRunning (fun _ => State.eventKeeps_of_frame (s.clearPort_lawFrame .l)) h).stepKeeps
  | lPortGap | thermInactive | buttonRelease =>
    exact (eventKeeps_ifRunning (fun _ => State.eventKeeps_of_frame (by rfl)) h).stepKeeps
  | portClear p =>
    refine (eventKeeps_ifRunning (fun _ => State.eventKeeps_ite (fun _ => ?_) fun _ => .refl s) h).stepKeeps
    exact State.eventKeeps_of_frame (s.clearPort_lawFrame p)
  | pulseLineResting d p =>
    refine (eventKeeps_ifRunning (fun _ => State.eventKeeps_ite (fun _ => ?_) fun _ => .refl s) h).stepKeeps
    exact State.eventKeeps_of_frame (by rfl)
  | voltageWatchExpiry sense =>
    refine (eventKeeps_ifRunning (fun _ => State.eventKeeps_ite (fun _ => ?_) fun _ => .refl s) h).stepKeeps
    exact State.eventKeeps_of_frame (by rfl)
  | hourEnd =>
    refine (eventKeeps_ifRunning (fun _ => State.eventKeeps_ite (fun _ => ?_) fun _ => .refl s) h).stepKeeps
    exact State.eventKeeps_of_frame (by rfl)
  | aPortRequestTransaction begun bytes =>
    cases h
    refine (State.eventKeeps_transact (State.eventKeeps_ite (fun _ => State.eventKeeps_of_frame ?_) fun _ =>
      .refl s)).stepKeeps
    exact (State.judgeAFrame_lawFrame _ _ _).trans rfl
  | aPortReadTransaction begun clocked =>
    cases h
    refine (State.eventKeeps_transact (State.eventKeeps_ite (fun _ => ?_) fun _ => .refl s)).stepKeeps
    exact State.eventKeeps_ite (fun _ => State.eventKeeps_of_frame (by rfl)) fun _ => State.eventKeeps_of_frame (by rfl)
  | status p | readNotices p | snapshot p | readTamper p | readJournal p | readFirstRefusal p =>
    refine (eventKeeps_ifRunning (fun _ => State.eventKeeps_of_frame ?_) h).stepKeeps
    split <;> simp
  | readTariff p =>
    refine (eventKeeps_ifRunning (fun _ => State.eventKeeps_of_frame ?_) h).stepKeeps
    split
    · split <;> simp
    · rfl
  | readSetting p =>
    refine (eventKeeps_ifRunning (fun _ => State.eventKeeps_of_frame ?_) h).stepKeeps
    split
    · dsimp only
      split <;> simp
    · rfl
  | releaseJournal p => exact (eventKeeps_execReleaseJournal h).stepKeeps
  | submitCode p => exact (eventKeeps_execSubmitCode h).stepKeeps
  | clearFirstRefusal p => exact (eventKeeps_execClearFirstRefusal h).stepKeeps
  | credit =>
    refine (eventKeeps_ifRunning (fun hl => ?_) h).stepKeeps
    split
    · exact eventKeeps_code hl (by rfl) fun e => e.kept_applyCredit _
    · exact State.eventKeeps_of_frame (by rfl)
  | emergencyLimit =>
    refine (eventKeeps_ifRunning (fun hl => ?_) h).stepKeeps
    split
    · exact eventKeeps_code hl (by rfl) fun e => e.kept_applyLimit _
    · exact State.eventKeeps_of_frame (by rfl)
  | debtSet =>
    refine (eventKeeps_ifRunning (fun hl => ?_) h).stepKeeps
    split
    · exact eventKeeps_code hl (by rfl) fun _ => State.kept_of_frame rfl
    · exact State.eventKeeps_of_frame (by rfl)
  | service =>
    refine (eventKeeps_ifRunning (fun hl => ?_) h).stepKeeps
    split
    · exact eventKeeps_code hl (by rfl) fun e => e.kept_openWindow _ _
    · exact State.eventKeeps_of_frame (by rfl)
  | tamperClear =>
    refine (eventKeeps_ifRunning (fun hl => ?_) h).stepKeeps
    split
    · exact eventKeeps_code hl (by rfl) fun e => e.kept_clearAll _ _
    · exact State.eventKeeps_of_frame (by rfl)
  | bandPrice =>
    refine (eventKeeps_ifRunning (fun hl => ?_) h).stepKeeps
    split
    · exact eventKeeps_code hl (by rfl) fun _ => State.kept_of_frame rfl
    · exact State.eventKeeps_of_frame (by rfl)
  | reconnect =>
    refine (eventKeeps_ifRunning (fun hl => ?_) h).stepKeeps
    split
    · exact eventKeeps_code hl (by rfl) fun e => e.kept_remove_remote _ _ _
    · exact State.eventKeeps_of_frame (by rfl)
  | lockoutExpiry p =>
    refine (eventKeeps_whenRunning (fun hl => State.eventKeeps_ite (fun _ => ?_) fun _ => .refl s) h).stepKeeps
    exact State.Kept.commit hl (State.kept_of_frame (by rfl)) _
  | energyQuantum =>
    refine (eventKeeps_whenRunning (fun hl => State.eventKeeps_ite (fun _ => ?_) fun _ => .refl s) h).stepKeeps
    exact State.Kept.commit hl ((State.kept_of_frame (by rfl)).trans s.leaveArrivals.kept_quantumEvent) _
  | pendingHalfLapse => exact (eventKeeps_execPendingHalfLapse h).stepKeeps
  | codeUnitClockSet =>
    refine (eventKeeps_whenRunning (fun hl => State.eventKeeps_ite (fun _ => ?_) fun _ => .refl s) h).stepKeeps
    have left : s.EventKeeps s.leaveQueue := State.eventKeeps_of_frame rfl
    have hleft : s.leaveQueue.Live := hl.of_power rfl
    exact left.trans (State.eventKeeps_limitCode hleft _)
  | press => exact (eventKeeps_execPress h).stepKeeps
  | acceptEmergency => exact (eventKeeps_execAcceptEmergency h).stepKeeps
  | setClock => exact (eventKeeps_execSetClock h).stepKeeps
  | remoteOpen => exact (eventKeeps_execRemoteOpen h).stepKeeps
  | remoteConnect => exact (eventKeeps_execRemoteConnect h).stepKeeps
  | stageTariff => exact (eventKeeps_execStageTariff h).stepKeeps
  | cancelTariff => exact (eventKeeps_execCancelTariff h).stepKeeps
  | setDebt => exact (eventKeeps_execSetDebt h).stepKeeps
  | clearTamper p => exact (eventKeeps_execClearTamper h).stepKeeps
  | clearTrip p => exact (eventKeeps_execClearTrip h).stepKeeps
  | contactorRetry p => exact (eventKeeps_execContactorRetry h).stepKeeps
  | writeSetting p => exact (eventKeeps_execWriteSetting h).stepKeeps
  | accountSettingChange p => exact (eventKeeps_execAccountSettingChange h).stepKeeps
  | tamperSettingChange p => exact (eventKeeps_execTamperSettingChange h).stepKeeps
  | closeService p => exact (eventKeeps_execCloseService h).stepKeeps
  | tamperClockSet => exact (eventKeeps_execTamperClockSet h).stepKeeps
  | serviceWindowExpiry => exact (eventKeeps_execServiceWindowExpiry h).stepKeeps
  | tamperInputActive k => exact (eventKeeps_execTamperInputActive h).stepKeeps
  | tamperInputInactive k => exact (eventKeeps_execTamperInputInactive h).stepKeeps
  | buttonPress => exact (eventKeeps_execButtonPress h).stepKeeps
  | importPulse p => exact (eventKeeps_execImportPulse h).stepKeeps
  | exportPulse p => exact (eventKeeps_execExportPulse h).stepKeeps
  | minuteEnd windowFirst => exact (eventKeeps_execMinuteEnd h).stepKeeps
  | midnight =>
    refine (eventKeeps_ifRunning (fun _ => State.eventKeeps_ite (fun _ => ?_) fun _ => .refl s) h).stepKeeps
    exact State.eventKeeps_of_frame ((State.handOwed_lawFrame _ _ _).trans rfl)
  | tariffActivation =>
    refine (eventKeeps_whenRunning (fun hl => ?_) h).stepKeeps
    split
    · exact State.Kept.commit hl (State.kept_of_frame (by rfl)) _
    · exact .refl s
  | dayClose =>
    refine (eventKeeps_whenRunning (fun hl => ?_) h).stepKeeps
    split
    · exact State.Kept.commit hl ((State.kept_of_frame (by rfl)).trans (State.kept_dayCloseEvent _ _)) _
    · exact .refl s
  | friendlyWindowEdge =>
    refine (eventKeeps_whenRunning (fun hl => ?_) h).stepKeeps
    split
    · exact .refl s
    · exact State.Kept.commitSupply hl ((State.kept_of_frame (by rfl)).trans (Event.kept_windowEdge _ _)) _
  | arrearsCeilingReached =>
    refine (eventKeeps_whenRunning (fun hl => State.eventKeeps_ite (fun _ => ?_) fun _ => .refl s) h).stepKeeps
    exact State.Kept.commitSupply hl ((State.kept_of_frame (by rfl)).trans (Event.kept_ceilingReached _)) _
  | demandOverLimit =>
    refine (eventKeeps_whenRunning (fun hl => State.eventKeeps_ite (fun _ => ?_) fun _ => .refl s) h).stepKeeps
    dsimp only
    split
    · exact State.eventKeeps_of_frame (by rfl)
    · exact State.Kept.commit hl ((Event.within_place _ _ _ _ _).kept_of (by rfl) (Event.keeps_place_load _ _)) _
  | pulsesWhileOpen => exact (eventKeeps_execPulsesWhileOpen h).stepKeeps
  | graceDeadline k =>
    exact (eventKeeps_whenRunning (fun hl => State.Kept.commitSupply hl
      (Event.kept_graceReached (Event.begin s .device) _ _) _) h).stepKeeps
  | restoreTime =>
    exact (eventKeeps_whenRunning (fun hl => State.Kept.commitSupply hl
      (Event.kept_restoreReached (Event.begin s .device) _) _) h).stepKeeps
  | armDeadline =>
    exact (eventKeeps_whenRunning (fun hl => State.Kept.commitSupply hl
      (Event.kept_armReached (Event.begin s .device) _) _) h).stepKeeps
  | supplyClockSet => exact (eventKeeps_execSupplyClockSet h).stepKeeps
  | loadhiChange asserted => exact (eventKeeps_execLoadhiChange h).stepKeeps
  | loadxChange asserted => exact (eventKeeps_execLoadxChange h).stepKeeps
  | thermActive =>
    refine (eventKeeps_whenRunning (fun hl => ?_) h).stepKeeps
    refine State.eventKeeps_ite (fun _ => .refl s) fun _ => ?_
    refine State.eventKeeps_ite (fun _ => State.eventKeeps_of_frame (by rfl)) fun _ => State.Kept.commit hl ?_ _
    exact (Event.within_place _ _ _ _ _).kept_of (by rfl) (Event.keeps_place_trip _)
  | drivePulseEnd =>
    cases h
    refine (State.eventKeeps_of_frame ?_).stepKeeps
    split
    · exact s.endPulse_lawFrame
    · exact s.endPulse_lawFrame
    · rfl
  | driveSettleEnd sense =>
    refine (eventKeeps_whenRunning (fun hl => ?_) h).stepKeeps
    split
    · next d hd => exact State.eventKeeps_ite (fun _ => State.eventKeeps_judgeReading hl hd _) fun _ => .refl s
    · exact .refl s
  | outageCoverWatch coverOpen =>
    cases h
    exact (State.eventKeeps_ite (fun _ => State.eventKeeps_of_frame (by rfl)) fun _ => .refl s).stepKeeps

/-- One step is the effect of the command at the front of the queue. -/
theorem stepKeeps_step (h : step s = .next t) : s.StepKeeps t := by
  unfold step at h
  split at h
  · cases h
    exact .refl s
  · next c rest _ =>
    have queued : s.EventKeeps { s with pending := rest } := State.eventKeeps_of_frame (by rfl)
    exact queued.stepKeeps.trans (stepKeeps_exec c h)

end

/-! ## The obligations -/

/-- Settles O37: an event leaves CLOSED with every hold that becomes FIRM, and arms only an empty list. -/
theorem closedHoldsNoFirmHold : Obligations.ClosedHoldsNoFirmHold :=
  fun _ _ hs h => (stepKeeps_step h).supplied hs

/-- Settles O38: the CREDIT and TAMPER holds follow their conditions in the event that changes them, and the REMOTE hold
of a lapse stays as it is while the lapse is marked. -/
theorem holdsFollowTheirConditions : Obligations.HoldsFollowTheirConditions := fun _ _ h =>
  have hkeeps := stepKeeps_step h
  ⟨hkeeps.credited, hkeeps.guarded, hkeeps.lapsed⟩

/-- Settles O41: each command of the contactor begins or ends a drive with the state it enters, and start-up makes good
a missing one at the contactor check. -/
theorem driveMatchesTheContactor : Obligations.DriveMatchesTheContactor := fun s t hdrive htarget harm h =>
  t.driveLaws_iff.mpr ((stepKeeps_step h).drive (s.driveLaws_iff.mp ⟨hdrive, htarget, harm⟩))

end Sys2Proof.Machine
end

