-- ==== Sys2Proof/Laws/SupplyTaken.lean ====
section
namespace Sys2Proof.Machine

/-! ## An event of the supply controller, taken

What every event of the controller leaves once its write is begun: the records it appends, its one write, and nothing
but the supply changed. -/

section
variable {s : State} {o : Origin} {e : Event}

/-- The write of an event of the supply controller changes nothing but the supply (R100, R159). -/
theorem Event.Within.written (h : (Event.begin s o).Within e) (i : Instr) :
    let t := (e.commit .supply).leaveLine i
    t.nv.journal = s.nv.journal.appendAll s.clock o e.records ∧ s.beganWrite t .supply ∧
      t.withStoreOf s = s.leaveLine i ∧ t.nv.withSupplyOf s.nv = s.nv :=
  ⟨h.image_journal, Event.beganWrite_commit h.writes _ _,
    congrArg (State.leaveLine · i) (h.commit_withStoreOf .supply s), h.image_withSupplyOf s.nv⟩

/-- A placing, as its write leaves it (R98, R114, R118). -/
theorem Event.Ready.placed_commit (h : e.Ready s) (k : HoldKind) (phase : HoldPhase) (b : Bool) (restore : Nat)
    (i : Instr) : s.placed (((e.place k phase b restore).commit .supply).leaveLine i) k phase b restore :=
  ((Event.sameSupply_commit _ .supply i).placed _ _ _ _).mpr (h.placed k phase b restore)

/-- A removal, as its write leaves it (R115, R117). -/
theorem Event.Ready.removed_commit (h : e.Ready s) {k : HoldKind} {had : HoldPhase}
    (hk : s.nv.holds.phase k = some had) (cause : RemovalCause) (named : Option Policy) (policy : Policy) (i : Instr) :
    s.removed (((e.remove k cause named policy).commit .supply).leaveLine i) k policy :=
  ((Event.sameSupply_commit _ .supply i).removed _ _).mpr (h.removed hk cause named policy)

/-- An answer that follows an event's write is no matter of the supply. -/
theorem Event.sameSupply_answered (e : Event) (p : Port) (status : Status) (payload : List Byte) (i : Instr) :
    (((e.andThen (.answer p status payload)).commit .supply).leaveLine i).SameSupply e.view :=
  (Event.sameSupply_commit _ .supply i).trans (e.sameSupply_andThen (by simp) (by simp))

theorem Event.answer_mem_follow (e : Event) (p : Port) (status : Status) (payload : List Byte) (i : Instr) :
    .answer p status payload ∈ (((e.andThen (.answer p status payload)).commit .supply).leaveLine i).newestFollow :=
  (Event.mem_commit_follow _ _ _ (by simp)).mpr (by simp)

end

/-- The phase that waits for the grace time, if it may wait at all (R108). -/
theorem State.remotePhase_eq (s : State) :
    s.remotePhase =
      if s.supply.loadhi = true ∧ 0 < s.nv.settings.graceTime then
        .grace (min (s.clock + s.nv.settings.graceTime) 4294967295)
      else .firm := by
  simp only [State.remotePhase, State.mayWait, Bool.and_eq_true, decide_eq_true_eq]
  rfl

end Sys2Proof.Machine
end

