-- ==== Sys2Proof/Proofs/RemoteOpen.lean ====
section
namespace Sys2Proof.Machine

/-! ## REMOTE_OPEN (R102) -/

section
variable {s : State} {r : Request} (hr : s.isRunning = true) (hreq : s.requestOf .l .remoteOpen = some r)
include hr hreq

theorem execRemoteOpen_of_held (hh : s.nv.holds.remote ≠ none) :
    exec .remoteOpen s = .next ((s.answer .l .ok []).leaveLine .remoteOpen) := by
  have hsome : s.nv.holds.remote.isSome = true := Option.isSome_iff_ne_none.mpr hh
  change execRemoteOpen s = _
  simp only [execRemoteOpen, ifRunning_of_running _ hr, hreq, hsome, if_true]

/-- REMOTE_OPEN with no REMOTE hold in the list waits for the journal's turn, and is then refused for want of room or
places the hold (R102, R164). -/
theorem execRemoteOpen_of_absent (hh : s.nv.holds.remote = none) :
    exec .remoteOpen s =
      .next
        (if s.mayBegin .remoteOpen .supply true = false then s.waits .remoteOpen .supply
        else
          (if s.nv.journal.free < 17 then s.answer .l .journalFull []
          else
            (((Event.begin (s.takeRequest .l) .lPort).place .remote s.remotePhase true 0).andThen
              (.answer .l .ok [])).commit .supply).leaveLine .remoteOpen) := by
  have hwrites : ((Event.begin (s.takeRequest .l) .lPort).place .remote s.remotePhase true 0).state.writes = s.writes :=
    (Event.within_place _ _ _ _ _).writes
  change execRemoteOpen s = _
  simp only [execRemoteOpen, ifRunning_of_running _ hr, hreq, hh, Option.isSome_none, Bool.false_eq_true, if_false]
  exact congrArg _ (State.takesTurn_of_room (by exact hwrites) rfl)

end

/-- Settles O29: REMOTE_OPEN through its refusals in order to the placing. -/
theorem remoteOpenPlacesTheHold : Obligations.RemoteOpenPlacesTheHold := by
  intro s r hr hreq
  dsimp only
  by_cases hh : s.nv.holds.remote = none
  · rw [if_neg (not_not.mpr hh), execRemoteOpen_of_absent hr hreq hh, ← s.remotePhase_eq]
    split
    · rfl
    split
    · rfl
    let u := s.takeRequest .l
    let e := (Event.begin u .lPort).place .remote s.remotePhase true 0
    let e' := e.andThen (.answer .l .ok [])
    have hin : (Event.begin u .lPort).Within e' := (Event.within_place _ _ _ _ _).trans (e.within_andThen _)
    have hrecords : e'.records = [.holdPlaced .remote s.remotePhase (some .l) none] :=
      (Event.begin u .lPort).place_records .remote s.remotePhase true 0
    obtain ⟨hjournal, hwrite, hstate, hnv⟩ := hin.written .remoteOpen
    rw [hrecords] at hjournal
    have hplaced : u.placed e.view .remote s.remotePhase true 0 := (Event.ready_begin u .lPort).placed _ _ _ _
    exact ⟨_, rfl, ((e.sameSupply_answered .l .ok [] .remoteOpen).placed _ _ _ _).mpr hplaced, hjournal,
      e.answer_mem_follow .l .ok [] .remoteOpen, hwrite, hstate, hnv⟩
  · rw [if_pos hh]
    exact execRemoteOpen_of_held hr hreq hh

end Sys2Proof.Machine
end

