-- ==== Sys2Proof/Proofs/LoadAndTrip.lean ====
section
namespace Sys2Proof.Machine

/-! ## The LOAD and TRIP holds placed (R105, R106) -/

/-- A hand-off or a level that places a hold: it waits for the block and the journal, and is then taken. -/
theorem State.takes_place {s u : State} {i : Instr} {k : HoldKind} {restore : Nat} (hw : u.writes = s.writes) :
    s.takes i none (((Event.begin u .device).place k .firm false restore).commit .supply) =
      if s.mayBegin i .supply true = false then s.waits i .supply
      else (((Event.begin u .device).place k .firm false restore).commit .supply).leaveLine i :=
  Event.takes_commit_of_records ((Event.within_place _ _ _ _ _).writes.trans hw) (by simp [Event.place_records]) i .supply

/-- What a placing from no request leaves. -/
theorem State.place_taken (u : State) (k : HoldKind) (restore : Nat) (i : Instr) :
    let t := (((Event.begin u .device).place k .firm false restore).commit .supply).leaveLine i
    u.placed t k .firm false restore ∧
      t.nv.journal = u.nv.journal.appendAll u.clock .device
        [.holdPlaced k .firm none (if k = .load then some restore else none)] ∧
      u.beganWrite t .supply ∧ t.withStoreOf u = u.leaveLine i ∧ t.nv.withSupplyOf u.nv = u.nv := by
  intro t
  have hrecords : ((Event.begin u .device).place k .firm false restore).records =
      [.holdPlaced k .firm none (if k = .load then some restore else none)] := Event.place_records _ _ _ _ _
  obtain ⟨hjournal, hrest⟩ :=
    (Event.within_place (Event.begin u .device) k .firm false restore).written i
  rw [hrecords] at hjournal
  exact ⟨(Event.ready_begin u .device).placed_commit _ _ _ _ i, hjournal, hrest⟩

theorem execDemandOverLimit_eq {s : State} (hr : s.isRunning = true) (hd : s.supply.demandHanded = true) :
    exec .demandOverLimit s =
      (let u := { s with supply := { s.supply with demandHanded := false } }
      .next (s.takes .demandOverLimit none
        (match s.nv.holds.load with
        | some _ => u
        | none =>
          ((Event.begin u .device).place .load .firm false
            (min (s.clock + 60 * s.nv.settings.loadRestoreDelay) 4294967295)).commit .supply))) := by
  change execDemandOverLimit s = _
  simp only [execDemandOverLimit, whenRunning_of_running _ _ hr, hd, if_true]
  rfl

theorem execThermActive_eq {s : State} (hr : s.isRunning = true) (hi : s.supply.thermActive = false) :
    exec .thermActive s =
      (let u := { s with supply := { s.supply with thermActive := true } }
      .next (s.takes .thermActive none
        (if s.nv.holds.trip then u else ((Event.begin u .device).place .trip .firm false 0).commit .supply))) := by
  change execThermActive s = _
  simp only [execThermActive, whenRunning_of_running _ _ hr, hi]
  rfl

/-- Settles O31: each hand-off is ignored while its hold is present, and otherwise waits for its write or places the
hold. -/
theorem loadAndTripArePlaced : Obligations.LoadAndTripArePlaced := by
  refine ⟨fun s hr hd => ?_, fun s hr hi => ?_, fun s hr => ?_⟩
  · dsimp only
    rw [execDemandOverLimit_eq hr hd]
    cases hh : s.nv.holds.load with
    | some restore =>
      rw [if_pos (by simp)]
      exact congrArg _ (State.takes_of_writes _ (by rfl))
    | none =>
      rw [if_neg (by simp)]
      dsimp only
      rw [State.takes_place (by rfl)]
      split
      · rfl
      · exact ⟨_, rfl, State.place_taken { s with supply := { s.supply with demandHanded := false } } .load _ _⟩
  · dsimp only
    rw [execThermActive_eq hr hi]
    split
    · exact congrArg _ (State.takes_of_writes _ (by rfl))
    · dsimp only
      rw [State.takes_place (by rfl)]
      split
      · rfl
      · exact ⟨_, rfl, State.place_taken { s with supply := { s.supply with thermActive := true } } .trip _ _⟩
  · change execThermInactive s = _
    rw [execThermInactive, ifRunning_of_running _ hr]

/-! ## The LOAD and TRIP holds removed (R105, R107) -/

theorem State.stillPermitted_clearTrip (s : State) (p : Port) :
    s.stillPermitted p .clearTrip = false ↔ p = .a ∧ s.nv.window = none := by
  simp only [State.stillPermitted, RequestCode.permitted]
  cases p <;> cases s.nv.window <;> simp [RequestCode.groups, Group.permitted]

/-- A reached restore time removes the LOAD hold (R105). -/
theorem execRestoreTime_of_reached {s : State} {restore : Nat} (hr : s.isRunning = true)
    (hh : s.nv.holds.load = some restore) (hle : restore ≤ s.clock) :
    exec .restoreTime s =
      .next (if s.mayBegin .restoreTime .supply true = false then s.waits .restoreTime .supply
        else (((Event.begin s .device).remove .load .restore none .press).commit .supply).leaveLine .restoreTime) := by
  let e := (Event.begin s .device).remove .load .restore none .press
  have hphase : (Event.begin s .device).nv.holds.phase .load = some .firm := by
    change s.nv.holds.load.map _ = _
    rw [hh]
    rfl
  have hrecords : e.records = [s.nv.removalRecord .load .firm .restore none .press] :=
    Event.remove_records (e := Event.begin s .device) hphase _ _ _
  have hreached : ((Event.begin s .device).restoreReached s.clock).commitSupply s.nv = e.commit .supply := by
    have he : (Event.begin s .device).restoreReached s.clock = e := by
      simp only [Event.restoreReached, Event.begin_nv, hh, if_pos hle]
      rfl
    rw [he, Event.commitSupply, if_neg (by simp [hrecords])]
  change execRestoreTime s = _
  rw [execRestoreTime, whenRunning_of_running _ _ hr, hreached]
  exact congrArg _ (Event.takes_commit_of_records (e := e) (Event.within_remove _ _ _ _ _).writes (by simp [hrecords]) _ _)

section
variable {s : State} {p : Port} {r : Request} (hr : s.isRunning = true) (hreq : s.requestOf p .clearTrip = some r)
include hr hreq

/-- CLEAR_TRIP through its refusals in order to the removal (R107, R150). -/
theorem execClearTrip_eq :
    exec (.clearTrip p) s =
      .next (s.takes (.clearTrip p) none
        (if p = .a ∧ s.nv.window = none then s.answer p .wrongGroup []
        else if s.nv.holds.trip = false then s.answer p .notHeld []
        else if s.supply.thermActive = true then s.answer p .stillActive []
        else
          (((Event.begin (s.takeRequest p) p.origin).remove .trip .clearTrip none .press).andThen
            (.answer p .ok [])).commit .supply)) := by
  change execClearTrip p s = _
  simp only [execClearTrip, whenRunning_of_running _ _ hr, hreq, s.stillPermitted_clearTrip]

end

/-- What a CLEAR_TRIP that finds the TRIP hold leaves. -/
theorem State.clearTrip_taken (s : State) (p : Port) (hh : s.nv.holds.trip = true) :
    let e := (Event.begin (s.takeRequest p) p.origin).remove .trip .clearTrip none .press
    let t := ((e.andThen (.answer p .ok [])).commit .supply).leaveLine (.clearTrip p)
    e.records = [s.nv.removalRecord .trip .firm .clearTrip none .press] ∧ s.removed t .trip .press ∧
      t.nv.journal =
        s.nv.journal.appendAll s.clock p.origin [s.nv.removalRecord .trip .firm .clearTrip none .press] ∧
      .answer p .ok [] ∈ t.newestFollow ∧ s.beganWrite t .supply ∧
      t.withStoreOf s = (s.takeRequest p).leaveLine (.clearTrip p) ∧ t.nv.withSupplyOf s.nv = s.nv := by
  intro e t
  let u := s.takeRequest p
  have hphase : u.nv.holds.phase .trip = some .firm := if_pos hh
  have hrecords : e.records = [s.nv.removalRecord .trip .firm .clearTrip none .press] :=
    Event.remove_records (e := Event.begin u p.origin) hphase _ _ _
  have hin : (Event.begin u p.origin).Within (e.andThen (.answer p .ok [])) :=
    (Event.within_remove _ _ _ _ _).trans (e.within_andThen _)
  obtain ⟨hjournal, hwrite, hstate, hnv⟩ := hin.written (.clearTrip p)
  rw [Event.andThen_records, hrecords] at hjournal
  have hremoved : u.removed e.view .trip .press := (Event.ready_begin u p.origin).removed hphase _ _ _
  exact ⟨hrecords, ((e.sameSupply_answered p .ok [] (.clearTrip p)).removed _ _).mpr hremoved, hjournal,
    e.answer_mem_follow p .ok [] (.clearTrip p), hwrite, hstate, hnv⟩

/-- Settles O32: a reached restore time and CLEAR_TRIP wait for their write or remove their hold. -/
theorem loadAndTripAreRemoved : Obligations.LoadAndTripAreRemoved := by
  refine ⟨fun s restore hr hh hle => ?_, fun p s r hr hreq => ?_⟩
  · rw [execRestoreTime_of_reached hr hh hle]
    split
    · rfl
    · have hphase : s.nv.holds.phase .load = some .firm := by
        change s.nv.holds.load.map _ = _
        rw [hh]
        rfl
      have hrecords : ((Event.begin s .device).remove .load .restore none .press).records =
          [s.nv.removalRecord .load .firm .restore none .press] :=
        Event.remove_records (e := Event.begin s .device) hphase _ _ _
      obtain ⟨hjournal, hrest⟩ :=
        (Event.within_remove (Event.begin s .device) .load .restore none .press).written .restoreTime
      rw [hrecords] at hjournal
      exact ⟨_, rfl, (Event.ready_begin s .device).removed_commit hphase _ _ _ _, hjournal, hrest⟩
  · have answered (status : Status) :
        s.takes (.clearTrip p) none (s.answer p status []) = (s.answer p status []).leaveLine (.clearTrip p) :=
      State.takes_of_writes _ (by simp)
    dsimp only
    rw [execClearTrip_eq hr hreq]
    split
    · exact congrArg _ (answered _)
    split
    · exact congrArg _ (answered _)
    split
    · exact congrArg _ (answered _)
    next hh _ =>
      obtain ⟨hrecords, hrest⟩ := s.clearTrip_taken p (by simpa using hh)
      rw [Event.takes_commit_of_records (by exact (Event.within_remove _ _ _ _ _).writes) (by simp [hrecords])]
      split
      · rfl
      · exact ⟨_, rfl, hrest⟩

end Sys2Proof.Machine
end

