-- ==== Sys2Proof/Proofs/Levels.lean ====
section
namespace Sys2Proof.Machine

/-! ## Events of the supply controller with and without a record (R159) -/

/-- An event with no record asks for its block alone, and has no append to wait for. -/
theorem Event.takes_commit_plain {s : State} {e : Event} (hw : e.state.writes = s.writes) (hr : e.records = [])
    (i : Instr) (b : Block) :
    s.takes i none (e.commit b) = if s.blockBusy b i = true then s else (e.commit b).leaveLine i := by
  have hwrites : (e.commit b).writes = s.writes ++
      [{ owner := b, image := e.image, appends := !e.records.isEmpty, setsClock := none
         follow := e.follow ++ (journalNotices e.low e.nv.journal.free e.journal.free).map .notice, clears := none }] :=
    congrArg (· ++ _) hw
  have hbegin : s.mayBegin i b (!e.records.isEmpty) = !s.blockBusy b i := by simp [State.mayBegin, hr]
  split
  · next hbusy =>
    rw [State.takes_of_waits hwrites (by rw [hbegin, hbusy]; rfl), State.waits, if_pos hbusy]
  · next hfree => exact State.takes_of_mayBegin hwrites (by rw [hbegin]; simpa using hfree)

/-! ## Grace ends at its deadline (R109) -/

/-- Only a CREDIT or a REMOTE hold waits for a grace deadline (R98). -/
theorem HoldList.ne_trip_of_grace {h : HoldList} {k : HoldKind} {d : Nat} (hk : h.phase k = some (.grace d)) :
    k ≠ .trip := by
  rintro rfl
  cases ht : h.trip <;> simp [HoldList.phase, ht] at hk

theorem execGraceDeadline_of_reached {s : State} {k : HoldKind} {d : Nat} (hr : s.isRunning = true)
    (hk : s.nv.holds.phase k = some (.grace d)) (hle : d ≤ s.clock) :
    exec (.graceDeadline k) s =
      .next (if s.mayBegin (.graceDeadline k) .supply true = false then s.waits (.graceDeadline k) .supply
        else (((Event.begin s .device).makeFirm k .grace .graceDeadline).commit .supply).leaveLine
          (.graceDeadline k)) := by
  let e := (Event.begin s .device).makeFirm k .grace .graceDeadline
  have hrecords : e.records = [.holdFirm k .grace .graceDeadline] := Event.makeFirm_records _ _ _ _
  have he : (Event.begin s .device).graceReached s.clock k = e := by
    rw [Event.graceReached_eq, if_pos]
    simp [HoldList.inGrace, hk, hle]
  change execGraceDeadline k s = _
  rw [execGraceDeadline, whenRunning_of_running _ _ hr, he, Event.commitSupply, if_neg (by simp [hrecords])]
  exact congrArg _ (Event.takes_commit_of_records (e := e) (Event.within_makeFirm _ _ _ _).writes (by simp [hrecords]) _ _)

/-! ## LOADHI (R109, R207) -/

/-- The two ends of the wait for LOADHI are one event (R109). -/
theorem Event.graceEnds_firmWhere (e : Event) (cause : FirmCause) :
    (e.graceEnds cause .credit).graceEnds cause .remote = e.firmWhere (e.nv.holds.inGrace fun _ => true) cause := by
  have hremote : (e.graceEnds cause .credit).nv.holds.phase .remote = e.nv.holds.phase .remote := by
    rw [e.graceEnds_eq]
    split
    · exact e.makeFirm_credit_phase _ _
    · rfl
  rw [Event.graceEnds_eq, HoldList.inGrace_of_phase hremote, e.graceEnds_eq]
  rfl

/-- LOADHI at a level, with its passage marked or not. -/
def State.loadhiAt (s : State) (asserted marked : Bool) : State :=
  { s with supply := { s.supply with loadhi := asserted, loadhiFell := marked } }

/-- LOADX at a level, with its passage marked or not. -/
def State.loadxAt (s : State) (asserted marked : Bool) : State :=
  { s with supply := { s.supply with loadx := asserted, loadxFell := marked } }

theorem execLoadhiChange_of_running {s : State} (hr : s.isRunning = true) (asserted : Bool) :
    exec (.loadhiChange asserted) s =
      .next
        (if s.supply.loadhiFell = true ∨ s.supply.loadhi = true ∧ asserted = false then
          (s.loadhiAt asserted true).takes (.loadhiChange false) none (s.loadhiAt asserted true).takeLoadhiFall
        else s.loadhiAt asserted false) := by
  have hp : s.power = .running := by simpa [State.isRunning] using hr
  have hlevel : s.setLoadhi asserted =
      s.loadhiAt asserted (s.supply.loadhiFell || (s.supply.loadhi && !asserted)) := by
    simp [State.setLoadhi, State.loadhiAt, hp, Power.fallIsEvent]
  change execLoadhiChange asserted s = _
  rw [execLoadhiChange, State.levelChange, hp, hlevel]
  by_cases hf : s.supply.loadhiFell = true ∨ s.supply.loadhi = true ∧ asserted = false
  · have hmark : (s.supply.loadhiFell || (s.supply.loadhi && !asserted)) = true := by simpa using hf
    rw [hmark, if_pos hf]
    rfl
  · have hmark : (s.supply.loadhiFell || (s.supply.loadhi && !asserted)) = false := by
      simpa only [Bool.eq_false_iff, ne_eq, Bool.or_eq_true, Bool.and_eq_true, Bool.not_eq_true'] using hf
    rw [hmark, if_neg hf]
    rfl

/-- A marked passage of LOADHI that finds no hold in GRACE makes no write. -/
theorem State.takeLoadhiFall_of_none {s : State} {asserted : Bool}
    (h : (s.nv.holds.inGrace (fun _ => true) .credit || s.nv.holds.inGrace (fun _ => true) .remote) = false) :
    (s.loadhiAt asserted true).takeLoadhiFall = s.loadhiAt asserted false := by
  have he : ((Event.begin (s.loadhiAt asserted false) .device).graceEnds .loadhiEnded .credit).graceEnds .loadhiEnded
      .remote = Event.begin (s.loadhiAt asserted false) .device := by
    obtain ⟨hcredit, hremote⟩ := Bool.or_eq_false_iff.mp h
    have hcredit : (Event.begin (s.loadhiAt asserted false) .device).nv.holds.inGrace (fun _ => true) .credit = false :=
      hcredit
    have hremote : (Event.begin (s.loadhiAt asserted false) .device).nv.holds.inGrace (fun _ => true) .remote = false :=
      hremote
    rw [Event.graceEnds_firmWhere, Event.firmWhere, hcredit, hremote]
    rfl
  change (((Event.begin (s.loadhiAt asserted false) .device).graceEnds .loadhiEnded .credit).graceEnds .loadhiEnded
      .remote).commitSupply (s.loadhiAt asserted false).nv = _
  rw [he]
  exact if_pos ⟨rfl, rfl, rfl⟩

/-- A marked passage of LOADHI that finds a hold in GRACE is the one event of its holds. -/
theorem State.takeLoadhiFall_of_some {s : State} {asserted : Bool}
    (h : (s.nv.holds.inGrace (fun _ => true) .credit || s.nv.holds.inGrace (fun _ => true) .remote) = true) :
    let e := (Event.begin (s.loadhiAt asserted false) .device).firmWhere (s.nv.holds.inGrace fun _ => true) .loadhiEnded
    (s.loadhiAt asserted true).takeLoadhiFall = e.commit .supply ∧ e.records ≠ [] := by
  intro e
  have hrecords := (Event.firmWhere_spec (s.loadhiAt asserted false) .loadhiEnded h).2
  have hne : e.records ≠ [] := by
    rw [show e.records = _ from hrecords]
    cases hc : s.nv.holds.inGrace (fun _ => true) .credit <;> simp_all
  refine ⟨?_, hne⟩
  change (((Event.begin (s.loadhiAt asserted false) .device).graceEnds .loadhiEnded .credit).graceEnds .loadhiEnded
      .remote).commitSupply (s.loadhiAt asserted false).nv = _
  rw [Event.graceEnds_firmWhere]
  exact if_neg fun hn => hne (List.isEmpty_iff.mp hn.1)

/-! ## LOADX (R115, R207) -/

theorem execLoadxChange_of_running {s : State} (hr : s.isRunning = true) (asserted : Bool) :
    exec (.loadxChange asserted) s =
      .next
        (if s.supply.loadxFell = true ∨ s.supply.loadx = true ∧ asserted = false then
          (s.loadxAt asserted true).takes (.loadxChange false) none (s.loadxAt asserted false).openFromWait
        else s.loadxAt asserted false) := by
  have hp : s.power = .running := by simpa [State.isRunning] using hr
  have hlevel : s.setLoadx asserted =
      s.loadxAt asserted (s.supply.loadxFell || (s.supply.loadx && !asserted)) := by
    simp [State.setLoadx, State.loadxAt, hp, Power.fallIsEvent]
  change execLoadxChange asserted s = _
  rw [execLoadxChange, State.levelChange, hp, hlevel]
  by_cases hf : s.supply.loadxFell = true ∨ s.supply.loadx = true ∧ asserted = false
  · have hmark : (s.supply.loadxFell || (s.supply.loadx && !asserted)) = true := by simpa using hf
    rw [hmark, if_pos hf]
    rfl
  · have hmark : (s.supply.loadxFell || (s.supply.loadx && !asserted)) = false := by
      simpa only [Bool.eq_false_iff, ne_eq, Bool.or_eq_true, Bool.and_eq_true, Bool.not_eq_true'] using hf
    rw [hmark, if_neg hf]
    rfl

/-- The open that a wait ends in, as its write leaves it (R115). -/
theorem State.openFromWait_taken (s : State) (hc : s.nv.contactor = .breakWait) (i : Instr) :
    let t := ((Event.begin s .device).giveOpen.commit .supply).leaveLine i
    s.commanded t .opening .device ∧ s.beganWrite t .supply ∧
      t.nv = { s.nv with contactor := .opening, driveTarget := .opened } ∧ t.withStoreOf s = s.leaveLine i := by
  intro t
  have hin : (Event.begin s .device).Within (Event.begin s .device).giveOpen := Event.within_beginDrive _ _ _ _
  obtain ⟨-, hwrite, hstate, -⟩ := hin.written i
  obtain ⟨-, -, -, hkept⟩ := (Event.ready_begin s .device).kept
  have hcommanded : s.commanded (Event.begin s .device).giveOpen.view .opening .device :=
    Event.commanded_beginDrive hkept rfl .opened .device (by rw [hc]; decide)
  refine ⟨((Event.sameSupply_commit _ .supply i).commanded _ _).mpr hcommanded, hwrite, ?_, hstate⟩
  have hrecords : (Event.begin s .device).giveOpen.records = [] := (Event.commands_beginDrive _ _ _ _).records
  exact (Event.image_of_noRecords _ hrecords).trans (Event.beginDrive_nv _ _ _ _)

/-- Settles O35: a deadline and each level by the event it is, and the levels while start-up runs by their marks. -/
theorem waitsEndWithTheirLevels : Obligations.WaitsEndWithTheirLevels := by
  refine ⟨fun k s d hr hk hle => ?_, fun asserted s hr => ?_, fun asserted s hr => ?_, fun asserted s q hq => ?_⟩
  · dsimp only
    rw [execGraceDeadline_of_reached hr hk hle]
    split
    · rfl
    · obtain ⟨hjournal, hrest⟩ :=
        (Event.within_makeFirm (Event.begin s .device) k .grace .graceDeadline).written (.graceDeadline k)
      rw [Event.makeFirm_records] at hjournal
      have hfirmed := (Event.ready_begin s .device).firmed (HoldList.ne_trip_of_grace hk) .grace .graceDeadline
      exact ⟨_, rfl, ((Event.sameSupply_commit _ .supply (.graceDeadline k)).firmed _).mpr hfirmed, hjournal, hrest⟩
  · intro i waits
    have hwaits : waits = s.nv.holds.inGrace fun _ => true := rfl
    clear_value waits
    subst hwaits
    dsimp only [i]
    rw [execLoadhiChange_of_running hr asserted]
    by_cases hfell : s.supply.loadhiFell = true ∨ s.supply.loadhi = true ∧ asserted = false
    · rw [if_neg (not_not.mpr hfell), if_pos hfell]
      cases hany : s.nv.holds.inGrace (fun _ => true) .credit || s.nv.holds.inGrace (fun _ => true) .remote with
      | false =>
        obtain ⟨hcredit, hremote⟩ := Bool.or_eq_false_iff.mp hany
        rw [if_neg (fun h => nomatch h.1), State.takeLoadhiFall_of_none hany]
        refine ⟨_, congrArg _ (State.takes_of_writes _ (by rfl)), ?_⟩
        simp only [hcredit, hremote]
        exact ⟨⟨rfl, rfl, rfl, rfl, rfl⟩, rfl, rfl⟩
      | true =>
        obtain ⟨htake, hne⟩ := State.takeLoadhiFall_of_some (asserted := asserted) hany
        have hin := Event.within_firmWhere (Event.begin (s.loadhiAt asserted false) .device)
          (s.nv.holds.inGrace fun _ => true) .loadhiEnded
        rw [htake, Event.takes_commit_of_records (s := s.loadhiAt asserted true) hin.writes hne]
        have hmay : (s.loadhiAt asserted true).mayBegin (.loadhiChange false) .supply true =
            s.mayBegin (.loadhiChange false) .supply true := rfl
        rw [hmay]
        by_cases hwait : s.mayBegin (.loadhiChange false) .supply true = false
        · rw [if_pos hwait, if_pos ⟨rfl, hwait⟩]
          rfl
        · rw [if_neg hwait, if_neg fun h => hwait h.2]
          obtain ⟨hfirmed, hrecords⟩ := Event.firmWhere_spec (s.loadhiAt asserted false) .loadhiEnded hany
          obtain ⟨hjournal, hwrite, hstate, hrest⟩ := hin.written (.loadhiChange false)
          have hfirmed := ((Event.sameSupply_commit _ .supply (.loadhiChange false)).firmed _).mpr hfirmed
          rw [hrecords] at hjournal
          exact ⟨_, rfl, ⟨hfirmed.1, hjournal, hfirmed, hwrite⟩, hstate, hrest⟩
    · rw [if_pos hfell, if_neg hfell]
      rfl
  · dsimp only
    rw [execLoadxChange_of_running hr asserted]
    by_cases hfell : s.supply.loadxFell = true ∨ s.supply.loadx = true ∧ asserted = false
    · rw [if_neg (not_not.mpr hfell), if_pos hfell]
      by_cases hc : s.nv.contactor = .breakWait
      · have hopen : (s.loadxAt asserted false).openFromWait =
            (Event.begin (s.loadxAt asserted false) .device).giveOpen.commit .supply := if_pos hc
        have htakes := Event.takes_commit_plain (s := s.loadxAt asserted true)
          (e := (Event.begin (s.loadxAt asserted false) .device).giveOpen)
          (Event.within_beginDrive _ _ _ _).writes (Event.commands_beginDrive _ _ _ _).records (.loadxChange false) .supply
        rw [if_neg (not_not.mpr hc), hopen, htakes]
        have hbusy : (s.loadxAt asserted true).blockBusy .supply (.loadxChange false) =
            s.blockBusy .supply (.loadxChange false) := rfl
        rw [hbusy]
        split
        · rfl
        · exact ⟨_, rfl, (s.loadxAt asserted false).openFromWait_taken hc (.loadxChange false)⟩
      · have hstays : (s.loadxAt asserted false).openFromWait = s.loadxAt asserted false := if_neg hc
        rw [if_pos hc, hstays]
        exact congrArg _ (State.takes_of_writes _ (by rfl))
    · rw [if_pos hfell, if_neg hfell]
      rfl
  · constructor
    · change execLoadhiChange asserted s = _
      rw [execLoadhiChange, State.levelChange, hq]
      simp only [State.setLoadhi, hq, Power.fallIsEvent, List.contains_eq_mem]
    · change execLoadxChange asserted s = _
      rw [execLoadxChange, State.levelChange, hq]
      simp only [State.setLoadx, hq, Power.fallIsEvent, List.contains_eq_mem]

end Sys2Proof.Machine
end

