-- ==== Sys2Proof/Proofs/DeferredCredit.lean ====
section
namespace Sys2Proof.Machine

/-! ## The CREDIT hold in and out of DEFERRED (R110, R111) -/

/-- A window edge, and "arrears ceiling reached" as the stop it is to a DEFERRED hold: whether it is a start, and what a
move to FIRM names as its cause. -/
def Event.moveDeferred (e : Event) (start : Bool) (cause : FirmCause) : Event :=
  match e.nv.holds.credit with
  | some (.grace _) =>
    if start = true ∧ e.nv.ceilingHolds = false then
      e.updateNv (fun n => { n with holds := n.holds.rephase .credit .deferred })
    else e
  | some .deferred => if start = true then e else e.leaveDeferred cause
  | _ => e

section
variable {e : Event} {start : Bool} {cause : FirmCause}

theorem Event.moveDeferred_of_none (h : e.nv.holds.credit = none) : e.moveDeferred start cause = e := by
  simp only [Event.moveDeferred, h]

theorem Event.moveDeferred_of_firm (h : e.nv.holds.credit = some .firm) : e.moveDeferred start cause = e := by
  simp only [Event.moveDeferred, h]

theorem Event.moveDeferred_of_grace {d : Nat} (h : e.nv.holds.credit = some (.grace d)) :
    e.moveDeferred start cause =
      if start = true ∧ e.nv.ceilingHolds = false then
        e.updateNv (fun n => { n with holds := n.holds.rephase .credit .deferred })
      else e := by
  simp only [Event.moveDeferred, h]

theorem Event.moveDeferred_of_deferred (h : e.nv.holds.credit = some .deferred) :
    e.moveDeferred start cause = if start = true then e else e.leaveDeferred cause := by
  simp only [Event.moveDeferred, h]

end

theorem Event.windowEdge_eq_moveDeferred (e : Event) (start : Bool) :
    e.windowEdge (if start then .start else .stop) = e.moveDeferred start .windowEnd := by
  unfold Event.windowEdge Event.moveDeferred
  rcases e.nv.holds.credit with _ | _ | _ | _ <;> cases start <;> cases e.nv.ceilingHolds <;> rfl

theorem Event.ceilingReached_eq_moveDeferred (e : Event) : e.ceilingReached = e.moveDeferred false .arrearsCeiling := by
  unfold Event.ceilingReached Event.moveDeferred
  rcases e.nv.holds.credit with _ | _ | _ | _ <;> rfl

/-- A running state with other window edges and another ceiling hand-off. -/
def State.withHandOffs (s : State) (edges : List WindowEdge) (ceiling : Bool) : State :=
  { s with supply := { s.supply with edges := edges, ceilingHanded := ceiling } }

/-- A hand-off, taken: its mark leaves and the hold is moved. -/
def State.takeHandOff (u : State) (start : Bool) (cause : FirmCause) : State :=
  ((Event.begin u .device).moveDeferred start cause).commitSupply u.nv

theorem execFriendlyWindowEdge_eq {s : State} {start : Bool} {rest : List WindowEdge} (hr : s.isRunning = true)
    (he : s.supply.edges = (if start then .start else .stop) :: rest) :
    exec .friendlyWindowEdge s =
      .next (s.takes .friendlyWindowEdge none
        ((s.withHandOffs rest s.supply.ceilingHanded).takeHandOff start .windowEnd)) := by
  change execFriendlyWindowEdge s = _
  rw [State.takeHandOff, ← Event.windowEdge_eq_moveDeferred]
  simp only [execFriendlyWindowEdge, whenRunning_of_running _ _ hr, he]
  rfl

theorem execArrearsCeilingReached_eq {s : State} (hr : s.isRunning = true) (hh : s.supply.ceilingHanded = true) :
    exec .arrearsCeilingReached s =
      .next (s.takes .arrearsCeilingReached none
        ((s.withHandOffs s.supply.edges false).takeHandOff false .arrearsCeiling)) := by
  change execArrearsCeilingReached s = _
  rw [State.takeHandOff, ← Event.ceilingReached_eq_moveDeferred]
  simp only [execArrearsCeilingReached, whenRunning_of_running _ _ hr, hh, if_true]
  rfl

section
variable {s u : State} {start : Bool} {cause : FirmCause}

/-- A hand-off that finds nothing to move makes no write. -/
theorem State.takeHandOff_of_stays (h : (Event.begin u .device).moveDeferred start cause = Event.begin u .device) :
    u.takeHandOff start cause = u := by
  rw [State.takeHandOff, h]
  exact if_pos ⟨rfl, rfl, rfl⟩

/-- The list with the CREDIT hold in another phase is another list. -/
theorem HoldList.rephase_credit_ne {h : HoldList} {p q : HoldPhase} (hp : h.credit = some p) (hq : q ≠ p) :
    h.rephase .credit q ≠ h := by
  intro heq
  have : (h.rephase .credit q).credit = some p := by rw [heq, hp]
  simp only [HoldList.rephase, hp, Option.map_some, Option.some.injEq] at this
  exact hq this

/-- A move from one waiting phase to the other is a write with no record (R110). -/
theorem State.takeHandOff_of_rephased {p q : HoldPhase} (hw : u.writes = s.writes) (hc : u.nv.holds.credit = some p)
    (hq : q ≠ p)
    (h : (Event.begin u .device).moveDeferred start cause =
      (Event.begin u .device).updateNv (fun n => { n with holds := n.holds.rephase .credit q }))
    (i : Instr) :
    ∃ t, s.takes i none (u.takeHandOff start cause) = (if s.blockBusy .supply i = true then s else t) ∧
      t.nv = { u.nv with holds := { u.nv.holds with credit := some q } } ∧ u.beganWrite t .supply ∧
      t.driver = u.driver ∧ t.withStoreOf u = u.leaveLine i ∧ t.nv.withSupplyOf u.nv = u.nv := by
  let e := (Event.begin u .device).updateNv (fun n => { n with holds := n.holds.rephase .credit q })
  have hcommit : u.takeHandOff start cause = e.commit .supply := by
    rw [State.takeHandOff, h]
    exact if_neg fun hn => HoldList.rephase_credit_ne hc hq hn.2.1
  have hin : (Event.begin u .device).Within e := Event.within_updateNv _ _ (by rfl) (by rfl)
  obtain ⟨-, hwrite, hstate, hrest⟩ := hin.written i
  have hnv : ((e.commit .supply).leaveLine i).nv = { u.nv with holds := { u.nv.holds with credit := some q } } := by
    have hlist : u.nv.holds.rephase .credit q = { u.nv.holds with credit := some q } := by simp [HoldList.rephase, hc]
    rw [← hlist]
    exact Event.image_of_noRecords e rfl
  refine ⟨_, ?_, hnv, hwrite, rfl, hstate, hrest⟩
  rw [hcommit]
  exact Event.takes_commit_plain (hin.writes.trans hw) rfl i .supply

/-- A move to FIRM is a write with its record and its command (R110, R114). -/
theorem State.takeHandOff_of_firmed (hw : u.writes = s.writes) (hc : u.nv.holds.credit = some .deferred)
    (h : (Event.begin u .device).moveDeferred start cause =
      (Event.begin u .device).makeFirm .credit .deferred cause) (i : Instr) :
    ∃ t, s.takes i none (u.takeHandOff start cause) =
        (if s.mayBegin i .supply true = false then s.waits i .supply else t) ∧
      u.firmed t { u.nv.holds with credit := some .firm } ∧
      t.nv.journal = u.nv.journal.appendAll u.clock .device [.holdFirm .credit .deferred cause] ∧
      u.beganWrite t .supply ∧ t.withStoreOf u = u.leaveLine i ∧ t.nv.withSupplyOf u.nv = u.nv := by
  let e := (Event.begin u .device).makeFirm .credit .deferred cause
  have hrecords : e.records = [.holdFirm .credit .deferred cause] := Event.makeFirm_records _ _ _ _
  have hcommit : u.takeHandOff start cause = e.commit .supply := by
    rw [State.takeHandOff, h]
    exact if_neg fun hn => by simp [e, hrecords] at hn
  have hin : (Event.begin u .device).Within e := Event.within_makeFirm _ _ _ _
  obtain ⟨hjournal, hwrite, hstate, hrest⟩ := hin.written i
  rw [hrecords] at hjournal
  have hlist : u.nv.holds.rephase .credit .firm = { u.nv.holds with credit := some .firm } := by
    simp [HoldList.rephase, hc]
  have hfirmed := (Event.ready_begin u .device).firmed (k := .credit) (by decide) .deferred cause
  rw [hlist] at hfirmed
  refine ⟨_, ?_, ((Event.sameSupply_commit e .supply i).firmed _).mpr hfirmed, hjournal, hwrite, hstate, hrest⟩
  rw [hcommit]
  exact Event.takes_commit_of_records (hin.writes.trans hw) (by simp [hrecords]) i .supply

end

/-- Settles O33, by the phase of the CREDIT hold: it stays, is moved with no record, or becomes FIRM. -/
theorem deferredCreditHoldIsMoved : Obligations.DeferredCreditHoldIsMoved := by
  intro c s u start cause hr hcase
  obtain ⟨edges, ceiling, rfl, hexec⟩ : ∃ edges ceiling, u = s.withHandOffs edges ceiling ∧
      exec c s = .next (s.takes c none (u.takeHandOff start cause)) := by
    rcases hcase with ⟨rfl, rfl, rest, hedges, rfl⟩ | ⟨rfl, rfl, rfl, hhanded, rfl⟩
    · exact ⟨rest, s.supply.ceilingHanded, rfl, execFriendlyWindowEdge_eq hr hedges⟩
    · exact ⟨s.supply.edges, false, rfl, execArrearsCeilingReached_eq hr hhanded⟩
  let u := s.withHandOffs edges ceiling
  have hstays (h : (Event.begin u .device).moveDeferred start cause = Event.begin u .device) :
      exec c s = .next (u.leaveLine c) := by
    rw [hexec, State.takeHandOff_of_stays h]
    exact congrArg _ (State.takes_of_writes c (by rfl))
  have hfree (h : s.mayBegin c .supply true = true) : s.blockBusy .supply c = false := by
    simp only [State.mayBegin, Bool.and_eq_true, Bool.not_eq_true'] at h
    exact h.1
  have hbusy (h : s.mayBegin c .supply false = false) :
      s.blockBusy .supply c = true ∧ s.waits c .supply = s := by
    have hb : s.blockBusy .supply c = true := by simpa [State.mayBegin] using h
    exact ⟨hb, if_pos hb⟩
  dsimp only
  cases hcredit : s.nv.holds.credit with
  | none => exact ⟨fun h => (nomatch h.1), fun _ => ⟨_, hstays (Event.moveDeferred_of_none hcredit), rfl, rfl, rfl⟩⟩
  | some p =>
    cases p with
    | firm => exact ⟨fun h => (nomatch h.1), fun _ => ⟨_, hstays (Event.moveDeferred_of_firm hcredit), rfl, rfl, rfl⟩⟩
    | grace d =>
      have hmove := Event.moveDeferred_of_grace (e := Event.begin u .device) (start := start) (cause := cause) hcredit
      by_cases hmoves : start = true ∧ s.nv.ceilingHolds = false
      · rw [if_pos (by exact hmoves)] at hmove
        obtain ⟨t, htakes, hnv, hwrite, hdriver, hrest⟩ :=
          State.takeHandOff_of_rephased (s := s) (u := u) (q := .deferred) rfl hcredit (by simp) hmove c
        simp only [if_pos hmoves]
        rw [hexec, htakes]
        refine ⟨fun h => ?_, fun h => ⟨t, by rw [hfree h]; rfl, ⟨hnv, hwrite, hdriver⟩, hrest⟩⟩
        obtain ⟨hb, hwaits⟩ := hbusy h.2
        rw [if_pos hb, hwaits]
      · rw [if_neg (by exact hmoves)] at hmove
        simp only [if_neg hmoves]
        refine ⟨fun h => (hmoves ?_).elim, fun _ => ⟨_, hstays hmove, rfl, rfl, rfl⟩⟩
        simpa using h.1
    | deferred =>
      have hmove := Event.moveDeferred_of_deferred (e := Event.begin u .device) (start := start) (cause := cause) hcredit
      cases start with
      | true => exact ⟨fun h => (nomatch h.1), fun _ => ⟨_, hstays hmove, rfl, rfl, rfl⟩⟩
      | false =>
        rw [if_neg (by decide)] at hmove
        simp only [Bool.false_eq_true, if_false]
        have hmayWait : u.mayWait = (s.supply.loadhi && decide (0 < s.nv.settings.graceTime)) := rfl
        by_cases hmay : s.supply.loadhi = true ∧ 0 < s.nv.settings.graceTime
        · have hwait : u.mayWait = true := by simpa [hmayWait] using hmay
          obtain ⟨t, htakes, hnv, hwrite, hdriver, hrest⟩ :=
            State.takeHandOff_of_rephased (s := s) (u := u) rfl hcredit (by simp) (hmove.trans (if_pos hwait)) c
          simp only [if_pos hmay]
          rw [hexec, htakes]
          refine ⟨fun h => ?_, fun h => ⟨t, by rw [hfree h]; rfl, ⟨hnv, hwrite, hdriver⟩, hrest⟩⟩
          obtain ⟨hb, hwaits⟩ := hbusy (by simpa [hmay] using h.2)
          rw [if_pos hb, hwaits]
        · have hwait : u.mayWait = false := by simpa [hmayWait] using hmay
          obtain ⟨t, htakes, hfirmed, hjournal, hwrite, hrest⟩ :=
            State.takeHandOff_of_firmed (s := s) (u := u) rfl hcredit (hmove.trans (if_neg (by simp [hwait]))) c
          simp only [if_neg hmay]
          rw [hexec, htakes]
          refine ⟨fun h => ?_, fun h => ⟨t, by rw [h]; rfl, ⟨hfirmed, hjournal, hwrite⟩, hrest⟩⟩
          rw [hmayWait] at hwait
          rw [if_pos (by simpa [hwait] using h.2)]

end Sys2Proof.Machine
end

