-- ==== Sys2Proof/Proofs/Press.lean ====
section
namespace Sys2Proof.Machine

/-! ## The changes a press makes (R121) -/

/-- The close that a press in ARMED gives, as its event leaves it: the arm deadline is removed and a close drive begins
with the origin of the press (R118, R121). -/
theorem Event.giveClose_spec (u : State) (harmed : u.nv.contactor = .armed) (o origin : Origin) :
    let e := (Event.begin u o).giveClose origin
    u.commanded e.view .closing origin ∧ e.records = [] ∧
      e.nv = { u.nv with contactor := .closing, driveTarget := .closed, armDeadline := none } := by
  intro e
  obtain ⟨-, -, -, hkept⟩ := (Event.ready_begin u o).kept
  exact ⟨Event.commanded_beginDrive (e := (Event.begin u o).dropArmDeadline) hkept rfl .closed origin
    (by rw [harmed]; decide), (Event.commands_beginDrive _ _ _ _).records, Event.beginDrive_nv _ _ _ _⟩

/-- The CLOSE_LATE of a press, as the write it is (R121). -/
theorem Event.commit_closeLate (u : State) (o : Origin) :
    ((Event.begin u o).press .late).commit .supply = u.withWrite u.nv .supply o [.closeLate] [] none :=
  Event.commitSetting_eq ((Event.begin u o).press .late) .supply none none u rfl rfl

theorem Event.commit_closeLate_answer (u : State) (o : Origin) (p : Port) (status : Status) :
    (((Event.begin u o).press .late).andThen (.answer p status [])).commit .supply =
      u.withWrite u.nv .supply o [.closeLate] [.answer p status []] none :=
  Event.commitSetting_eq (((Event.begin u o).press .late).andThen (.answer p status [])) .supply none none u rfl rfl

/-- The waiting of a press whose write may not begin yet. -/
theorem State.takes_closeLate {s u : State} (hw : u.writes = s.writes) (i : Instr) (n : Nv) (o : Origin)
    (fs : List FollowUp) :
    s.takes i none (u.withWrite n .supply o [.closeLate] fs none) =
      if s.mayBegin i .supply true = false then s.waits i .supply
      else (u.withWrite n .supply o [.closeLate] fs none).leaveLine i :=
  State.takes_withWrite hw i n .supply o [.closeLate] fs none

/-! ## PRESS (R121) -/

section
variable {s : State} {r : Request} (hr : s.isRunning = true) (hreq : s.requestOf .a .press = some r)
include hr hreq

theorem execPress_eq :
    exec .press s =
      .next (s.takes .press none
        (match s.nv.judgePress with
        | .close =>
          (((Event.begin (s.takeRequest .a) .aPort).press .close).andThen (.answer .a .ok [])).commit .supply
        | .late =>
          (((Event.begin (s.takeRequest .a) .aPort).press .late).andThen (.answer .a .lapsed [])).commit .supply
        | .unlisted => (s.answerByte .a (s.pressStatus .unlisted) []).countChoice
        | r => s.answerByte .a (s.pressStatus r) [])) := by
  change execPress s = _
  simp only [execPress, whenRunning_of_running _ _ hr, hreq] <;> rfl

/-- A press that changes nothing is answered at once. -/
theorem execPress_of_answered {status : Status} {result : PressResult} (hj : s.nv.judgePress = result)
    (hresult : result = .held ∨ result = .noAction ∨ result = .fault) (hstatus : s.pressStatus result = status.byte) :
    exec .press s = .next ((s.answer .a status []).leaveLine .press) := by
  rw [execPress_eq hr hreq, hj]
  have hwrites : s.takes .press none (s.answerByte .a status.byte []) =
      (s.answerByte .a status.byte []).leaveLine .press :=
    State.takes_of_writes _ (by exact State.answer_writes s .a status [])
  rw [← hstatus] at hwrites
  rcases hresult with rfl | rfl | rfl <;> exact congrArg _ (hwrites.trans (by rw [hstatus]; rfl))

theorem execPress_of_late (hj : s.nv.judgePress = .late) :
    exec .press s =
      .next
        (if s.mayBegin .press .supply true = false then s.waits .press .supply
        else
          ((s.takeRequest .a).withWrite s.nv .supply .aPort [.closeLate] [.answer .a .lapsed []] none).leaveLine
            .press) := by
  rw [execPress_eq hr hreq, hj]
  dsimp only
  rw [Event.commit_closeLate_answer, State.takes_closeLate (by rfl)]
  rfl

end

/-! ## The button (R120) -/

/-- The button in PRESSED. -/
def State.pressButton (s : State) : State := { s with supply := { s.supply with buttonPressed := true } }

section
variable {s : State} (hr : s.isRunning = true)
include hr

theorem execButtonPress_of_pressed (hb : s.supply.buttonPressed = true) :
    exec .buttonPress s = .next (s.leaveLine .buttonPress) := by
  change execButtonPress s = _
  simp only [execButtonPress, whenRunning_of_running _ _ hr, hb, if_true]
  exact congrArg _ (State.takes_of_writes _ (by rfl))

theorem execButtonPress_of_released (hb : s.supply.buttonPressed = false) :
    exec .buttonPress s =
      .next (s.takes .buttonPress none
        (if s.nv.judgePress.writes then
          ((Event.begin s.pressButton .button).press s.nv.judgePress).commit .supply
        else s.pressButton)) := by
  change execButtonPress s = _
  simp only [execButtonPress, whenRunning_of_running _ _ hr, hb, Bool.false_eq_true, if_false]
  rfl

theorem execButtonPress_of_nothing (hb : s.supply.buttonPressed = false) (hj : s.nv.judgePress.writes = false) :
    exec .buttonPress s = .next (s.pressButton.leaveLine .buttonPress) := by
  rw [execButtonPress_of_released hr hb, if_neg (by simp [hj])]
  exact congrArg _ (State.takes_of_writes _ (by rfl))

end

/-- A press in a state that waits for an opening or rests open is judged by the lapse marker and the list (R121). -/
theorem Nv.judgePress_of_open {n : Nv} (hc : n.contactor = .opened ∨ n.contactor = .opening ∨ n.contactor = .breakWait) :
    n.judgePress =
      if n.lapseMarker = true then .late
      else if n.holds.isEmpty = true then (if n.contactor = .opening then .noAction else .unlisted) else .held := by
  rcases hc with hc | hc | hc <;> simp only [Nv.judgePress, hc] <;> rfl

theorem pressIsJudged_request {s : State} {r : Request} (hr : s.isRunning = true)
    (hreq : s.requestOf .a .press = some r)
    (hc : s.nv.contactor = .opened ∨ s.nv.contactor = .opening ∨ s.nv.contactor = .breakWait) :
    if s.nv.lapseMarker = true then
      exec .press s =
        .next
          (if s.mayBegin .press .supply true = false then s.waits .press .supply
          else
            ((s.takeRequest .a).withWrite s.nv .supply .aPort [.closeLate] [.answer .a .lapsed []] none).leaveLine
              .press)
    else if s.nv.holds.isEmpty = false then exec .press s = .next ((s.answer .a .held []).leaveLine .press)
    else s.nv.contactor = .opening → exec .press s = .next ((s.answer .a .noAction []).leaveLine .press) := by
  have hj := Nv.judgePress_of_open hc
  split
  · next hm => exact execPress_of_late hr hreq (by rw [hj, if_pos hm])
  next hm =>
  split
  · next he => exact execPress_of_answered hr hreq (by rw [hj, if_neg hm, if_neg (by simp [he])]) (.inl rfl) rfl
  next he =>
  intro ho
  exact execPress_of_answered hr hreq (by rw [hj, if_neg hm, if_pos (by simpa using he), if_pos ho]) (.inr (.inl rfl)) rfl

theorem pressIsJudged_button {s : State} (hr : s.isRunning = true) (hb : s.supply.buttonPressed = false)
    (hc : s.nv.contactor = .opened ∨ s.nv.contactor = .opening ∨ s.nv.contactor = .breakWait) :
    exec .buttonPress s =
      .next
        (if s.nv.lapseMarker = false then s.pressButton.leaveLine .buttonPress
        else if s.mayBegin .buttonPress .supply true = false then s.waits .buttonPress .supply
        else (s.pressButton.withWrite s.nv .supply .button [.closeLate] [] none).leaveLine .buttonPress) := by
  have hj := Nv.judgePress_of_open hc
  cases hm : s.nv.lapseMarker with
  | false =>
    refine execButtonPress_of_nothing hr hb ?_
    rw [hj, hm]
    simp only [Bool.false_eq_true, if_false]
    split
    · split <;> rfl
    · rfl
  | true =>
    rw [execButtonPress_of_released hr hb, hj, if_pos hm]
    change Host.Outcome.next
      (s.takes .buttonPress none (((Event.begin s.pressButton .button).press .late).commit .supply)) = _
    rw [Event.commit_closeLate, State.takes_closeLate (by rfl)]
    rfl

/-- Settles O36, by the contactor state that the press finds. -/
theorem pressIsJudged : Obligations.PressIsJudged := by
  refine ⟨fun s r hr hreq => ?_, fun s hr hb => ?_, fun s hr hb => execButtonPress_of_pressed hr hb, fun s hr => ?_⟩
  · cases hc : s.nv.contactor with
    | closed | closing =>
      exact execPress_of_answered hr hreq (by rw [Nv.judgePress, hc]) (.inr (.inl rfl)) rfl
    | welded | stuckOpen =>
      exact execPress_of_answered hr hreq (by rw [Nv.judgePress, hc]) (.inr (.inr rfl)) rfl
    | opened | opening | breakWait =>
      have h := pressIsJudged_request hr hreq (by simp [hc])
      rw [hc] at h
      exact h
    | armed =>
      let e := (Event.begin (s.takeRequest .a) .aPort).giveClose .aPort
      obtain ⟨hcommanded, hrecords, hnv⟩ := Event.giveClose_spec (s.takeRequest .a) hc .aPort .aPort
      have hin : (Event.begin (s.takeRequest .a) .aPort).Within (e.andThen (.answer .a .ok [])) :=
        (Event.within_giveClose _ _).trans (e.within_andThen _)
      obtain ⟨-, hwrite, hstate, -⟩ := hin.written .press
      have hexec : exec .press s = .next (s.takes .press none ((e.andThen (.answer .a .ok [])).commit .supply)) := by
        rw [execPress_eq hr hreq, show s.nv.judgePress = .close by rw [Nv.judgePress, hc]]
        rfl
      dsimp only
      rw [hexec, Event.takes_commit_plain (by exact hin.writes) (by exact hrecords)]
      split
      · rfl
      · exact ⟨_, rfl, ((e.sameSupply_answered .a .ok [] .press).commanded _ _).mpr hcommanded,
          (Event.image_of_noRecords _ hrecords).trans hnv, e.answer_mem_follow .a .ok [] .press, hwrite, hstate⟩
  · dsimp only
    cases hc : s.nv.contactor with
    | closed | closing | welded | stuckOpen =>
      exact execButtonPress_of_nothing hr hb (by rw [Nv.judgePress, hc]; rfl)
    | opened | opening | breakWait => exact pressIsJudged_button hr hb (by simp [hc])
    | armed =>
      let e := (Event.begin s.pressButton .button).giveClose .button
      obtain ⟨hcommanded, hrecords, hnv⟩ := Event.giveClose_spec s.pressButton hc .button .button
      have hin : (Event.begin s.pressButton .button).Within e := Event.within_giveClose _ _
      obtain ⟨-, hwrite, hstate, -⟩ := hin.written .buttonPress
      have hexec : exec .buttonPress s = .next (s.takes .buttonPress none (e.commit .supply)) := by
        rw [execButtonPress_of_released hr hb, show s.nv.judgePress = .close by rw [Nv.judgePress, hc]]
        rfl
      dsimp only
      rw [hexec, Event.takes_commit_plain (by exact hin.writes) (by exact hrecords)]
      split
      · rfl
      · exact ⟨_, rfl, ((Event.sameSupply_commit e .supply .buttonPress).commanded _ _).mpr hcommanded,
          (Event.image_of_noRecords _ hrecords).trans hnv, hwrite, hstate⟩
  · change execButtonRelease s = _
    simp only [execButtonRelease, ifRunning_of_running _ hr]

end Sys2Proof.Machine
end

