-- ==== Sys2Proof/Laws/SupplyOver.lean ====
section
namespace Sys2Proof.Machine

/-! ## An event that goes on from another

What an event of the supply controller changes does not depend on the records and the follow-ups already collected, nor
on the journal, the writes on their way and the events that wait at the journal. -/

/-- The event `e` as it stands where `b` has collected its records and follow-ups before it. -/
def Event.over (e b : Event) : Event :=
  { e with
    low := b.low, records := b.records ++ e.records, follow := b.follow ++ e.follow
    state :=
      { e.state with
        nv := { e.state.nv with journal := b.nv.journal }
        writes := b.state.writes, journalWaiting := b.state.journalWaiting } }

section
variable (e b : Event)

@[simp] theorem Event.over_nv : (e.over b).nv = { e.nv with journal := b.nv.journal } := rfl
@[simp] theorem Event.over_supply : (e.over b).state.supply = e.state.supply := rfl
@[simp] theorem Event.over_clock : (e.over b).state.clock = e.state.clock := rfl
@[simp] theorem Event.over_records : (e.over b).records = b.records ++ e.records := rfl
@[simp] theorem Event.over_follow : (e.over b).follow = b.follow ++ e.follow := rfl

@[simp] theorem Event.over_log (r : RecordBody) : (e.over b).log r = (e.log r).over b := by
  simp [Event.over, Event.log]

@[simp] theorem Event.over_andThen (f : FollowUp) : (e.over b).andThen f = (e.andThen f).over b := by
  simp [Event.over, Event.andThen]

@[simp] theorem Event.over_notify (k : NoticeKind) : (e.over b).notify k = (e.notify k).over b := e.over_andThen b _

@[simp] theorem Event.over_updateDriver (f : DriverUnit → DriverUnit) :
    (e.over b).updateDriver f = (e.updateDriver f).over b := rfl

/-- A change of the stored state that leaves the journal alone. -/
theorem Event.over_updateNv {f : Nv → Nv} (hf : ∀ n j, f { n with journal := j } = { f n with journal := j }) :
    (e.over b).updateNv f = (e.updateNv f).over b := by
  have := hf e.state.nv b.nv.journal
  simp only [Event.over, Event.updateNv, this]

theorem Event.over_ite {a d : Event} (c : Prop) [Decidable c] :
    (if c then a.over b else d.over b) = (if c then a else d).over b := by
  split <;> rfl

@[simp] theorem Event.over_dropArmDeadline : (e.over b).dropArmDeadline = e.dropArmDeadline.over b :=
  e.over_updateNv b fun _ _ => rfl

@[simp] theorem Event.over_enter (c : Contactor) : (e.over b).enter c = (e.enter c).over b := by
  simp (disch := exact fun _ _ => rfl) only [Event.enter, Event.over_nv, Event.over_updateDriver, Event.over_updateNv,
    Event.over_notify, Event.over_ite]

@[simp] theorem Event.over_beginDrive (d : Position) (c : DriveCause) (o : Origin) :
    (e.over b).beginDrive d c o = (e.beginDrive d c o).over b := by
  simp (disch := exact fun _ _ => rfl) only [Event.beginDrive, Event.over_updateDriver, Event.over_updateNv,
    Event.over_enter]
  rfl

@[simp] theorem Event.over_commandForFirm (k : HoldKind) :
    (e.over b).commandForFirm k = (e.commandForFirm k).over b := by
  simp only [Event.commandForFirm, Event.over_nv, Event.over_supply, Event.giveWait, Event.giveOpen, Event.over_enter,
    Event.over_beginDrive]
  cases e.nv.contactor <;> simp only [Event.over_ite]

@[simp] theorem Event.over_commandForEmptied (p : Policy) :
    (e.over b).commandForEmptied p = (e.commandForEmptied p).over b := by
  simp (disch := exact fun _ _ => rfl) only [Event.commandForEmptied, Event.armBy, Event.over_nv, Event.giveResume,
    Event.giveClose, Event.giveArm, Event.over_clock, Event.over_enter, Event.over_dropArmDeadline,
    Event.over_updateNv, Event.over_beginDrive]
  cases e.nv.contactor <;> cases p <;> rfl

@[simp] theorem Event.over_place (k : HoldKind) (phase : HoldPhase) (byRequest : Bool) (restore : Nat) :
    (e.over b).place k phase byRequest restore = (e.place k phase byRequest restore).over b := by
  simp (disch := exact fun _ _ => rfl) only [Event.place, Event.giveDisarm, Event.over_nv, Event.over_updateNv,
    Event.over_log, Event.over_dropArmDeadline, Event.over_enter, Event.over_commandForFirm, Event.over_ite]

@[simp] theorem Event.over_makeFirm (k : HoldKind) (left : PhaseName) (cause : FirmCause) :
    (e.over b).makeFirm k left cause = (e.makeFirm k left cause).over b := by
  simp (disch := exact fun _ _ => rfl) only [Event.makeFirm, Event.over_updateNv, Event.over_log,
    Event.over_commandForFirm]

@[simp] theorem Event.over_remove (k : HoldKind) (cause : RemovalCause) (named : Option Policy) (policy : Policy) :
    (e.over b).remove k cause named policy = (e.remove k cause named policy).over b := by
  simp (disch := exact fun _ _ => rfl) only [Event.remove, Event.giveResume, Event.over_nv, Event.over_updateNv,
    Event.over_log, Event.over_enter, Event.over_commandForEmptied, Event.over_ite]
  cases e.nv.holds.phase k <;> rfl

theorem Event.over_graceReached (clock : Nat) (k : HoldKind) :
    (e.over b).graceReached clock k = (e.graceReached clock k).over b := by
  simp only [Event.graceReached, Event.over_nv, Event.over_makeFirm, Event.over_ite]
  cases e.nv.holds.graceDeadline k <;> rfl

theorem Event.over_restoreReached (clock : Nat) :
    (e.over b).restoreReached clock = (e.restoreReached clock).over b := by
  simp only [Event.restoreReached, Event.over_nv, Event.over_remove, Event.over_ite]
  cases e.nv.holds.load <;> rfl

theorem Event.over_armReached (clock : Nat) : (e.over b).armReached clock = (e.armReached clock).over b := by
  simp (disch := exact fun _ _ => rfl) only [Event.armReached, Event.giveDisarm, Event.over_nv, Event.over_log,
    Event.over_dropArmDeadline, Event.over_enter, Event.over_updateNv, Event.over_place, Event.over_ite]
  cases e.nv.armDeadline <;> rfl

end

end Sys2Proof.Machine
end

