-- ==== Sys2Proof/Laws/DeadlineMoves.lean ====
section
namespace Sys2Proof.Machine

/-! ## The moves of the deadlines (R105, R109, R119) -/

/-- What a reached deadline does, of the deadlines that `reached` finds: a move with a record, which leaves all but the
stored state and the driver, and nothing where none is reached. -/
structure DeadlineMove (f : Event → Event) (reached : Nv → Bool) : Prop where
  commutes : ∀ e b : Event, f (e.over b) = (f e).over b
  origin : ∀ e : Event, (f e).origin = e.origin
  frame : ∀ e : Event, (f e).state.withStoreOf e.state = e.state
  stays : ∀ e : Event, reached e.nv = false → f e = e
  records : ∀ e : Event, reached e.nv = true → (f e).records ≠ []

theorem deadlineMove_graceReached (clock : Nat) (k : HoldKind) :
    DeadlineMove (fun e => e.graceReached clock k) (fun n => n.holds.inGrace (fun d => d ≤ clock) k) where
  commutes e b := e.over_graceReached b clock k
  origin e := (e.within_graceReached clock k).origin
  frame e := (e.within_graceReached clock k).state
  stays e h := by rw [Event.graceReached_eq, if_neg (by simpa using h)]
  records e h := by
    rw [Event.graceReached_eq, if_pos h, Event.makeFirm_records]
    simp

theorem deadlineMove_restoreReached (clock : Nat) :
    DeadlineMove (fun e => e.restoreReached clock) (fun n => n.holds.load.any (fun d => decide (d ≤ clock))) where
  commutes e b := e.over_restoreReached b clock
  origin e := (e.within_restoreReached clock).origin
  frame e := (e.within_restoreReached clock).state
  stays e h := by
    unfold Event.restoreReached
    cases hl : e.nv.holds.load with
    | none => rfl
    | some d => exact if_neg (by simpa [hl] using h)
  records e h := by
    unfold Event.restoreReached
    cases hl : e.nv.holds.load with
    | none => simp [hl] at h
    | some d =>
      have hphase : e.nv.holds.phase .load = some .firm := by simp [HoldList.phase, hl]
      dsimp only
      rw [if_pos (by simpa [hl] using h), Event.remove_records _ hphase]
      simp

/-- A lapse, without the record of the arming and with the arm deadline gone (R119). -/
def Event.lapse (e : Event) : Event :=
  ((if e.nv.contactor = .armed then e.giveDisarm else e).updateNv (fun n => { n with lapseMarker := true })).place .remote
    .firm false 0

theorem Event.armReached_of_reached {e : Event} {clock : Nat} {a : ArmDeadline} (ha : e.nv.armDeadline = some a)
    (hle : a.deadline ≤ clock) :
    e.armReached clock = ((e.log (.armLapsed a.deadline a.minutes)).dropArmDeadline).lapse := by
  unfold Event.armReached
  rw [ha]
  exact if_pos hle

theorem Event.lapse_records (e : Event) : e.lapse.records = e.records ++ [.holdPlaced .remote .firm none none] := by
  rw [Event.lapse, Event.place_records]
  split
  · exact congrArg (· ++ _) (Event.commands_giveDisarm e).records
  · rfl

theorem Event.lapse_origin (e : Event) : e.lapse.origin = e.origin := by
  have hdisarm : e.Within (if e.nv.contactor = .armed then e.giveDisarm else e) :=
    Event.within_ite _ _ _ _ e.within_giveDisarm (.refl e)
  exact (Event.within_place _ _ _ _ _).origin.trans hdisarm.origin

theorem deadlineMove_armReached (clock : Nat) :
    DeadlineMove (fun e => e.armReached clock) (fun n => n.armDeadline.any (fun a => decide (a.deadline ≤ clock))) where
  commutes e b := e.over_armReached b clock
  origin e := by
    cases ha : e.nv.armDeadline with
    | none => simp only [Event.armReached, ha]
    | some a =>
      by_cases hle : a.deadline ≤ clock
      · rw [Event.armReached_of_reached ha hle]
        exact Event.lapse_origin _
      · simp only [Event.armReached, ha, if_neg hle]
  frame e := e.frame_armReached clock
  stays e h := by
    unfold Event.armReached
    cases ha : e.nv.armDeadline with
    | none => rfl
    | some a => exact if_neg (by simpa [ha] using h)
  records e h := by
    cases ha : e.nv.armDeadline with
    | none => simp [ha] at h
    | some a =>
      rw [Event.armReached_of_reached ha (by simpa [ha] using h), Event.lapse_records]
      simp

/-! ## One event after another -/

/-- The event as it would begin where it now stands, its write stored. -/
def Event.restart (e : Event) : Event :=
  Event.begin { e.state with nv := e.image, writes := [], journalWaiting := [] } e.origin

theorem Event.over_restart (e : Event) : e.restart.over e = e := by
  simp [Event.restart, Event.over, Event.begin, Event.image, Event.nv]

namespace DeadlineMove
variable {f : Event → Event} {reached : Nv → Bool} (hf : DeadlineMove f reached)
include hf

theorem eq_over_restart (e : Event) : f e = (f e.restart).over e := by
  rw [← hf.commutes, e.over_restart]

theorem journal (e : Event) : (f e).nv.journal = e.nv.journal := by
  rw [hf.eq_over_restart]
  rfl

theorem writes (e : Event) : (f e).state.writes = e.state.writes := by
  rw [hf.eq_over_restart]
  rfl

theorem records_mono {e : Event} (h : e.records ≠ []) : (f e).records ≠ [] := by
  rw [hf.eq_over_restart]
  simp [h]

theorem clock (e : Event) : (f e).state.clock = e.state.clock := by
  have := congrArg State.clock (hf.frame e)
  exact this

/-- Two events one after the other store what the one that is both of them stores. -/
theorem image_restart (e : Event) : (f e.restart).image = (f e).image := by
  have hjournal : (f e.restart).journal = (f e).journal := by
    calc (f e.restart).journal
      _ = e.journal.appendAll e.state.clock e.origin (f e.restart).records := by
          rw [Event.journal, hf.journal, hf.clock, hf.origin]
          rfl
      _ = e.nv.journal.appendAll e.state.clock e.origin (e.records ++ (f e.restart).records) :=
          (Journal.appendAll_append _ _ _ _ _).symm
      _ = (f e).journal := by
          rw [Event.journal, hf.journal, hf.clock, hf.origin, hf.eq_over_restart e]
          rfl
  rw [Event.image, Event.image, hjournal, hf.eq_over_restart e]
  rfl

end DeadlineMove

/-- What a command does to a state with nothing on its way. -/
def State.alone (c : Instr) (x : State) : State :=
  match exec c { x with writes := [], journalWaiting := [] } with
  | .next y => y
  | _ => x

/-- What the commands of the deadlines leave one after another, from `u` to `r`, is where the clock-set event from `u`
stands at `e`. -/
structure Event.Ran (u : State) (e : Event) (r : State) : Prop where
  alike : { r with writes := [], journalWaiting := [] } = e.restart.state
  origin : e.origin = .device
  frame : e.state.withStoreOf u = u
  writes : e.state.writes = u.writes

theorem Event.ran_begin (u : State) : (Event.begin u .device).Ran u u where
  alike := rfl
  origin := rfl
  frame := rfl
  writes := rfl

theorem Event.Ran.step {u r : State} {e : Event} {f : Event → Event} {reached : Nv → Bool} {c : Instr}
    (h : Event.Ran u e r) (hf : DeadlineMove f reached)
    (hexec : ∀ x : State, x.isRunning = u.isRunning → x.clock = u.clock →
      exec c x = .next (x.takes c none ((f (Event.begin x .device)).commitSupply x.nv))) :
    Event.Ran u (f e) (r.alone c) ∧ ∀ k, k ≠ .journalLow → k ≠ .journalFull →
      (.notice k ∈ (f e).follow ↔ .notice k ∈ e.follow ∨ .notice k ∈ (r.alone c).newestFollow) := by
  let x := { r with writes := [], journalWaiting := [] }
  have hx : Event.begin x .device = e.restart := by
    rw [show x = e.restart.state from h.alike, ← h.origin]
    rfl
  have hrun : x.isRunning = u.isRunning ∧ x.clock = u.clock := by
    rw [show x = e.restart.state from h.alike]
    have hpower := congrArg State.isRunning h.frame
    have hclock := congrArg State.clock h.frame
    exact ⟨hpower, hclock⟩
  have hrest : r.alone c = ((f e.restart).commitSupply x.nv).leaveLine c := by
    rw [State.alone, hexec x hrun.1 hrun.2, hx]
    exact State.takes_of_idle rfl rfl _ _ _
  cases hr : reached e.restart.nv with
  | false =>
    have hstays : f e = e := by rw [hf.eq_over_restart, hf.stays _ hr, e.over_restart]
    have halone : r.alone c = x := by
      have hsame : (Event.begin x .device).commitSupply x.nv = x := if_pos ⟨rfl, rfl, rfl⟩
      rw [hrest, hf.stays _ hr, ← hx, hsame]
      exact State.leaveLine_of_idle rfl c
    rw [hstays, halone]
    exact ⟨⟨h.alike, h.origin, h.frame, h.writes⟩, fun k _ _ => ⟨.inl, fun hk => hk.resolve_right List.not_mem_nil⟩⟩
  | true =>
    have halone : r.alone c = ((f e.restart).commit .supply).leaveLine c := by
      rw [hrest, Event.commitSupply, if_neg]
      simp [hf.records _ hr]
    rw [halone]
    refine ⟨⟨?_, (hf.origin e).trans h.origin, State.withStoreOf_trans h.frame (hf.frame e), (hf.writes e).trans h.writes⟩,
      fun k hl hk => ?_⟩
    · have hstate : (f e).state = ((f e.restart).over e).state := congrArg Event.state (hf.eq_over_restart e)
      change { (f e.restart).state with nv := (f e.restart).image, writes := [], journalWaiting := [] } =
        { (f e).state with nv := (f e).image, writes := [], journalWaiting := [] }
      rw [hf.image_restart, hstate]
      rfl
    · rw [Event.mem_commit_follow _ _ _ (by simp [hl, hk]), hf.eq_over_restart e]
      simp

end Sys2Proof.Machine
end

