-- ==== Sys2Proof/Proofs/DeadlinesReached.lean ====
section
namespace Sys2Proof.Machine

/-- The write of an event that has changed the store and the driver alone. -/
theorem Event.commit_frame {s : State} {e : Event} (h : e.state.withStoreOf s = s) (b : Block) (i : Instr) :
    ((e.commit b).leaveLine i).withStoreOf s = s.leaveLine i := congrArg (State.leaveLine · i) h

theorem Event.commit_driver (e : Event) (b : Block) (i : Instr) :
    ((e.commit b).leaveLine i).driver = e.state.driver := rfl

/-! ## The lapse of an arming (R119) -/

theorem execArmDeadline_eq {s : State} (hr : s.isRunning = true) :
    exec .armDeadline s =
      .next (s.takes .armDeadline none (((Event.begin s .device).armReached s.clock).commitSupply s.nv)) := by
  change execArmDeadline s = _
  rw [execArmDeadline, whenRunning_of_running _ _ hr]

/-- Nothing is commanded while the contactor is OPEN (R114). -/
theorem Event.place_of_opened {e : Event} (h : e.nv.contactor = .opened) (k : HoldKind) (phase : HoldPhase) (b : Bool)
    (restore : Nat) : e.place k phase b restore = e.join k phase b restore := by
  have hcommand : (e.join k phase b restore).commandForFirm k = e.join k phase b restore := by
    simp only [Event.commandForFirm, Event.join_nv, h]
  rw [Event.place_eq, if_neg (by rw [h]; decide), hcommand, ite_self]

/-- A lapse in ARMED returns the contactor to OPEN and leaves the driver and its watch as they are. -/
theorem Event.lapse_of_armed {e : Event} (hc : e.nv.contactor = .armed) :
    e.lapse.nv =
        { e.nv with
          armDeadline := none, contactor := .opened, lapseMarker := true
          holds := { e.nv.holds with remote := some { phase := .firm, byRequest := false } } } ∧
      e.lapse.state.driver = e.state.driver ∧ .notice .supplyChanged ∈ e.lapse.follow := by
  let d := e.giveDisarm.updateNv (fun n => { n with lapseMarker := true })
  have hnv : e.giveDisarm.nv = { e.nv with armDeadline := none, contactor := .opened } := Event.enter_nv _ _
  have hopened : d.nv.contactor = .opened := congrArg Nv.contactor hnv
  have hlapse : e.lapse = d.join .remote .firm false 0 := by
    rw [Event.lapse, if_pos hc]
    exact Event.place_of_opened hopened _ _ _ _
  have hwatch : e.giveDisarm.state.driver = e.state.driver := by
    have hcon : e.dropArmDeadline.nv.contactor = .armed := hc
    rw [Event.giveDisarm, Event.enter_driver, hcon]
    simp [Contactor.watched, Event.dropArmDeadline]
  rw [hlapse]
  refine ⟨?_, hwatch, ?_⟩
  · rw [Event.join_nv]
    change ({ e.giveDisarm.nv with
      lapseMarker := true, holds := e.giveDisarm.nv.holds.place .remote .firm false 0 } : Nv) = _
    rw [hnv]
    rfl
  · change .notice .supplyChanged ∈ e.giveDisarm.follow
    rw [Event.giveDisarm, Event.enter_follow]
    simp [Contactor.announced]

/-! ## The clock-set event (R112) -/

/-- The stored state with the supply controller's deadlines limited to a clock value (R112). -/
def Nv.limitedTo (n : Nv) (clock : Nat) : Nv :=
  (let limit : HoldPhase → HoldPhase := fun p =>
    match p with
    | .grace d => .grace (min d (clock + n.settings.graceTime))
    | p => p
  { n with
    holds :=
      { n.holds with
        credit := n.holds.credit.map limit
        remote := n.holds.remote.map (fun r => { r with phase := limit r.phase })
        load := n.holds.load.map (fun d => min d (clock + 60 * n.settings.loadRestoreDelay)) }
    armDeadline := n.armDeadline.map (fun a => { a with deadline := min a.deadline (clock + 60 * a.minutes) }) })

theorem Event.limitDeadlines_nv (e : Event) (clock : Nat) : (e.limitDeadlines clock).nv = e.nv.limitedTo clock := by
  have hholds : e.nv.holds.limited clock e.nv.settings.graceTime (60 * e.nv.settings.loadRestoreDelay) =
      (e.nv.limitedTo clock).holds := e.nv.holds.limited_eq clock _ _ fun _ => rfl
  have harm : e.nv.armDeadline.map (fun a => { a with deadline := limitDeadline clock (60 * a.minutes) a.deadline }) =
      (e.nv.limitedTo clock).armDeadline := by
    simp only [limitDeadline_eq, Nv.limitedTo]
  change ({ e.nv with
    holds := e.nv.holds.limited clock e.nv.settings.graceTime (60 * e.nv.settings.loadRestoreDelay)
    armDeadline := e.nv.armDeadline.map
      (fun a => { a with deadline := limitDeadline clock (60 * a.minutes) a.deadline }) } : Nv) = _
  rw [hholds, harm]
  rfl

/-- The limits are no matter of the journal. -/
theorem Event.limitDeadlines_image (e : Event) (clock : Nat) :
    (e.limitDeadlines clock).image = e.image.limitedTo clock := by
  have hjournal : (e.limitDeadlines clock).journal = e.journal := rfl
  rw [Event.image, hjournal, e.limitDeadlines_nv]
  rfl

/-- The deadlines of the supply controller that a clock value has reached, taken one after another (R112). -/
def Event.deadlinesReached (e : Event) (clock : Nat) : Event :=
  (((e.graceReached clock .credit).graceReached clock .remote).armReached clock).restoreReached clock

/-- A deadline of the supply controller that a clock value has reached. -/
def Nv.anyReached (n : Nv) (clock : Nat) : Bool :=
  n.holds.inGrace (fun d => d ≤ clock) .credit || n.holds.inGrace (fun d => d ≤ clock) .remote ||
    n.armDeadline.any (fun a => decide (a.deadline ≤ clock)) || n.holds.load.any (fun d => decide (d ≤ clock))

/-- With no deadline reached nothing is done; with one reached the event has a record. -/
theorem Event.deadlinesReached_cases (e : Event) (clock : Nat) :
    if e.nv.anyReached clock = true then (e.deadlinesReached clock).records ≠ [] else e.deadlinesReached clock = e := by
  have hcredit := deadlineMove_graceReached clock .credit
  have hremote := deadlineMove_graceReached clock .remote
  have harm := deadlineMove_armReached clock
  have hload := deadlineMove_restoreReached clock
  cases h₁ : e.nv.holds.inGrace (fun d => d ≤ clock) .credit with
  | true =>
    rw [if_pos (by simp [Nv.anyReached, h₁])]
    exact hload.records_mono (harm.records_mono (hremote.records_mono (hcredit.records e h₁)))
  | false =>
  have same₁ := hcredit.stays e h₁
  cases h₂ : e.nv.holds.inGrace (fun d => d ≤ clock) .remote with
  | true =>
    rw [if_pos (by simp [Nv.anyReached, h₂]), Event.deadlinesReached, same₁]
    exact hload.records_mono (harm.records_mono (hremote.records e h₂))
  | false =>
  have same₂ := hremote.stays e h₂
  cases h₃ : e.nv.armDeadline.any (fun a => decide (a.deadline ≤ clock)) with
  | true =>
    rw [if_pos (by simp [Nv.anyReached, h₃]), Event.deadlinesReached, same₁, same₂]
    exact hload.records_mono (harm.records e h₃)
  | false =>
  have same₃ := harm.stays e h₃
  cases h₄ : e.nv.holds.load.any (fun d => decide (d ≤ clock)) with
  | true =>
    rw [if_pos (by simp only [Nv.anyReached, h₄, Bool.or_true]), Event.deadlinesReached, same₁, same₂, same₃]
    exact hload.records e h₄
  | false =>
    rw [if_neg (by simp only [Nv.anyReached, h₁, h₂, h₃, h₄]; decide), Event.deadlinesReached, same₁, same₂, same₃]
    exact hload.stays e h₄

/-- What the deadlines reached by the clock do in one event is what their commands do one after another. -/
theorem State.deadlinesReached_ran {u : State} (hr : u.isRunning = true) :
    let r1 := u.alone (.graceDeadline .credit)
    let r2 := r1.alone (.graceDeadline .remote)
    let r3 := r2.alone .armDeadline
    let r4 := r3.alone .restoreTime
    Event.Ran u ((Event.begin u .device).deadlinesReached u.clock) r4 ∧ ∀ k, k ≠ .journalLow → k ≠ .journalFull →
      (.notice k ∈ ((Event.begin u .device).deadlinesReached u.clock).follow ↔
        ∃ x ∈ [r1, r2, r3, r4], .notice k ∈ x.newestFollow) := by
  intro r1 r2 r3 r4
  have hgrace (k : HoldKind) (x : State) (hx : x.isRunning = u.isRunning) (hc : x.clock = u.clock) :
      exec (.graceDeadline k) x = .next (x.takes (.graceDeadline k) none
        (((Event.begin x .device).graceReached u.clock k).commitSupply x.nv)) := by
    change execGraceDeadline k x = _
    rw [execGraceDeadline, whenRunning_of_running _ _ (hx.trans hr), hc]
  have harm (x : State) (hx : x.isRunning = u.isRunning) (hc : x.clock = u.clock) :
      exec .armDeadline x = .next (x.takes .armDeadline none
        (((Event.begin x .device).armReached u.clock).commitSupply x.nv)) := by
    rw [execArmDeadline_eq (hx.trans hr), hc]
  have hload (x : State) (hx : x.isRunning = u.isRunning) (hc : x.clock = u.clock) :
      exec .restoreTime x = .next (x.takes .restoreTime none
        (((Event.begin x .device).restoreReached u.clock).commitSupply x.nv)) := by
    change execRestoreTime x = _
    rw [execRestoreTime, whenRunning_of_running _ _ (hx.trans hr), hc]
  obtain ⟨ran₁, notices₁⟩ := (Event.ran_begin u).step (deadlineMove_graceReached u.clock .credit) (hgrace .credit)
  obtain ⟨ran₂, notices₂⟩ := ran₁.step (deadlineMove_graceReached u.clock .remote) (hgrace .remote)
  obtain ⟨ran₃, notices₃⟩ := ran₂.step (deadlineMove_armReached u.clock) harm
  obtain ⟨ran₄, notices₄⟩ := ran₃.step (deadlineMove_restoreReached u.clock) hload
  refine ⟨ran₄, fun k hl hk => ?_⟩
  rw [Event.deadlinesReached, notices₄ k hl hk, notices₃ k hl hk, notices₂ k hl hk, notices₁ k hl hk]
  simp [Event.begin, or_assoc, r1, r2, r3, r4]

/-- The write of the clock-set event, once the deadlines that are left are limited as well; `s` differs from `u` in the
mark of the hand-off alone. -/
theorem Event.Ran.limited_commit {s u r : State} {e : Event} (ran : Event.Ran u e r) (hw : u.writes = s.writes)
    (hs : ∀ t : State, t.withStoreOf s = t.withStoreOf u) (clock : Nat) (i : Instr) :
    let t := ((e.limitDeadlines clock).commit .supply).leaveLine i
    s.beganWrite t .supply ∧ t.nv = r.nv.limitedTo clock ∧ t.driver = r.driver ∧ t.withStoreOf s = u.leaveLine i := by
  intro t
  have himage : e.image = r.nv := (congrArg State.nv ran.alike).symm
  have hdriver : e.state.driver = r.driver := (congrArg State.driver ran.alike).symm
  have hwrites : (e.limitDeadlines clock).state.writes = s.writes := ran.writes.trans hw
  have hframe : (e.limitDeadlines clock).state.withStoreOf u = u := ran.frame
  refine ⟨Event.beganWrite_commit hwrites _ _, ?_, (Event.commit_driver _ _ _).trans hdriver,
    (hs t).trans (Event.commit_frame hframe _ _)⟩
  rw [← himage, ← e.limitDeadlines_image]
  rfl

theorem execSupplyClockSet_eq {s : State} (hr : s.isRunning = true) (hh : s.supply.clockSetHanded = true) :
    exec .supplyClockSet s =
      (let u := { s with supply := { s.supply with clockSetHanded := false } }
      .next (s.takes .supplyClockSet none
        ((((Event.begin u .device).deadlinesReached u.clock).limitDeadlines u.clock).commitSupply u.nv))) := by
  change execSupplyClockSet s = _
  simp only [execSupplyClockSet, whenRunning_of_running _ _ hr, hh, if_true]
  rfl

/-- Settles O34: the lapse as its write, and the clock-set event as its reached deadlines followed by its limits. -/
theorem armingLapsesAndDeadlinesAreLimited : Obligations.ArmingLapsesAndDeadlinesAreLimited := by
  refine ⟨fun s a hr ha hle hc => ?_, fun s hr hh => ?_⟩
  · let e := ((Event.begin s .device).log (.armLapsed a.deadline a.minutes)).dropArmDeadline
    obtain ⟨hnv, hdriver, hnotice⟩ := Event.lapse_of_armed (e := e) hc
    have hrecords : e.lapse.records = [.armLapsed a.deadline a.minutes, .holdPlaced .remote .firm none none] :=
      e.lapse_records
    have hmove := deadlineMove_armReached s.clock
    have hreached : (Event.begin s .device).armReached s.clock = e.lapse := Event.armReached_of_reached ha hle
    have hwrites : e.lapse.state.writes = s.writes := by
      rw [← hreached]
      exact hmove.writes _
    have hstate : e.lapse.state.withStoreOf s = s := by
      rw [← hreached]
      exact hmove.frame (Event.begin s .device)
    have hexec : exec .armDeadline s = .next (s.takes .armDeadline none (e.lapse.commit .supply)) := by
      rw [execArmDeadline_eq hr, hreached, Event.commitSupply, if_neg (by simp [hrecords])]
    rw [hexec, Event.takes_commit_of_records hwrites (by simp [hrecords])]
    split
    · rfl
    · have himage : ((e.lapse.commit .supply).leaveLine .armDeadline).nv =
          { e.lapse.nv with journal := e.lapse.journal } := rfl
      have hjournal : e.lapse.journal = s.nv.journal.appendAll s.clock .device e.lapse.records := by
        rw [← hreached, Event.journal, hmove.journal, hmove.clock, hmove.origin]
        rfl
      refine ⟨_, rfl, Event.beganWrite_commit hwrites _ _, ?_, (Event.mem_commit_follow _ _ _ (by simp)).mpr hnotice,
        Event.commit_frame hstate _ _, (e.lapse.commit_driver _ _).trans hdriver⟩
      rw [himage, hjournal, hrecords, hnv]
      rfl
  · intro i u limited reached grace anyReached alone r1 r2 r3 r4 n
    let e := (Event.begin u .device).deadlinesReached u.clock
    obtain ⟨ran, hnotices⟩ : Event.Ran u e r4 ∧ ∀ k : NoticeKind, k ≠ .journalLow → k ≠ .journalFull →
        (FollowUp.notice k ∈ e.follow ↔ ∃ x ∈ [r1, r2, r3, r4], FollowUp.notice k ∈ x.newestFollow) :=
      State.deadlinesReached_ran (u := u) hr
    have hany : anyReached = s.nv.anyReached s.clock := rfl
    have hn : n = r4.nv.limitedTo s.clock := rfl
    clear_value anyReached n r4 r3 r2 r1
    subst hany hn
    have hexec : exec i s = .next (s.takes i none ((e.limitDeadlines u.clock).commitSupply u.nv)) :=
      execSupplyClockSet_eq hr hh
    have hcases := (Event.begin u .device).deadlinesReached_cases u.clock
    cases hreached : s.nv.anyReached s.clock with
    | false =>
      have hsame : e = Event.begin u .device := by simpa [show u.nv.anyReached u.clock = false from hreached] using hcases
      have hlimits : (e.limitDeadlines u.clock).commitSupply u.nv =
          if limited s.nv = s.nv then u else u.withWrite (limited s.nv) .supply .device [] [] none := by
        rw [hsame]
        exact u.limitSupply_eq u.clock
      have hkept : limited s.nv = s.nv ↔
          (limited s.nv).holds = s.nv.holds ∧ (limited s.nv).armDeadline = s.nv.armDeadline := by
        refine ⟨fun h => by rw [h]; exact ⟨rfl, rfl⟩, fun ⟨hholds, harm⟩ => ?_⟩
        change { s.nv with holds := (limited s.nv).holds, armDeadline := (limited s.nv).armDeadline } = s.nv
        rw [hholds, harm]
      rw [if_pos rfl, hexec, hlimits, ← if_congr hkept rfl rfl]
      refine congrArg _ ?_
      split
      · exact State.takes_of_writes _ rfl
      · exact State.takes_withWrite_plain (s := s) (u := u) rfl _ _ _ _ _ _
    | true =>
      have hrecords : e.records ≠ [] := by simpa [show u.nv.anyReached u.clock = true from hreached] using hcases
      have hcommit : (e.limitDeadlines u.clock).commitSupply u.nv = (e.limitDeadlines u.clock).commit .supply :=
        if_neg fun h => hrecords (List.isEmpty_iff.mp h.1)
      have hwrites : (e.limitDeadlines u.clock).state.writes = s.writes := ran.writes
      rw [if_neg (by decide), hexec, hcommit, Event.takes_commit_of_records hwrites hrecords]
      split
      · rfl
      · obtain ⟨hwrite, hnv, hdriver, hframe⟩ := ran.limited_commit (s := s) rfl (fun _ => rfl) u.clock i
        refine ⟨_, rfl, hwrite, hnv, hdriver, hframe, fun k hl hk => ?_⟩
        rw [Event.mem_commit_follow _ _ _ (by simp [hl, hk])]
        exact hnotices k hl hk

end Sys2Proof.Machine
end
